-- ==== Sys2Proof/Word.lean ====
section
/-! DEFINITION. The plainest types of the model: a byte of a serial line, a frame's tag, a text. -/

namespace Sys2Proof

/-- One byte of a serial line (10 section 10.8). -/
abbrev Byte := BitVec 8

/-- A frame's 2-byte tag (10 section 10.1). -/
abbrev Tag := BitVec 16

/-- Text is made of 7-bit printable characters, one byte each (00 Text, 10 section 10.8). -/
abbrev Text := List Byte

/-- The 16 bytes of a desk key (R182). -/
abbrev Key := Vector Byte 16

/-- A station, 0 to 7 (00 Terms). -/
abbrev Station := Fin 8

end Sys2Proof
end

