-- ==== Sys2Proof/Syntax.lean ====
section
/-! DEFINITION. The commands of the part: one constructor of `Instr` per row of spec/opcode_table.json, and the
types of their operands.

An operand that the spec calls a name or code of a closed set, and that a request may get wrong, is an `Option`
whose `none` is a code outside the set, or a `Named` set whose `outside` says that the request also names something
outside it.  Numbers that a request may carry out of range are plain `Nat`s. -/

namespace Sys2Proof

/-- A borrower, item or staff number: value and digit count together are the key (00 Borrower and item numbers). -/
structure Number where
  value : Nat
  digits : Nat
  deriving DecidableEq, Repr

/-- The two management lines (00 How the outside reaches the LD8). -/
inductive Line where
  | uplink
  | supervisor
  deriving DecidableEq, Repr

/-- The two banks (R169). -/
inductive BankName where
  | active
  | staged
  deriving DecidableEq, Repr

/-- A request's line and tag (10 section 10.1). -/
structure Req where
  line : Line
  tag : Tag
  deriving DecidableEq, Repr

/-- The content of a REQUEST after its name code: of the request's shape, or too short, too long or otherwise not of
it (R180 step 2). -/
inductive Content (α : Type) where
  | malformed
  | shaped (p : α)
  deriving DecidableEq, Repr

/-- A set of names, and whether something outside the names was named as well. -/
structure Named (α : Type) where
  set : α
  outside : Bool
  deriving DecidableEq, Repr

/-! ### Sets and names -/

/-- Line features (R178). -/
structure FeatureSet where
  trickle : Bool
  events : Bool
  notes : Bool
  deriving DecidableEq, Repr

/-- The stored blocks of a borrower entry (03 section 3.1). -/
structure Blocks where
  admin : Bool
  lostCard : Bool
  deriving DecidableEq, Repr

/-- The override set of a staff entry: nine names (02 section 2.8). -/
structure OverrideSet where
  admin : Bool
  lostCard : Bool
  fines : Bool
  overdue : Bool
  expired : Bool
  limit : Bool
  held : Bool
  notLoanable : Bool
  renewLimit : Bool
  deriving DecidableEq, Repr

/-- The eight attention causes (R187). -/
inductive Cause where
  | journalHigh
  | journalFull
  | uplinkLost
  | note
  | printer
  | stationLost
  | clockHeld
  | bankStale
  deriving DecidableEq, Repr

/-- A set of attention causes (R187). -/
structure CauseSet where
  journalHigh : Bool
  journalFull : Bool
  uplinkLost : Bool
  note : Bool
  printer : Bool
  stationLost : Bool
  clockHeld : Bool
  bankStale : Bool
  deriving DecidableEq, Repr

/-- Check schemes of a prefix entry (02 section 2.1). -/
inductive CheckScheme where
  | none
  | w31
  | m11
  deriving DecidableEq, Repr

/-- What a matching scan is (02 section 2.1). -/
inductive CodeKind where
  | borrower
  | item
  | staff
  | ignore
  deriving DecidableEq, Repr

/-- A pattern position: a digit 0 to 9 or ANY (02 section 2.1). -/
inductive PatternPos where
  | digit (d : Fin 10)
  | any
  deriving DecidableEq, Repr

/-- Kind of a rule-matrix cell (R89). -/
inductive CellKind where
  | days
  | hours
  | none
  deriving DecidableEq, Repr

/-- Date formats (R105). -/
inductive DateFormat where
  | dmy
  | ymd
  | mdy
  deriving DecidableEq, Repr

/-- Field names of a template slot (06 section 6.1). -/
inductive FieldName where
  | today
  | now
  | borrower
  | item
  | dueDate
  | dueTime
  | count
  | notice
  | station
  | holdFor
  | pickupBy
  | flags
  deriving DecidableEq, Repr

/-- Targets of a note (10 section 10.4). -/
inductive NoteTarget where
  | supervisor
  | server
  | slips
  deriving DecidableEq, Repr

/-- What a READ_NOTE names (R186). -/
inductive ReadNoteTarget where
  | addressed
  | slips
  | other
  deriving DecidableEq, Repr

/-- The kinds of good line frame that are dropped (R175).  DESIGN CHOICE: a frame whose kind byte is none of the six kinds
counts for liveness, as every good frame does, and is dropped; R175 has no row for it (log entry 27).  `pass` is a PASS
frame that names a station, `emptyPass` one whose content is empty.  DESIGN CHOICE: the latter is dropped on every line,
and counts for liveness; the spec does not say what it does on an ACTIVE supervisor line (log entry 30). -/
inductive DroppedKind where
  | reply
  | record
  | event
  | note
  | pass
  | emptyPass
  | unlisted (kind : Byte)
  deriving DecidableEq, Repr

/-! ### Parameters of the requests -/

/-- HELLO (R178). -/
structure HelloParams where
  major : Byte
  minor : Byte
  wished : Named FeatureSet
  deriving DecidableEq, Repr

/-- READ_BORROWER, READ_ITEM (R60, R79): by number or by index. -/
inductive BankRead where
  | byNumber (bank : BankName) (number : Number)
  | byIndex (bank : BankName) (start : Nat)
  deriving DecidableEq, Repr

/-- READ_OLC (R84). -/
inductive CacheRead where
  | byNumber (item : Number)
  | byIndex (start : Nat)
  deriving DecidableEq, Repr

/-- READ_RULES (R39, R41, R111). -/
inductive RulesRead where
  | category (bank : BankName) (number : Nat)
  | itemClass (bank : BankName) (number : Nat)
  | rule (bank : BankName) (category : Nat)
  | codePosition (bank : BankName) (position : Nat)
  | staff (bank : BankName) (start : Nat)
  deriving DecidableEq, Repr

/-- READ_CALENDAR (R111). -/
inductive CalendarRead where
  | profiles (bank : BankName)
  | weekdays (bank : BankName)
  | exceptions (bank : BankName) (start : Nat)
  deriving DecidableEq, Repr

/-- READ_TEMPLATE (R126). -/
inductive TemplateRead where
  | template (bank : BankName) (number : Nat)
  | text (bank : BankName) (number : Nat)
  deriving DecidableEq, Repr

/-- PUT_BORROWER (R55). -/
structure PutBorrowerParams where
  bank : BankName
  number : Number
  category : Nat
  expiryDay : Nat
  blocks : Named Blocks
  finesOwed : Nat
  overdueItems : Nat
  loansHeld : Nat
  deriving DecidableEq, Repr

/-- DEL_BORROWER, DEL_ITEM, DEL_STAFF: a bank and a number. -/
structure BankNumber where
  bank : BankName
  number : Number
  deriving DecidableEq, Repr

/-- A bank and a position, record, template, text, profile, weekday or day number. -/
structure BankIndex where
  bank : BankName
  index : Nat
  deriving DecidableEq, Repr

/-- ADJUST_BORROWER (R59). -/
structure AdjustBorrowerParams where
  bank : BankName
  number : Number
  loansDelta : Int
  finesDelta : Int
  deriving DecidableEq, Repr

/-- PUT_ITEM (R72). -/
structure PutItemParams where
  bank : BankName
  number : Number
  itemClass : Nat
  deriving DecidableEq, Repr

/-- ADD_HOLD (R74, R75). -/
structure AddHoldParams where
  bank : BankName
  item : Number
  borrower : Number
  category : Nat
  itemClass : Nat
  placedDay : Nat
  pickupBy : Option Nat
  deriving DecidableEq, Repr

/-- CANCEL_HOLD (R76). -/
structure CancelHoldParams where
  bank : BankName
  item : Number
  borrower : Number
  deriving DecidableEq, Repr

/-- PUT_PREFIX (R38); a pattern position of `none` holds neither a digit nor ANY. -/
structure PutPrefixParams where
  bank : BankName
  position : Nat
  pattern : List (Option PatternPos)
  minLength : Nat
  maxLength : Nat
  check : Option CheckScheme
  kind : Option CodeKind
  strip : Nat
  default : Nat
  deriving DecidableEq, Repr

/-- PUT_STAFF (R41). -/
structure PutStaffParams where
  bank : BankName
  number : Number
  overrides : Named OverrideSet
  deriving DecidableEq, Repr

/-- PUT_CATEGORY (R107). -/
structure PutCategoryParams where
  bank : BankName
  category : Nat
  loanLimit : Nat
  fineLimit : Nat
  overdueLimit : Nat
  termEndDay : Option Nat
  pickupDays : Nat
  shownDigits : Nat
  deriving DecidableEq, Repr

/-- PUT_CLASS (R107). -/
structure PutClassParams where
  bank : BankName
  itemClass : Nat
  loanable : Bool
  fixedDueDay : Option Nat
  holdable : Bool
  checkoutTemplate : Nat
  routingTemplate : Nat
  deriving DecidableEq, Repr

/-- PUT_RULE (R108). -/
structure PutRuleParams where
  bank : BankName
  category : Nat
  itemClass : Nat
  kind : Option CellKind
  period : Nat
  renewLimit : Nat
  roundStep : Nat
  deriving DecidableEq, Repr

/-- DEL_RULE (R108). -/
structure DelRuleParams where
  bank : BankName
  category : Nat
  itemClass : Nat
  deriving DecidableEq, Repr

/-- PUT_PROFILE (R109). -/
structure PutProfileParams where
  bank : BankName
  profile : Nat
  openMinute : Nat
  closeMinute : Nat
  deriving DecidableEq, Repr

/-- PUT_WEEKDAY, PUT_EXCEPTION (R109, R110): a weekday or day, and its profile. -/
structure PutDayParams where
  bank : BankName
  day : Nat
  profile : Nat
  deriving DecidableEq, Repr

/-- One line of a PUT_TEMPLATE; a slot whose field is `none` names no known field (R126). -/
structure TemplateLineParams where
  text : Text
  repeated : Bool
  slots : List (Nat × Option FieldName)
  deriving DecidableEq, Repr

/-- PUT_TEMPLATE (R126). -/
structure PutTemplateParams where
  bank : BankName
  template : Nat
  lines : List TemplateLineParams
  deriving DecidableEq, Repr

/-- PUT_TEXT (R126). -/
structure PutTextParams where
  bank : BankName
  text : Nat
  line1 : Text
  line2 : Text
  deriving DecidableEq, Repr

/-- READ_JOURNAL (R156). -/
structure ReadJournalParams where
  start : Nat
  count : Nat
  deriving DecidableEq, Repr

/-- TIME, SET_TIME (R160, R162). -/
structure TimeParams where
  day : Nat
  second : Nat
  deriving DecidableEq, Repr

/-- COMMIT (R171): the four expected counts. -/
structure CommitParams where
  borrowers : Nat
  items : Nat
  exceptions : Nat
  holds : Nat
  deriving DecidableEq, Repr

/-- SET_SETTINGS (R174); `none` is a value outside the setting's names. -/
structure SettingsParams where
  enableMask : Vector Bool 8
  printerWidths : Vector Byte 8
  idleTimeout : Nat
  closingGrace : Nat
  autoOpen : Option Bool
  autoClose : Option Bool
  highWater : Nat
  dateFormat : Option DateFormat
  allowedFeatures : Named FeatureSet
  stepLimit : Nat
  deriving DecidableEq, Repr

/-- POST_NOTE (R185); a target of `none` is none of the three. -/
structure PostNoteParams where
  target : Option NoteTarget
  text : Text
  deriving DecidableEq, Repr

/-! ### The commands -/

/-- One constructor per row of spec/opcode_table.json, in the table's order. -/
inductive Instr where
  /-- HEARTBEAT (R132): a good frame of kind 0x10 and its content. -/
  | heartbeat (st : Station) (content : List Byte)
  /-- SCAN_FRAME (R135): a good frame of kind 0x11 and its content. -/
  | scanFrame (st : Station) (content : List Byte)
  /-- KEY_FRAME (R135): a good frame of kind 0x12 and its content. -/
  | keyFrame (st : Station) (content : List Byte)
  /-- STATION_FRAME_GAP (R128): the byte that ends the gap. -/
  | stationFrameGap (st : Station) (next : Byte)
  /-- STATION_TRANSMIT (R136). -/
  | stationTransmit (st : Station)
  /-- BORROWER_SCAN (R6). -/
  | borrowerScan
  /-- ITEM_SCAN (R14, R25). -/
  | itemScan
  /-- STAFF_SCAN (R11, R12). -/
  | staffScan
  /-- END_KEY (R20). -/
  | endKey
  /-- CANCEL_KEY (R21). -/
  | cancelKey
  /-- RETURN_KEY (R24). -/
  | returnKey
  /-- CHECKOUT_KEY (R24). -/
  | checkoutKey
  /-- REPRINT_KEY (R121). -/
  | reprintKey
  /-- IDLE_TIMEOUT (R5). -/
  | idleTimeout (st : Station)
  /-- ARM_LAPSE (R11). -/
  | armLapse (st : Station)
  /-- HEARTBEAT_WATCH_EXPIRY (R133, R139). -/
  | heartbeatWatchExpiry (st : Station)
  /-- SLIP_SEND (R119). -/
  | slipSend (st : Station)
  /-- GRACE_EXPIRY (R168). -/
  | graceExpiry
  /-- GRACE_SESSION_CLOSE (R20). -/
  | graceSessionClose (st : Station)
  /-- CLOCK_TICK (R158). -/
  | clockTick
  /-- AUTO_OPEN (R165). -/
  | autoOpen
  /-- SWEEP_STEP (R70). -/
  | sweepStep
  /-- OPEN_END (R166). -/
  | openEnd
  /-- STAGE_BEGIN_END (R170). -/
  | stageBeginEnd
  /-- COMMIT_CHANGEOVER (R172). -/
  | commitChangeover
  /-- SCRUB_BLOCK (R199). -/
  | scrubBlock
  /-- RECORD_SEND (R151). -/
  | recordSend
  /-- LINE_FRAME_GAP (R175): the byte that ends the gap. -/
  | lineFrameGap (l : Line) (next : Byte)
  /-- LINE_TRANSMIT (R176). -/
  | lineTransmit (l : Line)
  /-- LIVENESS_EXPIRY (R177). -/
  | livenessExpiry (l : Line)
  /-- PASS_DOWN (R139): a good PASS frame on the supervisor line. -/
  | passDown (station : Nat) (body : List Byte)
  /-- HELLO (R178). -/
  | hello (q : Req) (c : Content HelloParams)
  /-- NOP (R179). -/
  | nop (q : Req) (c : Content Unit)
  /-- STATUS (R191). -/
  | status (q : Req) (c : Content Unit)
  /-- UNLOCK (R182). -/
  | unlock (q : Req) (c : Content Key)
  /-- WIPE (R198). -/
  | wipe (q : Req) (c : Content Unit)
  /-- ACK_ATTENTION (R188). -/
  | ackAttention (q : Req) (c : Content (Named CauseSet))
  /-- SET_ATTENTION_MASK (R188). -/
  | setAttentionMask (q : Req) (c : Content (Named CauseSet))
  /-- READ_NOTE (R186). -/
  | readNote (q : Req) (c : Content ReadNoteTarget)
  /-- READ_BORROWER (R60). -/
  | readBorrower (q : Req) (c : Content BankRead)
  /-- READ_ITEM (R79). -/
  | readItem (q : Req) (c : Content BankRead)
  /-- READ_OLC (R84). -/
  | readOlc (q : Req) (c : Content CacheRead)
  /-- READ_RULES (R111). -/
  | readRules (q : Req) (c : Content RulesRead)
  /-- READ_CALENDAR (R111). -/
  | readCalendar (q : Req) (c : Content CalendarRead)
  /-- READ_TEMPLATE (R126). -/
  | readTemplate (q : Req) (c : Content TemplateRead)
  /-- READ_SETTINGS (R179). -/
  | readSettings (q : Req) (c : Content Unit)
  /-- PUT_BORROWER (R55). -/
  | putBorrower (q : Req) (c : Content PutBorrowerParams)
  /-- DEL_BORROWER (R53). -/
  | delBorrower (q : Req) (c : Content BankNumber)
  /-- ADJUST_BORROWER (R59). -/
  | adjustBorrower (q : Req) (c : Content AdjustBorrowerParams)
  /-- PUT_ITEM (R72). -/
  | putItem (q : Req) (c : Content PutItemParams)
  /-- DEL_ITEM (R73). -/
  | delItem (q : Req) (c : Content BankNumber)
  /-- ADD_HOLD (R74). -/
  | addHold (q : Req) (c : Content AddHoldParams)
  /-- CANCEL_HOLD (R76). -/
  | cancelHold (q : Req) (c : Content CancelHoldParams)
  /-- PUT_PREFIX (R38). -/
  | putPrefix (q : Req) (c : Content PutPrefixParams)
  /-- DEL_PREFIX (R39). -/
  | delPrefix (q : Req) (c : Content BankIndex)
  /-- PUT_STAFF (R41). -/
  | putStaff (q : Req) (c : Content PutStaffParams)
  /-- DEL_STAFF (R41). -/
  | delStaff (q : Req) (c : Content BankNumber)
  /-- PUT_CATEGORY (R107). -/
  | putCategory (q : Req) (c : Content PutCategoryParams)
  /-- DEL_CATEGORY (R107). -/
  | delCategory (q : Req) (c : Content BankIndex)
  /-- PUT_CLASS (R107). -/
  | putClass (q : Req) (c : Content PutClassParams)
  /-- DEL_CLASS (R107). -/
  | delClass (q : Req) (c : Content BankIndex)
  /-- PUT_RULE (R108). -/
  | putRule (q : Req) (c : Content PutRuleParams)
  /-- DEL_RULE (R108). -/
  | delRule (q : Req) (c : Content DelRuleParams)
  /-- PUT_PROFILE (R109). -/
  | putProfile (q : Req) (c : Content PutProfileParams)
  /-- DEL_PROFILE (R109). -/
  | delProfile (q : Req) (c : Content BankIndex)
  /-- PUT_WEEKDAY (R109). -/
  | putWeekday (q : Req) (c : Content PutDayParams)
  /-- DEL_WEEKDAY (R109). -/
  | delWeekday (q : Req) (c : Content BankIndex)
  /-- PUT_EXCEPTION (R110). -/
  | putException (q : Req) (c : Content PutDayParams)
  /-- DEL_EXCEPTION (R110). -/
  | delException (q : Req) (c : Content BankIndex)
  /-- PUT_TEMPLATE (R126). -/
  | putTemplate (q : Req) (c : Content PutTemplateParams)
  /-- DEL_TEMPLATE (R126). -/
  | delTemplate (q : Req) (c : Content BankIndex)
  /-- PUT_TEXT (R126). -/
  | putText (q : Req) (c : Content PutTextParams)
  /-- DEL_TEXT (R126). -/
  | delText (q : Req) (c : Content BankIndex)
  /-- UPLOAD (R150). -/
  | upload (q : Req) (c : Content Nat)
  /-- RELEASE (R153). -/
  | release (q : Req) (c : Content Nat)
  /-- READ_JOURNAL (R156). -/
  | readJournal (q : Req) (c : Content ReadJournalParams)
  /-- OPEN_DESK (R164). -/
  | openDesk (q : Req) (c : Content Unit)
  /-- CLOSE_DESK (R167). -/
  | closeDesk (q : Req) (c : Content Unit)
  /-- TIME (R160). -/
  | time (q : Req) (c : Content TimeParams)
  /-- SET_TIME (R162). -/
  | setTime (q : Req) (c : Content TimeParams)
  /-- STAGE_BEGIN (R170). -/
  | stageBegin (q : Req) (c : Content Unit)
  /-- COMMIT (R171). -/
  | commit (q : Req) (c : Content CommitParams)
  /-- SET_SETTINGS (R174). -/
  | setSettings (q : Req) (c : Content SettingsParams)
  /-- SET_KEY (R182). -/
  | setKey (q : Req) (c : Content Key)
  /-- BRIDGE (R138). -/
  | bridge (q : Req) (c : Content Nat)
  /-- UNBRIDGE (R140). -/
  | unbridge (q : Req) (c : Content Nat)
  /-- RESTART (R197). -/
  | restart (q : Req) (c : Content Unit)
  /-- RESTART_WARM_START (R197). -/
  | restartWarmStart
  /-- POST_NOTE (R185). -/
  | postNote (q : Req) (c : Content PostNoteParams)
  /-- POWER_UP (R194). -/
  | powerUp
  /-- POWER_FAIL (R193). -/
  | powerFail
  /-- BACKUP_FAIL (R194). -/
  | backupFail
  /-- RESET_ASSERT (R197). -/
  | resetAssert
  /-- RESET_RELEASE (R197). -/
  | resetRelease
  /-- IGNORE_OR_CC_REFUSED_SCAN (R29, R4). -/
  | ignoreOrCcRefusedScan
  /-- UNKNOWN_KIND_STATION_FRAME (R129, R139): a good frame of any other kind and its content. -/
  | unknownKindStationFrame (st : Station) (kind : Byte) (content : List Byte)
  /-- DROPPED_GOOD_LINE_FRAME (R175). -/
  | droppedGoodLineFrame (l : Line) (kind : DroppedKind)
  /-- UNKNOWN_REQUEST_NAME (R180, R183): the name code as received, or none in a REQUEST whose content is empty. -/
  | unknownRequestName (q : Req) (code : Option Byte)
  deriving DecidableEq, Repr

end Sys2Proof
end

