-- ==== Sys2Proof/Decode.lean ====
section
/-! DEFINITION. The command that a word of the opcode table spells.  The table gives no row any bits: the commands are
events of the part's lines, pins and timers, so no word spells one. -/

namespace Sys2Proof

/-- No row of spec/opcode_table.json has fields or bits, so no word decodes. -/
def decodeTableWord (_nbits _w : Nat) : Option Instr := none

end Sys2Proof
end

