-- ==== Sys2Proof/Config.lean ====
section
/-! DEFINITION. What an implementation fixes and the free values: constants without a body, so that nothing can be
proved of them. -/

namespace Sys2Proof.Config

/-- FREE VALUE, log entry 6.  Whether a STAGE_BEGIN that a warm start cuts off had already cleared the element of the
STAGED bank with the given index; R170 says only that the bank is left partly cleared. -/
opaque stageCleared : (counter element : Nat) → Bool

/-- FREE VALUE, log entry 7.  Whether the block at the given scrub position is the last of the areas a WIPE scrubs
(R199); the store's layout is not in the spec. -/
opaque scrubIsLast : (counter position : Nat) → Bool

/-- FREE VALUE, log entry 18.  The generation that follows the given one, where that is the last of the field's range, or
past it (09 section 9.3: 0 to 4,294,967,295); the spec states none. -/
opaque generationPastEnd : (generation : Nat) → BitVec 32

/-- FREE VALUE, log entry 28.  The request name, as a code, that the last error keeps when a REQUEST carries no name code
(R183); the spec states none. -/
opaque missingNameCode : (counter : Nat) → Byte

end Sys2Proof.Config
end

