-- ==== Sys2Proof/Machine/State.lean ====
section
/-! DEFINITION. The state of the part as plain data, its cold-start (reset) value, and the reasons a step could stop. -/

namespace Sys2Proof.Machine

/-! ### Small types -/

/-- A day number and a second of the day (R158). -/
structure Instant where
  day : Nat
  second : Nat
  deriving DecidableEq, Repr

/-- A due: a day and a minute 0 to 1,440 (00 Days, minutes and seconds). -/
structure Due where
  day : Nat
  minute : Nat
  deriving DecidableEq, Repr

/-- The flags of a list entry (01 section 1.2). -/
structure EntryFlags where
  clamped : Bool
  dueOnClosed : Bool
  overridden : Bool
  holdFilled : Bool
  renewed : Bool
  deriving DecidableEq, Repr

/-- CHECKOUT or RENEW (01 section 1.2). -/
inductive Action where
  | checkout
  | renew
  deriving DecidableEq, Repr

/-- The desk refusal reasons in the order of their station texts 0 to 22 (06 section 6.5). -/
inductive Reason where
  | badCode
  | unknownCode
  | unknownStaff
  | noBorrower
  | admin
  | lostCard
  | expired
  | fines
  | overdue
  | limit
  | notLoanable
  | held
  | onLoanOther
  | inOtherSession
  | renewLimit
  | fixedPast
  | termEnded
  | calendarGap
  | listFull
  | journalFull
  | tableFull
  | inUseElsewhere
  | deskClosed
  deriving DecidableEq, Repr

/-- Reply statuses (10 section 10.3). -/
inductive Status where
  | ok
  | partiallyTaken
  | accepted
  | busy
  | locked
  | notOwner
  | badRequest
  | badValue
  | full
  | notFound
  | wrongState
  | badKey
  | duplicate
  | notDrained
  | mismatch
  | version
  | busyStation
  deriving DecidableEq, Repr

/-- Request names (R179); an unknown name keeps its code as received (R183). -/
inductive ReqName where
  | hello | nop | status | unlock | wipe | ackAttention | setAttentionMask | readNote
  | readBorrower | readItem | readOlc | readRules | readCalendar | readTemplate | readSettings
  | putBorrower | delBorrower | adjustBorrower | putItem | delItem | addHold | cancelHold
  | putPrefix | delPrefix | putStaff | delStaff | putCategory | delCategory | putClass | delClass
  | putRule | delRule | putProfile | delProfile | putWeekday | delWeekday | putException | delException
  | putTemplate | delTemplate | putText | delText
  | upload | release | readJournal
  | openDesk | closeDesk | time | setTime | stageBegin | commit | setSettings | setKey
  | bridge | unbridge | restart | postNote
  | unknown (code : Byte)
  deriving DecidableEq, Repr

/-! ### Banked tables -/

/-- A prefix-table entry (02 section 2.1). -/
structure PrefixEntry where
  inUse : Bool
  pattern : List PatternPos
  minLength : Nat
  maxLength : Nat
  check : CheckScheme
  kind : CodeKind
  strip : Nat
  default : Nat
  deriving DecidableEq, Repr

/-- A staff-list entry (02 section 2.8). -/
structure StaffEntry where
  number : Number
  overrides : OverrideSet
  deriving DecidableEq, Repr

/-- A category record (R87). -/
structure CategoryRec where
  loanLimit : Nat
  fineLimit : Nat
  overdueLimit : Nat
  termEndDay : Option Nat
  pickupDays : Nat
  shownDigits : Nat
  deriving DecidableEq, Repr

/-- A class record (R88). -/
structure ClassRec where
  loanable : Bool
  fixedDueDay : Option Nat
  holdable : Bool
  checkoutTemplate : Fin 8
  routingTemplate : Fin 8
  deriving DecidableEq, Repr

/-- A rule-matrix cell (R89). -/
structure Cell where
  kind : CellKind
  period : Nat
  renewLimit : Nat
  roundStep : Nat
  deriving DecidableEq, Repr

/-- An hours profile 1 to 7 (R90). -/
structure Profile where
  openMinute : Nat
  closeMinute : Nat
  deriving DecidableEq, Repr

/-- An entry of the exception list (R90). -/
structure CalendarException where
  day : Nat
  profile : Fin 8
  deriving DecidableEq, Repr

/-- A field slot of a template line (06 section 6.1). -/
structure TemplateSlot where
  column : Nat
  field : FieldName
  deriving DecidableEq, Repr

/-- A line of a slip template (06 section 6.1). -/
structure TemplateLine where
  text : Text
  repeated : Bool
  slots : List TemplateSlot
  deriving DecidableEq, Repr

/-- A station text: two lines of 20 characters (06 section 6.5). -/
structure StationText where
  line1 : Text
  line2 : Text
  deriving DecidableEq, Repr

/-- A borrower entry (03 section 3.1). -/
structure Borrower where
  number : Number
  category : Fin 16
  expiryDay : Nat
  blocks : Blocks
  finesOwed : Nat
  overdueItems : Nat
  loansHeld : Nat
  pending : Nat
  sessionStation : Option Station
  provisional : Bool
  retiring : Bool
  createdSeq : Nat
  deriving DecidableEq, Repr

/-- A hold record (04 section 4.1): WAITING exactly when it has a `pickupBy` (R66). -/
structure Hold where
  borrower : Number
  category : Fin 16
  pickupBy : Option Nat
  placedDay : Nat
  deriving DecidableEq, Repr

/-- An item entry (04 section 4.1). -/
structure Item where
  number : Number
  classOverride : Option (Fin 32)
  queue : List Hold
  deriving DecidableEq, Repr

/-- One complete set of the banked tables (09 section 9.3). -/
structure Bank where
  prefixTable : Vector PrefixEntry 32
  staff : List StaffEntry
  categories : Vector CategoryRec 16
  classes : Vector ClassRec 32
  rules : Vector (Vector Cell 32) 16
  profiles : Vector Profile 7
  weekdays : Vector (Fin 8) 7
  exceptions : List CalendarException
  templates : Vector (List TemplateLine) 8
  texts : Vector StationText 32
  borrowers : List Borrower
  nextCreated : Nat
  items : List Item
  deriving DecidableEq, Repr

/-- EMPTY or LOADING (R169). -/
inductive StagedState where
  | empty
  | loading
  deriving DecidableEq, Repr

/-! ### Desk tables that are not banked -/

/-- An entry of the open-loan cache (04 section 4.7). -/
structure CacheEntry where
  item : Number
  borrower : Number
  due : Due
  renewals : Nat
  lentDay : Nat
  deriving DecidableEq, Repr

/-- A list entry of a session (01 section 1.2). -/
structure ListEntry where
  item : Number
  itemClass : Fin 32
  action : Action
  due : Due
  flags : EntryFlags
  deriving DecidableEq, Repr

/-- The mode flag of a session record (01 section 1.2). -/
inductive Mode where
  | normal
  | returns
  deriving DecidableEq, Repr

/-- A session record (01 section 1.2). -/
structure Session where
  borrower : Option Number
  items : List ListEntry
  overrideStaff : Option Number
  armedUntil : Option Nat
  admittedByOverride : Bool
  idle : Nat
  mode : Mode
  deriving DecidableEq, Repr

/-- The desk settings record (09 section 9.5). -/
structure Settings where
  enableMask : Vector Bool 8
  printerWidths : Vector Byte 8
  idleTimeout : Nat
  closingGrace : Nat
  autoOpen : Bool
  autoClose : Bool
  highWater : Nat
  dateFormat : DateFormat
  allowedFeatures : FeatureSet
  stepLimit : Nat
  deriving DecidableEq, Repr

/-! ### Journal -/

/-- The thirteen record kinds (R144). -/
inductive RecordKind where
  | checkout | renew | returned | refusal | holdRouted | holdExpired | sessionAbandoned
  | tableChange | dayOpen | dayClose | clockStep | commit | wiped
  deriving DecidableEq, Repr

/-- The reason field of a record (R143). -/
inductive RecordReason where
  | refusal (r : Reason)
  | count (n : Nat)
  | request (name : ReqName)
  deriving DecidableEq, Repr

/-- The flags of a record (R143, 10 section 10.8). -/
structure RecordFlags where
  offline : Bool
  overridden : Bool
  unconfirmed : Bool
  creditedLocally : Bool
  provisional : Bool
  clamped : Bool
  dueOnClosed : Bool
  holdFilled : Bool
  renewed : Bool
  counted : Bool
  overflowBefore : Bool
  deriving DecidableEq, Repr

/-- A journal record (R143). -/
structure Record where
  seq : Nat
  kind : RecordKind
  station : Option Station
  day : Nat
  minute : Nat
  borrower : Option Number
  item : Option Number
  due : Option Due
  reason : Option RecordReason
  staff : Option Number
  flags : RecordFlags
  generation : Nat
  deriving DecidableEq, Repr

/-- The journal (R141): the unreleased records, oldest first, the pointers, the claim total and the overflow flag. -/
structure Journal where
  records : List Record
  oldest : Nat
  sendMark : Nat
  nextSeq : Nat
  claims : Nat
  overflow : Bool
  deriving DecidableEq, Repr

/-- An upload in flight (R150): the UPLOAD's tag, the end point, whether its count was clamped, the records sent. -/
structure Upload where
  tag : Tag
  endPoint : Nat
  clamped : Bool
  sent : Nat
  deriving DecidableEq, Repr

/-! ### Desk day and clock -/

/-- CLOSED, OPEN or CLOSING (R163). -/
inductive DeskDay where
  | closed
  | opened
  | closing
  deriving DecidableEq, Repr

/-- The desk-day state and its values (R163); `graceExpired` says that the grace has run out and the sessions still
open are to be closed (R168, R20). -/
structure Day where
  state : DeskDay
  openDay : Option Nat
  fresh : Bool
  grace : Option Nat
  graceExpired : Bool
  deriving DecidableEq, Repr

/-- The clock (09 section 9.1). -/
structure Clock where
  now : Instant
  valid : Bool
  held : Option Instant
  deriving DecidableEq, Repr

/-- What holds the long-operation slot (R173).  A STAGE_BEGIN carries the bank its clearing replaces (log entry 6), an
opening its day and the last item its sweep visited (R166, R70). -/
inductive LongOp where
  | wipe
  | stageBegin (replaced : Bank)
  | commit
  | opening (day : Nat) (visited : Option Number)
  deriving DecidableEq, Repr

/-- The long-operation slot when held: the operation and the line and tag that started it, absent for auto-open
(R173). -/
structure Slot where
  op : LongOp
  requester : Option Req
  deriving DecidableEq, Repr

/-! ### Station lines -/

/-- The signals of a station (07 section 7.1). -/
inductive Signal where
  | accept
  | refuse
  | wait
  | duplicate
  | attention
  deriving DecidableEq, Repr

/-- The five keys (07 section 7.1). -/
inductive KeyCode where
  | endKey
  | cancel
  | returnKey
  | checkout
  | reprint
  deriving DecidableEq, Repr

/-- An input waiting in a slot (R135): the digits of a scan, first digit first, or a key. -/
inductive Input where
  | scan (digits : List Nat)
  | key (k : KeyCode)
  deriving DecidableEq, Repr

/-- A frame of a station's down list (R136). -/
inductive DownFrame where
  | display (line1 line2 : Text)
  | signal (s : Signal)
  | print (line : Text)
  | cut
  | pass (body : List Byte)
  deriving DecidableEq, Repr

/-- A receiver (R128, R175): looking for a start; taking the length; taking the body; taking the two CRC bytes.
Bytes already taken are held oldest first. -/
inductive Receiver where
  | looking
  | length (got : List Byte)
  | body (lengthBytes got : List Byte)
  | crc (lengthBytes body got : List Byte)
  deriving DecidableEq, Repr

/-- A Station Line Port (07 section 7.2). -/
structure Port where
  present : Bool
  watch : Option Nat
  slots : List Input
  credit : Nat
  paperOut : Bool
  bridged : Bool
  down : List DownFrame
  wire : Option DownFrame
  receiver : Receiver
  deriving DecidableEq, Repr

/-- A composed slip: its lines (R113). -/
structure Slip where
  lines : List Text
  deriving DecidableEq, Repr

/-- What the Slip Composer keeps for one station (06 sections 6.3 and 6.5). -/
structure Console where
  queue : List Slip
  headSent : Nat
  copy : Option Slip
  line1 : Text
  line2 : Text
  wiped : Bool
  deriving DecidableEq, Repr

/-! ### Management lines -/

/-- Line states (10 section 10.2). -/
inductive LineState where
  | down
  | active
  | refused
  deriving DecidableEq, Repr

/-- The five station states (R1). -/
inductive StationState where
  | absent
  | idle
  | checkout
  | returns
  | bridged
  deriving DecidableEq, Repr

/-- The derived blocks of a borrower entry (R46). -/
structure DerivedBlocks where
  expired : Bool
  fines : Bool
  overdue : Bool
  deriving DecidableEq, Repr

/-- The four counts of a bank (R171, R191). -/
structure BankCounts where
  borrowers : Nat
  items : Nat
  exceptions : Nat
  holds : Nat
  deriving DecidableEq, Repr

/-- What holds the long-operation slot, as STATUS names it (R191). -/
inductive SlotName where
  | wipe
  | stageBegin
  | commit
  | opening
  deriving DecidableEq, Repr

/-- What STATUS reports of one management line (R191). -/
structure LineReport where
  state : LineState
  granted : FeatureSet
  locked : Bool
  deriving DecidableEq, Repr

/-- The STATUS reply (R191). -/
structure StatusReport where
  deskDay : DeskDay
  openDay : Option Nat
  fresh : Bool
  grace : Option Nat
  now : Instant
  valid : Bool
  held : Option Instant
  uplink : LineReport
  supervisor : LineReport
  owner : Line
  keySet : Bool
  lastError : Option (Status × ReqName)
  unreleased : Nat
  claims : Nat
  free : Nat
  oldest : Nat
  sendMark : Nat
  nextSeq : Nat
  uploadTag : Option Tag
  generation : Nat
  stagedState : StagedState
  activeCounts : BankCounts
  stagedCounts : BankCounts
  slot : Option (SlotName × Option Req)
  pendingSet : CauseSet
  enableSet : CauseSet
  attn : Bool
  stations : Vector (StationState × Nat) 8
  deriving DecidableEq, Repr

/-- The results a reply carries besides its status; each constructor cites the rule that lists them. -/
inductive Results where
  /-- Nothing but the status. -/
  | plain
  /-- The LD8's version, major and minor (R178). -/
  | version (major minor : Nat)
  /-- Version, granted set and the line's name (R178). -/
  | hello (major minor : Nat) (granted : FeatureSet) (line : Line)
  /-- STATUS (R191). -/
  | status (report : StatusReport)
  /-- ACK_ATTENTION (R188). -/
  | pendingSet (pending : CauseSet)
  /-- SET_ATTENTION_MASK (R188). -/
  | attentionSets (pending enable : CauseSet)
  /-- READ_NOTE of a note slot (R186). -/
  | note (text : Option Text) (unread overwritten : Bool)
  /-- READ_NOTE naming SLIPS (R186). -/
  | notice (text : Option Text)
  /-- READ_BORROWER by number (R60); the derived blocks are absent while the clock is invalid. -/
  | borrowerEntry (entry : Borrower) (derived : Option DerivedBlocks)
  /-- READ_BORROWER by index (R60). -/
  | borrowers (count : Nat) (entries : List Borrower)
  /-- READ_ITEM by number (R79). -/
  | itemEntry (entry : Item)
  /-- READ_ITEM by index (R79). -/
  | items (count holds : Nat) (entries : List Item)
  /-- READ_OLC by number (R84). -/
  | cacheEntry (entry : CacheEntry) (position : Nat)
  /-- READ_OLC by index (R84). -/
  | cacheEntries (count : Nat) (entries : List CacheEntry)
  /-- READ_RULES, category part (R111). -/
  | category (record : CategoryRec)
  /-- READ_RULES, class part (R111). -/
  | itemClass (record : ClassRec)
  /-- READ_RULES, rule part (R111). -/
  | ruleRow (cells : Vector Cell 32)
  /-- READ_RULES, prefix part (R39). -/
  | prefixEntry (entry : PrefixEntry)
  /-- READ_RULES, staff part (R41). -/
  | staff (count : Nat) (entries : List StaffEntry)
  /-- READ_CALENDAR, profile part (R111). -/
  | profiles (minutes : Vector Profile 7)
  /-- READ_CALENDAR, weekday part (R111). -/
  | weekdays (profiles : Vector (Fin 8) 7)
  /-- READ_CALENDAR, exception part (R111). -/
  | exceptions (count : Nat) (entries : List CalendarException)
  /-- READ_TEMPLATE, template part (R126). -/
  | template (lines : List TemplateLine)
  /-- READ_TEMPLATE, text part (R126). -/
  | stationText (text : StationText)
  /-- READ_SETTINGS (R179). -/
  | settings (record : Settings) (keySet : Bool)
  /-- SET_SETTINGS (R174). -/
  | settingsStored (record : Settings)
  /-- PUT_BORROWER (R55): loans_held and pending after the write. -/
  | loansAndPending (loansHeld pending : Nat)
  /-- DEL_BORROWER (R53): pending and session_station as the request found them. -/
  | pendingAndSession (pending : Nat) (station : Option Station)
  /-- ADJUST_BORROWER (R59): loans_held and fines_owed after it. -/
  | loansAndFines (loansHeld finesOwed : Nat)
  /-- DEL_ITEM answered PARTIAL (R73), CANCEL_HOLD (R76). -/
  | queueLength (n : Nat)
  /-- ADD_HOLD (R74). -/
  | holdPosition (n : Nat)
  /-- The final reply of UPLOAD (R151). -/
  | uploaded (count lastSeq : Nat)
  /-- RELEASE (R153). -/
  | released (oldest count : Nat)
  /-- READ_JOURNAL (R156). -/
  | journal (oldest nextSeq : Nat) (records : List Record)
  /-- TIME, SET_TIME (R160). -/
  | clock (now : Instant) (valid : Bool) (held : Option Instant)
  /-- The final reply of OPEN_DESK (R164): the day opened and whether BANK_STALE was raised. -/
  | opened (day : Nat) (stale : Bool)
  /-- The final reply of COMMIT (R172). -/
  | committed (generation : Nat)
  /-- COMMIT refused MISMATCH (R171). -/
  | counts (c : BankCounts)
  /-- RESTART's OK (R197); named apart so that the transmitter's end of this reply can be seen. -/
  | restarting
  deriving DecidableEq, Repr

/-- A reply: its status and results. -/
structure Reply where
  status : Status
  results : Results
  deriving DecidableEq, Repr

/-- A frame of a management line's send list (10 section 10.1). -/
inductive LineFrame where
  | reply (tag : Tag) (r : Reply)
  | record (tag : Tag) (r : Record)
  | event (cause : Cause) (pending : CauseSet) (now : Instant) (valid : Bool)
  | note (text : Text)
  | pass (station : Station) (body : List Byte)
  deriving DecidableEq, Repr

/-- What the Line Controller keeps for one management line (10). -/
structure LineCtl where
  state : LineState
  granted : FeatureSet
  unlocked : Bool
  lastError : Option (Status × ReqName)
  sendList : List LineFrame
  wire : Option LineFrame
  liveness : Option Nat
  pendingSet : CauseSet
  enableSet : CauseSet
  receiver : Receiver
  deriving DecidableEq, Repr

/-- A note slot (10 section 10.4). -/
structure NoteSlot where
  text : Option Text
  unread : Bool
  overwritten : Bool
  deriving DecidableEq, Repr

/-- The marks of the Retained Store Port (R194, R199). -/
structure Store where
  signatureGood : Bool
  backupFail : Bool
  scrubMark : Bool
  scrubPos : Nat
  deriving DecidableEq, Repr

/-- The whole state of the part, and the queue of the commands that are waiting. -/
structure State where
  pending : List Instr
  active : Bank
  staged : Bank
  stagedState : StagedState
  generation : Nat
  cache : List CacheEntry
  journal : Journal
  upload : Option Upload
  sessions : Vector Session 8
  day : Day
  clock : Clock
  settings : Settings
  key : Key
  slot : Option Slot
  ports : Vector Port 8
  consoles : Vector Console 8
  notice : Option Text
  uplink : LineCtl
  supervisor : LineCtl
  toSupervisor : NoteSlot
  toServer : NoteSlot
  lastServed : Station
  store : Store
  powered : Bool
  resetAsserted : Bool
  restarting : Option Line
  freeIx : Nat
  deriving DecidableEq, Repr

/-! ### Reasons to stop -/

/-- Faults.  The spec gives every command an effect and names no event that stops the part, so no meaning raises one. -/
inductive Fault where
  /-- Raised by nobody: it stands for the empty list of the spec's stops.  Safe: a stop that never comes allows no
  claim that the hardware breaks. -/
  | noneInTheSpec
  deriving DecidableEq, Repr

/-- Refusals. -/
inductive Refusal where
  /-- Raised by exec's arm of a command that has no meaning yet; there is none.  Safe: the machine stops by name. -/
  | notModelled (mnemonic : String)
  deriving DecidableEq, Repr

/-! ### Cold-start values -/

def FeatureSet.empty : FeatureSet := ⟨false, false, false⟩
def FeatureSet.all : FeatureSet := ⟨true, true, true⟩
def CauseSet.empty : CauseSet := ⟨false, false, false, false, false, false, false, false⟩
def CauseSet.all : CauseSet := ⟨true, true, true, true, true, true, true, true⟩
def OverrideSet.empty : OverrideSet := ⟨false, false, false, false, false, false, false, false, false⟩

/-- A position not in use (R39). -/
def PrefixEntry.unused : PrefixEntry :=
  { inUse := false, pattern := [], minLength := 4, maxLength := 16, check := .none, kind := .ignore, strip := 0,
    default := 0 }

/-- R87's cleared values. -/
def CategoryRec.cleared : CategoryRec :=
  { loanLimit := 0, fineLimit := 0, overdueLimit := 0, termEndDay := none, pickupDays := 1, shownDigits := 0 }

/-- R88's cleared values. -/
def ClassRec.cleared : ClassRec :=
  { loanable := false, fixedDueDay := none, holdable := false, checkoutTemplate := 0, routingTemplate := 0 }

/-- R89's cleared values. -/
def Cell.cleared : Cell := { kind := .none, period := 1, renewLimit := 0, roundStep := 1 }

/-- R90's cleared value. -/
def Profile.cleared : Profile := { openMinute := 0, closeMinute := 1440 }

/-- Twenty spaces. -/
def blankLine : Text := List.replicate 20 0x20#8

/-- The cleared value of a station text (06 section 6.5). -/
def StationText.cleared : StationText := { line1 := blankLine, line2 := blankLine }

/-- A cleared bank (R42, R63, R85, R112, R127). -/
def Bank.cleared : Bank :=
  { prefixTable := Vector.replicate 32 PrefixEntry.unused
    staff := []
    categories := Vector.replicate 16 CategoryRec.cleared
    classes := Vector.replicate 32 ClassRec.cleared
    rules := Vector.replicate 16 (Vector.replicate 32 Cell.cleared)
    profiles := Vector.replicate 7 Profile.cleared
    weekdays := Vector.replicate 7 0
    exceptions := []
    templates := Vector.replicate 8 []
    texts := Vector.replicate 32 StationText.cleared
    borrowers := []
    nextCreated := 1
    items := [] }

/-- An empty session record (R2).  DESIGN CHOICE: a stopped idle timer reads 0 (log entry 21). -/
def Session.empty : Session :=
  { borrower := none, items := [], overrideStaff := none, armedUntil := none, admittedByOverride := false, idle := 0,
    mode := .normal }

/-- The defaults of the desk settings (R195). -/
def Settings.defaults : Settings :=
  { enableMask := Vector.replicate 8 true, printerWidths := Vector.replicate 8 40#8, idleTimeout := 90,
    closingGrace := 10, autoOpen := false, autoClose := false, highWater := 12288, dateFormat := .dmy,
    allowedFeatures := FeatureSet.all, stepLimit := 120 }

/-- The journal after a cold start (R157). -/
def Journal.cold : Journal :=
  { records := [], oldest := 1, sendMark := 1, nextSeq := 1, claims := 0, overflow := false }

/-- A station port at every start (R131).  DESIGN CHOICE: nothing is on the wire (log entry 21). -/
def Port.start : Port :=
  { present := false, watch := none, slots := [], credit := 0, paperOut := false, bridged := false, down := [],
    wire := none, receiver := .looking }

/-- The Slip Composer's part of a station at every start (R122, R124). -/
def Console.start : Console :=
  { queue := [], headSent := 0, copy := none, line1 := blankLine, line2 := blankLine, wiped := false }

/-- A management line at every start (R192), before the level causes are tested. -/
def LineCtl.start : LineCtl :=
  { state := .down, granted := FeatureSet.empty, unlocked := false, lastError := none, sendList := [], wire := none,
    liveness := none, pendingSet := CauseSet.empty, enableSet := CauseSet.all, receiver := .looking }

/-- A note slot at every start (R192). -/
def NoteSlot.empty : NoteSlot := { text := none, unread := false, overwritten := false }

/-- Sixteen 0x00 bytes: no key (R182). -/
def noKey : Key := Vector.replicate 16 0#8

/-- The machine right after reset: what a cold start leaves (R195), with VDD up, the RESET pin released and no
command waiting. -/
def State.reset : State :=
  { pending := []
    active := Bank.cleared
    staged := Bank.cleared
    stagedState := .empty
    generation := 0
    cache := []
    journal := Journal.cold
    upload := none
    sessions := Vector.replicate 8 Session.empty
    day := { state := .closed, openDay := none, fresh := false, grace := none, graceExpired := false }
    clock := { now := { day := 0, second := 0 }, valid := false, held := none }
    settings := Settings.defaults
    key := noKey
    slot := none
    ports := Vector.replicate 8 Port.start
    consoles := Vector.replicate 8 Console.start
    notice := none
    uplink := LineCtl.start
    supervisor := LineCtl.start
    toSupervisor := NoteSlot.empty
    toServer := NoteSlot.empty
    lastServed := 7
    store := { signatureGood := true, backupFail := false, scrubMark := false, scrubPos := 0 }
    powered := true
    resetAsserted := false
    restarting := none
    freeIx := 0 }

end Sys2Proof.Machine
end

