-- ==== Sys2Proof/Machine/Flags.lean ====
section
/-! DEFINITION. Sets and flags: attention causes, line features, override sets, the flags of entries and records, and
the blocks derived from a borrower entry. -/

namespace Sys2Proof

/-- Whether a cause is in a set. -/
def CauseSet.has (s : CauseSet) : Cause → Bool
  | .journalHigh => s.journalHigh
  | .journalFull => s.journalFull
  | .uplinkLost => s.uplinkLost
  | .note => s.note
  | .printer => s.printer
  | .stationLost => s.stationLost
  | .clockHeld => s.clockHeld
  | .bankStale => s.bankStale

/-- The set with one cause put in or taken out. -/
def CauseSet.put (s : CauseSet) (v : Bool) : Cause → CauseSet
  | .journalHigh => { s with journalHigh := v }
  | .journalFull => { s with journalFull := v }
  | .uplinkLost => { s with uplinkLost := v }
  | .note => { s with note := v }
  | .printer => { s with printer := v }
  | .stationLost => { s with stationLost := v }
  | .clockHeld => { s with clockHeld := v }
  | .bankStale => { s with bankStale := v }

/-- Whether two sets have a cause in common. -/
def CauseSet.meets (a b : CauseSet) : Bool :=
  (a.journalHigh && b.journalHigh) || (a.journalFull && b.journalFull) || (a.uplinkLost && b.uplinkLost) ||
    (a.note && b.note) || (a.printer && b.printer) || (a.stationLost && b.stationLost) ||
    (a.clockHeld && b.clockHeld) || (a.bankStale && b.bankStale)

/-- An acknowledgement takes out the named edge causes and leaves the level causes (R188). -/
def CauseSet.acknowledge (pending named : CauseSet) : CauseSet :=
  { pending with
    uplinkLost := pending.uplinkLost && !named.uplinkLost
    note := pending.note && !named.note
    printer := pending.printer && !named.printer
    stationLost := pending.stationLost && !named.stationLost
    bankStale := pending.bankStale && !named.bankStale }

/-- The eight causes in the order of R187's table. -/
def allCauses : List Cause :=
  [.journalHigh, .journalFull, .uplinkLost, .note, .printer, .stationLost, .clockHeld, .bankStale]

/-- Intersection of feature sets (R178). -/
def FeatureSet.inter (a b : FeatureSet) : FeatureSet :=
  { trickle := a.trickle && b.trickle, events := a.events && b.events, notes := a.notes && b.notes }

namespace Machine

/-- The features a line supports (R178). -/
def supportedFeatures : Line → FeatureSet
  | .uplink => FeatureSet.all
  | .supervisor => { trickle := false, events := true, notes := true }

/-- Whether an override set holds a refusal reason (R13, 02 section 2.8); most reasons no override covers. -/
def overrideHolds (o : OverrideSet) : Reason → Bool
  | .admin => o.admin
  | .lostCard => o.lostCard
  | .fines => o.fines
  | .overdue => o.overdue
  | .expired => o.expired
  | .limit => o.limit
  | .held => o.held
  | .notLoanable => o.notLoanable
  | .renewLimit => o.renewLimit
  | .badCode | .unknownCode | .unknownStaff | .noBorrower | .onLoanOther | .inOtherSession | .fixedPast
  | .termEnded | .calendarGap | .listFull | .journalFull | .tableFull | .inUseElsewhere | .deskClosed => false

/-- No flag of an entry. -/
def noEntryFlags : EntryFlags :=
  { clamped := false, dueOnClosed := false, overridden := false, holdFilled := false, renewed := false }

/-- No flag of a record. -/
def noRecordFlags : RecordFlags :=
  { offline := false, overridden := false, unconfirmed := false, creditedLocally := false, provisional := false,
    clamped := false, dueOnClosed := false, holdFilled := false, renewed := false, counted := false,
    overflowBefore := false }

/-- The record flags an entry's flags give (R19). -/
def recordFlagsOf (f : EntryFlags) : RecordFlags :=
  { noRecordFlags with
    clamped := f.clamped, dueOnClosed := f.dueOnClosed, overridden := f.overridden, holdFilled := f.holdFilled,
    renewed := f.renewed }

/-- The derived blocks of an entry on a day, under its category record (R46). -/
def derivedBlocks (c : CategoryRec) (b : Borrower) (day : Nat) : DerivedBlocks :=
  { expired := decide (b.expiryDay ≤ day)
    fines := decide (0 < c.fineLimit ∧ c.fineLimit ≤ b.finesOwed)
    overdue := decide (0 < c.overdueLimit ∧ c.overdueLimit ≤ b.overdueItems) }

/-- Whether a reply status is a refusal: anything but OK, PARTIAL and ACCEPTED (R183). -/
def Status.isRefusal : Status → Bool
  | .ok | .partiallyTaken | .accepted => false
  | .busy | .locked | .notOwner | .badRequest | .badValue | .full | .notFound | .wrongState | .badKey | .duplicate
  | .notDrained | .mismatch | .version | .busyStation => true

/-- OK, or PARTIAL when something was clamped or held back. -/
def okOrPartial (changed : Bool) : Status := if changed then .partiallyTaken else .ok

end Machine

end Sys2Proof
end

