-- ==== Sys2Proof/Machine/Operands.lean ====
section
/-! DEFINITION. Operands and printed values: numbers and their order, clamping, dates and times as printed (R104,
R105), masking (R114), and the Code Classifier (R29 to R37). -/

namespace Sys2Proof

/-- Ascending order of value, equal values by digit count, smaller first (R43). -/
def Number.lt (a b : Number) : Bool :=
  decide (a.value < b.value) || (decide (a.value = b.value) && decide (a.digits < b.digits))

/-- A request's number has 4 to 14 digits. -/
def Number.countOk (n : Number) : Bool := decide (4 ≤ n.digits ∧ n.digits ≤ 14)

namespace Machine

/-- A value below a range is taken as its lowest value, one above as its highest (00 Numbers and ranges). -/
def clamp (lo hi v : Nat) : Nat := if v < lo then lo else if hi < v then hi else v

/-- Insertion before the first element that must stand behind. -/
def insertBy {α : Type} (lt : α → α → Bool) (e : α) : List α → List α
  | [] => [e]
  | x :: xs => if lt e x then e :: x :: xs else x :: insertBy lt e xs

/-! ### Printing -/

/-- A fixed text of the part, one byte a character. -/
def ascii (s : String) : Text := s.toList.map fun c => BitVec.ofNat 8 c.toNat

/-- The 7-bit printable characters. -/
def printable (b : Byte) : Bool := decide (0x20 ≤ b.toNat ∧ b.toNat ≤ 0x7E)

/-- A decimal digit's character. -/
def digitChar (d : Nat) : Byte := BitVec.ofNat 8 (0x30 + d % 10)

/-- The last `n` decimal digits of a value, leading zeros kept. -/
def decimalFixed : Nat → Nat → Text
  | 0, _ => []
  | n + 1, v => decimalFixed n (v / 10) ++ [digitChar v]

/-- A count without leading zeros (R114, R124). -/
def decimal (v : Nat) : Text :=
  match (decimalFixed 20 v).dropWhile (· == 0x30#8) with
  | [] => [0x30#8]
  | c :: cs => c :: cs

/-- A number printed in full with its leading zeros (R114). -/
def printNumber (n : Number) : Text := decimalFixed n.digits n.value

/-- A masked number: its last `shown` digits, an asterisk for each digit before them (R114). -/
def maskNumber (shown : Nat) (n : Number) : Text :=
  List.replicate (n.digits - shown) 0x2A#8 ++ (printNumber n).drop (n.digits - shown)

/-- A line padded with spaces or cut to 20 characters (R124). -/
def fit20 (t : Text) : Text := (t ++ blankLine).take 20

/-- "a b" is a, one space, b (R124). -/
def spaced (a b : Text) : Text := a ++ 0x20#8 :: b

/-- Leap years within the day numbers: divisible by 4 and not 2100 (R104). -/
def leap (year : Nat) : Bool := decide (year % 4 = 0 ∧ year ≠ 2100)

/-- Length of a year (R104). -/
def yearLength (year : Nat) : Nat := if leap year then 366 else 365

/-- Subtraction of whole years (R104): the year and the remainder. -/
def stripYears : Nat → Nat → Nat → Nat × Nat
  | 0, year, rest => (year, rest)
  | fuel + 1, year, rest =>
    if yearLength year ≤ rest then stripYears fuel (year + 1) (rest - yearLength year) else (year, rest)

/-- Subtraction of whole months (R104): the month, counted from 1, and the remainder. -/
def stripMonths : List Nat → Nat → Nat → Nat × Nat
  | [], month, rest => (month, rest)
  | len :: lens, month, rest => if len ≤ rest then stripMonths lens (month + 1) (rest - len) else (month, rest)

/-- Lengths of January to November; what is left lies in December (R104). -/
def monthLengths (year : Nat) : List Nat :=
  [31, if leap year then 29 else 28, 31, 30, 31, 30, 31, 31, 30, 31, 30]

/-- Year, month and day of the month of a day number (R104). -/
def calendarDate (day : Nat) : Nat × Nat × Nat :=
  let y := stripYears 180 2000 day
  let m := stripMonths (monthLengths y.1) 1 y.2
  (y.1, m.1, m.2 + 1)

/-- A date in 10 characters (R105). -/
def printDate (f : DateFormat) (day : Nat) : Text :=
  let d := calendarDate day
  let yyyy := decimalFixed 4 d.1
  let mm := decimalFixed 2 d.2.1
  let dd := decimalFixed 2 d.2.2
  match f with
  | .dmy => dd ++ ascii "." ++ mm ++ ascii "." ++ yyyy
  | .ymd => yyyy ++ ascii "-" ++ mm ++ ascii "-" ++ dd
  | .mdy => mm ++ ascii "/" ++ dd ++ ascii "/" ++ yyyy

/-- A minute in 5 characters (R105). -/
def printMinute (m : Nat) : Text := decimalFixed 2 (m / 60) ++ ascii ":" ++ decimalFixed 2 (m % 60)

/-! ### The Code Classifier -/

/-- The six outcomes of classification (R29, R37). -/
inductive Classified where
  | borrower (number : Number) (category : Fin 16)
  | item (number : Number) (itemClass : Fin 32)
  | staff (number : Number)
  | ignore
  | refused (r : Reason)
  deriving DecidableEq, Repr

/-- Whether a pattern position holds ANY or the digit that stands there (R31). -/
def patternFits : PatternPos → Nat → Bool
  | .any, _ => true
  | .digit d, x => decide (d.val = x)

/-- Whether an entry matches a scanned string (R31). -/
def entryMatches (e : PrefixEntry) (digits : List Nat) : Bool :=
  e.inUse && decide (e.minLength ≤ digits.length ∧ digits.length ≤ e.maxLength) &&
    decide (e.pattern.length ≤ digits.length) && (e.pattern.zip digits).all fun p => patternFits p.1 p.2

/-- The decimal value of a digit string. -/
def digitsValue (digits : List Nat) : Nat := digits.foldl (fun v d => v * 10 + d) 0

/-- Sum of digits under weights. -/
def weightedSum (digits weights : List Nat) : Nat := ((digits.zip weights).map fun p => p.1 * p.2).sum

/-- The expected check digit under W31 (R35): weights 3, 1, 3, 1 from the left. -/
def w31Expected (data : List Nat) : Nat :=
  (10 - weightedSum data ((List.range data.length).map fun i => if i % 2 = 0 then 3 else 1) % 10) % 10

/-- The expected check digit under M11 (R36): weights 2 to 7 and again, from the right; 10 fits no digit. -/
def m11Expected (data : List Nat) : Nat :=
  (11 - weightedSum data.reverse ((List.range data.length).map fun i => 2 + i % 6) % 11) % 11

/-- Whether the last digit is the check digit of those before it (R35, R36). -/
def checkDigitOk (c : CheckScheme) (digits : List Nat) : Bool :=
  match c with
  | .none => true
  | .w31 => digits.getLast? == some (w31Expected digits.dropLast)
  | .m11 => digits.getLast? == some (m11Expected digits.dropLast)

/-- The check length of R34. -/
def checkLength : CheckScheme → Nat
  | .none => 0
  | .w31 | .m11 => 1

/-- The digits of the number: without the stripped digits and the check digit (R34). -/
def numberDigits (e : PrefixEntry) (digits : List Nat) : List Nat :=
  (digits.take (digits.length - checkLength e.check)).drop e.strip

/-- R34: the number formed, or none when the string leaves no digit or a count outside 4 to 14. -/
def formNumber (e : PrefixEntry) (digits : List Nat) : Option Number :=
  let ds := numberDigits e digits
  if digits.length < e.strip + 1 + checkLength e.check ∨ ds.length < 4 ∨ 14 < ds.length then none
  else some { value := digitsValue ds, digits := ds.length }

/-- Steps 4 to 6 of R29 for a matching entry that is not IGNORE. -/
def codeOf (e : PrefixEntry) (digits : List Nat) (result : Number → Classified) : Classified :=
  match formNumber e digits with
  | none => .refused .badCode
  | some n => if checkDigitOk e.check digits then result n else .refused .badCode

/-- The fate of a scan under the entry that it matches first (R29, R31, R33). -/
def classifyUnder (e : PrefixEntry) (digits : List Nat) : Classified :=
  match e.kind with
  | .ignore => .ignore
  | .borrower => codeOf e digits fun n => .borrower n (Fin.ofNat 16 e.default)
  | .item => codeOf e digits fun n => .item n (Fin.ofNat 32 e.default)
  | .staff => codeOf e digits .staff

/-- The Code Classifier (R29, R30). -/
def classify (table : Vector PrefixEntry 32) (digits : List Nat) : Classified :=
  if 16 < digits.length then .refused .badCode
  else
    match table.toList.find? (entryMatches · digits) with
    | none => .refused .unknownCode
    | some e => classifyUnder e digits

end Machine

end Sys2Proof
end

