-- ==== Sys2Proof/Machine/DueDate.lean ====
section
/-! DEFINITION. The Due-Date Unit (chapter 05): the calendar, its two searches, the DAYS, HOURS and FIXED
computations, ceilings, renewals and pickup days. -/

namespace Sys2Proof.Machine

/-- The last day number (R91). -/
def lastDay : Nat := 65535

/-- The weekday of a day, 0 for Monday (R91). -/
def weekday (day : Nat) : Fin 7 := Fin.ofNat 7 (day + 5)

/-- The profile number of a day (R91). -/
def profileNumber (b : Bank) (day : Nat) : Fin 8 :=
  match b.exceptions.find? (fun e => e.day == day) with
  | some e => e.profile
  | none => b.weekdays[weekday day]

/-- The open and close minutes of a day; none when it is closed (R91). -/
def hoursOf (b : Bank) (day : Nat) : Option Profile :=
  match profileNumber b day with
  | ⟨0, _⟩ => none
  | ⟨n + 1, h⟩ => some b.profiles[n]

/-- The forward search from a day over `n` days, not past the last day (R92): the first open day and its hours. -/
def searchForward (b : Bank) : Nat → Nat → Option (Nat × Profile)
  | _, 0 => none
  | day, n + 1 =>
    if lastDay < day then none
    else
      match hoursOf b day with
      | some p => some (day, p)
      | none => searchForward b (day + 1) n

/-- The backward search over the `n` days below `top`, highest first (R92). -/
def searchBelow (b : Bank) : Nat → Nat → Option (Nat × Profile)
  | _, 0 => none
  | 0, _ + 1 => none
  | top + 1, n + 1 =>
    match hoursOf b top with
    | some p => some (top, p)
    | none => searchBelow b top n

/-- Later by day, then by minute (00 Days, minutes and seconds). -/
def Due.later (a b : Due) : Bool := decide (b.day < a.day) || (decide (a.day = b.day) && decide (b.minute < a.minute))

/-- What the unit hands on: a due with CLAMPED and DUE_ON_CLOSED (R101). -/
structure Computed where
  due : Due
  clamped : Bool
  dueOnClosed : Bool
  deriving DecidableEq, Repr

/-- Inputs of a computation (R93): the decision instant, the category and class records, the cell, the borrower's
`expiry_day` and the calendar. -/
structure DueInput where
  day : Nat
  minute : Nat
  category : CategoryRec
  itemClass : ClassRec
  cell : Cell
  expiryDay : Nat
  bank : Bank
  deriving DecidableEq, Repr

/-- The ceiling (R94). -/
def ceiling (i : DueInput) : Nat :=
  match i.category.termEndDay with
  | none => i.expiryDay
  | some t => if t < i.expiryDay then t else i.expiryDay

/-- R95: the uncapped due of a DAYS computation. -/
def daysDue (i : DueInput) : Computed :=
  let raw := if lastDay < i.day + i.cell.period then lastDay else i.day + i.cell.period
  match searchForward i.bank raw 14 with
  | some (d, p) => { due := { day := d, minute := p.closeMinute }, clamped := false, dueOnClosed := false }
  | none => { due := { day := raw, minute := 1440 }, clamped := false, dueOnClosed := true }

/-- R96: the ceiling step of DAYS and FIXED. -/
def ceilingStep (i : DueInput) (c : Computed) : Except Reason Computed :=
  if c.due.day ≤ ceiling i then .ok c
  else
    match searchBelow i.bank (ceiling i + 1) (ceiling i - i.day) with
    | some (d, p) => .ok { due := { day := d, minute := p.closeMinute }, clamped := true, dueOnClosed := false }
    | none =>
      match hoursOf i.bank i.day with
      | some p =>
        if i.minute < p.closeMinute then
          .ok { due := { day := i.day, minute := p.closeMinute }, clamped := true, dueOnClosed := false }
        else .error .termEnded
      | none => .error .termEnded

/-- R97: the starting cursor, with its day's hours. -/
def cursorStart (i : DueInput) : Except Reason (Nat × Nat × Profile) :=
  let next : Except Reason (Nat × Nat × Profile) :=
    match searchForward i.bank (i.day + 1) 14 with
    | some (d, p) => .ok (d, p.openMinute, p)
    | none => .error .calendarGap
  match hoursOf i.bank i.day with
  | some p =>
    if i.minute < p.openMinute then .ok (i.day, p.openMinute, p)
    else if i.minute < p.closeMinute then .ok (i.day, i.minute, p)
    else next
  | none => next

/-- R98: the walk; the due day, the unrounded due minute and the day's hours.  The cursor moves at most 30 times, so
the first argument bounds the recursion and is never used up from 32. -/
def walk (b : Bank) (start : Nat) : Nat → Nat → Nat → Profile → Nat → Except Reason (Nat × Nat × Profile)
  | 0, _, _, _, _ => .error .calendarGap
  | fuel + 1, day, minute, p, rest =>
    if rest ≤ p.closeMinute - minute then .ok (day, minute + rest, p)
    else
      match searchForward b (day + 1) 14 with
      | none => .error .calendarGap
      | some (d, p') =>
        if start + 30 < d then .error .calendarGap
        else walk b start fuel d p'.openMinute p' (rest - (p.closeMinute - minute))

/-- The least multiple of the step that is not below the minute (R99). -/
def roundUp (step minute : Nat) : Nat := (minute + step - 1) / step * step

/-- R97 to R99: an HOURS computation with its ceiling step. -/
def hoursDue (i : DueInput) : Except Reason Computed :=
  match cursorStart i with
  | .error r => .error r
  | .ok (d0, m0, p0) =>
    match walk i.bank i.day 32 d0 m0 p0 (i.cell.period * 60) with
    | .error r => .error r
    | .ok (d, m, p) =>
      let rounded := roundUp i.cell.roundStep m
      let minute := if p.closeMinute < rounded then p.closeMinute else rounded
      if d ≤ ceiling i then .ok { due := { day := d, minute := minute }, clamped := false, dueOnClosed := false }
      else
        match searchBelow i.bank (ceiling i + 1) (ceiling i + 1 - i.day) with
        | some (d', p') =>
          if Due.later { day := d', minute := p'.closeMinute } { day := i.day, minute := i.minute } then
            .ok { due := { day := d', minute := p'.closeMinute }, clamped := true, dueOnClosed := false }
          else .error .termEnded
        | none => .error .termEnded

/-- R100: a FIXED computation before its ceiling step. -/
def fixedDue (i : DueInput) (f : Nat) : Except Reason Computed :=
  let atClose (d : Nat) (p : Profile) : Computed :=
    { due := { day := d, minute := p.closeMinute }, clamped := false, dueOnClosed := false }
  let back : Except Reason Computed :=
    match searchBelow i.bank f (f - i.day) with
    | some (d, p) => if i.day < d ∨ i.minute < p.closeMinute then .ok (atClose d p) else .error .fixedPast
    | none => .error .fixedPast
  if f < i.day then .error .fixedPast
  else
    match hoursOf i.bank f with
    | some p => if i.day < f ∨ i.minute < p.closeMinute then .ok (atClose f p) else back
    | none => back

/-- The computation R89 chooses, with its ceiling step.  A cell of kind NONE is refused before the unit is run. -/
def chosenDue (i : DueInput) : Except Reason Computed :=
  match i.cell.kind, i.itemClass.fixedDueDay with
  | .none, _ => .error .notLoanable
  | .days, none => ceilingStep i (daysDue i)
  | .hours, none => hoursDue i
  | .days, some f | .hours, some f =>
    match fixedDue i f with
    | .error r => .error r
    | .ok c => ceilingStep i c

/-- R93, R94, R101: a new loan. -/
def newLoanDue (i : DueInput) : Except Reason Computed :=
  if ceiling i < i.day then .error .termEnded
  else
    match chosenDue i with
    | .error r => .error r
    | .ok c =>
      if Due.later c.due { day := i.day, minute := i.minute } then .ok c else .error .calendarGap

/-- R102: a renewal against the old due. -/
def renewalDue (i : DueInput) (old : Due) : Except Reason Computed :=
  match newLoanDue i with
  | .error r => .error r
  | .ok c =>
    if Due.later old c.due then
      if ceiling i < old.day then .error .termEnded
      else .ok { due := old, clamped := false, dueOnClosed := false }
    else .ok c

/-- R103: the pickup day of a hold that becomes WAITING on a day. -/
def pickupDay (b : Bank) (day pickupDays : Nat) : Nat :=
  match searchForward b (day + pickupDays) 14 with
  | some (d, _) => d
  | none => if lastDay < day + pickupDays then lastDay else day + pickupDays

end Sys2Proof.Machine
end

