-- ==== Sys2Proof/Machine/Ops.lean ====
section
/-! DEFINITION. The named operations on the state that every block uses: accessors and updates, station states, the
down lists and displays, send lists and replies, attention causes and the end of an event, journal appends, the
borrower table. -/

namespace Sys2Proof.Machine

/-! ### Accessors and updates -/

def State.port (s : State) (st : Station) : Port := s.ports[st]
def State.console (s : State) (st : Station) : Console := s.consoles[st]
def State.session (s : State) (st : Station) : Session := s.sessions[st]

def State.setPort (s : State) (st : Station) (p : Port) : State := { s with ports := s.ports.set st p }
def State.setConsole (s : State) (st : Station) (c : Console) : State := { s with consoles := s.consoles.set st c }
def State.setSession (s : State) (st : Station) (r : Session) : State := { s with sessions := s.sessions.set st r }

def State.line (s : State) : Line → LineCtl
  | .uplink => s.uplink
  | .supervisor => s.supervisor

def State.setLine (s : State) (l : Line) (c : LineCtl) : State :=
  match l with
  | .uplink => { s with uplink := c }
  | .supervisor => { s with supervisor := c }

def State.bank (s : State) : BankName → Bank
  | .active => s.active
  | .staged => s.staged

def State.setBank (s : State) (n : BankName) (b : Bank) : State :=
  match n with
  | .active => { s with active := b }
  | .staged => { s with staged := b }

/-- The stations in order. -/
def stations : List Station := List.finRange 8

/-- The part takes events: VDD is up and the RESET pin is released (R193, R197). -/
def State.running (s : State) : Bool := s.powered && !s.resetAsserted

/-- The ATTN pin (R190). -/
def State.attn (s : State) : Bool :=
  s.running && CauseSet.meets s.supervisor.pendingSet s.supervisor.enableSet

/-- A station's state (R1). -/
def State.stationState (s : State) (st : Station) : StationState :=
  if (s.port st).bridged then .bridged
  else if !(s.port st).present then .absent
  else if (s.session st).borrower.isSome then .checkout
  else if (s.session st).mode = .returns then .returns
  else .idle

/-- Whether a session is open at some station (R168). -/
def State.anySession (s : State) : Bool := stations.any fun st => (s.session st).borrower.isSome

/-- Whether an item stands in the list of a station's session. -/
def Session.lists (r : Session) (item : Number) : Bool := r.items.any fun e => e.item = item

/-- The owner of the tables (R181). -/
def State.owner (s : State) : Line := if s.uplink.state = .active then .uplink else .supervisor

/-- The other management line. -/
def Line.other : Line → Line
  | .uplink => .supervisor
  | .supervisor => .uplink

/-- Whether a desk key is set: neither sixteen 0x00 nor sixteen 0xFF (R182). -/
def keyIsSet (k : Key) : Bool := decide (k ≠ noKey ∧ k ≠ Vector.replicate 16 0xFF#8)

/-- Whether a line is locked (R182). -/
def State.locked (s : State) (l : Line) : Bool := keyIsSet s.key && !(s.line l).unlocked

/-- The minute of a second of the day (R93). -/
def minuteOf (second : Nat) : Nat := second / 60

/-- Today and now (R4). -/
def State.today (s : State) : Nat := s.clock.now.day
def State.minute (s : State) : Nat := minuteOf s.clock.now.second

/-- An instant counted in seconds (R160). -/
def Instant.seconds (i : Instant) : Nat := i.day * 86400 + i.second

/-- The fresh free value's index, and the state that has used it (log entry 6). -/
def State.useFree (s : State) : State := { s with freeIx := s.freeIx + 1 }

/-! ### Attention causes -/

/-- An edge cause raised on a line (R187). -/
def raise (c : Cause) (l : Line) (s : State) : State :=
  s.setLine l { s.line l with pendingSet := (s.line l).pendingSet.put true c }

/-- An edge cause raised on both lines (R187). -/
def raiseBoth (c : Cause) (s : State) : State := raise c .supervisor (raise c .uplink s)

/-- Unreleased records (R142). -/
def Journal.unreleased (j : Journal) : Nat := j.nextSeq - j.oldest

/-- The record slots of the ring (R141). -/
def ringSlots : Nat := 16384

/-- The reserve (R142). -/
def reserveSlots : Nat := 32

/-- Free slots (R142). -/
def Journal.free (j : Journal) : Nat := ringSlots - j.unreleased - j.claims

/-- The journal's high condition (R149). -/
def State.journalHigh (s : State) : Bool := decide (s.settings.highWater ≤ s.journal.unreleased)

/-- The journal's full condition (R149). -/
def State.journalFull (s : State) : Bool := decide (s.journal.free ≤ reserveSlots)

/-- The condition of CLOCK_HELD (R161). -/
def State.clockHeld (s : State) : Bool := s.clock.held.isSome

/-- A level cause follows its condition's beginning and end (R187). -/
def followLevel (before after : Bool) (c : Cause) (p : CauseSet) : CauseSet :=
  if before = after then p else p.put after c

/-- The pending set of a line after an event that began in `s0` and left `s1` (R187). -/
def followLevels (s0 s1 : State) (p : CauseSet) : CauseSet :=
  followLevel s0.clockHeld s1.clockHeld .clockHeld
    (followLevel s0.journalFull s1.journalFull .journalFull
      (followLevel s0.journalHigh s1.journalHigh .journalHigh p))

/-- Whether a waiting frame is one of the three kinds that R176 limits. -/
def LineFrame.unsolicited : LineFrame → Bool
  | .event .. | .note .. | .pass .. => true
  | .reply .. | .record .. => false

/-- An EVENT, NOTE or PASS frame joins when fewer than 8 of those kinds wait (R176). -/
def joinUnsolicited (f : LineFrame) (list : List LineFrame) : List LineFrame :=
  if list.countP LineFrame.unsolicited < 8 then list ++ [f] else list

/-- Whether a cause is pending and enabled on a line. -/
def LineCtl.reports (c : LineCtl) (k : Cause) : Bool := c.pendingSet.has k && c.enableSet.has k

/-- The EVENT frames an event makes for a line: one for each cause that has come to be pending and enabled (R189). -/
def eventFrames (before after : LineCtl) (clock : Clock) : List LineFrame :=
  if after.state = .active ∧ after.granted.events = true then
    (allCauses.filter fun k => after.reports k && !before.reports k).map fun k =>
      .event k after.pendingSet clock.now clock.valid
  else []

/-- A line at the end of an event: its level causes followed and its EVENT frames made. -/
def settleLine (s0 s1 : State) (before after : LineCtl) : LineCtl :=
  let c := { after with pendingSet := followLevels s0 s1 after.pendingSet }
  { c with sendList := (eventFrames before c s1.clock).foldl (fun list f => joinUnsolicited f list) c.sendList }

/-- The end of an event that began in `s0` and left `s1` (R187, R189; log entry 11). -/
def settle (s0 s1 : State) : State :=
  { s1 with
    uplink := settleLine s0 s1 s0.uplink s1.uplink
    supervisor := settleLine s0 s1 s0.supervisor s1.supervisor }

/-- One event of the running part; while VDD is down or RESET is held no event is taken (R193, R197). -/
def partEvent (f : State → State) (s : State) : Host.Outcome State Fault Refusal :=
  if s.running then .next (settle s (f s)) else .next s

/-- One event that is taken only when its condition holds; else the event does not fall (log entry 1). -/
def guardedEvent (guard : State → Bool) (f : State → State) (s : State) : Host.Outcome State Fault Refusal :=
  partEvent (fun s => if guard s then f s else s) s

/-! ### Down lists and displays -/

/-- Whether a station is IDLE, CHECKOUT or RETURNS, so that its display and sounder are the desk's (R137). -/
def State.atDesk (s : State) (st : Station) : Bool :=
  match s.stationState st with
  | .idle | .checkout | .returns => true
  | .absent | .bridged => false

def DownFrame.isDisplay : DownFrame → Bool
  | .display .. => true
  | _ => false

def DownFrame.isSignal : DownFrame → Bool
  | .signal .. => true
  | _ => false

def DownFrame.isPrint : DownFrame → Bool
  | .print .. | .cut => true
  | _ => false

def DownFrame.isPass : DownFrame → Bool
  | .pass .. => true
  | _ => false

/-- A SHOW takes the place of a waiting one, else it joins the tail (R136). -/
def joinDisplay (f : DownFrame) (down : List DownFrame) : List DownFrame :=
  if down.any DownFrame.isDisplay then down.map fun g => if g.isDisplay then f else g else down ++ [f]

/-- A SIGNAL is dropped when 3 wait (R136). -/
def joinSignal (g : Signal) (down : List DownFrame) : List DownFrame :=
  if down.countP DownFrame.isSignal < 3 then down ++ [.signal g] else down

/-- A signal sounds at a station (R136, R137). -/
def sound (st : Station) (g : Signal) (s : State) : State :=
  if s.atDesk st then s.setPort st { s.port st with down := joinSignal g (s.port st).down } else s

/-- A display change: both lines are padded or cut, stored, and sent as one SHOW (R124, R137). -/
def showLines (st : Station) (a b : Text) (s : State) : State :=
  let stored := s.setConsole st { s.console st with line1 := fit20 a, line2 := fit20 b }
  match s.stationState st with
  | .absent => s
  | .bridged => stored
  | .idle | .checkout | .returns =>
    stored.setPort st { s.port st with down := joinDisplay (.display (fit20 a) (fit20 b)) (s.port st).down }

/-- The station text a refusal reason shows (06 section 6.5). -/
def Reason.textNumber : Reason → Fin 32
  | .badCode => 0
  | .unknownCode => 1
  | .unknownStaff => 2
  | .noBorrower => 3
  | .admin => 4
  | .lostCard => 5
  | .expired => 6
  | .fines => 7
  | .overdue => 8
  | .limit => 9
  | .notLoanable => 10
  | .held => 11
  | .onLoanOther => 12
  | .inOtherSession => 13
  | .renewLimit => 14
  | .fixedPast => 15
  | .termEnded => 16
  | .calendarGap => 17
  | .listFull => 18
  | .journalFull => 19
  | .tableFull => 20
  | .inUseElsewhere => 21
  | .deskClosed => 22

/-- The texts' names in order (06 section 6.5). -/
def textNames : List String :=
  ["BAD_CODE", "UNKNOWN_CODE", "UNKNOWN_STAFF", "NO_BORROWER", "ADMIN", "LOST_CARD", "EXPIRED", "FINES"] ++
    ["OVERDUE", "LIMIT", "NOT_LOANABLE", "HELD", "ON_LOAN_OTHER", "IN_OTHER_SESSION", "RENEW_LIMIT", "FIXED_PAST"] ++
    ["TERM_ENDED", "CALENDAR_GAP", "LIST_FULL", "JOURNAL_FULL", "TABLE_FULL", "IN_USE_ELSEWHERE", "DESK_CLOSED"] ++
    ["READY", "CLOSED", "RETURNS", "WIPED", "PAPER", "SLIP LOST", "RETURNED", "RENEWED", "SESSION END"]

/-- A text as shown: one whose two lines are both spaces shows its name (R124). -/
def State.shownText (s : State) (i : Fin 32) : StationText :=
  let t := s.active.texts[i]
  if t.line1.all (· == 0x20#8) && t.line2.all (· == 0x20#8) then
    { line1 := fit20 (ascii (textNames.getD i.val "")), line2 := blankLine }
  else t

/-- A station text on the display. -/
def showText (st : Station) (i : Fin 32) (s : State) : State :=
  showLines st (s.shownText i).line1 (s.shownText i).line2 s

/-- A station's standing text (R125). -/
def State.standingText (s : State) (st : Station) : Option (Fin 32) :=
  match s.stationState st with
  | .checkout | .absent | .bridged => none
  | .idle =>
    if (s.console st).wiped then some 26
    else if (s.port st).paperOut then some 27
    else if s.day.state = .closed then some 24 else some 23
  | .returns =>
    if (s.console st).wiped then some 26 else if (s.port st).paperOut then some 27 else some 25

/-- A station shows its standing text, if it has one (R125). -/
def showStanding (st : Station) (s : State) : State :=
  match s.standingText st with
  | some i => showText st i s
  | none => s

/-- Every station in IDLE or RETURNS shows its standing text anew (R125, R163). -/
def showStandingAll (s : State) : State := stations.foldl (fun s st => showStanding st s) s

/-! ### Send lists and replies -/

/-- A frame joins a line's send list at its tail (R176). -/
def sendFrame (l : Line) (f : LineFrame) (s : State) : State :=
  s.setLine l { s.line l with sendList := (s.line l).sendList ++ [f] }

/-- An EVENT, NOTE or PASS frame joins a line's send list or is dropped (R176). -/
def sendUnsolicited (l : Line) (f : LineFrame) (s : State) : State :=
  s.setLine l { s.line l with sendList := joinUnsolicited f (s.line l).sendList }

/-- A reply joins the send list; a refused one becomes the line's last error (R176, R183). -/
def sendReply (q : Req) (name : ReqName) (r : Reply) (s : State) : State :=
  let c := s.line q.line
  s.setLine q.line
    { c with
      sendList := c.sendList ++ [.reply q.tag r]
      lastError := if Status.isRefusal r.status then some (r.status, name) else c.lastError }

/-- The final reply of a long operation goes out only while its line is ACTIVE (R173, R184). -/
def finalReply (q : Option Req) (name : ReqName) (r : Reply) (s : State) : State :=
  match q with
  | none => s
  | some q => if (s.line q.line).state = .active then sendReply q name r s else s

/-! ### Borrower table -/

def Bank.borrower (b : Bank) (n : Number) : Option Borrower := b.borrowers.find? fun e => e.number = n

def Bank.mapBorrower (b : Bank) (n : Number) (f : Borrower → Borrower) : Bank :=
  { b with borrowers := b.borrowers.map fun e => if e.number = n then f e else e }

def Bank.dropBorrower (b : Bank) (n : Number) : Bank :=
  { b with borrowers := b.borrowers.filter fun e => e.number ≠ n }

/-- A retiring entry with `pending` 0 and no session leaves the table (R54). -/
def Borrower.leaves (e : Borrower) : Bool := e.retiring && e.pending == 0 && e.sessionStation.isNone

def Bank.dropIfRetired (b : Bank) (n : Number) : Bank :=
  { b with borrowers := b.borrowers.filter fun e => !(decide (e.number = n) && e.leaves) }

/-- Most entries of a borrower table (R43). -/
def borrowerCapacity : Nat := 16384

/-- A candidate for eviction (R48). -/
def Borrower.evictable (e : Borrower) : Bool := e.provisional && e.pending == 0 && e.sessionStation.isNone

/-- The candidate with the lowest `created_seq` (R48). -/
def oldestEvictable : List Borrower → Option Borrower
  | [] => none
  | e :: es =>
    match oldestEvictable es with
    | none => if e.evictable then some e else none
    | some o => if e.evictable && decide (e.createdSeq ≤ o.createdSeq) then some e else some o

/-- A place for a new entry, by eviction when the table is full; none when nothing can be evicted (R47, R48, R57). -/
def Bank.makeRoom (b : Bank) : Option Bank :=
  if b.borrowers.length < borrowerCapacity then some b
  else
    match oldestEvictable b.borrowers with
    | none => none
    | some e => some (b.dropBorrower e.number)

/-- A new entry joins in number order and takes the creation counter's value (R43, R44). -/
def Bank.joinBorrower (b : Bank) (e : Borrower) : Bank :=
  { b with
    borrowers := insertBy (fun x y => x.number.lt y.number) { e with createdSeq := b.nextCreated } b.borrowers
    nextCreated := b.nextCreated + 1 }

/-! ### Journal appends -/

/-- A record as the appending block gives it: its kind alone; the Journal fills the rest (R143). -/
def draft (kind : RecordKind) : Record :=
  { seq := 0, kind := kind, station := none, day := 0, minute := 0, borrower := none, item := none, due := none,
    reason := none, staff := none, flags := noRecordFlags, generation := 0 }

/-- Whether a record's borrower has an entry in the ACTIVE table (R50). -/
def State.counts (s : State) (d : Record) : Bool :=
  match d.borrower with
  | none => false
  | some n => (s.active.borrower n).isSome

/-- The record the Journal writes from a draft (R143). -/
def State.fillRecord (s : State) (d : Record) : Record :=
  { d with
    seq := s.journal.nextSeq, day := s.today, minute := s.minute, generation := s.generation
    flags :=
      { d.flags with
        offline := decide (s.uplink.state ≠ .active), counted := s.counts d, overflowBefore := s.journal.overflow } }

/-- `pending` of the borrower of a record rises by one when the record is COUNTED (R50). -/
def raisePending (d : Record) (b : Bank) : Bank :=
  match d.borrower with
  | none => b
  | some n => b.mapBorrower n fun e => { e with pending := e.pending + 1 }

/-- An append (R145): the record takes `next_seq`, and the overflow flag is cleared (R148). -/
def append (d : Record) (s : State) : State :=
  { s with
    journal :=
      { s.journal with
        records := s.journal.records ++ [s.fillRecord d], nextSeq := s.journal.nextSeq + 1, overflow := false }
    active := raisePending d s.active }

/-- An append above the reserve (R147): a REFUSAL that finds no room is not written. -/
def appendAboveReserve (d : Record) (s : State) : State :=
  if reserveSlots < s.journal.free then append d s else s

/-- A system record (R148): when free is 0 it is dropped and the overflow flag set. -/
def appendSystem (d : Record) (s : State) : State :=
  if 1 ≤ s.journal.free then append d s else { s with journal := { s.journal with overflow := true } }

/-- Claims given back without a record (R146). -/
def releaseClaims (n : Nat) (s : State) : State :=
  { s with journal := { s.journal with claims := s.journal.claims - n } }

/-- An append that consumes a claim (R146). -/
def appendClaimed (d : Record) (s : State) : State := append d (releaseClaims 1 s)

end Sys2Proof.Machine
end

