-- ==== Sys2Proof/Machine/Items.lean ====
section
/-! DEFINITION. Operations of the Item Table and the Open-Loan Cache (chapter 04). -/

namespace Sys2Proof.Machine

/-! ### Item table -/

/-- Most entries of an item table, and most hold records of a bank (R64). -/
def itemCapacity : Nat := 4096

/-- Most records of a hold queue (R66). -/
def queueCapacity : Nat := 4

def Bank.item (b : Bank) (n : Number) : Option Item := b.items.find? fun e => e.number = n

def Bank.mapItem (b : Bank) (n : Number) (f : Item → Item) : Bank :=
  { b with items := b.items.map fun e => if e.number = n then f e else e }

/-- A new entry joins in number order (R64). -/
def Bank.joinItem (b : Bank) (e : Item) : Bank :=
  { b with items := insertBy (fun x y => x.number.lt y.number) e b.items }

/-- An entry with no `class_override` and an empty queue. -/
def Item.spent (e : Item) : Bool := e.classOverride.isNone && e.queue.isEmpty

/-- R65: an entry left with no override and no hold leaves the table. -/
def Bank.tidyItem (b : Bank) (n : Number) : Bank :=
  { b with items := b.items.filter fun e => !(decide (e.number = n) && e.spent) }

/-- A change of an item's queue, with R65 applied. -/
def Bank.mapQueue (b : Bank) (n : Number) (f : List Hold → List Hold) : Bank :=
  (b.mapItem n fun e => { e with queue := f e.queue }).tidyItem n

/-- The bank's hold count (R64). -/
def Bank.holdCount (b : Bank) : Nat := (b.items.map fun e => e.queue.length).sum

/-- The four counts of a bank (R169, R171). -/
def Bank.counts (b : Bank) : BankCounts :=
  { borrowers := b.borrowers.length, items := b.items.length, exceptions := b.exceptions.length,
    holds := b.holdCount }

/-- An item's hold queue; empty when there is no entry (R67). -/
def Bank.queueOf (b : Bank) (n : Number) : List Hold :=
  match b.item n with
  | none => []
  | some e => e.queue

/-- The class of an item: its override, else the barcode's default (R67). -/
def Bank.classOf (b : Bank) (n : Number) (default : Fin 32) : Fin 32 :=
  match b.item n with
  | none => default
  | some e => e.classOverride.getD default

/-- R68: the head leaves a filled queue when it is for the session's borrower. -/
def fillQueue (borrower : Number) : List Hold → List Hold
  | [] => []
  | h :: hs => if h.borrower = borrower then hs else h :: hs

/-- R68 for one list entry. -/
def fillHold (borrower : Number) (b : Bank) (e : ListEntry) : Bank :=
  if e.flags.holdFilled then b.mapQueue e.item (fillQueue borrower) else b

/-- A head becomes WAITING with its pickup day (R69, R70, R103). -/
def waitHead (b : Bank) (day : Nat) : List Hold → List Hold
  | [] => []
  | h :: hs => { h with pickupBy := some (pickupDay b day (b.categories[h.category]).pickupDays) } :: hs

/-! ### Open-loan cache -/

/-- Most entries of the cache (R80). -/
def cacheCapacity : Nat := 4096

def cacheFind (cache : List CacheEntry) (item : Number) : Option CacheEntry := cache.find? fun e => e.item = item

/-- An entry joins at the end; at capacity the oldest leaves first (R80). -/
def cacheJoin (cache : List CacheEntry) (e : CacheEntry) : List CacheEntry :=
  (if cache.length < cacheCapacity then cache else cache.drop 1) ++ [e]

/-- An entry is removed from its place (R83). -/
def cacheRemove (cache : List CacheEntry) (item : Number) : List CacheEntry :=
  cache.filter fun e => e.item ≠ item

/-- Most renewals an entry counts (R81). -/
def renewalsMax : Nat := 9

/-- R81: the cache takes one list entry of a closing session. -/
def cacheTake (borrower : Number) (day : Nat) (cache : List CacheEntry) (e : ListEntry) : List CacheEntry :=
  let fresh (renewals : Nat) : CacheEntry :=
    { item := e.item, borrower := borrower, due := e.due, renewals := renewals, lentDay := day }
  match e.action with
  | .checkout => cacheJoin cache (fresh 0)
  | .renew =>
    if (cacheFind cache e.item).isSome then
      cache.map fun c =>
        if c.item = e.item then { c with due := e.due, renewals := min renewalsMax (c.renewals + 1) } else c
    else cacheJoin cache (fresh 1)

end Sys2Proof.Machine
end

