-- ==== Sys2Proof/Machine/Slips.lean ====
section
/-! DEFINITION. The Slip Composer (chapter 06): composing a slip from a template, the slip queue, printing, SLIP LOST. -/

namespace Sys2Proof.Machine

/-- One slip item (R113): a list entry of a due-date slip, or the returned item of a routing slip, which has no due. -/
structure SlipItem where
  number : Number
  due : Option Due
  flags : EntryFlags
  deriving DecidableEq, Repr

/-- What a slip is composed of besides its template: the masked numbers and pickup date, and the slip items (R114). -/
structure SlipJob where
  borrower : Text
  holdFor : Text
  pickupBy : Text
  items : List SlipItem
  deriving DecidableEq, Repr

/-- The width a stored setting is taken as (R115). -/
def slipWidth (stored : Byte) : Nat := if 48 ≤ stored.toNat then 48 else if 40 ≤ stored.toNat then 40 else 32

/-- Marks separated by single spaces. -/
def joinSpaced : List Text → Text
  | [] => []
  | [t] => t
  | t :: u :: ts => spaced t (joinSpaced (u :: ts))

/-- The FLAGS field (R114). -/
def flagMarks (f : EntryFlags) : Text :=
  joinSpaced
    ((if f.clamped then [ascii "CLAMPED"] else []) ++ (if f.dueOnClosed then [ascii "CLOSED DAY"] else []) ++
      (if f.overridden then [ascii "OVR"] else []) ++ (if f.holdFilled then [ascii "HOLD"] else []) ++
      (if f.renewed then [ascii "RENEWED"] else []))

/-- The text a field writes (R114). -/
def fieldText (s : State) (st : Station) (j : SlipJob) (item : Option SlipItem) : FieldName → Text
  | .today => printDate s.settings.dateFormat s.today
  | .now => printMinute s.minute
  | .borrower => j.borrower
  | .item => (item.map fun i => printNumber i.number).getD []
  | .dueDate => ((item.bind SlipItem.due).map fun d => printDate s.settings.dateFormat d.day).getD []
  | .dueTime => ((item.bind SlipItem.due).map fun d => printMinute d.minute).getD []
  | .count => decimal j.items.length
  | .notice => s.notice.getD []
  | .station => [digitChar st.val]
  | .holdFor => j.holdFor
  | .pickupBy => j.pickupBy
  | .flags => (item.map fun i => flagMarks i.flags).getD []

/-- A field's text written over a line at a column; an empty field writes nothing (R113 step 2). -/
def overlay (line : Text) (column : Nat) (field : Text) : Text :=
  if field = [] then line
  else (line ++ List.replicate (column - line.length) 0x20#8).take column ++ field ++ line.drop (column + field.length)

/-- Trailing spaces removed. -/
def trimRight (t : Text) : Text := (t.reverse.dropWhile (· == 0x20#8)).reverse

/-- One emitted line (R113 steps 1 to 4). -/
def buildLine (width : Nat) (field : FieldName → Text) (l : TemplateLine) : Text :=
  trimRight (((l.slots.foldl (fun t slot => overlay t slot.column (field slot.field)) l.text).take 48).take width)

/-- The walk over a template's lines (R113): `block` is the run of repeated lines met so far. -/
def emitLines (line : Option SlipItem → TemplateLine → Text) (items : List SlipItem) :
    List TemplateLine → List TemplateLine → List Text
  | [], block => items.flatMap fun i => block.map (line (some i))
  | l :: ls, block =>
    if l.repeated then emitLines line items ls (block ++ [l])
    else
      (items.flatMap fun i => block.map (line (some i))) ++ line items.head? l :: emitLines line items ls []

/-- A slip composed for a station (R113, R115). -/
def compose (s : State) (st : Station) (template : Fin 8) (j : SlipJob) : Slip :=
  { lines :=
      emitLines (fun item l => buildLine (slipWidth s.settings.printerWidths[st]) (fieldText s st j item) l) j.items
        s.active.templates[template] [] }

/-- Masking by the category of a borrower entry (R114). -/
def State.maskBorrower (s : State) (n : Number) : Text :=
  match s.active.borrower n with
  | some e => maskNumber (s.active.categories[e.category]).shownDigits n
  | none => maskNumber 0 n

/-- Masking by the category a hold carries (R114). -/
def State.maskHold (s : State) (h : Hold) : Text :=
  maskNumber (s.active.categories[h.category]).shownDigits h.borrower

/-- The due-date slip of a session's list (R116). -/
def dueSlip (s : State) (st : Station) (borrower : Number) (first : ListEntry) (entries : List ListEntry) : Slip :=
  compose s st (s.active.classes[first.itemClass]).checkoutTemplate
    { borrower := s.maskBorrower borrower, holdFor := [], pickupBy := [],
      items := entries.map fun e => { number := e.item, due := some e.due, flags := e.flags } }

/-- The routing slip of a returned item whose head hold is WAITING (R117). -/
def routingSlip (s : State) (st : Station) (item : Number) (itemClass : Fin 32) (h : Hold) : Slip :=
  compose s st (s.active.classes[itemClass]).routingTemplate
    { borrower := [], holdFor := s.maskHold h,
      pickupBy := (h.pickupBy.map (printDate s.settings.dateFormat)).getD [],
      items := [{ number := item, due := none, flags := noEntryFlags }] }

/-- Most slips of a queue (R118). -/
def slipCapacity : Nat := 2

/-- A slip joins the queue, or is dropped with the PRINTER cause (R118); whether it was dropped. -/
def queueSlip (st : Station) (p : Slip) (s : State) : State × Bool :=
  if (s.console st).queue.length < slipCapacity then
    (s.setConsole st { s.console st with queue := (s.console st).queue ++ [p] }, false)
  else (raiseBoth .printer s, true)

/-- After a dropped slip the first display line is the first line of SLIP LOST (R118). -/
def showIfLost (st : Station) (lost : Bool) (s : State) : State :=
  if lost then showLines st (s.shownText 28).line1 (s.console st).line2 s else s

/-- Whether the SLP may send a frame of the head slip (R119). -/
def State.mayPrint (s : State) (st : Station) : Bool :=
  s.atDesk st && !(s.console st).queue.isEmpty && !(s.port st).paperOut && decide (0 < (s.port st).credit) &&
    decide ((s.port st).down.countP DownFrame.isPrint < 8)

/-- A PRINT or CUT joins the tail and costs one credit (R119, R136). -/
def sendPrint (st : Station) (f : DownFrame) (s : State) : State :=
  s.setPort st { s.port st with down := (s.port st).down ++ [f], credit := (s.port st).credit - 1 }

/-- One send of the head slip (R119). -/
def printOne (st : Station) (s : State) : State :=
  let c := s.console st
  match c.queue with
  | [] => s
  | head :: rest =>
    match head.lines[c.headSent]? with
    | some l => (sendPrint st (.print l) s).setConsole st { c with headSent := c.headSent + 1 }
    | none => (sendPrint st .cut s).setConsole st { c with queue := rest, headSent := 0, copy := some head }

/-- The slip queue is dropped (R122). -/
def dropSlips (st : Station) (s : State) : State :=
  s.setConsole st { s.console st with queue := [], headSent := 0 }

end Sys2Proof.Machine
end

