-- ==== Sys2Proof/Machine/DeskDay.lean ====
section
/-! DEFINITION. The Desk-Day Controller's operations (chapter 09): steps of the clock, opening and closing, auto-open
and auto-close, the long-operation slot, the sweep. -/

namespace Sys2Proof.Machine

/-! ### Steps -/

/-- An armed pre-borrower override is removed; a session's override is not touched (R11, R159). -/
def Session.disarm (r : Session) : Session :=
  if r.armedUntil.isSome then
    { r with armedUntil := none, overrideStaff := if r.borrower.isSome then r.overrideStaff else none }
  else r

/-- Every armed override at every station is removed (R159). -/
def disarmAll (s : State) : State := { s with sessions := Vector.ofFn fun st => (s.session st).disarm }

/-- A step of the clock (R159). -/
def stepClock (t : Instant) (s : State) : State := { disarmAll s with clock := { s.clock with now := t } }

/-- The CLOCK_STEP record: its due field is what the clock read before the step (R144, R160). -/
def clockStepDraft (before : Instant) : Record :=
  { draft .clockStep with due := some { day := before.day, minute := minuteOf before.second } }

/-- A step with its CLOCK_STEP record, which carries the day and minute after the step (R144, R160).  DESIGN CHOICE: at a
warm start too, where R196 says that its records carry the clock's day and minute at the start (log entry 34). -/
def recordedStep (t : Instant) (s : State) : State := appendSystem (clockStepDraft s.clock.now) (stepClock t s)

/-- A held time ends (R161). -/
def dropHeld (s : State) : State := { s with clock := { s.clock with held := none } }

/-- R161: a held time is applied at the entry into CLOSED. -/
def applyHeld (s : State) : State :=
  match s.clock.held with
  | none => s
  | some t => recordedStep t (dropHeld s)

/-! ### Scheduled opening and closing -/

/-- The scheduled opening's conditions (R165). -/
def State.mayAutoOpen (s : State) : Bool :=
  s.settings.autoOpen && decide (s.day.state = .closed) && s.clock.valid && decide (s.day.openDay ≠ some s.today) &&
    s.slot.isNone &&
    match hoursOf s.active s.today with
    | none => false
    | some p => decide (p.openMinute ≤ s.minute ∧ s.minute < p.closeMinute)

/-- An opening takes the slot; its day is read once (R164, R165, R166). -/
def beginOpening (q : Option Req) (s : State) : State :=
  { s with slot := some { op := .opening s.today none, requester := q } }

/-- Auto-open is tested (R165). -/
def autoOpenTest (s : State) : State := if s.mayAutoOpen then beginOpening none s else s

/-- The close instant of `open_day`, in seconds (R167). -/
def State.closeInstant (s : State) : Option Nat :=
  s.day.openDay.map fun d =>
    match hoursOf s.active d with
    | some p => d * 86400 + p.closeMinute * 60
    | none => d * 86400 + 86400

/-- Whether the clock stands at or after the close instant. -/
def State.pastClose (s : State) : Bool :=
  match s.closeInstant with
  | none => false
  | some i => decide (i ≤ s.clock.now.seconds)

/-- Whether the clock stands before the close instant. -/
def State.beforeClose (s : State) : Bool :=
  match s.closeInstant with
  | none => false
  | some i => decide (s.clock.now.seconds < i)

/-- The effects of the entry into CLOSED, in order (R168), but for the test of auto-open. -/
def enterClosed (s : State) : State :=
  let s1 := appendSystem (draft .dayClose) s
  let s2 : State :=
    { s1 with
      day := { s1.day with state := .closed, grace := none, graceExpired := false, fresh := false }, notice := none }
  showStandingAll (applyHeld s2)

/-- Entry into CLOSED, and the test of auto-open that follows it (R168). -/
def closeDeskDay (s : State) : State := autoOpenTest (enterClosed s)

/-- The desk-day enters CLOSED in the event that leaves no session open while CLOSING (R168). -/
def closeIfDone (s : State) : State :=
  if s.day.state = .closing ∧ s.anySession = false then closeDeskDay s else s

/-- Entry into CLOSING (R168). -/
def enterClosing (s : State) : State :=
  closeIfDone
    { s with
      day := { s.day with state := .closing, grace := some (s.settings.closingGrace * 60), graceExpired := false } }

/-- Auto-close, tested in an event that began in `s0`: the clock has reached the close instant (R167). -/
def autoCloseTest (s0 s : State) : State :=
  if s.settings.autoClose ∧ s.day.state = .opened ∧ s0.beforeClose ∧ s.pastClose then enterClosing s else s

/-! ### The long-operation slot -/

/-- The slot is released, and auto-open tested (R165, R173). -/
def releaseSlot (s : State) : State := autoOpenTest { s with slot := none }

/-- Whether WIPE holds the slot (R3, R167). -/
def State.wiping (s : State) : Bool :=
  match s.slot with
  | some { op := .wipe, .. } => true
  | _ => false

/-! ### The sweep -/

/-- Items behind the last one visited, in table order (R70). -/
def sweepRest (visited : Option Number) (items : List Item) : List Item :=
  match visited with
  | none => items
  | some n => items.filter fun e => n.lt e.number

/-- A head that the sweep of a day expires (R70). -/
def Hold.expiredOn (h : Hold) (day : Nat) : Bool :=
  match h.pickupBy with
  | some p => decide (p < day)
  | none => false

/-- The due field that carries a pickup day (R103). -/
def pickupDue (day : Nat) : Due := { day := day, minute := 1440 }

/-- The sweep's records name the item and a hold's borrower, with its pickup day, and no station (R70). -/
def sweepDraft (kind : RecordKind) (item : Number) (h : Hold) : Record :=
  { draft kind with item := some item, borrower := some h.borrower, due := h.pickupBy.map pickupDue }

/-- The sweep at one entry (R70). -/
def sweepEntry (day : Nat) (e : Item) (s : State) : State :=
  match e.queue with
  | [] => s
  | h :: hs =>
    if h.expiredOn day then
      let s1 := appendSystem (sweepDraft .holdExpired e.number h) s
      let queue := waitHead s1.active day hs
      let s2 : State := { s1 with active := s1.active.mapQueue e.number fun _ => queue }
      match queue with
      | [] => s2
      | next :: _ => appendSystem (sweepDraft .holdRouted e.number next) s2
    else s

end Sys2Proof.Machine
end

