-- ==== Sys2Proof/Machine/Sessions.lean ====
section
/-! DEFINITION. The Session Engine's operations (chapter 01): the Decision arbiter, refusals, closing, cancelling and
losing a session, the borrower checks, the item checks, returns, and the ends of a bridge. -/

namespace Sys2Proof.Machine

/-! ### The Decision arbiter -/

/-- The order in which the arbiter looks at the stations (R3). -/
def roundRobin (last : Station) : List Station := stations.map fun i => last + 1 + i

/-- The oldest input of a station. -/
def State.oldestInput (s : State) (st : Station) : Option (Station × Input) :=
  match (s.port st).slots with
  | [] => none
  | i :: _ => some (st, i)

/-- The input the arbiter takes next: none while WIPE holds the slot (R3) or a RESTART waits (R197). -/
def State.arbiterPick (s : State) : Option (Station × Input) :=
  if s.wiping || s.restarting.isSome then none else (roundRobin s.lastServed).findSome? s.oldestInput

/-- An input taken: its slot is freed, its station is the one last served (R3), its WIPED mark is cleared (R125), and
an open session's idle timer is reloaded (R5). -/
def takeInput (st : Station) (s : State) : State :=
  let s1 := s.setPort st { s.port st with slots := (s.port st).slots.drop 1 }
  let s2 := s1.setConsole st { s1.console st with wiped := false }
  let s3 : State := { s2 with lastServed := st }
  if s.stationState st = .checkout then s3.setSession st { s3.session st with idle := s3.settings.idleTimeout } else s3

/-- One decision of the arbiter (R4): taken when the input in turn is of the command's kind (log entry 1).  The
decision learns whether the station's WIPED mark was set. -/
def decision (takes : State → Input → Bool) (body : Station → Input → Bool → State → State) (s : State) :
    Host.Outcome State Fault Refusal :=
  partEvent (fun s =>
    match s.arbiterPick with
    | none => s
    | some (st, i) => if takes s i then body st i (s.console st).wiped (takeInput st s) else s) s

/-- What a scan is by the ACTIVE prefix table; a key is no scan. -/
def State.scanOf (s : State) : Input → Option Classified
  | .scan digits => some (classify s.active.prefixTable digits)
  | .key _ => none

/-- A decision without a display of its own shows the standing text after a WIPED mark was cleared (R125). -/
def showUnwiped (st : Station) (wasWiped : Bool) (s : State) : State := if wasWiped then showStanding st s else s

/-! ### Refusals -/

/-- The staff field of a REFUSAL in CHECKOUT: the session's `override_staff` (R13, R144). -/
def State.sessionStaff (s : State) (st : Station) : Option Number :=
  if (s.session st).borrower.isSome then (s.session st).overrideStaff else none

/-- A REFUSAL record (R144). -/
def refusalDraft (st : Station) (r : Reason) (borrower item staff : Option Number) : Record :=
  { draft .refusal with
    station := some st, reason := some (.refusal r), borrower := borrower, item := item, staff := staff }

/-- A refusal: its record above the reserve, the reason text and REFUSE (R4, R8, R17, R25). -/
def refuse (st : Station) (r : Reason) (borrower item staff : Option Number) (s : State) : State :=
  sound st .refuse (showText st r.textNumber (appendAboveReserve (refusalDraft st r borrower item staff) s))

/-- A refusal that names the session's borrower and staff when one is open (R144). -/
def refuseInSession (st : Station) (r : Reason) (item : Option Number) (s : State) : State :=
  refuse st r (s.session st).borrower item (s.sessionStaff st) s

/-! ### The ends of a session -/

/-- Most loans an entry counts (R49). -/
def loansMax : Nat := 255

/-- Whether an entry is a CHECKOUT. -/
def ListEntry.isCheckout (e : ListEntry) : Bool := decide (e.action = .checkout)

/-- Number of CHECKOUT entries of a list. -/
def checkouts (items : List ListEntry) : Nat := items.countP ListEntry.isCheckout

/-- The record of a list entry at its session's close (R19). -/
def closeDraft (st : Station) (borrower : Number) (staff : Option Number) (provisional : Bool) (e : ListEntry) : Record :=
  { draft (if e.isCheckout then .checkout else .renew) with
    station := some st, borrower := some borrower, item := some e.item, due := some e.due
    staff := if e.flags.overridden then staff else none
    flags := { recordFlagsOf e.flags with provisional := provisional } }

/-- The record of a list entry at the warm-start conversion (R27). -/
def convertDraft (st : Station) (borrower : Number) (staff : Option Number) (e : ListEntry) : Record :=
  { closeDraft st borrower staff false e with
    kind := .checkout, flags := { recordFlagsOf e.flags with unconfirmed := true } }

/-- Steps 1 to 4 of a close (R18): the records, `loans_held`, the open-loan cache, the filled holds. -/
def bookItems (mk : ListEntry → Record) (borrower : Number) (items : List ListEntry) (s : State) : State :=
  let s1 := items.foldl (fun s e => appendClaimed (mk e) s) s
  { s1 with
    active :=
      items.foldl (fillHold borrower)
        (s1.active.mapBorrower borrower fun b => { b with loansHeld := min loansMax (b.loansHeld + checkouts items) })
    cache := items.foldl (cacheTake borrower s1.today) s1.cache }

/-- Step 6 of a close (R18): `session_station` becomes absent, and a retired entry leaves. -/
def unlinkBorrower (borrower : Number) (s : State) : State :=
  { s with
    active := (s.active.mapBorrower borrower fun b => { b with sessionStation := none }).dropIfRetired borrower }

/-- Step 5 of a close (R18): a due-date slip for a list that is not empty; whether it was dropped. -/
def slipForClose (st : Station) (borrower : Number) (items : List ListEntry) (s : State) : State × Bool :=
  match items with
  | [] => (s, false)
  | first :: rest => queueSlip st (dueSlip s st borrower first (first :: rest)) s

/-- A session closes (R18), leaving the mode flag given; whether its slip was dropped. -/
def closeSession (st : Station) (mode : Mode) (s : State) : State × Bool :=
  let r := s.session st
  match r.borrower with
  | none => (s.setSession st { r with mode := mode }, false)
  | some b =>
    let provisional := ((s.active.borrower b).map Borrower.provisional).getD false
    let booked := bookItems (closeDraft st b r.overrideStaff provisional) b r.items s
    let slipped := slipForClose st b r.items booked
    ((unlinkBorrower b slipped.1).setSession st { Session.empty with mode := mode }, slipped.2)

/-- A session that closes itself: the standing text, no signal (R20), and the entry into CLOSED when it was the last
while CLOSING (R168). -/
def closeSilently (st : Station) (s : State) : State :=
  let c := closeSession st .normal s
  closeIfDone (showIfLost st c.2 (showStanding st c.1))

/-- A session is cancelled (R21). -/
def cancelSession (st : Station) (s : State) : State :=
  match (s.session st).borrower with
  | none => s
  | some b => (unlinkBorrower b (releaseClaims (s.session st).items.length s)).setSession st Session.empty

/-- The record of an abandoned session (R22). -/
def abandonDraft (st : Station) (r : Session) : Record :=
  { draft .sessionAbandoned with
    station := some st, borrower := r.borrower, reason := some (.count r.items.length), staff := r.overrideStaff }

/-- A session is abandoned (R22). -/
def abandonSession (st : Station) (s : State) : State :=
  let r := s.session st
  match r.borrower with
  | none => s
  | some b =>
    let s1 :=
      match r.items with
      | [] => appendSystem (abandonDraft st r) s
      | _ :: rest => appendClaimed (abandonDraft st r) (releaseClaims rest.length s)
    (unlinkBorrower b s1).setSession st Session.empty

/-- A session is converted at a warm start (R27). -/
def convertSession (s : State) (st : Station) : State :=
  let r := s.session st
  match r.borrower with
  | none => s
  | some b => unlinkBorrower b (bookItems (convertDraft st b r.overrideStaff) b r.items s)

/-- R1: at the entry into ABSENT or BRIDGED the mode flag is NORMAL and an arm is removed. -/
def Session.leaveDesk (r : Session) : Session := { r.disarm with mode := .normal }

/-- A port at the entry into ABSENT (R133, R140). -/
def Port.leave (p : Port) : Port :=
  { p with
    present := false, watch := none, slots := [], credit := 0, paperOut := false, bridged := false, down := [] }

/-- The stored lines become blank and the slip queue is dropped (R122, R124). -/
def Console.leave (c : Console) : Console :=
  { c with queue := [], headSent := 0, line1 := blankLine, line2 := blankLine }

/-- A station becomes ABSENT, with STATION_LOST on both lines (R22, R133, R140). -/
def goAbsent (st : Station) (s : State) : State :=
  let s1 := s.setSession st (s.session st).leaveDesk
  let s2 := s1.setPort st (s1.port st).leave
  raiseBoth .stationLost (s2.setConsole st (s2.console st).leave)

/-- A station is lost (R22, R133), but for the entry into CLOSED that may follow. -/
def loseStation (st : Station) (s : State) : State := goAbsent st (abandonSession st s)

/-! ### The bridge -/

/-- A station is bridged (R138). -/
def beginBridge (st : Station) (s : State) : State :=
  let s1 := s.setSession st (s.session st).leaveDesk
  let p := s1.port st
  s1.setPort st
    { p with
      bridged := true, present := false, slots := [],
      down := p.down.filter fun f => !(f.isDisplay || f.isSignal) }

/-- A bridge ends (R140). -/
def endBridge (st : Station) (s : State) : State :=
  let p := s.port st
  if s.settings.enableMask[st] && p.watch.isSome then
    showStanding st
      (s.setPort st { p with bridged := false, present := true, down := p.down.filter fun f => !f.isPass })
  else goAbsent st s

/-- Every bridge ends (R140, R177). -/
def endBridges (s : State) : State :=
  stations.foldl (fun s st => if (s.port st).bridged then endBridge st s else s) s

/-! ### The borrower scan -/

/-- A staff number's override set in the ACTIVE staff list (R40). -/
def State.overridesOf (s : State) (staff : Number) : Option OverrideSet :=
  (s.active.staff.find? fun e => e.number = staff).map StaffEntry.overrides

/-- Whether a staff member's set holds a reason (R13, R7). -/
def State.covers (s : State) (staff : Option Number) (r : Reason) : Bool :=
  match staff.bind s.overridesOf with
  | none => false
  | some o => overrideHolds o r

/-- A reason, when its check fails. -/
def failing (fails : Bool) (r : Reason) : List Reason := if fails then [r] else []

/-- The checks of R7 that fail, in order. -/
def borrowerFailures (s : State) (st : Station) (e : Borrower) : List Reason :=
  let d := derivedBlocks s.active.categories[e.category] e s.today
  failing (e.sessionStation.any (· ≠ st)) .inUseElsewhere ++ failing e.blocks.admin .admin ++
    failing e.blocks.lostCard .lostCard ++ failing d.expired .expired ++ failing d.fines .fines ++
    failing d.overdue .overdue

/-- The staff member armed at a station. -/
def Session.armedStaff (r : Session) : Option Number := if r.armedUntil.isSome then r.overrideStaff else none

/-- A borrower refused by a check, or for want of room (R8): an arm is consumed, return mode is left. -/
def refuseBorrower (st : Station) (n : Number) (r : Reason) (s : State) : State :=
  let arm := (s.session st).armedStaff
  refuse st r (some n) none arm (s.setSession st (s.session st).leaveDesk)

/-- A session opens on an entry of the ACTIVE table (R9). -/
def openSession (st : Station) (n : Number) (admitted : Bool) (s : State) : State :=
  let r := s.session st
  let s1 := s.setSession st
    { borrower := some n, items := [], overrideStaff := r.armedStaff, armedUntil := none,
      admittedByOverride := admitted, idle := s.settings.idleTimeout, mode := .normal }
  let s2 : State := { s1 with active := s1.active.mapBorrower n fun e => { e with sessionStation := some st } }
  let loans := ((s2.active.borrower n).map Borrower.loansHeld).getD 0
  sound st .accept (showLines st (s2.maskBorrower n) (decimal loans) s2)

/-- A provisional entry (R47). -/
def provisionalEntry (n : Number) (category : Fin 16) : Borrower :=
  { number := n, category := category, expiryDay := lastDay, blocks := { admin := false, lostCard := false },
    finesOwed := 0, overdueItems := 0, loansHeld := 0, pending := 0, sessionStation := none, provisional := true,
    retiring := false, createdSeq := 0 }

/-- A borrower scan taken with no session open at the station (R7, R8, R9). -/
def admitBorrower (st : Station) (n : Number) (category : Fin 16) (s : State) : State :=
  match s.active.borrower n with
  | some e =>
    let fails := borrowerFailures s st e
    match fails.find? (fun r => !(s.covers (s.session st).armedStaff r)) with
    | some r => refuseBorrower st n r s
    | none => openSession st n (!fails.isEmpty) s
  | none =>
    match s.active.makeRoom with
    | none => refuseBorrower st n .tableFull s
    | some b => openSession st n false { s with active := b.joinBorrower (provisionalEntry n category) }

/-- A borrower scan (R6). -/
def borrowerDecision (st : Station) (n : Number) (category : Fin 16) (wasWiped : Bool) (s : State) : State :=
  if s.day.state ≠ .opened then refuse st .deskClosed (some n) none (s.sessionStaff st) s
  else if (s.session st).borrower = some n then showUnwiped st wasWiped (sound st .duplicate s)
  else if (s.session st).borrower.isSome then
    let c := closeSession st .normal s
    showIfLost st c.2 (admitBorrower st n category c.1)
  else admitBorrower st n category s

/-! ### The staff scan -/

/-- How long an arm lasts, in seconds (R11). -/
def armSeconds : Nat := 60

/-- A staff number accepted: an arm in IDLE or RETURNS (R11), the session's override in CHECKOUT (R12). -/
def acceptStaff (st : Station) (n : Number) (s : State) : State :=
  let r := s.session st
  let r1 : Session :=
    if r.borrower.isSome then { r with overrideStaff := some n }
    else { r with overrideStaff := some n, armedUntil := some ((s.clock.now.second + armSeconds) % 86400) }
  sound st .accept (showLines st (s.console st).line1 (printNumber n) (s.setSession st r1))

/-- A staff scan (R11, R12). -/
def staffDecision (st : Station) (n : Number) (s : State) : State :=
  match s.overridesOf n with
  | some _ => acceptStaff st n s
  | none => refuse st .unknownStaff (s.session st).borrower none (some n) s

/-! ### The item scan -/

/-- The borrower entry an item scan reads; an open session's borrower always has one (R2; log entry 19). -/
def State.entryOf (s : State) (n : Number) : Borrower := (s.active.borrower n).getD (provisionalEntry n 0)

/-- A check that an override may cover (R13): refused, or passed and whether it was covered. -/
def coverable (fails covered : Bool) (r : Reason) : Except Reason Bool :=
  if fails then (if covered then .ok true else .error r) else .ok false

/-- A check that no override covers. -/
def required (holds : Bool) (r : Reason) : Except Reason Unit := if holds then .ok () else .error r

/-- Most entries of a list (R14). -/
def listCapacity : Nat := 12

/-- Whether an item stands in the list of an open session of another station (R14), or of any station (R25). -/
def State.listedElsewhere (s : State) (st : Station) (item : Number) : Bool :=
  stations.any fun o => decide (o ≠ st) && (s.session o).lists item
def State.listedAnywhere (s : State) (item : Number) : Bool := stations.any fun o => (s.session o).lists item

/-- What the cache makes of a scan (R15 step 5): the old due of a renewal, none for a checkout. -/
def cacheCheck (s : State) (r : Session) (borrower item : Number) (cell : Cell) :
    Except Reason (Option Due × Bool) :=
  match cacheFind s.cache item with
  | none => .ok (none, false)
  | some c =>
    if c.borrower ≠ borrower then .error .onLoanOther
    else do
      let covered ← coverable (decide (cell.renewLimit ≤ c.renewals)) (s.covers r.overrideStaff .renewLimit) .renewLimit
      .ok (some c.due, covered)

/-- What the hold queue makes of a scan (R15 step 6): HOLD_FILLED, and whether HELD was covered. -/
def holdCheck (s : State) (r : Session) (borrower item : Number) : Except Reason (Bool × Bool) :=
  match s.active.queueOf item with
  | [] => .ok (false, false)
  | h :: _ =>
    if h.borrower = borrower then .ok (true, false)
    else do
      let covered ← coverable true (s.covers r.overrideStaff .held) .held
      .ok (false, covered)

/-- The inputs of the Due-Date Unit (R93). -/
def dueInput (s : State) (e : Borrower) (itemClass : Fin 32) : DueInput :=
  { day := s.today, minute := s.minute, category := s.active.categories[e.category]
    itemClass := s.active.classes[itemClass], cell := s.active.rules[e.category][itemClass]
    expiryDay := e.expiryDay, bank := s.active }

/-- The due of a new loan, or of a renewal against its old due (R93, R102). -/
def dueFor (i : DueInput) : Option Due → Except Reason Computed
  | none => newLoanDue i
  | some old => renewalDue i old

/-- Steps 4 to 9 of the item checks, for an item in no list (R14 to R16): the list entry, or the reason. -/
def itemChecks (s : State) (r : Session) (borrower item : Number) (default : Fin 32) : Except Reason ListEntry := do
  let e := s.entryOf borrower
  let itemClass := s.active.classOf item default
  let cell := s.active.rules[e.category][itemClass]
  let category := s.active.categories[e.category]
  required (decide (cell.kind ≠ .none)) .notLoanable
  let lent ← coverable (!(s.active.classes[itemClass]).loanable) (s.covers r.overrideStaff .notLoanable) .notLoanable
  let (old, renewed) ← cacheCheck s r borrower item cell
  let (filled, held) ← holdCheck s r borrower item
  let limited ←
    coverable (old.isNone && decide (category.loanLimit < e.loansHeld + checkouts r.items + 1))
      (s.covers r.overrideStaff .limit) .limit
  let due ← dueFor (dueInput s e itemClass) old
  required (decide (reserveSlots < s.journal.free)) .journalFull
  return {
    item := item, itemClass := itemClass, action := if old.isSome then .renew else .checkout, due := due.due
    flags := { clamped := due.clamped, dueOnClosed := due.dueOnClosed, holdFilled := filled, renewed := old.isSome
               overridden := r.admittedByOverride || lent || renewed || held || limited } }

/-- An accepted item joins the list with its claim (R16, R146). -/
def acceptItem (st : Station) (e : ListEntry) (s : State) : State :=
  let s1 : State := { s with journal := { s.journal with claims := s.journal.claims + 1 } }
  let s2 := s1.setSession st { s1.session st with items := (s1.session st).items ++ [e] }
  let shown := printNumber e.item
  sound st .accept
    (showLines st (if e.isCheckout then shown else spaced shown (s2.shownText 30).line1)
      (spaced (printDate s2.settings.dateFormat e.due.day) (printMinute e.due.minute)) s2)

/-- An item scan in CHECKOUT (R14 to R17). -/
def lendDecision (st : Station) (borrower item : Number) (default : Fin 32) (wasWiped : Bool) (s : State) : State :=
  let r := s.session st
  if listCapacity ≤ r.items.length then refuseInSession st .listFull (some item) s
  else if r.lists item then showUnwiped st wasWiped (sound st .duplicate s)
  else if s.listedElsewhere st item then refuseInSession st .inOtherSession (some item) s
  else
    match itemChecks s r borrower item default with
    | .error reason => refuseInSession st reason (some item) s
    | .ok e => acceptItem st e s

/-! ### Returns -/

/-- Whether a hold record is QUEUED (R66). -/
def Hold.queued (h : Hold) : Bool := h.pickupBy.isNone

/-- Whether an item's head hold is QUEUED. -/
def State.headQueued (s : State) (item : Number) : Bool := (s.active.queueOf item).head?.any Hold.queued

/-- Why a return is refused (R25). -/
def returnRefusal (s : State) (item : Number) : Option Reason :=
  if s.day.state = .closed then some .deskClosed
  else if s.listedAnywhere item then some .inOtherSession
  else if s.journal.free < reserveSlots + (if s.headQueued item then 2 else 1) then some .journalFull
  else none

/-- A return credits the borrower the cache names and appends the RETURN record (R25, R83). -/
def creditReturn (st : Station) (item : Number) (s : State) : State :=
  let d : Record := { draft .returned with station := some st, item := some item }
  match cacheFind s.cache item with
  | none => appendAboveReserve d s
  | some c =>
    appendAboveReserve { d with borrower := some c.borrower, flags := { noRecordFlags with creditedLocally := true } }
      { s with
        cache := cacheRemove s.cache item
        active := s.active.mapBorrower c.borrower fun b => { b with loansHeld := b.loansHeld - 1 } }

/-- A QUEUED head becomes WAITING at a return, with its HOLD_ROUTED record (R26, R69). -/
def routeHead (st : Station) (item : Number) (s : State) : State :=
  if s.headQueued item then
    let s1 : State := { s with active := s.active.mapQueue item (waitHead s.active s.today) }
    match s1.active.queueOf item with
    | [] => s1
    | h :: _ => appendAboveReserve { sweepDraft .holdRouted item h with station := some st } s1
  else s

/-- A return that passes (R25, R26). -/
def takeReturn (st : Station) (item : Number) (default : Fin 32) (s : State) : State :=
  let s1 := routeHead st item (creditReturn st item s)
  let first := spaced (printNumber item) (s1.shownText 29).line1
  match s1.active.queueOf item with
  | [] => sound st .accept (showLines st first [] s1)
  | h :: _ =>
    let q := queueSlip st (routingSlip s1 st item (s1.active.classOf item default) h) s1
    let pickup := (h.pickupBy.map (printDate s1.settings.dateFormat)).getD []
    sound st .attention (showIfLost st q.2 (showLines st first (spaced pickup (s1.maskHold h)) q.1))

/-- An item scan in RETURNS (R25, R26). -/
def returnDecision (st : Station) (item : Number) (default : Fin 32) (s : State) : State :=
  match returnRefusal s item with
  | some r => refuseInSession st r (some item) s
  | none => takeReturn st item default s

/-- An item scan, by the station's state (R4). -/
def itemDecision (st : Station) (item : Number) (default : Fin 32) (wasWiped : Bool) (s : State) : State :=
  match (s.session st).borrower with
  | some b => lendDecision st b item default wasWiped s
  | none =>
    if (s.session st).mode = .returns then returnDecision st item default s
    else refuseInSession st .noBorrower (some item) s

end Sys2Proof.Machine
end

