-- ==== Sys2Proof/Machine/Wire.lean ====
section
/-! DEFINITION. The bytes on the lines: the CRC, frames and their receivers (R128, R175), the contents of station
frames, request name and status codes, and the journal record's layout (10 section 10.8). -/

namespace Sys2Proof.Machine

/-! ### CRC and frames -/

/-- One bit of the CRC with polynomial x^16 + x^12 + x^5 + 1.  PRESUMED: the most significant bit goes first (log
entry 9). -/
def crcBit (c : BitVec 16) : BitVec 16 := if c.msb then (c <<< 1) ^^^ 0x1021#16 else c <<< 1

def crcByte (c : BitVec 16) (b : Byte) : BitVec 16 :=
  crcBit (crcBit (crcBit (crcBit (crcBit (crcBit (crcBit (crcBit (c ^^^ (b.setWidth 16 <<< 8)))))))))

/-- The 16-bit CRC with initial value 0xFFFF (07 section 7.1, 10 section 10.1). -/
def crc16 (bytes : List Byte) : BitVec 16 := bytes.foldl crcByte 0xFFFF#16

/-- The last `n` bytes of a value, most significant first (10 section 10.8). -/
def bigEndian : Nat → Nat → List Byte
  | 0, _ => []
  | n + 1, v => bigEndian n (v / 256) ++ [BitVec.ofNat 8 v]

/-- The value of bytes, most significant first. -/
def bigEndianValue (bytes : List Byte) : Nat := bytes.foldl (fun v b => v * 256 + b.toNat) 0

/-- What tells the two kinds of frame apart: start byte, size of the length field, range of the length. -/
structure FrameFormat where
  start : Byte
  lengthSize : Nat
  least : Nat
  most : Nat
  deriving DecidableEq, Repr

/-- The station frame (R128). -/
def stationFormat : FrameFormat := { start := 0x5A#8, lengthSize := 1, least := 1, most := 64 }

/-- The line frame (R175). -/
def lineFormat : FrameFormat := { start := 0xC3#8, lengthSize := 2, least := 3, most := 1100 }

/-- A frame on the wire: start, length, body, CRC over length and body. -/
def frameBytes (f : FrameFormat) (body : List Byte) : List Byte :=
  let counted := bigEndian f.lengthSize body.length ++ body
  f.start :: counted ++ bigEndian 2 (crc16 counted).toNat

/-- A receiver takes one byte (R128, R175): its next state, and the body of a good frame that the byte ends. -/
def Receiver.take (f : FrameFormat) (b : Byte) : Receiver → Receiver × Option (List Byte)
  | .looking => (if b = f.start then .length [] else .looking, none)
  | .length got =>
    let bytes := got ++ [b]
    if bytes.length < f.lengthSize then (.length bytes, none)
    else if f.least ≤ bigEndianValue bytes ∧ bigEndianValue bytes ≤ f.most then (.body bytes [], none)
    else (.looking, none)
  | .body lengthBytes got =>
    let bytes := got ++ [b]
    (if bytes.length < bigEndianValue lengthBytes then .body lengthBytes bytes else .crc lengthBytes bytes [], none)
  | .crc lengthBytes content got =>
    let bytes := got ++ [b]
    if bytes.length < 2 then (.crc lengthBytes content bytes, none)
    else (.looking, if bytes = bigEndian 2 (crc16 (lengthBytes ++ content)).toNat then some content else none)

/-- A receiver takes bytes one after the other: its last state and the bodies of the good frames, in order. -/
def Receiver.takeAll (f : FrameFormat) : List Byte → Receiver → Receiver × List (List Byte)
  | [], r => (r, [])
  | b :: bs, r =>
    let one := r.take f b
    let rest := Receiver.takeAll f bs one.1
    (rest.1, one.2.toList ++ rest.2)

/-- A gap abandons a frame in progress, and the byte that ends it is the first byte of a new look (R128, R175). -/
def receiverAfterGap (f : FrameFormat) (next : Byte) : Receiver := (Receiver.looking.take f next).1

/-! ### Station frames -/

/-- The kind bytes of a station frame (10 section 10.8). -/
def heartbeatKind : Byte := 0x10#8
def scanKind : Byte := 0x11#8
def keyKind : Byte := 0x12#8

/-- A HEARTBEAT's content: whether paper is out, and the credit; none when it fails the form test (R129). -/
def heartbeatContent : List Byte → Option (Bool × Nat)
  | [paper, credit] =>
    if paper = 0x00#8 then some (false, credit.toNat) else if paper = 0x01#8 then some (true, credit.toNat) else none
  | _ => none

/-- A KEY's content (R129). -/
def keyContent : List Byte → Option KeyCode
  | [b] =>
    if b = 0x01#8 then some .endKey else if b = 0x02#8 then some .cancel else if b = 0x03#8 then some .returnKey
    else if b = 0x04#8 then some .checkout else if b = 0x05#8 then some .reprint else none
  | _ => none

/-- Whether a character is a digit. -/
def isDigit (b : Byte) : Bool := decide (0x30 ≤ b.toNat ∧ b.toNat ≤ 0x39)

/-- What a SCAN carries: a no-read, or digits. -/
inductive ScanContent where
  | noRead
  | digits (ds : List Nat)
  deriving DecidableEq, Repr

/-- A SCAN's content (R129): symbology code 0 passes whatever digits it carries, at most 24 (07 section 7.1); any
other code needs 4 to 24 digits. -/
def scanContent : List Byte → Option ScanContent
  | [] => none
  | symbology :: chars =>
    if symbology = 0x00#8 then some .noRead
    else if chars.all isDigit ∧ 4 ≤ chars.length ∧ chars.length ≤ 24 then
      some (.digits (chars.map fun c => c.toNat - 0x30))
    else none

def Signal.code : Signal → Byte
  | .accept => 0x01#8
  | .refuse => 0x02#8
  | .wait => 0x03#8
  | .duplicate => 0x04#8
  | .attention => 0x05#8

/-- The body of a downward frame (10 section 10.8); a PASS frame's body goes down as the supervisor gave it (R139). -/
def DownFrame.body : DownFrame → List Byte
  | .display a b => 0x20#8 :: (a ++ b)
  | .signal g => [0x21#8, g.code]
  | .print l => 0x22#8 :: l
  | .cut => [0x23#8]
  | .pass body => body

/-! ### Codes -/

/-- Request name codes (10 section 10.8). -/
def ReqName.code : ReqName → Byte
  | .hello => 0x01#8 | .nop => 0x02#8 | .status => 0x03#8 | .unlock => 0x04#8 | .wipe => 0x05#8
  | .ackAttention => 0x06#8 | .setAttentionMask => 0x07#8 | .readNote => 0x08#8
  | .readBorrower => 0x10#8 | .readItem => 0x11#8 | .readOlc => 0x12#8 | .readRules => 0x13#8
  | .readCalendar => 0x14#8 | .readTemplate => 0x15#8 | .readSettings => 0x16#8
  | .putBorrower => 0x20#8 | .delBorrower => 0x21#8 | .adjustBorrower => 0x22#8 | .putItem => 0x23#8
  | .delItem => 0x24#8 | .addHold => 0x25#8 | .cancelHold => 0x26#8 | .putPrefix => 0x27#8 | .delPrefix => 0x28#8
  | .putStaff => 0x29#8 | .delStaff => 0x2A#8 | .putCategory => 0x2B#8 | .delCategory => 0x2C#8
  | .putClass => 0x2D#8 | .delClass => 0x2E#8 | .putRule => 0x2F#8 | .delRule => 0x30#8 | .putProfile => 0x31#8
  | .delProfile => 0x32#8 | .putWeekday => 0x33#8 | .delWeekday => 0x34#8 | .putException => 0x35#8
  | .delException => 0x36#8 | .putTemplate => 0x37#8 | .delTemplate => 0x38#8 | .putText => 0x39#8
  | .delText => 0x3A#8
  | .upload => 0x40#8 | .release => 0x41#8 | .readJournal => 0x42#8
  | .openDesk => 0x50#8 | .closeDesk => 0x51#8 | .time => 0x52#8 | .setTime => 0x53#8 | .stageBegin => 0x54#8
  | .commit => 0x55#8 | .setSettings => 0x56#8 | .setKey => 0x57#8 | .bridge => 0x58#8 | .unbridge => 0x59#8
  | .restart => 0x5A#8 | .postNote => 0x5B#8
  | .unknown c => c

/-- Whether a name code stands in the code table (10 section 10.8): its five classes are five runs of codes. -/
def codeKnown (code : Byte) : Bool :=
  [(0x01, 0x08), (0x10, 0x16), (0x20, 0x3A), (0x40, 0x42), (0x50, 0x5B)].any fun run =>
    decide (run.1 ≤ code.toNat ∧ code.toNat ≤ run.2)

/-- Reply status codes (10 section 10.3). -/
def Status.code : Status → Byte
  | .ok => 0#8 | .partiallyTaken => 1#8 | .accepted => 2#8 | .busy => 3#8 | .locked => 4#8 | .notOwner => 5#8
  | .badRequest => 6#8 | .badValue => 7#8 | .full => 8#8 | .notFound => 9#8 | .wrongState => 10#8
  | .badKey => 11#8 | .duplicate => 12#8 | .notDrained => 13#8 | .mismatch => 14#8 | .version => 15#8
  | .busyStation => 16#8

def RecordKind.code : RecordKind → Byte
  | .checkout => 1#8 | .renew => 2#8 | .returned => 3#8 | .refusal => 4#8 | .holdRouted => 5#8
  | .holdExpired => 6#8 | .sessionAbandoned => 7#8 | .tableChange => 8#8 | .dayOpen => 9#8 | .dayClose => 10#8
  | .clockStep => 11#8 | .commit => 12#8 | .wiped => 13#8

/-! ### The journal record -/

/-- A bit of a flag field at its place. -/
def bitAt (place : Nat) (b : Bool) : Nat := if b then 2 ^ place else 0

/-- The reason field's value (10 section 10.8). -/
def RecordReason.value : RecordReason → Nat
  | .refusal r => r.textNumber.val
  | .count n => n
  | .request name => name.code.toNat

/-- A number field: its digit count, then its value in 6 bytes; zero bytes when absent. -/
def numberField : Option Number → List Byte
  | none => List.replicate 7 0#8
  | some n => bigEndian 1 n.digits ++ bigEndian 6 n.value

/-- The presence byte. -/
def Record.presence (r : Record) : Nat :=
  bitAt 0 r.station.isSome + bitAt 1 r.borrower.isSome + bitAt 2 r.item.isSome + bitAt 3 r.due.isSome +
    bitAt 4 r.reason.isSome + bitAt 5 r.staff.isSome

/-- The flags field. -/
def RecordFlags.value (f : RecordFlags) : Nat :=
  bitAt 0 f.offline + bitAt 1 f.overridden + bitAt 2 f.unconfirmed + bitAt 3 f.creditedLocally +
    bitAt 4 f.provisional + bitAt 5 f.clamped + bitAt 6 f.dueOnClosed + bitAt 7 f.holdFilled + bitAt 8 f.renewed +
    bitAt 9 f.counted + bitAt 10 f.overflowBefore

/-- A journal record as sent: 44 bytes (10 section 10.8). -/
def Record.bytes (r : Record) : List Byte :=
  bigEndian 4 r.seq ++ [r.kind.code] ++ bigEndian 1 r.presence ++
    bigEndian 1 ((r.station.map Fin.val).getD 0) ++ bigEndian 2 r.day ++ bigEndian 2 r.minute ++
    numberField r.borrower ++ numberField r.item ++
    (bigEndian 2 ((r.due.map Due.day).getD 0) ++ bigEndian 2 ((r.due.map Due.minute).getD 0)) ++
    bigEndian 2 ((r.reason.map RecordReason.value).getD 0) ++ numberField r.staff ++
    bigEndian 2 r.flags.value ++ bigEndian 4 r.generation

/-- The content of a READ_JOURNAL reply (10 section 10.8). -/
def readJournalContent (status : Status) (oldest nextSeq : Nat) (records : List Record) : List Byte :=
  [status.code] ++ bigEndian 4 oldest ++ bigEndian 4 nextSeq ++ bigEndian 1 records.length ++
    records.flatMap Record.bytes

end Sys2Proof.Machine
end

