-- ==== Sys2Proof/Machine/Lines.lean ====
section
/-! DEFINITION. The Line Controller's operations (chapter 10): good frames and liveness, the order of a request's tests,
table writes with their TABLE_CHANGE record, the ends of an upload, line states, the STATUS report. -/

namespace Sys2Proof.Machine

/-! ### Good frames and requests -/

/-- A good line frame: the receiver looks again, and the liveness watch of a line that is ACTIVE or REFUSED restarts
(R175, R177). -/
def goodLineFrame (l : Line) (s : State) : State :=
  let c := s.line l
  s.setLine l { c with receiver := .looking, liveness := if c.state = .down then c.liveness else some 0 }

/-- The event of a good line frame; none is taken while a RESTART waits (R197). -/
def lineEvent (l : Line) (f : State → State) (s : State) : Host.Outcome State Fault Refusal :=
  guardedEvent (fun s => s.restarting.isNone) (fun s => f (goodLineFrame l s)) s

/-- The class BASIC (R179). -/
def ReqName.isBasic : ReqName → Bool
  | .hello | .nop | .status | .unlock | .wipe | .ackAttention | .setAttentionMask | .readNote => true
  | _ => false

/-- R183: the last error becomes absent at step 1 of a request that is not BASIC. -/
def clearLastError (l : Line) (s : State) : State := s.setLine l { s.line l with lastError := none }

/-- A status with no results. -/
def Reply.bare (st : Status) : Reply := { status := st, results := .plain }
def Reply.ok : Reply := Reply.bare .ok

/-- A reply sent with the work of its request. -/
def answer (q : Req) (name : ReqName) (p : State × Reply) : State := sendReply q name p.2 p.1

/-- Steps 1 to 4 of R180: the status that refuses a request before its owning rule, if one does. -/
def gate (q : Req) (name : ReqName) (ownerOnly malformed : Bool) (s : State) : Option Status :=
  match (s.line q.line).state with
  | .down => some .wrongState
  | .refused => some .version
  | .active =>
    if malformed then some .badRequest
    else if !name.isBasic && s.locked q.line then some .locked
    else if ownerOnly && decide (s.owner ≠ q.line) then some .notOwner
    else none

/-- A request handed to its owning rule after the tests of R180; HELLO has its own order (R178). -/
def requestEvent {α : Type} (q : Req) (name : ReqName) (ownerOnly : α → Bool) (c : Content α)
    (rule : α → State → State) (s : State) : Host.Outcome State Fault Refusal :=
  lineEvent q.line (fun s =>
    let s1 := if name.isBasic then s else clearLastError q.line s
    match c with
    | .malformed => answer q name (s1, Reply.bare ((gate q name false true s1).getD .badRequest))
    | .shaped p =>
      match gate q name (ownerOnly p) false s1 with
      | some st => answer q name (s1, Reply.bare st)
      | none => rule p s1) s

/-- A request whose rule makes its one reply in the event. -/
def request {α : Type} (q : Req) (name : ReqName) (ownerOnly : Bool) (c : Content α)
    (rule : α → State → State × Reply) (s : State) : Host.Outcome State Fault Refusal :=
  requestEvent q name (fun _ => ownerOnly) c (fun p s => answer q name (rule p s)) s

/-- A request that only reads: its reply, and nothing else changed. -/
def readRequest {α : Type} (q : Req) (name : ReqName) (c : Content α) (reply : α → State → Reply) (s : State) :
    Host.Outcome State Fault Refusal :=
  request q name false c (fun p s => (s, reply p s)) s

/-- A page of a list: up to `size` entries from an index (R41, R60, R79, R84, R111). -/
def page {α : Type} (size start : Nat) (list : List α) : List α := (list.drop start).take size

/-! ### Table writes -/

/-- A TABLE_CHANGE record (R62, R78, R106, R181). -/
def tableChangeDraft (name : ReqName) (borrower item : Option Number) : Record :=
  { draft .tableChange with reason := some (.request name), borrower := borrower, item := item }

/-- A taken write to the ACTIVE bank from the supervisor line appends its record (R181). -/
def recordWrite (q : Req) (bank : BankName) (name : ReqName) (borrower item : Option Number) (s : State) : State :=
  if bank = .active ∧ q.line = .supervisor then appendSystem (tableChangeDraft name borrower item) s else s

/-- What a table's rule makes of a bank: refused, or the bank and the reply. -/
abbrev WriteResult := Except Status (Bank × Reply)

/-- The tests that come before a write's own rule (R169, R173). -/
def writeBar (bank : BankName) (s : State) : Option Status :=
  if s.slot.isSome then some .busy
  else if bank = .staged ∧ s.stagedState = .empty then some .wrongState
  else none

/-- The work of a TABLE-class write: its tests, its rule, its record. -/
def writeTable (q : Req) (name : ReqName) (bank : BankName) (borrower item : Option Number)
    (rule : Bank → WriteResult) (s : State) : State × Reply :=
  match writeBar bank s with
  | some st => (s, Reply.bare st)
  | none =>
    match rule (s.bank bank) with
    | .error st => (s, Reply.bare st)
    | .ok (b, r) => (recordWrite q bank name borrower item (s.setBank bank b), r)

/-- A TABLE-class write (R169, R173, R179, R181). -/
def tableRequest {α : Type} (q : Req) (name : ReqName) (c : Content α) (bank : α → BankName)
    (borrower item : α → Option Number) (rule : α → Bank → WriteResult) (s : State) :
    Host.Outcome State Fault Refusal :=
  request q name true c (fun p s => writeTable q name (bank p) (borrower p) (item p) (rule p) s) s

/-- A write that names no borrower and no item (R106, R126, R144). -/
def plainWrite {α : Type} (q : Req) (name : ReqName) (c : Content α) (bank : α → BankName)
    (rule : α → Bank → WriteResult) (s : State) : Host.Outcome State Fault Refusal :=
  tableRequest q name c bank (fun _ => none) (fun _ => none) rule s

/-- A write to the calendar: a write taken to the ACTIVE one is followed by the tests of auto-close and auto-open (R165,
R167). -/
def calendarWrite {α : Type} (q : Req) (name : ReqName) (c : Content α) (bank : α → BankName)
    (rule : α → Bank → WriteResult) (s : State) : Host.Outcome State Fault Refusal :=
  request q name true c (fun p s =>
    let w := writeTable q name (bank p) none none (rule p) s
    if bank p = .active ∧ w.2.status.isRefusal = false then (autoOpenTest (autoCloseTest s w.1), w.2) else w) s

/-! ### Uploads -/

/-- R155: `send_mark` is set to `oldest`. -/
def rewind (s : State) : State := { s with journal := { s.journal with sendMark := s.journal.oldest } }

/-- The final reply of an upload (R151). -/
def uploadReply (u : Upload) (j : Journal) : Reply :=
  { status := okOrPartial u.clamped, results := .uploaded u.sent (j.sendMark - 1) }

/-- An upload ends with its final reply (R151, R152). -/
def endUpload (s : State) : State :=
  match s.upload with
  | none => s
  | some u => sendReply { line := .uplink, tag := u.tag } .upload (uploadReply u s.journal) { s with upload := none }

/-- An upload ends without a reply, and the mark is rewound (R152, R155). -/
def cutUpload (s : State) : State := rewind { s with upload := none }

/-! ### Line states -/

/-- What leaving ACTIVE does besides (R177). -/
def leaveActive (l : Line) (s : State) : State :=
  match l with
  | .uplink => raise .uplinkLost .supervisor (cutUpload s)
  | .supervisor => endBridges s

/-- A line with no granted features, LOCKED, without a last error and with nothing to send (R176, R177).  DESIGN CHOICE: a
RECORD frame that still waits in the send list goes with the list (R176); the frame that R152 lets finish is the one on
the wire, which stays (log entry 26). -/
def LineCtl.enter (c : LineCtl) (state : LineState) (liveness : Option Nat) : LineCtl :=
  { c with
    state := state, granted := FeatureSet.empty, unlocked := false, lastError := none, sendList := [],
    liveness := liveness }

/-- A line enters DOWN or REFUSED (R177).  The frames of this event come after its list is emptied. -/
def enterInactive (l : Line) (state : LineState) (liveness : Option Nat) (s : State) : State :=
  let s1 := s.setLine l ((s.line l).enter state liveness)
  if (s.line l).state = .active then leaveActive l s1 else s1

/-! ### STATUS -/

/-- What STATUS says of a line. -/
def State.lineReport (s : State) (l : Line) : LineReport :=
  { state := (s.line l).state, granted := (s.line l).granted, locked := s.locked l }

/-- The operation that holds the slot, by name. -/
def LongOp.name : LongOp → SlotName
  | .wipe => .wipe
  | .stageBegin _ => .stageBegin
  | .commit => .commit
  | .opening _ _ => .opening

/-- The STATUS report on a line (R191). -/
def State.report (s : State) (l : Line) : StatusReport :=
  { deskDay := s.day.state, openDay := s.day.openDay, fresh := s.day.fresh, grace := s.day.grace
    now := s.clock.now, valid := s.clock.valid, held := s.clock.held
    uplink := s.lineReport .uplink, supervisor := s.lineReport .supervisor
    owner := s.owner, keySet := keyIsSet s.key, lastError := (s.line l).lastError
    unreleased := s.journal.unreleased, claims := s.journal.claims, free := s.journal.free
    oldest := s.journal.oldest, sendMark := s.journal.sendMark, nextSeq := s.journal.nextSeq
    uploadTag := s.upload.map Upload.tag
    generation := s.generation, stagedState := s.stagedState
    activeCounts := s.active.counts, stagedCounts := s.staged.counts
    slot := s.slot.map fun k => (k.op.name, k.requester)
    pendingSet := (s.line l).pendingSet, enableSet := (s.line l).enableSet, attn := s.attn
    stations := Vector.ofFn fun st => (s.stationState st, (s.console st).queue.length) }

end Sys2Proof.Machine
end

