-- ==== Sys2Proof/Machine/StartUp.lean ====
section
/-! DEFINITION. Cold start, warm start and the choice between them (chapter 11). -/

namespace Sys2Proof.Machine

/-! ### A staging cut off -/

/-- A fixed array with the elements that were already cleared; elements are numbered from `base`. -/
def clearSome {α : Type} {n : Nat} (cut : Nat → Bool) (base : Nat) (cleared : α) (v : Vector α n) : Vector α n :=
  v.mapIdx fun i x => if cut (base + i) then cleared else x

/-- A list without the entries that were already cleared. -/
def dropSome {α : Type} (cut : Nat → Bool) : Nat → List α → List α
  | _, [] => []
  | base, x :: xs => if cut base then dropSome cut (base + 1) xs else x :: dropSome cut (base + 1) xs

/-- A bank partly cleared (R170).  FREE VALUE: which elements are cleared (log entry 6). -/
def Bank.partlyCleared (cut : Nat → Bool) (b : Bank) : Bank :=
  { prefixTable := clearSome cut 0 PrefixEntry.unused b.prefixTable
    categories := clearSome cut 100 CategoryRec.cleared b.categories
    classes := clearSome cut 200 ClassRec.cleared b.classes
    profiles := clearSome cut 300 Profile.cleared b.profiles
    weekdays := clearSome cut 400 0 b.weekdays
    templates := clearSome cut 500 [] b.templates
    texts := clearSome cut 600 StationText.cleared b.texts
    rules := b.rules.mapIdx fun i row => clearSome cut (1000 + 32 * i) Cell.cleared row
    nextCreated := if cut 2000 then 1 else b.nextCreated
    staff := dropSome cut 3000 b.staff
    exceptions := dropSome cut 4000 b.exceptions
    items := dropSome cut 10000 b.items
    borrowers := dropSome cut 20000 b.borrowers }

/-- A warm start that cuts off a STAGE_BEGIN leaves the staged bank partly cleared (R170, R196). -/
def cutStaging (s : State) : State :=
  match s.slot with
  | some { op := .stageBegin replaced, .. } =>
    { s.useFree with staged := replaced.partlyCleared (Config.stageCleared s.freeIx) }
  | _ => s

/-! ### Warm start -/

/-- Step 1 of a warm start: every volatile value takes its start value (R122, R131, R192, R193). -/
def startVolatile (s : State) : State :=
  { s with
    slot := none, upload := none, restarting := none, lastServed := 7, notice := none
    ports := Vector.replicate 8 Port.start, consoles := Vector.replicate 8 Console.start
    uplink := LineCtl.start, supervisor := LineCtl.start
    toSupervisor := NoteSlot.empty, toServer := NoteSlot.empty
    day := { s.day with grace := none, graceExpired := false } }

/-- Step 2: the scrub left by a WIPE is completed (R199). -/
def finishScrub (s : State) : State := { s with store := { s.store with scrubMark := false, scrubPos := 0 } }

/-- Step 3: the open sessions are converted in station order, and every session record is emptied (R27). -/
def convertSessions (s : State) : State :=
  { stations.foldl convertSession s with sessions := Vector.replicate 8 Session.empty }

/-- Step 4: an OPEN or CLOSING desk-day enters CLOSED (R163, R168), and a held time is applied there; which day and minute
its CLOCK_STEP carries is the model's choice (log entry 34). -/
def closeInterrupted (s : State) : State := if s.day.state = .closed then s else enterClosed s

/-- The level causes whose conditions hold (R192). -/
def State.levelCauses (s : State) : CauseSet :=
  { CauseSet.empty with journalHigh := s.journalHigh, journalFull := s.journalFull, clockHeld := s.clockHeld }

/-- Step 6: the level conditions that hold are pending on both lines (R196). -/
def testLevels (s : State) : State :=
  { s with
    uplink := { s.uplink with pendingSet := s.levelCauses }
    supervisor := { s.supervisor with pendingSet := s.levelCauses } }

/-- A warm start (R196). -/
def warmStart (s : State) : State :=
  autoOpenTest
    (testLevels (rewind (closeInterrupted (convertSessions (finishScrub (startVolatile (cutStaging s)))))))

/-! ### Cold start and the choice -/

/-- A cold start (R195): the reset values; the supplies, the pin, the queue and the free-value counter stay. -/
def coldStart (s : State) : State :=
  { State.reset with
    pending := s.pending, powered := s.powered, resetAsserted := s.resetAsserted, freeIx := s.freeIx }

/-- A start (R194): the marks are read, the backup-fail mark is cleared, and the start is cold when the signature is bad
or the backup supply had failed. -/
def start (s : State) : State :=
  if s.store.signatureGood && !s.store.backupFail then warmStart s else coldStart s

end Sys2Proof.Machine
end

