-- ==== Sys2Proof/Machine/StationCommands.lean ====
section
/-! DEFINITION. The commands of the station lines (chapter 07): heartbeats, scans and keys arriving, frame gaps, the
transmitter, the heartbeat watch, slip sends. -/

namespace Sys2Proof.Machine

/-! ### Good frames -/

/-- A good frame from a station (R128, R129 step 1): the receiver looks again; a station not enabled is ignored. -/
def stationEvent (st : Station) (f : State → State) (s : State) : Host.Outcome State Fault Refusal :=
  partEvent (fun s =>
    let s1 := s.setPort st { s.port st with receiver := .looking }
    if s1.settings.enableMask[st] then f s1 else s1) s

/-- A good frame of a bridged station goes up as a PASS frame while the supervisor line is ACTIVE (R139). -/
def passUp (st : Station) (body : List Byte) (s : State) : State :=
  if s.supervisor.state = .active then sendUnsolicited .supervisor (.pass st body) s else s

/-- Most lines of credit (R119). -/
def creditMax : Nat := 8

/-- R119, R120: the credit and paper state a heartbeat reports, with the effects of a change of paper. -/
def takePaper (st : Station) (out : Bool) (credit : Nat) (s : State) : State :=
  let before := (s.port st).paperOut
  let s1 := s.setPort st { s.port st with watch := some 0, credit := min creditMax credit, paperOut := out }
  if !before && out then
    raiseBoth .printer (if (s1.console st).wiped then s1 else showText st 27 s1)
  else if before && !out then showStanding st s1
  else s1

/-- The first heartbeat of an ABSENT station (R132). -/
def appear (st : Station) (out : Bool) (credit : Nat) (s : State) : State :=
  showStanding st
    (s.setPort st
      { s.port st with present := true, watch := some 0, credit := min creditMax credit, paperOut := out })

/-- HEARTBEAT (R129, R132, R139). -/
def execHeartbeat (st : Station) (content : List Byte) (s : State) : Host.Outcome State Fault Refusal :=
  stationEvent st (fun s =>
    let bridged := (s.port st).bridged
    let s1 := if bridged then passUp st (heartbeatKind :: content) s else s
    match heartbeatContent content with
    | none => s1
    | some (out, credit) =>
      if bridged || (s1.port st).present then takePaper st out credit s1 else appear st out credit s1) s

/-- Most inputs of a station (R135). -/
def slotCapacity : Nat := 2

/-- An input joins the slots or is answered WAIT (R135); none is taken while a RESTART waits (R197). -/
def joinInput (st : Station) (i : Input) (s : State) : State :=
  if !(s.port st).present || s.restarting.isSome then s
  else if (s.port st).slots.length < slotCapacity then
    s.setPort st { s.port st with slots := (s.port st).slots ++ [i] }
  else sound st .wait s

/-- SCAN_FRAME (R129, R130, R135). -/
def execScanFrame (st : Station) (content : List Byte) (s : State) : Host.Outcome State Fault Refusal :=
  stationEvent st (fun s =>
    if (s.port st).bridged then passUp st (scanKind :: content) s
    else
      match scanContent content with
      | none => s
      | some .noRead => sound st .refuse s
      | some (.digits ds) => joinInput st (.scan ds) s) s

/-- KEY_FRAME (R129, R135). -/
def execKeyFrame (st : Station) (content : List Byte) (s : State) : Host.Outcome State Fault Refusal :=
  stationEvent st (fun s =>
    if (s.port st).bridged then passUp st (keyKind :: content) s
    else
      match keyContent content with
      | none => s
      | some k => joinInput st (.key k) s) s

/-- UNKNOWN_KIND_STATION_FRAME (R129, R139): relayed while bridged, else dropped. -/
def execUnknownKindStationFrame (st : Station) (kind : Byte) (content : List Byte) (s : State) :
    Host.Outcome State Fault Refusal :=
  stationEvent st (fun s => if (s.port st).bridged then passUp st (kind :: content) s else s) s

/-! ### Gaps, the transmitter, the watch, the printer -/

/-- STATION_FRAME_GAP (R128). -/
def execStationFrameGap (st : Station) (next : Byte) (s : State) : Host.Outcome State Fault Refusal :=
  partEvent (fun s => s.setPort st { s.port st with receiver := receiverAfterGap stationFormat next }) s

/-- STATION_TRANSMIT (R136): the frame on the wire ends, and the head of the down list follows it. -/
def execStationTransmit (st : Station) (s : State) : Host.Outcome State Fault Refusal :=
  partEvent (fun s =>
    let p := s.port st
    s.setPort st { p with wire := p.down.head?, down := p.down.drop 1 }) s

/-- The watch's end, in seconds (R133). -/
def watchSeconds : Nat := 10

/-- Whether a heartbeat watch has reached 10 s. -/
def Port.watchExpired (p : Port) : Bool := p.watch.any fun n => decide (watchSeconds ≤ n)

/-- HEARTBEAT_WATCH_EXPIRY (R133, R139): a bridged station only stops its watch, any other is lost. -/
def execHeartbeatWatchExpiry (st : Station) (s : State) : Host.Outcome State Fault Refusal :=
  guardedEvent (fun s => (s.port st).watchExpired)
    (fun s =>
      if (s.port st).bridged then s.setPort st { s.port st with watch := none }
      else closeIfDone (loseStation st s)) s

/-- SLIP_SEND (R119). -/
def execSlipSend (st : Station) (s : State) : Host.Outcome State Fault Refusal :=
  guardedEvent (fun s => s.mayPrint st) (printOne st) s

end Sys2Proof.Machine
end

