-- ==== Sys2Proof/Machine/DecisionCommands.lean ====
section
/-! DEFINITION. The Decision arbiter's commands (chapter 01): the scans by what the classifier makes of them, and the
five keys. -/

namespace Sys2Proof.Machine

/-! ### Scans -/

/-- Whether an input is a scan classified BORROWER; likewise below. -/
def isBorrowerScan (s : State) (i : Input) : Bool :=
  match s.scanOf i with
  | some (.borrower _ _) => true
  | _ => false

def isItemScan (s : State) (i : Input) : Bool :=
  match s.scanOf i with
  | some (.item _ _) => true
  | _ => false

def isStaffScan (s : State) (i : Input) : Bool :=
  match s.scanOf i with
  | some (.staff _) => true
  | _ => false

/-- A scan of no effect or refused by the CC (R29, R33). -/
def isOtherScan (s : State) (i : Input) : Bool :=
  match s.scanOf i with
  | some .ignore | some (.refused _) => true
  | _ => false

/-- The decision of a scan, by its classification (R4). -/
def scanDecision (st : Station) (i : Input) (wasWiped : Bool) (s : State) : State :=
  match s.scanOf i with
  | some (.borrower n c) => borrowerDecision st n c wasWiped s
  | some (.item n c) => itemDecision st n c wasWiped s
  | some (.staff n) => staffDecision st n s
  | some .ignore => showUnwiped st wasWiped s
  | some (.refused r) => refuseInSession st r none s
  | none => s

/-- BORROWER_SCAN (R6 to R9). -/
def execBorrowerScan (s : State) : Host.Outcome State Fault Refusal := decision isBorrowerScan scanDecision s

/-- ITEM_SCAN (R14 to R17, R25, R26). -/
def execItemScan (s : State) : Host.Outcome State Fault Refusal := decision isItemScan scanDecision s

/-- STAFF_SCAN (R11, R12). -/
def execStaffScan (s : State) : Host.Outcome State Fault Refusal := decision isStaffScan scanDecision s

/-- IGNORE_OR_CC_REFUSED_SCAN (R4, R29, R33). -/
def execIgnoreOrCcRefusedScan (s : State) : Host.Outcome State Fault Refusal := decision isOtherScan scanDecision s

/-! ### Keys -/

/-- A decision of one key. -/
def keyDecision (k : KeyCode) (body : Station → Bool → State → State) (s : State) :
    Host.Outcome State Fault Refusal :=
  decision (fun _ i => decide (i = .key k)) (fun st _ wasWiped s => body st wasWiped s) s

/-- END_KEY (R20): a session closes, with ACCEPT and the count of its slip's items. -/
def execEndKey (s : State) : Host.Outcome State Fault Refusal :=
  keyDecision .endKey (fun st wasWiped s =>
    if (s.session st).borrower.isSome then
      let count := (s.session st).items.length
      let c := closeSession st .normal s
      let text := c.1.shownText 31
      let shown :=
        if count = 0 then showStanding st c.1 else showLines st text.line1 (spaced (decimal count) text.line2) c.1
      closeIfDone (sound st .accept (showIfLost st c.2 shown))
    else showUnwiped st wasWiped s) s

/-- CANCEL_KEY (R21): a session is dropped; in IDLE or RETURNS an arm is removed (R4, R11).  DESIGN CHOICE: the removal of
an arm leaves the display as it was, the staff number included (log entry 31). -/
def execCancelKey (s : State) : Host.Outcome State Fault Refusal :=
  keyDecision .cancel (fun st wasWiped s =>
    if (s.session st).borrower.isSome then closeIfDone (showStanding st (cancelSession st s))
    else showUnwiped st wasWiped (s.setSession st (s.session st).disarm)) s

/-- RETURN_KEY (R20, R24). -/
def execReturnKey (s : State) : Host.Outcome State Fault Refusal :=
  keyDecision .returnKey (fun st wasWiped s =>
    if (s.session st).borrower.isNone && decide ((s.session st).mode = .returns) then showUnwiped st wasWiped s
    else
      let c := closeSession st .returns s
      closeIfDone (sound st .accept (showIfLost st c.2 (showStanding st c.1)))) s

/-- CHECKOUT_KEY (R24). -/
def execCheckoutKey (s : State) : Host.Outcome State Fault Refusal :=
  keyDecision .checkout (fun st wasWiped s =>
    if (s.session st).borrower.isNone && decide ((s.session st).mode = .returns) then
      showStanding st (s.setSession st { s.session st with mode := .normal })
    else showUnwiped st wasWiped s) s

/-- REPRINT_KEY (R121). -/
def execReprintKey (s : State) : Host.Outcome State Fault Refusal :=
  keyDecision .reprint (fun st wasWiped s =>
    let s1 := showUnwiped st wasWiped s
    match (s1.console st).copy with
    | none => sound st .refuse s1
    | some slip =>
      let q := queueSlip st slip s1
      sound st .accept (showIfLost st q.2 q.1)) s

end Sys2Proof.Machine
end

