-- ==== Sys2Proof/Machine/TimedCommands.lean ====
section
/-! DEFINITION. The part's own timed events: the clock's tick, timers that run out, auto-open, the steps of the long
operations (chapters 01, 09, 11). -/

namespace Sys2Proof.Machine

/-! ### The tick -/

/-- One second on, stopping at the end of the last day (R158, R161). -/
def Instant.tick (t : Instant) : Instant :=
  if t.second < 86399 then { t with second := t.second + 1 }
  else if t.day < lastDay then { day := t.day + 1, second := 0 }
  else t

/-- The clock and a held time rise (R158, R161). -/
def tickClock (s : State) : State :=
  { s with clock := { s.clock with now := s.clock.now.tick, held := s.clock.held.map Instant.tick } }

/-- A watch counts up to its end. -/
def countTo (most : Nat) (watch : Option Nat) : Option Nat := watch.map fun n => min most (n + 1)

/-- The liveness watch's end, in seconds (R177). -/
def livenessSeconds : Nat := 30

/-- The timers that follow the time base (R5, R133, R168, R177; log entry 2). -/
def tickTimers (s : State) : State :=
  { s with
    sessions := Vector.ofFn fun st =>
      if s.stationState st = .checkout then { s.session st with idle := (s.session st).idle - 1 } else s.session st
    day := { s.day with grace := s.day.grace.map (· - 1) }
    ports := Vector.ofFn fun st => { s.port st with watch := countTo watchSeconds (s.port st).watch }
    uplink := { s.uplink with liveness := countTo livenessSeconds s.uplink.liveness }
    supervisor := { s.supervisor with liveness := countTo livenessSeconds s.supervisor.liveness } }

/-- Whether the minute or the day has changed: a minute tick or the rollover (R158). -/
def minuteChanged (before after : Instant) : Bool :=
  decide (before.day ≠ after.day) || decide (minuteOf before.second ≠ minuteOf after.second)

/-- A second of the time base in the running part: the tick, the timers, auto-close (R167) and auto-open (R165). -/
def tickEvent (s : State) : State :=
  let s1 := autoCloseTest s (tickTimers (tickClock s))
  if minuteChanged s.clock.now s1.clock.now then autoOpenTest s1 else s1

/-- CLOCK_TICK (R158).  While the part does not run, the time base alone goes on (R193, R197; log entry 3). -/
def execClockTick (s : State) : Host.Outcome State Fault Refusal :=
  if s.running then partEvent tickEvent s else .next (tickClock s)

/-! ### Timers that run out -/

/-- IDLE_TIMEOUT (R5, R20). -/
def execIdleTimeout (st : Station) (s : State) : Host.Outcome State Fault Refusal :=
  guardedEvent (fun s => decide (s.stationState st = .checkout ∧ (s.session st).idle = 0)) (closeSilently st) s

/-- Whether the second of the day has reached an arm's end, counting across midnight (R11; log entry 5). -/
def armLapsed (second until_ : Nat) : Bool :=
  let left := (until_ + 86400 - second) % 86400
  decide (left = 0 ∨ armSeconds < left)

/-- ARM_LAPSE (R11). -/
def execArmLapse (st : Station) (s : State) : Host.Outcome State Fault Refusal :=
  guardedEvent (fun s => (s.session st).armedUntil.any (armLapsed s.clock.now.second))
    (fun s => s.setSession st (s.session st).disarm) s

/-- Whether the grace timer has reached zero and nothing has been done about it yet. -/
def Day.graceOver (d : Day) : Bool := decide (d.state = .closing ∧ d.grace = some 0 ∧ d.graceExpired = false)

/-- GRACE_EXPIRY (R168): the sessions still open are now to be closed. -/
def execGraceExpiry (s : State) : Host.Outcome State Fault Refusal :=
  guardedEvent (fun s => s.day.graceOver) (fun s => closeIfDone { s with day := { s.day with graceExpired := true } }) s

/-- GRACE_SESSION_CLOSE (R20, R168). -/
def execGraceSessionClose (st : Station) (s : State) : Host.Outcome State Fault Refusal :=
  guardedEvent (fun s => s.day.graceExpired && decide (s.stationState st = .checkout)) (closeSilently st) s

/-! ### Opening -/

/-- AUTO_OPEN (R165). -/
def execAutoOpen (s : State) : Host.Outcome State Fault Refusal :=
  guardedEvent State.mayAutoOpen (beginOpening none) s

/-- The opening under way: its requester, its day and the last item visited. -/
def State.openingUnderWay (s : State) : Option (Option Req × Nat × Option Number) :=
  match s.slot with
  | some { op := .opening day visited, requester := q } => some (q, day, visited)
  | _ => none

/-- One entry of the sweep (R70). -/
def sweepOne (s : State) : State :=
  match s.openingUnderWay with
  | none => s
  | some (q, day, visited) =>
    match sweepRest visited s.active.items with
    | [] => s
    | e :: _ =>
      { sweepEntry day e s with slot := some { op := .opening day (some e.number), requester := q } }

/-- SWEEP_STEP (R70). -/
def execSweepStep (s : State) : Host.Outcome State Fault Refusal := partEvent sweepOne s

/-- The end of an opening, its sweep done (R166 step 3). -/
def endOpening (q : Option Req) (day : Nat) (s : State) : State :=
  let stale := !s.day.fresh
  let s1 := appendSystem (draft .dayOpen) s
  let s2 : State := { s1 with day := { s1.day with state := .opened, openDay := some day }, slot := none }
  let s3 := if stale then raiseBoth .bankStale s2 else s2
  showStandingAll (finalReply q .openDesk { status := .ok, results := .opened day stale } s3)

/-- OPEN_END (R166). -/
def execOpenEnd (s : State) : Host.Outcome State Fault Refusal :=
  partEvent (fun s =>
    match s.openingUnderWay with
    | none => s
    | some (q, day, visited) => if (sweepRest visited s.active.items).isEmpty then endOpening q day s else s) s

/-! ### The other long operations -/

/-- STAGE_BEGIN_END (R170). -/
def execStageBeginEnd (s : State) : Host.Outcome State Fault Refusal :=
  partEvent (fun s =>
    match s.slot with
    | some { op := .stageBegin _, requester := q } =>
      releaseSlot (finalReply q .stageBegin Reply.ok { s with stagedState := .loading })
    | _ => s) s

/-- The generation after a COMMIT: one higher (09 section 9.3, R172); past the field's range a free value (log entry 18). -/
def nextGeneration (g : Nat) : Nat :=
  if g < 4294967295 then g + 1 else (Config.generationPastEnd g).toNat

/-- The change-over of a COMMIT (R172 steps 1 to 6). -/
def changeOver (s : State) : State :=
  let s1 : State :=
    { s with
      active := s.staged, staged := Bank.cleared, stagedState := .empty, cache := []
      generation := nextGeneration s.generation }
  let s2 := appendSystem (draft .commit) s1
  { s2 with day := { s2.day with fresh := true } }

/-- COMMIT_CHANGEOVER (R172). -/
def execCommitChangeover (s : State) : Host.Outcome State Fault Refusal :=
  partEvent (fun s =>
    match s.slot with
    | some { op := .commit, requester := q } =>
      if s.day.state = .closed ∧ s.journal.unreleased = 0 then
        let s1 := changeOver s
        releaseSlot (finalReply q .commit { status := .ok, results := .committed s1.generation } s1)
      else releaseSlot (finalReply q .commit (Reply.bare .notDrained) s)
    | _ => s) s

/-- The last block of the store: 2 MiB in blocks of 256 bytes (chapter 11, R199). -/
def lastBlock : Nat := 8191

/-- Whether the block at a position is the last to be scrubbed.  FREE VALUE (log entry 7). -/
def scrubEnds (counter position : Nat) : Bool := decide (lastBlock ≤ position) || Config.scrubIsLast counter position

/-- SCRUB_BLOCK (R199). -/
def execScrubBlock (s : State) : Host.Outcome State Fault Refusal :=
  partEvent (fun s =>
    match s.slot with
    | some { op := .wipe, requester := q } =>
      if s.store.scrubMark then
        let s1 := s.useFree
        if scrubEnds s.freeIx s.store.scrubPos then releaseSlot (finalReply q .wipe Reply.ok (finishScrub s1))
        else { s1 with store := { s1.store with scrubPos := s1.store.scrubPos + 1 } }
      else s
    | _ => s) s

end Sys2Proof.Machine
end

