-- ==== Sys2Proof/Machine/LineCommands.lean ====
section
/-! DEFINITION. The commands of the management lines (chapter 10): the transmitter, gaps, liveness, PASS frames, HELLO,
the BASIC requests, notes, the key, the bridge, RESTART. -/

namespace Sys2Proof.Machine

/-! ### The line itself -/

/-- LINE_FRAME_GAP (R175). -/
def execLineFrameGap (l : Line) (next : Byte) (s : State) : Host.Outcome State Fault Refusal :=
  guardedEvent (fun s => s.restarting.isNone)
    (fun s => s.setLine l { s.line l with receiver := receiverAfterGap lineFormat next }) s

/-- Whether a frame is the reply of a RESTART. -/
def LineFrame.isRestartReply : LineFrame → Bool
  | .reply _ { results := .restarting, .. } => true
  | _ => false

/-- LINE_TRANSMIT (R176): the frame on the wire ends, and the head of the send list follows it.  The end of a RESTART's
reply begins its warm start (R197). -/
def execLineTransmit (l : Line) (s : State) : Host.Outcome State Fault Refusal :=
  partEvent (fun s =>
    let c := s.line l
    if s.restarting = some l ∧ c.wire.any LineFrame.isRestartReply = true then warmStart s
    else s.setLine l { c with wire := c.sendList.head?, sendList := c.sendList.drop 1 }) s

/-- RESTART_WARM_START (R197): the reply has been sent whole, neither waiting nor on the wire, or its line is DOWN. -/
def execRestartWarmStart (s : State) : Host.Outcome State Fault Refusal :=
  guardedEvent
    (fun s =>
      match s.restarting with
      | none => false
      | some l =>
        let c := s.line l
        decide (c.state = .down) || !(c.sendList.any LineFrame.isRestartReply || c.wire.any LineFrame.isRestartReply))
    warmStart s

/-- Whether a line's liveness watch has reached 30 s (R177). -/
def LineCtl.livenessExpired (c : LineCtl) : Bool := c.liveness.any fun n => decide (livenessSeconds ≤ n)

/-- LIVENESS_EXPIRY (R177); a RESTART whose line enters DOWN starts at once (R197). -/
def execLivenessExpiry (l : Line) (s : State) : Host.Outcome State Fault Refusal :=
  guardedEvent (fun s => (s.line l).livenessExpired)
    (fun s =>
      let s1 := enterInactive l .down none s
      if s1.restarting = some l then warmStart s1 else s1) s

/-- Most PASS frames of a down list (R139). -/
def passCapacity : Nat := 4

/-- A PASS frame for a station (R139). -/
def joinPass (st : Station) (body : List Byte) (s : State) : State :=
  let p := s.port st
  if p.bridged ∧ p.down.countP DownFrame.isPass < passCapacity ∧ 1 ≤ body.length ∧ body.length ≤ 64 then
    s.setPort st { p with down := p.down ++ [.pass body] }
  else s

/-- PASS_DOWN (R139, R175). -/
def execPassDown (station : Nat) (body : List Byte) (s : State) : Host.Outcome State Fault Refusal :=
  lineEvent .supervisor (fun s =>
    if s.supervisor.state = .active then
      if h : station < 8 then joinPass ⟨station, h⟩ body s else s
    else s) s

/-- DROPPED_GOOD_LINE_FRAME (R175): it counts for liveness and does nothing else.  A PASS that names a station on an
ACTIVE supervisor line is no such frame (log entry 25), and a frame of a kind byte that R175 does not list is (log entry
27).  DESIGN CHOICE: so is a PASS with empty content, which names no station, on an ACTIVE supervisor line too (log entry
30). -/
def execDroppedGoodLineFrame (l : Line) (kind : DroppedKind) (s : State) : Host.Outcome State Fault Refusal :=
  guardedEvent
    (fun s =>
      s.restarting.isNone && !decide (kind = .pass ∧ l = .supervisor ∧ s.supervisor.state = .active))
    (goodLineFrame l) s

/-- UNKNOWN_REQUEST_NAME (R180, R183): a name that is not in the code table, or none at all, which is a content too
short.  DESIGN CHOICE: the name that the last error keeps of a REQUEST without one is a FREE VALUE (log entry 28). -/
def execUnknownRequestName (q : Req) (code : Option Byte) (s : State) : Host.Outcome State Fault Refusal :=
  let name := ReqName.unknown (code.getD (Config.missingNameCode s.freeIx))
  lineEvent q.line (fun s =>
    let s1 := clearLastError q.line (if code.isNone then s.useFree else s)
    answer q name (s1, Reply.bare ((gate q name false true s1).getD .badRequest))) s

/-! ### HELLO -/

/-- The protocol version (R178). -/
def versionMajor : Nat := 2
def versionMinor : Nat := 3

/-- A HELLO of the right major version (R178). -/
def acceptHello (q : Req) (wished : FeatureSet) (s : State) : State :=
  let s1 := match q.line with
    | .uplink => cutUpload s
    | .supervisor => s
  let granted := (wished.inter (supportedFeatures q.line)).inter s.settings.allowedFeatures
  let s2 := s1.setLine q.line
    { s1.line q.line with
      state := .active, granted := granted, unlocked := false, lastError := none, liveness := some 0 }
  answer q .hello (s2, { status := .ok, results := .hello versionMajor versionMinor granted q.line })

/-- HELLO (R178, R180 step 2).  DESIGN CHOICE: a malformed HELLO is refused at step 2, before HELLO's own rule, and leaves
the line's lock mark and all else that rule changes as they were, where R182 says that the mark becomes LOCKED at every
HELLO (log entry 29).  R183's clearing at a HELLO cannot be seen there, since the refusal becomes the last error. -/
def execHello (q : Req) (c : Content HelloParams) (s : State) : Host.Outcome State Fault Refusal :=
  lineEvent q.line (fun s =>
    match c with
    | .malformed => answer q .hello (s, Reply.bare .badRequest)
    | .shaped p =>
      if p.major.toNat = versionMajor then acceptHello q p.wished.set s
      else
        answer q .hello
          (enterInactive q.line .refused (some 0) s,
            { status := .version, results := .version versionMajor versionMinor })) s

/-! ### BASIC requests -/

/-- NOP (R179). -/
def execNop (q : Req) (c : Content Unit) (s : State) : Host.Outcome State Fault Refusal :=
  readRequest q .nop c (fun _ _ => Reply.ok) s

/-- STATUS (R191). -/
def execStatus (q : Req) (c : Content Unit) (s : State) : Host.Outcome State Fault Refusal :=
  readRequest q .status c (fun _ s => { status := .ok, results := .status (s.report q.line) }) s

/-- A line's lock mark. -/
def setMark (l : Line) (unlocked : Bool) (s : State) : State := s.setLine l { s.line l with unlocked := unlocked }

/-- UNLOCK (R182). -/
def execUnlock (q : Req) (c : Content Key) (s : State) : Host.Outcome State Fault Refusal :=
  request q .unlock false c (fun k s =>
    if !keyIsSet s.key then (s, Reply.ok)
    else if k = s.key then (setMark q.line true s, Reply.ok)
    else (setMark q.line false s, Reply.bare .badKey)) s

/-- SET_KEY (R182). -/
def execSetKey (q : Req) (c : Content Key) (s : State) : Host.Outcome State Fault Refusal :=
  request q .setKey false c (fun k s =>
    (setMark (Line.other q.line) false (setMark q.line true { s with key := k }), Reply.ok)) s

/-- ACK_ATTENTION (R188). -/
def execAckAttention (q : Req) (c : Content (Named CauseSet)) (s : State) : Host.Outcome State Fault Refusal :=
  request q .ackAttention false c (fun p s =>
    if p.outside then (s, Reply.bare .badValue)
    else
      let pending := (s.line q.line).pendingSet.acknowledge p.set
      (s.setLine q.line { s.line q.line with pendingSet := pending }, { status := .ok, results := .pendingSet pending })) s

/-- SET_ATTENTION_MASK (R188). -/
def execSetAttentionMask (q : Req) (c : Content (Named CauseSet)) (s : State) : Host.Outcome State Fault Refusal :=
  request q .setAttentionMask false c (fun p s =>
    if p.outside then (s, Reply.bare .badValue)
    else
      (s.setLine q.line { s.line q.line with enableSet := p.set },
        { status := .ok, results := .attentionSets (s.line q.line).pendingSet p.set })) s

/-! ### Notes -/

/-- The note slot addressed to a line (10 section 10.4). -/
def State.noteTo (s : State) : Line → NoteSlot
  | .uplink => s.toServer
  | .supervisor => s.toSupervisor

def State.setNoteTo (s : State) (l : Line) (n : NoteSlot) : State :=
  match l with
  | .uplink => { s with toServer := n }
  | .supervisor => { s with toSupervisor := n }

/-- READ_NOTE (R186). -/
def execReadNote (q : Req) (c : Content ReadNoteTarget) (s : State) : Host.Outcome State Fault Refusal :=
  request q .readNote false c (fun p s =>
    match p with
    | .addressed =>
      let n := s.noteTo q.line
      (s.setNoteTo q.line { n with unread := false, overwritten := false },
        { status := .ok, results := .note n.text n.unread n.overwritten })
    | .slips => (s, { status := .ok, results := .notice s.notice })
    | .other => (s, Reply.bare .badValue)) s

/-- Sizes of a note slot and of the desk notice (10 section 10.4). -/
def noteSize : Nat := 64
def noticeSize : Nat := 48

/-- A post to the note slot addressed to a line (R185). -/
def postTo (l : Line) (text : Text) (s : State) : State :=
  let n := s.noteTo l
  let cut := text.take noteSize
  let s1 := s.setNoteTo l { text := some cut, unread := true, overwritten := n.overwritten || n.unread }
  let s2 := raise .note l s1
  if (s2.line l).state = .active ∧ (s2.line l).granted.notes = true then sendUnsolicited l (.note cut) s2 else s2

/-- A post to SLIPS (R123). -/
def postNotice (text : Text) (s : State) : State :=
  { s with notice := if text = [] then none else some (text.take noticeSize) }

/-- POST_NOTE's own rule (R185). -/
def postNoteRule (l : Line) (p : PostNoteParams) (s : State) : State × Reply :=
  if !p.text.all printable then (s, Reply.bare .badValue)
  else
    match p.target with
    | none => (s, Reply.bare .badValue)
    | some .slips => (postNotice p.text s, Reply.bare (okOrPartial (decide (noticeSize < p.text.length))))
    | some .supervisor =>
      if p.text = [] then (s, Reply.bare .badValue)
      else if l = .supervisor then (s, Reply.bare .wrongState)
      else (postTo .supervisor p.text s, Reply.bare (okOrPartial (decide (noteSize < p.text.length))))
    | some .server =>
      if p.text = [] then (s, Reply.bare .badValue)
      else if l = .uplink then (s, Reply.bare .wrongState)
      else (postTo .uplink p.text s, Reply.bare (okOrPartial (decide (noteSize < p.text.length))))

/-- POST_NOTE (R185): owner-only when it names SLIPS. -/
def execPostNote (q : Req) (c : Content PostNoteParams) (s : State) : Host.Outcome State Fault Refusal :=
  requestEvent q .postNote (fun p => decide (p.target = some .slips)) c
    (fun p s => answer q .postNote (postNoteRule q.line p s)) s

/-! ### The bridge -/

/-- BRIDGE (R138). -/
def execBridge (q : Req) (c : Content Nat) (s : State) : Host.Outcome State Fault Refusal :=
  request q .bridge false c (fun n s =>
    if q.line = .uplink then (s, Reply.bare .wrongState)
    else if h : n < 8 then
      match s.stationState ⟨n, h⟩ with
      | .idle | .absent => (beginBridge ⟨n, h⟩ s, Reply.ok)
      | .checkout | .returns | .bridged => (s, Reply.bare .busyStation)
    else (s, Reply.bare .badValue)) s

/-- UNBRIDGE (R140). -/
def execUnbridge (q : Req) (c : Content Nat) (s : State) : Host.Outcome State Fault Refusal :=
  request q .unbridge false c (fun n s =>
    if q.line = .uplink then (s, Reply.bare .wrongState)
    else if h : n < 8 then
      if (s.port ⟨n, h⟩).bridged then (endBridge ⟨n, h⟩ s, Reply.ok) else (s, Reply.bare .wrongState)
    else (s, Reply.bare .badValue)) s

/-! ### RESTART -/

/-- RESTART (R197): its reply goes first, and then the warm start. -/
def execRestart (q : Req) (c : Content Unit) (s : State) : Host.Outcome State Fault Refusal :=
  request q .restart false c
    (fun _ s => ({ s with restarting := some q.line }, { status := .ok, results := .restarting })) s

end Sys2Proof.Machine
end

