-- ==== Sys2Proof/Machine/ReadCommands.lean ====
section
/-! DEFINITION. The READ-class requests. -/

namespace Sys2Proof.Machine

/-- A read's reply. -/
def Reply.found (r : Results) : Reply := { status := .ok, results := r }

/-- Entries a reply carries at most (R41, R84, R111), and in a read of borrowers or items (R60, R79). -/
def longPage : Nat := 16
def shortPage : Nat := 8

/-- READ_BORROWER's reply (R60): the derived blocks are absent while the clock is invalid. -/
def readBorrowerReply (p : BankRead) (s : State) : Reply :=
  match p with
  | .byNumber bank n =>
    match (s.bank bank).borrower n with
    | none => Reply.bare .notFound
    | some e =>
      Reply.found (.borrowerEntry e
        (if s.clock.valid then some (derivedBlocks (s.bank bank).categories[e.category] e s.today) else none))
  | .byIndex bank start =>
    let list := (s.bank bank).borrowers
    Reply.found (.borrowers list.length (page shortPage start list))

/-- READ_BORROWER (R60). -/
def execReadBorrower (q : Req) (c : Content BankRead) (s : State) : Host.Outcome State Fault Refusal :=
  readRequest q .readBorrower c readBorrowerReply s

/-- READ_ITEM's reply (R79). -/
def readItemReply (p : BankRead) (s : State) : Reply :=
  match p with
  | .byNumber bank n =>
    match (s.bank bank).item n with
    | none => Reply.bare .notFound
    | some e => Reply.found (.itemEntry e)
  | .byIndex bank start =>
    let b := s.bank bank
    Reply.found (.items b.items.length b.holdCount (page shortPage start b.items))

/-- READ_ITEM (R79). -/
def execReadItem (q : Req) (c : Content BankRead) (s : State) : Host.Outcome State Fault Refusal :=
  readRequest q .readItem c readItemReply s

/-- READ_OLC's reply (R84). -/
def readOlcReply (p : CacheRead) (s : State) : Reply :=
  match p with
  | .byNumber n =>
    match cacheFind s.cache n with
    | none => Reply.bare .notFound
    | some e => Reply.found (.cacheEntry e (s.cache.findIdx fun x => x.item = n))
  | .byIndex start => Reply.found (.cacheEntries s.cache.length (page longPage start s.cache))

/-- READ_OLC (R84). -/
def execReadOlc (q : Req) (c : Content CacheRead) (s : State) : Host.Outcome State Fault Refusal :=
  readRequest q .readOlc c readOlcReply s

/-- An element of a fixed array named by number; out of range is BAD_VALUE (R39, R111, R126). -/
def elementReply {α : Type} {n : Nat} (v : Vector α n) (i : Nat) (result : α → Results) : Reply :=
  match v[i]? with
  | none => Reply.bare .badValue
  | some x => Reply.found (result x)

/-- READ_RULES' reply (R39, R41, R111). -/
def readRulesReply (p : RulesRead) (s : State) : Reply :=
  match p with
  | .category bank i => elementReply (s.bank bank).categories i .category
  | .itemClass bank i => elementReply (s.bank bank).classes i .itemClass
  | .rule bank i => elementReply (s.bank bank).rules i .ruleRow
  | .codePosition bank i => elementReply (s.bank bank).prefixTable i .prefixEntry
  | .staff bank start =>
    let list := (s.bank bank).staff
    Reply.found (.staff list.length (page longPage start list))

/-- READ_RULES (R111). -/
def execReadRules (q : Req) (c : Content RulesRead) (s : State) : Host.Outcome State Fault Refusal :=
  readRequest q .readRules c readRulesReply s

/-- READ_CALENDAR's reply (R111). -/
def readCalendarReply (p : CalendarRead) (s : State) : Reply :=
  match p with
  | .profiles bank => Reply.found (.profiles (s.bank bank).profiles)
  | .weekdays bank => Reply.found (.weekdays (s.bank bank).weekdays)
  | .exceptions bank start =>
    let list := (s.bank bank).exceptions
    Reply.found (.exceptions list.length (page longPage start list))

/-- READ_CALENDAR (R111). -/
def execReadCalendar (q : Req) (c : Content CalendarRead) (s : State) : Host.Outcome State Fault Refusal :=
  readRequest q .readCalendar c readCalendarReply s

/-- READ_TEMPLATE's reply (R126). -/
def readTemplateReply (p : TemplateRead) (s : State) : Reply :=
  match p with
  | .template bank i => elementReply (s.bank bank).templates i .template
  | .text bank i => elementReply (s.bank bank).texts i .stationText

/-- READ_TEMPLATE (R126). -/
def execReadTemplate (q : Req) (c : Content TemplateRead) (s : State) : Host.Outcome State Fault Refusal :=
  readRequest q .readTemplate c readTemplateReply s

/-- READ_SETTINGS (R179). -/
def execReadSettings (q : Req) (c : Content Unit) (s : State) : Host.Outcome State Fault Refusal :=
  readRequest q .readSettings c (fun _ s => Reply.found (.settings s.settings (keyIsSet s.key))) s

end Sys2Proof.Machine
end

