-- ==== Sys2Proof/Machine/BorrowerCommands.lean ====
section
/-! DEFINITION. The writes to borrower and item tables (chapters 03 and 04). -/

namespace Sys2Proof.Machine

/-- Money and counts at their upper ends (00 Money, R55, R59). -/
def moneyMax : Nat := 9999999
def countMax : Nat := 255

/-- A write that is taken. -/
def taken (b : Bank) (st : Status) (r : Results) : WriteResult := .ok (b, { status := st, results := r })
def takenOk (b : Bank) : WriteResult := taken b .ok .plain

/-! ### Borrowers -/

/-- The fields PUT_BORROWER writes into an entry, `loans_held` apart (R56). -/
def putFields (p : PutBorrowerParams) (category : Fin 16) (e : Borrower) : Borrower :=
  { e with
    category := category, expiryDay := p.expiryDay, blocks := p.blocks.set
    finesOwed := clamp 0 moneyMax p.finesOwed, overdueItems := clamp 0 countMax p.overdueItems
    provisional := false, retiring := false }

/-- Whether a value of a PUT_BORROWER is clamped (R55). -/
def putClamps (p : PutBorrowerParams) : Bool :=
  decide (moneyMax < p.finesOwed ∨ countMax < p.overdueItems ∨ countMax < p.loansHeld)

/-- PUT_BORROWER's rule (R55, R56).  A place for a new entry (R57): eviction is for the ACTIVE table; a STAGED one has no
provisional entry.  DESIGN CHOICE: the reply's `pending` is without the raise by the write's own TABLE_CHANGE record, which
R62 appends after the write (log entry 32). -/
def putBorrowerRule (p : PutBorrowerParams) (b : Bank) : WriteResult :=
  if !p.number.countOk then .error .badValue
  else if h : p.category < 16 then
    if p.blocks.outside then .error .badValue
    else
      let category : Fin 16 := ⟨p.category, h⟩
      let loans := clamp 0 countMax p.loansHeld
      match b.borrower p.number with
      | some e =>
        let keep := decide (0 < e.pending)
        let held := if keep then e.loansHeld else loans
        taken (b.mapBorrower p.number fun x => { putFields p category x with loansHeld := held })
          (okOrPartial (putClamps p || keep)) (.loansAndPending held e.pending)
      | none =>
        match b.makeRoom with
        | none => .error .full
        | some room =>
          taken
            (room.joinBorrower { putFields p category (provisionalEntry p.number category) with loansHeld := loans })
            (okOrPartial (putClamps p)) (.loansAndPending loans 0)
  else .error .badValue

/-- PUT_BORROWER (R55 to R58, R62). -/
def execPutBorrower (q : Req) (c : Content PutBorrowerParams) (s : State) : Host.Outcome State Fault Refusal :=
  tableRequest q .putBorrower c (fun p => p.bank) (fun p => some p.number) (fun _ => none) putBorrowerRule s

/-- DEL_BORROWER's rule (R53). -/
def delBorrowerRule (p : BankNumber) (b : Bank) : WriteResult :=
  if !p.number.countOk then .error .badValue
  else
    match b.borrower p.number with
    | none => .error .notFound
    | some e =>
      let found : Results := .pendingAndSession e.pending e.sessionStation
      if e.retiring = false ∧ e.pending = 0 ∧ e.sessionStation = none then taken (b.dropBorrower p.number) .ok found
      else taken (b.mapBorrower p.number fun x => { x with retiring := true }) .partiallyTaken found

/-- DEL_BORROWER (R53, R62). -/
def execDelBorrower (q : Req) (c : Content BankNumber) (s : State) : Host.Outcome State Fault Refusal :=
  tableRequest q .delBorrower c (fun p => p.bank) (fun p => some p.number) (fun _ => none) delBorrowerRule s

/-- A signed value brought into a range around zero (R59). -/
def clampDelta (most : Nat) (d : Int) : Int := if d < -most then -most else if most < d then most else d

/-- A count changed by a delta, saturating at 0 and at its upper end (R59). -/
def shifted (most : Nat) (v : Nat) (d : Int) : Nat := min most (v + d).toNat

/-- Whether a change meets an end of its range (R59). -/
def saturates (most : Nat) (v : Nat) (d : Int) : Bool := decide ((v : Int) + d < 0 ∨ (most : Int) < v + d)

/-- ADJUST_BORROWER's rule (R59). -/
def adjustBorrowerRule (p : AdjustBorrowerParams) (b : Bank) : WriteResult :=
  if !p.number.countOk then .error .badValue
  else
    match b.borrower p.number with
    | none => .error .notFound
    | some e =>
      let dl := clampDelta countMax p.loansDelta
      let df := clampDelta moneyMax p.finesDelta
      let loans := shifted countMax e.loansHeld dl
      let fines := shifted moneyMax e.finesOwed df
      let cut :=
        decide (dl ≠ p.loansDelta) || decide (df ≠ p.finesDelta) || saturates countMax e.loansHeld dl ||
          saturates moneyMax e.finesOwed df
      taken (b.mapBorrower p.number fun x => { x with loansHeld := loans, finesOwed := fines }) (okOrPartial cut)
        (.loansAndFines loans fines)

/-- ADJUST_BORROWER (R59, R62). -/
def execAdjustBorrower (q : Req) (c : Content AdjustBorrowerParams) (s : State) : Host.Outcome State Fault Refusal :=
  tableRequest q .adjustBorrower c (fun p => p.bank) (fun p => some p.number) (fun _ => none) adjustBorrowerRule s

/-! ### Items and holds -/

/-- PUT_ITEM's rule (R72). -/
def putItemRule (p : PutItemParams) (b : Bank) : WriteResult :=
  if !p.number.countOk then .error .badValue
  else if h : p.itemClass < 32 then
    let override : Option (Fin 32) := some ⟨p.itemClass, h⟩
    if (b.item p.number).isSome then takenOk (b.mapItem p.number fun e => { e with classOverride := override })
    else if b.items.length < itemCapacity then
      takenOk (b.joinItem { number := p.number, classOverride := override, queue := [] })
    else .error .full
  else .error .badValue

/-- PUT_ITEM (R72, R78). -/
def execPutItem (q : Req) (c : Content PutItemParams) (s : State) : Host.Outcome State Fault Refusal :=
  tableRequest q .putItem c (fun p => p.bank) (fun _ => none) (fun p => some p.number) putItemRule s

/-- DEL_ITEM's rule (R65, R73). -/
def delItemRule (p : BankNumber) (b : Bank) : WriteResult :=
  if !p.number.countOk then .error .badValue
  else
    match b.item p.number with
    | none => .error .notFound
    | some e =>
      if e.classOverride = none then .error .notFound
      else
        let b1 := (b.mapItem p.number fun x => { x with classOverride := none }).tidyItem p.number
        if e.queue = [] then takenOk b1 else taken b1 .partiallyTaken (.queueLength e.queue.length)

/-- DEL_ITEM (R73, R78). -/
def execDelItem (q : Req) (c : Content BankNumber) (s : State) : Host.Outcome State Fault Refusal :=
  tableRequest q .delItem c (fun p => p.bank) (fun _ => none) (fun p => some p.number) delItemRule s

/-- The tests of an ADD_HOLD after those of its values (R74). -/
def addHoldBar (p : AddHoldParams) (itemClass : Fin 32) (b : Bank) : Option Status :=
  let queue := b.queueOf p.item
  if !(b.classes[b.classOf p.item itemClass]).holdable then some .wrongState
  else if queue.any fun h => h.borrower = p.borrower then some .duplicate
  else if queueCapacity ≤ queue.length then some .full
  else if itemCapacity ≤ b.holdCount then some .full
  else if b.item p.item = none ∧ itemCapacity ≤ b.items.length then some .full
  else if p.pickupBy.isSome ∧ queue ≠ [] then some .wrongState
  else none

/-- A hold joins an item's queue at its tail, the entry being created if needed (R74, R75). -/
def Bank.joinHold (b : Bank) (item : Number) (h : Hold) : Bank :=
  if (b.item item).isSome then b.mapItem item fun e => { e with queue := e.queue ++ [h] }
  else b.joinItem { number := item, classOverride := none, queue := [h] }

/-- ADD_HOLD's rule (R74, R75). -/
def addHoldRule (p : AddHoldParams) (b : Bank) : WriteResult :=
  if !p.item.countOk || !p.borrower.countOk then .error .badValue
  else if hc : p.category < 16 then
    if hi : p.itemClass < 32 then
      match addHoldBar p ⟨p.itemClass, hi⟩ b with
      | some st => .error st
      | none =>
        taken
          (b.joinHold p.item
            { borrower := p.borrower, category := ⟨p.category, hc⟩, pickupBy := p.pickupBy, placedDay := p.placedDay })
          .ok (.holdPosition (b.queueOf p.item).length)
    else .error .badValue
  else .error .badValue

/-- ADD_HOLD (R74, R75, R78). -/
def execAddHold (q : Req) (c : Content AddHoldParams) (s : State) : Host.Outcome State Fault Refusal :=
  tableRequest q .addHold c (fun p => p.bank) (fun p => some p.borrower) (fun p => some p.item) addHoldRule s

/-- CANCEL_HOLD's rule (R65, R76). -/
def cancelHoldRule (p : CancelHoldParams) (b : Bank) : WriteResult :=
  if !p.item.countOk || !p.borrower.countOk then .error .badValue
  else
    let queue := b.queueOf p.item
    if queue.any fun h => h.borrower = p.borrower then
      taken (b.mapQueue p.item fun q => q.filter fun h => h.borrower ≠ p.borrower) .ok (.queueLength (queue.length - 1))
    else .error .notFound

/-- CANCEL_HOLD (R76, R78). -/
def execCancelHold (q : Req) (c : Content CancelHoldParams) (s : State) : Host.Outcome State Fault Refusal :=
  tableRequest q .cancelHold c (fun p => p.bank) (fun p => some p.borrower) (fun p => some p.item) cancelHoldRule s

end Sys2Proof.Machine
end

