-- ==== Sys2Proof/Machine/TableCommands.lean ====
section
/-! DEFINITION. The writes to the prefix table and staff list (chapter 02), the records and the calendar (chapter 05),
the templates and texts (chapter 06). -/

namespace Sys2Proof.Machine

/-- Whether clamping changes a value. -/
def clamps (lo hi v : Nat) : Bool := decide (v < lo ∨ hi < v)

/-- A write to a numbered element: a number out of range is BAD_VALUE. -/
def writeElement (size index : Nat) (write : Fin size → WriteResult) : WriteResult :=
  if h : index < size then write ⟨index, h⟩ else .error .badValue

/-! ### Prefix table and staff list -/

/-- The default an entry holds: none when the request's is refused; STAFF and IGNORE do not test it and hold 0 (R38). -/
def prefixDefault : CodeKind → Nat → Option Nat
  | .borrower, v => if v ≤ 15 then some v else none
  | .item, v => if v ≤ 31 then some v else none
  | .staff, _ | .ignore, _ => some 0

/-- Whether PUT_PREFIX clamps something: a length or the strip, never the default (R38). -/
def prefixClamps (p : PutPrefixParams) : Bool :=
  clamps 4 16 p.minLength || clamps 4 16 p.maxLength || clamps 0 8 p.strip

/-- The pattern, when every position holds a digit or ANY (R38). -/
def patternOf : List (Option PatternPos) → Option (List PatternPos)
  | [] => some []
  | none :: _ => none
  | some x :: xs => (patternOf xs).map (x :: ·)

/-- PUT_PREFIX's rule (R38). -/
def putPrefixRule (p : PutPrefixParams) (b : Bank) : WriteResult :=
  writeElement 32 p.position fun i =>
    match p.kind, p.check, patternOf p.pattern with
    | some kind, some check, some pattern =>
      let lo := clamp 4 16 p.minLength
      let hi := clamp 4 16 p.maxLength
      if hi < lo ∨ hi < pattern.length then .error .badValue
      else
        match prefixDefault kind p.default with
        | none => .error .badValue
        | some default =>
          let e : PrefixEntry :=
            { inUse := true, pattern := pattern, minLength := lo, maxLength := hi, check := check, kind := kind
              strip := clamp 0 8 p.strip, default := default }
          taken { b with prefixTable := b.prefixTable.set i e } (okOrPartial (prefixClamps p)) .plain
    | _, _, _ => .error .badValue

/-- Positions a pattern can have; more are a malformed body (R38). -/
def patternCapacity : Nat := 16

/-- A content too long for its shape is malformed (R180 step 2). -/
def shapedWhen {α : Type} (fits : α → Bool) : Content α → Content α
  | .malformed => .malformed
  | .shaped p => if fits p then .shaped p else .malformed

/-- PUT_PREFIX (R38). -/
def execPutPrefix (q : Req) (c : Content PutPrefixParams) (s : State) : Host.Outcome State Fault Refusal :=
  plainWrite q .putPrefix (shapedWhen (fun p => decide (p.pattern.length ≤ patternCapacity)) c) (fun p => p.bank)
    putPrefixRule s

/-- DEL_PREFIX's rule (R39). -/
def delPrefixRule (p : BankIndex) (b : Bank) : WriteResult :=
  writeElement 32 p.index fun i =>
    if b.prefixTable[i].inUse then takenOk { b with prefixTable := b.prefixTable.set i PrefixEntry.unused }
    else .error .notFound

/-- DEL_PREFIX (R39). -/
def execDelPrefix (q : Req) (c : Content BankIndex) (s : State) : Host.Outcome State Fault Refusal :=
  plainWrite q .delPrefix c (fun p => p.bank) delPrefixRule s

/-- Most entries of a staff list (R41). -/
def staffCapacity : Nat := 64

/-- PUT_STAFF's rule (R41). -/
def putStaffRule (p : PutStaffParams) (b : Bank) : WriteResult :=
  if !p.number.countOk || p.overrides.outside then .error .badValue
  else if b.staff.any fun e => e.number = p.number then
    takenOk
      { b with
        staff := b.staff.map fun e => if e.number = p.number then { e with overrides := p.overrides.set } else e }
  else if b.staff.length < staffCapacity then
    takenOk
      { b with
        staff :=
          insertBy (fun x y => x.number.lt y.number) { number := p.number, overrides := p.overrides.set } b.staff }
  else .error .full

/-- PUT_STAFF (R41). -/
def execPutStaff (q : Req) (c : Content PutStaffParams) (s : State) : Host.Outcome State Fault Refusal :=
  plainWrite q .putStaff c (fun p => p.bank) putStaffRule s

/-- DEL_STAFF's rule (R41). -/
def delStaffRule (p : BankNumber) (b : Bank) : WriteResult :=
  if b.staff.any fun e => e.number = p.number then
    takenOk { b with staff := b.staff.filter fun e => e.number ≠ p.number }
  else .error .notFound

/-- DEL_STAFF (R41). -/
def execDelStaff (q : Req) (c : Content BankNumber) (s : State) : Host.Outcome State Fault Refusal :=
  plainWrite q .delStaff c (fun p => p.bank) delStaffRule s

/-! ### Records and rules -/

/-- PUT_CATEGORY's rule (R87, R107). -/
def putCategoryRule (p : PutCategoryParams) (b : Bank) : WriteResult :=
  writeElement 16 p.category fun i =>
    let r : CategoryRec :=
      { loanLimit := clamp 0 255 p.loanLimit, fineLimit := clamp 0 moneyMax p.fineLimit
        overdueLimit := clamp 0 255 p.overdueLimit, termEndDay := p.termEndDay
        pickupDays := clamp 1 30 p.pickupDays, shownDigits := clamp 0 14 p.shownDigits }
    let clamped :=
      clamps 0 255 p.loanLimit || clamps 0 moneyMax p.fineLimit || clamps 0 255 p.overdueLimit ||
        clamps 1 30 p.pickupDays || clamps 0 14 p.shownDigits
    taken { b with categories := b.categories.set i r } (okOrPartial clamped) .plain

/-- PUT_CATEGORY (R107). -/
def execPutCategory (q : Req) (c : Content PutCategoryParams) (s : State) : Host.Outcome State Fault Refusal :=
  plainWrite q .putCategory c (fun p => p.bank) putCategoryRule s

/-- DEL_CATEGORY's rule (R107). -/
def delCategoryRule (p : BankIndex) (b : Bank) : WriteResult :=
  writeElement 16 p.index fun i => takenOk { b with categories := b.categories.set i CategoryRec.cleared }

/-- DEL_CATEGORY (R107). -/
def execDelCategory (q : Req) (c : Content BankIndex) (s : State) : Host.Outcome State Fault Refusal :=
  plainWrite q .delCategory c (fun p => p.bank) delCategoryRule s

/-- PUT_CLASS's rule (R88, R107). -/
def putClassRule (p : PutClassParams) (b : Bank) : WriteResult :=
  writeElement 32 p.itemClass fun i =>
    if hc : p.checkoutTemplate < 8 then
      if hr : p.routingTemplate < 8 then
        takenOk
          { b with
            classes := b.classes.set i
              { loanable := p.loanable, fixedDueDay := p.fixedDueDay, holdable := p.holdable
                checkoutTemplate := ⟨p.checkoutTemplate, hc⟩, routingTemplate := ⟨p.routingTemplate, hr⟩ } }
      else .error .badValue
    else .error .badValue

/-- PUT_CLASS (R107). -/
def execPutClass (q : Req) (c : Content PutClassParams) (s : State) : Host.Outcome State Fault Refusal :=
  plainWrite q .putClass c (fun p => p.bank) putClassRule s

/-- DEL_CLASS's rule (R107). -/
def delClassRule (p : BankIndex) (b : Bank) : WriteResult :=
  writeElement 32 p.index fun i => takenOk { b with classes := b.classes.set i ClassRec.cleared }

/-- DEL_CLASS (R107). -/
def execDelClass (q : Req) (c : Content BankIndex) (s : State) : Host.Outcome State Fault Refusal :=
  plainWrite q .delClass c (fun p => p.bank) delClassRule s

/-- The period a kind stores, and whether it was clamped (R108). -/
def periodFor : CellKind → Nat → Nat × Bool
  | .days, v => (clamp 1 180 v, clamps 1 180 v)
  | .hours, v => (clamp 1 72 v, clamps 1 72 v)
  | .none, _ => (1, false)

/-- The step stored for a written one (R108). -/
def roundStepFor (v : Nat) : Nat := if v ≤ 1 then 1 else if v ≤ 5 then 5 else if v ≤ 15 then 15 else 30

/-- PUT_RULE's rule (R89, R108). -/
def putRuleRule (p : PutRuleParams) (b : Bank) : WriteResult :=
  writeElement 16 p.category fun i =>
    writeElement 32 p.itemClass fun j =>
      match p.kind with
      | none => .error .badValue
      | some kind =>
        let period := periodFor kind p.period
        let cell : Cell :=
          { kind := kind, period := period.1, renewLimit := clamp 0 9 p.renewLimit
            roundStep := roundStepFor p.roundStep }
        let changed := period.2 || clamps 0 9 p.renewLimit || decide (roundStepFor p.roundStep ≠ p.roundStep)
        taken { b with rules := b.rules.set i (b.rules[i].set j cell) } (okOrPartial changed) .plain

/-- PUT_RULE (R108). -/
def execPutRule (q : Req) (c : Content PutRuleParams) (s : State) : Host.Outcome State Fault Refusal :=
  plainWrite q .putRule c (fun p => p.bank) putRuleRule s

/-- DEL_RULE's rule (R108). -/
def delRuleRule (p : DelRuleParams) (b : Bank) : WriteResult :=
  writeElement 16 p.category fun i =>
    writeElement 32 p.itemClass fun j => takenOk { b with rules := b.rules.set i (b.rules[i].set j Cell.cleared) }

/-- DEL_RULE (R108). -/
def execDelRule (q : Req) (c : Content DelRuleParams) (s : State) : Host.Outcome State Fault Refusal :=
  plainWrite q .delRule c (fun p => p.bank) delRuleRule s

/-! ### The calendar -/

/-- A write to a profile 1 to 7; profile 0 cannot be written (R90, R109). -/
def writeProfile (number : Nat) (p : Profile) (b : Bank) : WriteResult :=
  match number with
  | 0 => .error .badValue
  | n + 1 => writeElement 7 n fun i => takenOk { b with profiles := b.profiles.set i p }

/-- PUT_PROFILE's rule (R109). -/
def putProfileRule (p : PutProfileParams) (b : Bank) : WriteResult :=
  if 1439 < p.openMinute ∨ 1440 < p.closeMinute ∨ p.closeMinute ≤ p.openMinute then .error .badValue
  else writeProfile p.profile { openMinute := p.openMinute, closeMinute := p.closeMinute } b

/-- PUT_PROFILE (R109). -/
def execPutProfile (q : Req) (c : Content PutProfileParams) (s : State) : Host.Outcome State Fault Refusal :=
  calendarWrite q .putProfile c (fun p => p.bank) putProfileRule s

/-- DEL_PROFILE's rule (R109). -/
def delProfileRule (p : BankIndex) (b : Bank) : WriteResult := writeProfile p.index Profile.cleared b

/-- DEL_PROFILE (R109). -/
def execDelProfile (q : Req) (c : Content BankIndex) (s : State) : Host.Outcome State Fault Refusal :=
  calendarWrite q .delProfile c (fun p => p.bank) delProfileRule s

/-- PUT_WEEKDAY's rule (R109). -/
def putWeekdayRule (p : PutDayParams) (b : Bank) : WriteResult :=
  writeElement 7 p.day fun i =>
    writeElement 8 p.profile fun n => takenOk { b with weekdays := b.weekdays.set i n }

/-- PUT_WEEKDAY (R109). -/
def execPutWeekday (q : Req) (c : Content PutDayParams) (s : State) : Host.Outcome State Fault Refusal :=
  calendarWrite q .putWeekday c (fun p => p.bank) putWeekdayRule s

/-- DEL_WEEKDAY's rule (R109). -/
def delWeekdayRule (p : BankIndex) (b : Bank) : WriteResult :=
  writeElement 7 p.index fun i => takenOk { b with weekdays := b.weekdays.set i 0 }

/-- DEL_WEEKDAY (R109). -/
def execDelWeekday (q : Req) (c : Content BankIndex) (s : State) : Host.Outcome State Fault Refusal :=
  calendarWrite q .delWeekday c (fun p => p.bank) delWeekdayRule s

/-- Most entries of an exception list (R90). -/
def exceptionCapacity : Nat := 96

/-- PUT_EXCEPTION's rule (R110). -/
def putExceptionRule (p : PutDayParams) (b : Bank) : WriteResult :=
  writeElement 8 p.profile fun n =>
    if b.exceptions.any fun e => e.day = p.day then
      takenOk { b with exceptions := b.exceptions.map fun e => if e.day = p.day then { e with profile := n } else e }
    else if b.exceptions.length < exceptionCapacity then
      takenOk
        { b with exceptions := insertBy (fun x y => decide (x.day < y.day)) { day := p.day, profile := n } b.exceptions }
    else .error .full

/-- PUT_EXCEPTION (R110). -/
def execPutException (q : Req) (c : Content PutDayParams) (s : State) : Host.Outcome State Fault Refusal :=
  calendarWrite q .putException c (fun p => p.bank) putExceptionRule s

/-- DEL_EXCEPTION's rule (R110). -/
def delExceptionRule (p : BankIndex) (b : Bank) : WriteResult :=
  if b.exceptions.any fun e => e.day = p.index then
    takenOk { b with exceptions := b.exceptions.filter fun e => e.day ≠ p.index }
  else .error .notFound

/-- DEL_EXCEPTION (R110). -/
def execDelException (q : Req) (c : Content BankIndex) (s : State) : Host.Outcome State Fault Refusal :=
  calendarWrite q .delException c (fun p => p.bank) delExceptionRule s

/-! ### Templates and texts -/

/-- A slot with a column 0 to 47 and a known field (R126). -/
def slotOf (p : Nat × Option FieldName) : Option TemplateSlot :=
  match p.2 with
  | none => none
  | some f => if p.1 ≤ 47 then some { column := p.1, field := f } else none

/-- A line whose text is printable and of at most 48 characters and whose slots are good (R126). -/
def templateLineOf (p : TemplateLineParams) : Option TemplateLine :=
  match p.slots.mapM slotOf with
  | none => none
  | some slots =>
    if p.text.length ≤ 48 ∧ p.text.all printable = true then
      some { text := p.text, repeated := p.repeated, slots := slots }
    else none

/-- PUT_TEMPLATE's rule (R126). -/
def putTemplateRule (p : PutTemplateParams) (b : Bank) : WriteResult :=
  writeElement 8 p.template fun i =>
    match p.lines.mapM templateLineOf with
    | none => .error .badValue
    | some lines => takenOk { b with templates := b.templates.set i lines }

/-- More than 16 lines, or 4 slots on a line, is a malformed body (R126). -/
def templateFits (p : PutTemplateParams) : Bool :=
  decide (p.lines.length ≤ 16) && p.lines.all fun l => decide (l.slots.length ≤ 4)

/-- PUT_TEMPLATE (R126). -/
def execPutTemplate (q : Req) (c : Content PutTemplateParams) (s : State) : Host.Outcome State Fault Refusal :=
  plainWrite q .putTemplate (shapedWhen templateFits c) (fun p => p.bank) putTemplateRule s

/-- DEL_TEMPLATE's rule (R126). -/
def delTemplateRule (p : BankIndex) (b : Bank) : WriteResult :=
  writeElement 8 p.index fun i => takenOk { b with templates := b.templates.set i [] }

/-- DEL_TEMPLATE (R126). -/
def execDelTemplate (q : Req) (c : Content BankIndex) (s : State) : Host.Outcome State Fault Refusal :=
  plainWrite q .delTemplate c (fun p => p.bank) delTemplateRule s

/-- A text line of at most 20 printable characters (R126). -/
def textLineOk (t : Text) : Bool := decide (t.length ≤ 20) && t.all printable

/-- PUT_TEXT's rule (R126): shorter lines are padded. -/
def putTextRule (p : PutTextParams) (b : Bank) : WriteResult :=
  writeElement 32 p.text fun i =>
    if textLineOk p.line1 && textLineOk p.line2 then
      takenOk { b with texts := b.texts.set i { line1 := fit20 p.line1, line2 := fit20 p.line2 } }
    else .error .badValue

/-- PUT_TEXT (R126). -/
def execPutText (q : Req) (c : Content PutTextParams) (s : State) : Host.Outcome State Fault Refusal :=
  plainWrite q .putText c (fun p => p.bank) putTextRule s

/-- DEL_TEXT's rule (R126). -/
def delTextRule (p : BankIndex) (b : Bank) : WriteResult :=
  writeElement 32 p.index fun i => takenOk { b with texts := b.texts.set i StationText.cleared }

/-- DEL_TEXT (R126). -/
def execDelText (q : Req) (c : Content BankIndex) (s : State) : Host.Outcome State Fault Refusal :=
  plainWrite q .delText c (fun p => p.bank) delTextRule s

end Sys2Proof.Machine
end

