-- ==== Sys2Proof/Machine/JournalCommands.lean ====
section
/-! DEFINITION. The journal's upload, release and read (chapter 08). -/

namespace Sys2Proof.Machine

/-- Most records of an UPLOAD (R150) and of a READ_JOURNAL (R156). -/
def uploadMax : Nat := 256
def readMax : Nat := 16

/-- UPLOAD's own rule (R150): refused, or in flight; with nothing to send its final reply goes at once (R151). -/
def uploadRule (q : Req) (n : Nat) (s : State) : State :=
  if q.line = .supervisor then answer q .upload (s, Reply.bare .wrongState)
  else if s.upload.isSome then answer q .upload (s, Reply.bare .busy)
  else if s.day.state ≠ .closed ∧ s.uplink.granted.trickle = false then answer q .upload (s, Reply.bare .wrongState)
  else
    let endPoint := min (s.journal.sendMark + clamp 1 uploadMax n) s.journal.nextSeq
    let s1 : State :=
      { s with
        upload := some { tag := q.tag, endPoint := endPoint, clamped := clamps 1 uploadMax n, sent := 0 } }
    if endPoint = s.journal.sendMark then endUpload s1 else s1

/-- UPLOAD (R150). -/
def execUpload (q : Req) (c : Content Nat) (s : State) : Host.Outcome State Fault Refusal :=
  requestEvent q .upload (fun _ => false) c (uploadRule q) s

/-- The record with a sequence, when it is unreleased. -/
def Journal.record (j : Journal) (seq : Nat) : Option Record :=
  if j.oldest ≤ seq then j.records[seq - j.oldest]? else none

/-- A record handed to the uplink's transmitter (R151). -/
def sendRecord (u : Upload) (s : State) : State :=
  let s1 := match s.journal.record s.journal.sendMark with
    | some r => sendFrame .uplink (.record u.tag r) s
    | none => s
  { s1 with
    journal := { s1.journal with sendMark := s1.journal.sendMark + 1 }, upload := some { u with sent := u.sent + 1 } }

/-- Whether the next record of an upload may be sent (R151). -/
def State.maySendRecord (s : State) : Bool :=
  match s.upload with
  | none => false
  | some u => decide (s.journal.sendMark < u.endPoint) && s.uplink.sendList.isEmpty

/-- RECORD_SEND (R151). -/
def execRecordSend (s : State) : Host.Outcome State Fault Refusal :=
  guardedEvent State.maySendRecord
    (fun s =>
      match s.upload with
      | none => s
      | some u =>
        let s1 := sendRecord u s
        if s1.journal.sendMark = u.endPoint then endUpload s1 else s1) s

/-- One released record lowers its borrower's `pending`, and a retired entry leaves (R51, R54). -/
def releaseRecord (b : Bank) (r : Record) : Bank :=
  match r.flags.counted, r.borrower with
  | true, some n => (b.mapBorrower n fun e => { e with pending := e.pending - 1 }).dropIfRetired n
  | _, _ => b

/-- The records up to a limit are released (R153 step 4). -/
def releaseTo (limit : Nat) (s : State) : State :=
  let n := limit + 1 - s.journal.oldest
  { s with
    active := (s.journal.records.take n).foldl releaseRecord s.active
    journal := { s.journal with records := s.journal.records.drop n, oldest := limit + 1 } }

/-- RELEASE's rule on the uplink (R153). -/
def releaseRule (seq : Nat) (s : State) : State × Reply :=
  let j := s.journal
  if seq < j.oldest then (s, { status := .ok, results := .released j.oldest 0 })
  else
    let past := decide (j.sendMark ≤ seq)
    let limit := if past then j.sendMark - 1 else seq
    if limit < j.oldest then (s, { status := .partiallyTaken, results := .released j.oldest 0 })
    else
      (releaseTo limit s, { status := okOrPartial past, results := .released (limit + 1) (limit + 1 - j.oldest) })

/-- RELEASE (R153). -/
def execRelease (q : Req) (c : Content Nat) (s : State) : Host.Outcome State Fault Refusal :=
  request q .release false c
    (fun seq s => if q.line = .supervisor then (s, Reply.bare .wrongState) else releaseRule seq s) s

/-- READ_JOURNAL's reply (R156). -/
def readJournalReply (p : ReadJournalParams) (s : State) : Reply :=
  let j := s.journal
  if p.start < j.oldest then Reply.bare .notFound
  else
    { status := okOrPartial (clamps 1 readMax p.count)
      results := .journal j.oldest j.nextSeq (page (clamp 1 readMax p.count) (p.start - j.oldest) j.records) }

/-- READ_JOURNAL (R156). -/
def execReadJournal (q : Req) (c : Content ReadJournalParams) (s : State) : Host.Outcome State Fault Refusal :=
  readRequest q .readJournal c readJournalReply s

end Sys2Proof.Machine
end

