-- ==== Sys2Proof/Machine/DeskCommands.lean ====
section
/-! DEFINITION. The requests of the Desk-Day Controller: opening and closing, the clock, staging and commit, settings
(chapter 09), and WIPE (chapter 11). -/

namespace Sys2Proof.Machine

/-! ### Opening and closing -/

/-- OPEN_DESK (R164). -/
def execOpenDesk (q : Req) (c : Content Unit) (s : State) : Host.Outcome State Fault Refusal :=
  request q .openDesk false c (fun _ s =>
    if s.slot.isSome then (s, Reply.bare .busy)
    else if !s.clock.valid || decide (s.day.state ≠ .closed) then (s, Reply.bare .wrongState)
    else (beginOpening (some q) s, Reply.bare .accepted)) s

/-- CLOSE_DESK (R167). -/
def execCloseDesk (q : Req) (c : Content Unit) (s : State) : Host.Outcome State Fault Refusal :=
  request q .closeDesk false c (fun _ s =>
    if s.wiping then (s, Reply.bare .busy)
    else
      match s.day.state with
      | .opened => (enterClosing s, Reply.ok)
      | .closing => (s, Reply.ok)
      | .closed => (s, Reply.bare .wrongState)) s

/-! ### The clock -/

/-- The size of the difference of two instants, in seconds (R160). -/
def secondsApart (a b : Instant) : Nat := (a.seconds - b.seconds) + (b.seconds - a.seconds)

/-- The scheduled open and close are tested in a step's event (R159).  DESIGN CHOICE: after the CLOCK_STEP record, so that a
DAY_CLOSE record follows it (log entry 33). -/
def afterStep (s0 s : State) : State := autoOpenTest (autoCloseTest s0 s)

/-- What a time does to the clock, once it is taken (R160).  DESIGN CHOICE: CLOCK_STEP comes before the DAY_CLOSE of a desk
that the step closes (log entry 33). -/
def takeTime (t : Instant) (s : State) : State × Status :=
  if !s.clock.valid then
    let s1 := if t = s.clock.now then s else disarmAll s
    (afterStep s { s1 with clock := { now := t, valid := true, held := none } }, .ok)
  else if t = s.clock.now then (dropHeld s, .ok)
  else if s.day.state = .closed ∨ secondsApart t s.clock.now ≤ s.settings.stepLimit then
    (afterStep s (recordedStep t (dropHeld s)), .ok)
  else ({ s with clock := { s.clock with held := some t } }, .partiallyTaken)

/-- The rule TIME and SET_TIME share (R160, R162): the reply carries the clock after the request. -/
def timeRule (p : TimeParams) (s : State) : State × Reply :=
  if 86399 < p.second then (s, Reply.bare .badValue)
  else
    let r := takeTime { day := p.day, second := p.second } s
    (r.1, { status := r.2, results := .clock r.1.clock.now r.1.clock.valid r.1.clock.held })

/-- TIME (R160). -/
def execTime (q : Req) (c : Content TimeParams) (s : State) : Host.Outcome State Fault Refusal :=
  request q .time false c
    (fun p s => if q.line = .supervisor then (s, Reply.bare .wrongState) else timeRule p s) s

/-- SET_TIME (R162). -/
def execSetTime (q : Req) (c : Content TimeParams) (s : State) : Host.Outcome State Fault Refusal :=
  request q .setTime false c (fun p s =>
    if q.line = .uplink then (s, Reply.bare .wrongState)
    else if s.uplink.state = .active then (s, Reply.bare .notOwner)
    else timeRule p s) s

/-! ### Staging and commit -/

/-- STAGE_BEGIN (R170): the staged state is EMPTY and the bank reads as cleared (log entry 6). -/
def execStageBegin (q : Req) (c : Content Unit) (s : State) : Host.Outcome State Fault Refusal :=
  request q .stageBegin true c (fun _ s =>
    if s.slot.isSome then (s, Reply.bare .busy)
    else
      ({ s with
          stagedState := .empty, staged := Bank.cleared
          slot := some { op := .stageBegin s.staged, requester := some q } }, Reply.bare .accepted)) s

/-- COMMIT (R171). -/
def execCommit (q : Req) (c : Content CommitParams) (s : State) : Host.Outcome State Fault Refusal :=
  request q .commit true c (fun p s =>
    let counts := s.staged.counts
    if s.slot.isSome then (s, Reply.bare .busy)
    else if s.day.state ≠ .closed ∨ s.stagedState ≠ .loading then (s, Reply.bare .wrongState)
    else if s.journal.unreleased ≠ 0 then (s, Reply.bare .notDrained)
    else if counts = { borrowers := p.borrowers, items := p.items, exceptions := p.exceptions, holds := p.holds } then
      ({ s with slot := some { op := .commit, requester := some q } }, Reply.bare .accepted)
    else (s, { status := .mismatch, results := .counts counts })) s

/-! ### Settings -/

/-- The record a SET_SETTINGS stores; none when a value lies outside its names (R174). -/
def settingsOf (p : SettingsParams) : Option Settings :=
  if p.allowedFeatures.outside then none
  else
    match p.autoOpen, p.autoClose, p.dateFormat with
    | some autoOpen, some autoClose, some dateFormat =>
      some
        { enableMask := p.enableMask, printerWidths := p.printerWidths, idleTimeout := clamp 30 600 p.idleTimeout
          closingGrace := clamp 1 30 p.closingGrace, autoOpen := autoOpen, autoClose := autoClose
          highWater := clamp 1024 16352 p.highWater, dateFormat := dateFormat
          allowedFeatures := p.allowedFeatures.set, stepLimit := clamp 0 600 p.stepLimit }
    | _, _, _ => none

/-- Whether a SET_SETTINGS is answered PARTIAL (R174). -/
def settingsChanged (p : SettingsParams) : Bool :=
  clamps 30 600 p.idleTimeout || clamps 1 30 p.closingGrace || clamps 1024 16352 p.highWater ||
    clamps 0 600 p.stepLimit || p.printerWidths.any fun w => decide (w ≠ 32#8 ∧ w ≠ 40#8 ∧ w ≠ 48#8)

/-- R134: the present stations whose enable is removed are lost, in station order (log entry 15). -/
def disableStations (s : State) : State :=
  stations.foldl
    (fun s st => if (s.port st).present && !(s.port st).bridged && !s.settings.enableMask[st] then loseStation st s else s)
    s

/-- SET_SETTINGS' rule (R174): the record is replaced, stations are lost, auto-open is tested. -/
def settingsRule (p : SettingsParams) (s : State) : State × Reply :=
  match settingsOf p with
  | none => (s, Reply.bare .badValue)
  | some record =>
    (autoOpenTest (closeIfDone (disableStations { s with settings := record })),
      { status := okOrPartial (settingsChanged p), results := .settingsStored record })

/-- SET_SETTINGS (R174). -/
def execSetSettings (q : Req) (c : Content SettingsParams) (s : State) : Host.Outcome State Fault Refusal :=
  request q .setSettings true c settingsRule s

/-! ### WIPE -/

/-- The Slip Composer's part of a WIPE: queues and copies go, present stations are marked (R122, R198). -/
def wipeConsole (present : Bool) (c : Console) : Console :=
  { c with queue := [], headSent := 0, copy := none, wiped := c.wiped || present }

/-- Steps 1 to 6 of a WIPE's event, the upload ended (R198). -/
def wipeTables (s : State) : State :=
  let now := s.clock.held.getD s.clock.now
  { s with
    sessions := Vector.replicate 8 Session.empty
    consoles := Vector.ofFn fun st => wipeConsole (s.port st).present (s.console st)
    active := Bank.cleared, staged := Bank.cleared, stagedState := .empty, cache := []
    journal :=
      { s.journal with
        records := [], oldest := s.journal.nextSeq, sendMark := s.journal.nextSeq, claims := 0, overflow := false }
    day := { s.day with state := .closed, fresh := false, grace := none, graceExpired := false }
    clock := { s.clock with now := now, held := none }
    key := noKey, toSupervisor := NoteSlot.empty, toServer := NoteSlot.empty, notice := none }

/-- The event of a WIPE (R198), its slot taken; the present stations show WIPED before the record is appended. -/
def wipeEvent (q : Req) (s : State) : State :=
  let s1 := showStandingAll (wipeTables (endUpload s))
  let s2 := appendSystem (draft .wiped) s1
  { s2 with
    store := { s2.store with scrubMark := true, scrubPos := 0 }
    slot := some { op := .wipe, requester := some q } }

/-- WIPE (R198). -/
def execWipe (q : Req) (c : Content Unit) (s : State) : Host.Outcome State Fault Refusal :=
  request q .wipe false c (fun _ s =>
    if s.slot.isSome then (s, Reply.bare .busy) else (wipeEvent q s, Reply.bare .accepted)) s

end Sys2Proof.Machine
end

