-- ==== Sys2Proof/Machine/PowerCommands.lean ====
section
/-! DEFINITION. The supplies and the RESET pin (chapter 11). -/

namespace Sys2Proof.Machine

/-- POWER_UP (R194): VDD comes up, and the part starts unless RESET is held (log entry 16). -/
def execPowerUp (s : State) : Host.Outcome State Fault Refusal :=
  if s.powered then .next s
  else
    let s1 : State := { s with powered := true }
    .next (if s.resetAsserted then s1 else start s1)

/-- POWER_FAIL (R193): VDD goes; the store stands as the last event left it. -/
def execPowerFail (s : State) : Host.Outcome State Fault Refusal := .next { s with powered := false }

/-- BACKUP_FAIL (R194): VBAK has fallen too low while VDD is absent. -/
def execBackupFail (s : State) : Host.Outcome State Fault Refusal :=
  .next (if s.powered then s else { s with store := { s.store with backupFail := true } })

/-- RESET_ASSERT (R197). -/
def execResetAssert (s : State) : Host.Outcome State Fault Refusal := .next { s with resetAsserted := true }

/-- RESET_RELEASE (R194, R197): the part starts as at power-up. -/
def execResetRelease (s : State) : Host.Outcome State Fault Refusal :=
  if s.resetAsserted then
    let s1 : State := { s with resetAsserted := false }
    .next (if s.powered then start s1 else s1)
  else .next s

end Sys2Proof.Machine
end

