-- ==== Sys2Proof/Machine/Dispatch.lean ====
section
/-! DEFINITION. The effect of every command: one arm per constructor of Instr. -/

namespace Sys2Proof.Machine

def exec (i : Instr) (s : State) : Host.Outcome State Fault Refusal :=
  match i with
  | .heartbeat st content => Sys2Proof.Machine.execHeartbeat st content s
  | .scanFrame st content => Sys2Proof.Machine.execScanFrame st content s
  | .keyFrame st content => Sys2Proof.Machine.execKeyFrame st content s
  | .stationFrameGap st next => Sys2Proof.Machine.execStationFrameGap st next s
  | .stationTransmit st => Sys2Proof.Machine.execStationTransmit st s
  | .borrowerScan => Sys2Proof.Machine.execBorrowerScan s
  | .itemScan => Sys2Proof.Machine.execItemScan s
  | .staffScan => Sys2Proof.Machine.execStaffScan s
  | .endKey => Sys2Proof.Machine.execEndKey s
  | .cancelKey => Sys2Proof.Machine.execCancelKey s
  | .returnKey => Sys2Proof.Machine.execReturnKey s
  | .checkoutKey => Sys2Proof.Machine.execCheckoutKey s
  | .reprintKey => Sys2Proof.Machine.execReprintKey s
  | .idleTimeout st => Sys2Proof.Machine.execIdleTimeout st s
  | .armLapse st => Sys2Proof.Machine.execArmLapse st s
  | .heartbeatWatchExpiry st => Sys2Proof.Machine.execHeartbeatWatchExpiry st s
  | .slipSend st => Sys2Proof.Machine.execSlipSend st s
  | .graceExpiry => Sys2Proof.Machine.execGraceExpiry s
  | .graceSessionClose st => Sys2Proof.Machine.execGraceSessionClose st s
  | .clockTick => Sys2Proof.Machine.execClockTick s
  | .autoOpen => Sys2Proof.Machine.execAutoOpen s
  | .sweepStep => Sys2Proof.Machine.execSweepStep s
  | .openEnd => Sys2Proof.Machine.execOpenEnd s
  | .stageBeginEnd => Sys2Proof.Machine.execStageBeginEnd s
  | .commitChangeover => Sys2Proof.Machine.execCommitChangeover s
  | .scrubBlock => Sys2Proof.Machine.execScrubBlock s
  | .recordSend => Sys2Proof.Machine.execRecordSend s
  | .lineFrameGap l next => Sys2Proof.Machine.execLineFrameGap l next s
  | .lineTransmit l => Sys2Proof.Machine.execLineTransmit l s
  | .livenessExpiry l => Sys2Proof.Machine.execLivenessExpiry l s
  | .passDown station body => Sys2Proof.Machine.execPassDown station body s
  | .hello q c => Sys2Proof.Machine.execHello q c s
  | .nop q c => Sys2Proof.Machine.execNop q c s
  | .status q c => Sys2Proof.Machine.execStatus q c s
  | .unlock q c => Sys2Proof.Machine.execUnlock q c s
  | .wipe q c => Sys2Proof.Machine.execWipe q c s
  | .ackAttention q c => Sys2Proof.Machine.execAckAttention q c s
  | .setAttentionMask q c => Sys2Proof.Machine.execSetAttentionMask q c s
  | .readNote q c => Sys2Proof.Machine.execReadNote q c s
  | .readBorrower q c => Sys2Proof.Machine.execReadBorrower q c s
  | .readItem q c => Sys2Proof.Machine.execReadItem q c s
  | .readOlc q c => Sys2Proof.Machine.execReadOlc q c s
  | .readRules q c => Sys2Proof.Machine.execReadRules q c s
  | .readCalendar q c => Sys2Proof.Machine.execReadCalendar q c s
  | .readTemplate q c => Sys2Proof.Machine.execReadTemplate q c s
  | .readSettings q c => Sys2Proof.Machine.execReadSettings q c s
  | .putBorrower q c => Sys2Proof.Machine.execPutBorrower q c s
  | .delBorrower q c => Sys2Proof.Machine.execDelBorrower q c s
  | .adjustBorrower q c => Sys2Proof.Machine.execAdjustBorrower q c s
  | .putItem q c => Sys2Proof.Machine.execPutItem q c s
  | .delItem q c => Sys2Proof.Machine.execDelItem q c s
  | .addHold q c => Sys2Proof.Machine.execAddHold q c s
  | .cancelHold q c => Sys2Proof.Machine.execCancelHold q c s
  | .putPrefix q c => Sys2Proof.Machine.execPutPrefix q c s
  | .delPrefix q c => Sys2Proof.Machine.execDelPrefix q c s
  | .putStaff q c => Sys2Proof.Machine.execPutStaff q c s
  | .delStaff q c => Sys2Proof.Machine.execDelStaff q c s
  | .putCategory q c => Sys2Proof.Machine.execPutCategory q c s
  | .delCategory q c => Sys2Proof.Machine.execDelCategory q c s
  | .putClass q c => Sys2Proof.Machine.execPutClass q c s
  | .delClass q c => Sys2Proof.Machine.execDelClass q c s
  | .putRule q c => Sys2Proof.Machine.execPutRule q c s
  | .delRule q c => Sys2Proof.Machine.execDelRule q c s
  | .putProfile q c => Sys2Proof.Machine.execPutProfile q c s
  | .delProfile q c => Sys2Proof.Machine.execDelProfile q c s
  | .putWeekday q c => Sys2Proof.Machine.execPutWeekday q c s
  | .delWeekday q c => Sys2Proof.Machine.execDelWeekday q c s
  | .putException q c => Sys2Proof.Machine.execPutException q c s
  | .delException q c => Sys2Proof.Machine.execDelException q c s
  | .putTemplate q c => Sys2Proof.Machine.execPutTemplate q c s
  | .delTemplate q c => Sys2Proof.Machine.execDelTemplate q c s
  | .putText q c => Sys2Proof.Machine.execPutText q c s
  | .delText q c => Sys2Proof.Machine.execDelText q c s
  | .upload q c => Sys2Proof.Machine.execUpload q c s
  | .release q c => Sys2Proof.Machine.execRelease q c s
  | .readJournal q c => Sys2Proof.Machine.execReadJournal q c s
  | .openDesk q c => Sys2Proof.Machine.execOpenDesk q c s
  | .closeDesk q c => Sys2Proof.Machine.execCloseDesk q c s
  | .time q c => Sys2Proof.Machine.execTime q c s
  | .setTime q c => Sys2Proof.Machine.execSetTime q c s
  | .stageBegin q c => Sys2Proof.Machine.execStageBegin q c s
  | .commit q c => Sys2Proof.Machine.execCommit q c s
  | .setSettings q c => Sys2Proof.Machine.execSetSettings q c s
  | .setKey q c => Sys2Proof.Machine.execSetKey q c s
  | .bridge q c => Sys2Proof.Machine.execBridge q c s
  | .unbridge q c => Sys2Proof.Machine.execUnbridge q c s
  | .restart q c => Sys2Proof.Machine.execRestart q c s
  | .restartWarmStart => Sys2Proof.Machine.execRestartWarmStart s
  | .postNote q c => Sys2Proof.Machine.execPostNote q c s
  | .powerUp => Sys2Proof.Machine.execPowerUp s
  | .powerFail => Sys2Proof.Machine.execPowerFail s
  | .backupFail => Sys2Proof.Machine.execBackupFail s
  | .resetAssert => Sys2Proof.Machine.execResetAssert s
  | .resetRelease => Sys2Proof.Machine.execResetRelease s
  | .ignoreOrCcRefusedScan => Sys2Proof.Machine.execIgnoreOrCcRefusedScan s
  | .unknownKindStationFrame st kind content => Sys2Proof.Machine.execUnknownKindStationFrame st kind content s
  | .droppedGoodLineFrame l kind => Sys2Proof.Machine.execDroppedGoodLineFrame l kind s
  | .unknownRequestName q code => Sys2Proof.Machine.execUnknownRequestName q code s

end Sys2Proof.Machine
end

