-- ==== Sys2Proof/Machine/Step.lean ====
section
/-! DEFINITION. One step: the command at the front of the queue is taken and run. -/

namespace Sys2Proof.Machine

/-- The state with a queue given. -/
def State.withPending (s : State) (queue : List Instr) : State := { s with pending := queue }

/-- One step: the command at the front of the queue runs on the state with the queue's rest.  DESIGN CHOICE: on an empty
queue the part idles (log entry 20). -/
def step (s : State) : Host.Outcome State Fault Refusal :=
  match s.pending with
  | [] => .next s
  | c :: rest => exec c (s.withPending rest)

/-- The command that a word spells, put at the front of the queue; no row of the table has bits, so none is. -/
def State.withFetchWord (s : State) (nbits w : Nat) : State :=
  match decodeTableWord nbits w with
  | none => s
  | some c => s.withPending (c :: s.pending)

end Sys2Proof.Machine
end

