-- ==== Sys2Proof/Safety.lean ====
section
/-! DEFINITION. What the statements speak of: when a request is taken, what its event leaves, and the invariants of the
journal, the tables, the `pending` counts and the session links. -/

namespace Sys2Proof.Machine

/-! ### Taking a request -/

/-- The part takes frames on a line, and the line is ACTIVE (R180 step 1, R197). -/
abbrev State.hears (s : State) (l : Line) : Prop :=
  s.running = true ∧ s.restarting = none ∧ (s.line l).state = .active

/-- The line is unlocked as well (R180 step 3). -/
abbrev State.admits (s : State) (l : Line) : Prop := s.hears l ∧ s.locked l = false

/-- The line owns the tables as well (R180 step 4). -/
abbrev State.admitsOwner (s : State) (l : Line) : Prop := s.admits l ∧ s.owner = l

/-- A TABLE-class write to a bank meets its own rule (R169, R173). -/
abbrev State.admitsWrite (s : State) (l : Line) (bank : BankName) : Prop :=
  s.admitsOwner l ∧ s.slot = none ∧ (bank = .staged → s.stagedState = .loading)

/-- The state in which a request meets its owning rule: the good frame has restarted the liveness watch, and the last
error of a line whose request is not BASIC is absent (R177, R183). -/
def received (q : Req) (name : ReqName) (s : State) : State :=
  if name.isBasic then goodLineFrame q.line s else clearLastError q.line (goodLineFrame q.line s)

/-- The event of a request ends: its reply has joined the send list of its line. -/
def answered (q : Req) (name : ReqName) (r : Reply) (before after : State) : State :=
  settle before (sendReply q name r after)

/-- What a taken table write leaves (R181). -/
def written (q : Req) (name : ReqName) (bank : BankName) (borrower item : Option Number) (r : Reply) (b : Bank)
    (s : State) : State :=
  answered q name r s (recordWrite q bank name borrower item ((received q name s).setBank bank b))

/-- What a taken write to a calendar leaves: one to the ACTIVE calendar is followed by the tests of auto-close and
auto-open (R165, R167). -/
def calendarWritten (q : Req) (name : ReqName) (bank : BankName) (b : Bank) (s : State) : State :=
  let w := recordWrite q bank name none none ((received q name s).setBank bank b)
  answered q name Reply.ok s (if bank = .active then autoOpenTest (autoCloseTest (received q name s) w) else w)

/-- What a request that changes nothing but its line leaves there: the reply waits, and a refused one is the last
error (R177, R183). -/
def LineCtl.afterReply (c : LineCtl) (q : Req) (name : ReqName) (r : Reply) : LineCtl :=
  { c with
    receiver := .looking, liveness := some 0, sendList := c.sendList ++ [.reply q.tag r]
    lastError :=
      if r.status.isRefusal then some (r.status, name) else if name.isBasic then c.lastError else none }

/-- The line, name and bank of a TABLE-class write whose content has its shape (R179). -/
def tableWriteOf : Instr → Option (Req × ReqName × BankName)
  | .putBorrower q (.shaped p) => some (q, .putBorrower, p.bank)
  | .delBorrower q (.shaped p) => some (q, .delBorrower, p.bank)
  | .adjustBorrower q (.shaped p) => some (q, .adjustBorrower, p.bank)
  | .putItem q (.shaped p) => some (q, .putItem, p.bank)
  | .delItem q (.shaped p) => some (q, .delItem, p.bank)
  | .addHold q (.shaped p) => some (q, .addHold, p.bank)
  | .cancelHold q (.shaped p) => some (q, .cancelHold, p.bank)
  | .putPrefix q (.shaped p) => if p.pattern.length ≤ 16 then some (q, .putPrefix, p.bank) else none
  | .delPrefix q (.shaped p) => some (q, .delPrefix, p.bank)
  | .putStaff q (.shaped p) => some (q, .putStaff, p.bank)
  | .delStaff q (.shaped p) => some (q, .delStaff, p.bank)
  | .putCategory q (.shaped p) => some (q, .putCategory, p.bank)
  | .delCategory q (.shaped p) => some (q, .delCategory, p.bank)
  | .putClass q (.shaped p) => some (q, .putClass, p.bank)
  | .delClass q (.shaped p) => some (q, .delClass, p.bank)
  | .putRule q (.shaped p) => some (q, .putRule, p.bank)
  | .delRule q (.shaped p) => some (q, .delRule, p.bank)
  | .putProfile q (.shaped p) => some (q, .putProfile, p.bank)
  | .delProfile q (.shaped p) => some (q, .delProfile, p.bank)
  | .putWeekday q (.shaped p) => some (q, .putWeekday, p.bank)
  | .delWeekday q (.shaped p) => some (q, .delWeekday, p.bank)
  | .putException q (.shaped p) => some (q, .putException, p.bank)
  | .delException q (.shaped p) => some (q, .delException, p.bank)
  | .putTemplate q (.shaped p) =>
    if p.lines.length ≤ 16 ∧ p.lines.all (fun l => decide (l.slots.length ≤ 4)) = true then
      some (q, .putTemplate, p.bank)
    else none
  | .delTemplate q (.shaped p) => some (q, .delTemplate, p.bank)
  | .putText q (.shaped p) => some (q, .putText, p.bank)
  | .delText q (.shaped p) => some (q, .delText, p.bank)
  | _ => none

/-- A content that is malformed, or that has its shape but more than the shape allows (R180 step 2). -/
def unshaped {α : Type} (fits : α → Bool) : Content α → Bool
  | .malformed => true
  | .shaped p => !fits p

/-- What the tests of R180 look at in a request: its line and tag, its name, whether it is owner-only, and whether its
content is malformed. -/
structure Tested where
  q : Req
  name : ReqName
  ownerOnly : Bool
  malformed : Bool
  deriving DecidableEq, Repr

/-- A request of any line, whose content has no limit of its own. -/
def anyLine {α : Type} (q : Req) (name : ReqName) (c : Content α) : Tested :=
  { q := q, name := name, ownerOnly := false, malformed := unshaped (fun _ => true) c }

/-- A request that only the owner's line may make. -/
def ownersOnly {α : Type} (q : Req) (name : ReqName) (c : Content α) : Tested :=
  { anyLine q name c with ownerOnly := true }

/-- The requests of the code table as R180 tests them, HELLO apart, which is taken in every line state (R178, R179): the
table writes, STAGE_BEGIN, COMMIT, SET_SETTINGS and a POST_NOTE that names SLIPS are owner-only. -/
def testedRequest : Instr → Option Tested
  | .nop q c => some (anyLine q .nop c)
  | .status q c => some (anyLine q .status c)
  | .unlock q c => some (anyLine q .unlock c)
  | .wipe q c => some (anyLine q .wipe c)
  | .ackAttention q c => some (anyLine q .ackAttention c)
  | .setAttentionMask q c => some (anyLine q .setAttentionMask c)
  | .readNote q c => some (anyLine q .readNote c)
  | .readBorrower q c => some (anyLine q .readBorrower c)
  | .readItem q c => some (anyLine q .readItem c)
  | .readOlc q c => some (anyLine q .readOlc c)
  | .readRules q c => some (anyLine q .readRules c)
  | .readCalendar q c => some (anyLine q .readCalendar c)
  | .readTemplate q c => some (anyLine q .readTemplate c)
  | .readSettings q c => some (anyLine q .readSettings c)
  | .putBorrower q c => some (ownersOnly q .putBorrower c)
  | .delBorrower q c => some (ownersOnly q .delBorrower c)
  | .adjustBorrower q c => some (ownersOnly q .adjustBorrower c)
  | .putItem q c => some (ownersOnly q .putItem c)
  | .delItem q c => some (ownersOnly q .delItem c)
  | .addHold q c => some (ownersOnly q .addHold c)
  | .cancelHold q c => some (ownersOnly q .cancelHold c)
  | .putPrefix q c =>
    some { ownersOnly q .putPrefix c with malformed := unshaped (fun p => decide (p.pattern.length ≤ 16)) c }
  | .delPrefix q c => some (ownersOnly q .delPrefix c)
  | .putStaff q c => some (ownersOnly q .putStaff c)
  | .delStaff q c => some (ownersOnly q .delStaff c)
  | .putCategory q c => some (ownersOnly q .putCategory c)
  | .delCategory q c => some (ownersOnly q .delCategory c)
  | .putClass q c => some (ownersOnly q .putClass c)
  | .delClass q c => some (ownersOnly q .delClass c)
  | .putRule q c => some (ownersOnly q .putRule c)
  | .delRule q c => some (ownersOnly q .delRule c)
  | .putProfile q c => some (ownersOnly q .putProfile c)
  | .delProfile q c => some (ownersOnly q .delProfile c)
  | .putWeekday q c => some (ownersOnly q .putWeekday c)
  | .delWeekday q c => some (ownersOnly q .delWeekday c)
  | .putException q c => some (ownersOnly q .putException c)
  | .delException q c => some (ownersOnly q .delException c)
  | .putTemplate q c =>
    some
      { ownersOnly q .putTemplate c with
        malformed := unshaped (fun p => decide (p.lines.length ≤ 16) && p.lines.all fun l => l.slots.length ≤ 4) c }
  | .delTemplate q c => some (ownersOnly q .delTemplate c)
  | .putText q c => some (ownersOnly q .putText c)
  | .delText q c => some (ownersOnly q .delText c)
  | .upload q c => some (anyLine q .upload c)
  | .release q c => some (anyLine q .release c)
  | .readJournal q c => some (anyLine q .readJournal c)
  | .openDesk q c => some (anyLine q .openDesk c)
  | .closeDesk q c => some (anyLine q .closeDesk c)
  | .time q c => some (anyLine q .time c)
  | .setTime q c => some (anyLine q .setTime c)
  | .stageBegin q c => some (ownersOnly q .stageBegin c)
  | .commit q c => some (ownersOnly q .commit c)
  | .setSettings q c => some (ownersOnly q .setSettings c)
  | .setKey q c => some (anyLine q .setKey c)
  | .bridge q c => some (anyLine q .bridge c)
  | .unbridge q c => some (anyLine q .unbridge c)
  | .restart q c => some (anyLine q .restart c)
  | .postNote q c =>
    some
      { anyLine q .postNote c with
        ownerOnly :=
          match c with
          | .shaped p => decide (p.target = some .slips)
          | .malformed => false }
  | _ => none

/-! ### While a RESTART waits -/

/-- What comes in on a management line: its gaps, its frames (R175). -/
def fromManagementLine : Instr → Bool
  | .lineFrameGap .. | .passDown .. | .droppedGoodLineFrame .. | .unknownRequestName .. | .hello .. | .nop ..
  | .status .. | .unlock .. | .wipe .. | .ackAttention .. | .setAttentionMask .. | .readNote .. | .readBorrower ..
  | .readItem .. | .readOlc .. | .readRules .. | .readCalendar .. | .readTemplate .. | .readSettings ..
  | .putBorrower .. | .delBorrower .. | .adjustBorrower .. | .putItem .. | .delItem .. | .addHold ..
  | .cancelHold .. | .putPrefix .. | .delPrefix .. | .putStaff .. | .delStaff .. | .putCategory ..
  | .delCategory .. | .putClass .. | .delClass .. | .putRule .. | .delRule .. | .putProfile .. | .delProfile ..
  | .putWeekday .. | .delWeekday .. | .putException .. | .delException .. | .putTemplate .. | .delTemplate ..
  | .putText .. | .delText .. | .upload .. | .release .. | .readJournal .. | .openDesk .. | .closeDesk ..
  | .time .. | .setTime .. | .stageBegin .. | .commit .. | .setSettings .. | .setKey .. | .bridge ..
  | .unbridge .. | .restart .. | .postNote .. => true
  | _ => false

/-- The decisions of the arbiter (R3, R4). -/
def isDecision : Instr → Bool
  | .borrowerScan | .itemScan | .staffScan | .endKey | .cancelKey | .returnKey | .checkoutKey | .reprintKey
  | .ignoreOrCcRefusedScan => true
  | _ => false

/-! ### Decisions -/

/-- The arbiter is about to take an input of a station (R3). -/
abbrev State.takesNext (s : State) (st : Station) (i : Input) : Prop :=
  s.running = true ∧ s.arbiterPick = some (st, i)

/-- The station is at the desk: present and not bridged (R1). -/
abbrev State.attended (s : State) (st : Station) : Prop := (s.port st).present = true ∧ (s.port st).bridged = false

/-- Besides their causes and the frames made at an event's end, the management lines are as they were. -/
def linesKept (s t : State) : Prop :=
  t.uplink = { s.uplink with pendingSet := t.uplink.pendingSet, sendList := t.uplink.sendList } ∧
    t.supervisor =
      { s.supervisor with pendingSet := t.supervisor.pendingSet, sendList := t.supervisor.sendList }

/-- A display change and a signal at a station whose slots are given: the two lines are stored and sent, the signal
sounds (R124, R136). -/
def displayed (s : State) (st : Station) (line1 line2 : Text) (g : Option Signal) (slots : List Input) (t : State) :
    Prop :=
  let down := joinDisplay (.display (fit20 line1) (fit20 line2)) (s.port st).down
  t.port st = { s.port st with slots := slots, down := (g.map fun g => joinSignal g down).getD down } ∧
    (t.console st).line1 = fit20 line1 ∧ (t.console st).line2 = fit20 line2 ∧ linesKept s t

/-- What a decision's display and signal leave at a station, its slot freed and its WIPED mark cleared (R3, R125). -/
def shown (s : State) (st : Station) (line1 line2 : Text) (g : Option Signal) (t : State) : Prop :=
  displayed s st line1 line2 g (s.port st).slots.tail t ∧ (t.console st).wiped = false ∧ t.lastServed = st

/-- What a decision with no display of its own leaves at a station, its WIPED mark being clear: the slot is freed and the
given signal sounds. -/
def signalled (s : State) (st : Station) (g : Option Signal) (t : State) : Prop :=
  t.port st =
      { s.port st with
        slots := (s.port st).slots.tail
        down := (g.map fun g => joinSignal g (s.port st).down).getD (s.port st).down } ∧
    (t.console st).line1 = (s.console st).line1 ∧ (t.console st).line2 = (s.console st).line2 ∧
    t.lastServed = st ∧ linesKept s t

/-- The printing of a station is as it was. -/
def slipsKept (s : State) (st : Station) (t : State) : Prop :=
  (t.console st).queue = (s.console st).queue ∧ (t.console st).headSent = (s.console st).headSent ∧
    (t.console st).copy = (s.console st).copy

/-- The record of a draft at an append (R143). -/
def stamped (s : State) (d : Record) : Record :=
  { d with
    seq := s.journal.nextSeq, day := s.clock.now.day, minute := s.clock.now.second / 60, generation := s.generation
    flags :=
      { d.flags with
        offline := decide (s.uplink.state ≠ .active)
        counted := (d.borrower.map fun n => s.active.borrowers.any fun e => decide (e.number = n)).getD false
        overflowBefore := s.journal.overflow } }

/-- The journal and the ACTIVE bank after the append of one record (R50, R145, R148). -/
def appended (s : State) (d : Record) (t : State) : Prop :=
  t.journal =
      { s.journal with
        records := s.journal.records ++ [stamped s d], nextSeq := s.journal.nextSeq + 1, overflow := false } ∧
    t.active =
      { s.active with
        borrowers := s.active.borrowers.map fun e =>
          if d.borrower = some e.number then { e with pending := e.pending + 1 } else e }

/-- The journal and the ACTIVE bank are as they were. -/
def unrecorded (s t : State) : Prop := t.journal = s.journal ∧ t.active = s.active

/-- A refusal is answered: the reason text, REFUSE, and one REFUSAL record when free is above the reserve (R4, R8, R17,
R25, R147). -/
def refusedAt (s : State) (st : Station) (r : Reason) (borrower item staff : Option Number) (t : State) : Prop :=
  shown s st (s.shownText r.textNumber).line1 (s.shownText r.textNumber).line2 (some .refuse) t ∧ slipsKept s st t ∧
    (if 32 < s.journal.free then
      appended s
        { draft .refusal with
          station := some st, reason := some (.refusal r), borrower := borrower, item := item, staff := staff } t
    else unrecorded s t) ∧
    t.cache = s.cache

/-- A session's idle timer reloaded (R5). -/
def reloaded (s : State) (st : Station) : Session := { s.session st with idle := s.settings.idleTimeout }

/-- The staff member armed at a station (R11). -/
def armedAt (s : State) (st : Station) : Option Number :=
  if (s.session st).armedUntil = none then none else (s.session st).overrideStaff

/-- The checks of R7 in order, and whether each fails. -/
def borrowerChecks (s : State) (st : Station) (e : Borrower) : List (Reason × Bool) :=
  let c := s.active.categories[e.category]
  [(.inUseElsewhere, decide (e.sessionStation ≠ none ∧ e.sessionStation ≠ some st)), (.admin, e.blocks.admin),
    (.lostCard, e.blocks.lostCard), (.expired, decide (e.expiryDay ≤ s.clock.now.day)),
    (.fines, decide (0 < c.fineLimit ∧ c.fineLimit ≤ e.finesOwed)),
    (.overdue, decide (0 < c.overdueLimit ∧ c.overdueLimit ≤ e.overdueItems))]

/-- Whether an override set held by the staff member covers a check (R7, R13). -/
def coveredBy (s : State) (staff : Option Number) (r : Reason) : Bool :=
  match s.active.staff.find? fun e => decide (staff = some e.number) with
  | some e => overrideHolds e.overrides r
  | none => false

/-- The checks of R14 to R16 in order, the own duplicate apart: whether each fails uncovered.  The due is computed as a
new loan or, when the cache names the borrower, as a renewal. -/
def itemChecksInOrder (s : State) (st : Station) (b : Borrower) (item : Number) (default : Fin 32) :
    List (Reason × Bool) :=
  let r := s.session st
  let k := s.active.classOf item default
  let cell := s.active.rules[b.category][k]
  let lent := s.cache.find? fun c => c.item = item
  let head := (s.active.queueOf item).head?
  let covered (x : Reason) : Bool := coveredBy s r.overrideStaff x
  [(.listFull, decide (12 ≤ r.items.length)),
    (.inOtherSession, stations.any fun o => decide (o ≠ st) && (s.session o).items.any fun e => e.item = item),
    (.notLoanable, decide (cell.kind = .none) || (!(s.active.classes[k]).loanable && !covered .notLoanable)),
    (.onLoanOther, lent.any fun c => decide (c.borrower ≠ b.number)),
    (.renewLimit, (lent.any fun c => decide (cell.renewLimit ≤ c.renewals)) && !covered .renewLimit),
    (.held, (head.any fun h => decide (h.borrower ≠ b.number)) && !covered .held),
    (.limit,
      decide (lent = none ∧
        (s.active.categories[b.category]).loanLimit < b.loansHeld + r.items.countP ListEntry.isCheckout + 1) &&
        !covered .limit)]

/-- The due of step 8 (R16). -/
def itemDue (s : State) (b : Borrower) (item : Number) (default : Fin 32) : Except Reason Computed :=
  dueFor (dueInput s b (s.active.classOf item default)) ((s.cache.find? fun c => c.item = item).map CacheEntry.due)

/-- The list entry of an accepted item (R13, R15, R16). -/
def entryOf (s : State) (st : Station) (b : Borrower) (item : Number) (default : Fin 32) (due : Computed) : ListEntry :=
  let k := s.active.classOf item default
  let cell := s.active.rules[b.category][k]
  let lent := s.cache.find? fun c => c.item = item
  let head := (s.active.queueOf item).head?
  let loans := b.loansHeld + (s.session st).items.countP ListEntry.isCheckout + 1
  { item := item, itemClass := k, action := if lent = none then .checkout else .renew, due := due.due
    flags :=
      { clamped := due.clamped, dueOnClosed := due.dueOnClosed, renewed := lent.isSome
        holdFilled := head.any fun h => decide (h.borrower = b.number)
        overridden :=
          (s.session st).admittedByOverride || !(s.active.classes[k]).loanable ||
            (lent.any fun c => decide (cell.renewLimit ≤ c.renewals)) ||
            (head.any fun h => decide (h.borrower ≠ b.number)) ||
            decide (lent = none ∧ (s.active.categories[b.category]).loanLimit < loans) } }

/-- The records of a list entry at its session's close, in list order (R18, R19). -/
def closeRecord (s : State) (st : Station) (n : Number) (b : Borrower) (i : Nat) (e : ListEntry) : Record :=
  { seq := s.journal.nextSeq + i, kind := if e.action = .checkout then .checkout else .renew, station := some st
    day := s.clock.now.day, minute := s.clock.now.second / 60, borrower := some n, item := some e.item
    due := some e.due, reason := none
    staff := if e.flags.overridden = true then (s.session st).overrideStaff else none
    flags :=
      { offline := decide (s.uplink.state ≠ .active), overridden := e.flags.overridden, unconfirmed := false
        creditedLocally := false, provisional := b.provisional, clamped := e.flags.clamped
        dueOnClosed := e.flags.dueOnClosed, holdFilled := e.flags.holdFilled, renewed := e.flags.renewed
        counted := true, overflowBefore := s.journal.overflow && decide (i = 0) }
    generation := s.generation }

/-- The entries without a retired one that nothing holds (R54). -/
def withoutRetired (n : Number) (list : List Borrower) : List Borrower :=
  list.filter fun x => !decide (x.number = n ∧ x.retiring = true ∧ x.pending = 0)

/-- Steps 1 to 4 and 6 of a close: the records, the loan count, the cache, the filled holds, the session link (R18). -/
def booked (s : State) (st : Station) (n : Number) (b : Borrower) (t : State) : Prop :=
  let items := (s.session st).items
  t.journal =
      { s.journal with
        records := s.journal.records ++ items.mapIdx (closeRecord s st n b)
        nextSeq := s.journal.nextSeq + items.length, claims := s.journal.claims - items.length
        overflow := s.journal.overflow && items.isEmpty } ∧
    t.active =
      { s.active with
        items := (items.foldl (fillHold n) s.active).items
        borrowers :=
          withoutRetired n
            (s.active.borrowers.map fun x =>
              if x.number = n then
                { x with
                  loansHeld := min 255 (x.loansHeld + items.countP ListEntry.isCheckout)
                  pending := x.pending + items.length, sessionStation := none }
              else x) } ∧
    t.cache = items.foldl (cacheTake n s.clock.now.day) s.cache

/-- Whether the slip of a closing session is lost (R118). -/
def slipLost (s : State) (st : Station) : Bool :=
  decide ((s.session st).items ≠ [] ∧ 2 ≤ (s.console st).queue.length)

/-- Step 5 of a close: the slip of a list that is not empty joins the queue, or is dropped with PRINTER (R18, R118). -/
def slipQueued (s : State) (st : Station) (n : Number) (t : State) : Prop :=
  (t.console st).headSent = (s.console st).headSent ∧ (t.console st).copy = (s.console st).copy ∧
    (t.console st).queue =
      (match (s.session st).items with
      | [] => (s.console st).queue
      | first :: rest =>
        if (s.console st).queue.length < 2 then
          (s.console st).queue ++ [dueSlip s st n first (first :: rest)]
        else (s.console st).queue) ∧
    (slipLost s st = true → ∀ l : Line, (t.line l).pendingSet.has .printer = true)

/-- The first display line of a close: SLIP LOST when its slip was dropped (R118). -/
def lostOr (s : State) (st : Station) (line1 : Text) : Text :=
  if slipLost s st then (s.shownText 28).line1 else line1

/-- The standing text of a station that is IDLE, its WIPED mark clear (R125). -/
def idleText (s : State) (st : Station) : StationText :=
  s.shownText (if (s.port st).paperOut then 27 else if s.day.state = .closed then 24 else 23)

/-- The standing text of a station in RETURNS, its WIPED mark clear (R125). -/
def returnsText (s : State) (st : Station) : StationText := s.shownText (if (s.port st).paperOut then 27 else 25)

/-- The end of the session at a station does not bring the desk-day to CLOSED (R168). -/
abbrev staysOpen (s : State) (st : Station) : Prop :=
  s.day.state ≠ .closing ∨ ∃ o : Station, o ≠ st ∧ (s.session o).borrower ≠ none

/-- The desk-day has entered CLOSED (R168). -/
def deskClosed (s t : State) : Prop :=
  t.day = { s.day with state := .closed, fresh := false, grace := none, graceExpired := false } ∧ t.notice = none ∧
    t.clock.held = none ∧
    (s.clock.held = none → 1 ≤ s.journal.free →
      t.journal.overflow = false ∧ t.journal.records.getLast?.map Record.kind = some .dayClose)

/-- A record with the day and minute of an instant. -/
def dated (i : Instant) (d : Record) : Record := { d with day := i.day, minute := i.second / 60 }

/-- The records of an entry into CLOSED: DAY_CLOSE, and the CLOCK_STEP of a held time (R144, R161, R168). -/
def closingDrafts (s : State) : List Record :=
  let now := s.clock.now
  let step (t : Instant) : Record :=
    dated t { draft .clockStep with due := some { day := now.day, minute := now.second / 60 } }
  dated now (draft .dayClose) :: (s.clock.held.map step).toList

/-- The record of a station's session abandoned now, when one is open (R22, R144). -/
def abandonedAt (s : State) (st : Station) : Option Record :=
  let r := s.session st
  r.borrower.map fun n =>
    dated s.clock.now
      { draft .sessionAbandoned with
        station := some st, borrower := some n, reason := some (.count r.items.length), staff := r.overrideStaff }

/-- The records that one event appends, each naming a borrower COUNTED (R50, R143, R148). -/
def numbered (s : State) (offline : Bool) (drafts : List Record) : List Record :=
  drafts.mapIdx fun i d =>
    { d with
      seq := s.journal.nextSeq + i, generation := s.generation
      flags :=
        { d.flags with
          offline := offline, counted := d.borrower.isSome
          overflowBefore := s.journal.overflow && decide (i = 0) } }

/-- The conditions of the scheduled opening, the slot apart (R165). -/
def scheduledOpening (s : State) : Prop :=
  s.settings.autoOpen = true ∧ s.day.state = .closed ∧ s.clock.valid = true ∧ s.day.openDay ≠ some s.clock.now.day ∧
    ∃ p, hoursOf s.active s.clock.now.day = some p ∧ p.openMinute ≤ s.clock.now.second / 60 ∧
      s.clock.now.second / 60 < p.closeMinute

/-- Auto-open has been tested at the end of an event that found the slot as given (R165). -/
def openingTested (before : Option Slot) (t : State) : Prop :=
  (before = none → scheduledOpening t →
      t.slot = some { op := .opening t.clock.now.day none, requester := none }) ∧
    (before ≠ none ∨ ¬scheduledOpening t → t.slot = before)

/-- The stations other than one are as they were. -/
def othersKept (st : Station) (s t : State) : Prop :=
  ∀ o : Station, o ≠ st → t.port o = s.port o ∧ t.console o = s.console o ∧ t.session o = s.session o

/-- Nothing but the desk has changed: the tables not named, the clock, the settings, the slot and the store are as they
were. -/
def deskOnly (s t : State) : Prop :=
  t.staged = s.staged ∧ t.stagedState = s.stagedState ∧ t.generation = s.generation ∧ t.clock = s.clock ∧
    t.settings = s.settings ∧ t.key = s.key ∧ t.slot = s.slot ∧ t.day = s.day ∧ t.notice = s.notice ∧
    t.upload = s.upload ∧ t.store = s.store ∧ t.toSupervisor = s.toSupervisor ∧ t.toServer = s.toServer ∧
    t.powered = s.powered ∧ t.resetAsserted = s.resetAsserted ∧ t.restarting = s.restarting ∧ t.pending = s.pending

/-! ### The clock and the start -/

/-- One second on (R158). -/
def nextSecond (t : Instant) : Instant :=
  if t.second < 86399 then { day := t.day, second := t.second + 1 }
  else if t.day < 65535 then { day := t.day + 1, second := 0 } else t

/-- What every warm start leaves, the tables, the journal's records and the slot apart (R155, R192, R196). -/
def restarted (s t : State) : Prop :=
  t.powered = true ∧ t.resetAsserted = false ∧ t.restarting = none ∧ t.upload = none ∧
    t.notice = none ∧ t.toServer = NoteSlot.empty ∧ t.toSupervisor = NoteSlot.empty ∧ t.lastServed = 7 ∧
    (∀ st : Station, t.stationState st = .absent ∧ (t.port st).slots = [] ∧ (t.port st).down = [] ∧
      (t.console st).queue = [] ∧ (t.console st).copy = none ∧ t.session st = Session.empty) ∧
    (∀ l : Line, (t.line l).state = .down ∧ (t.line l).sendList = [] ∧ (t.line l).granted = FeatureSet.empty ∧
      (t.line l).unlocked = false ∧ (t.line l).lastError = none ∧ (t.line l).enableSet = CauseSet.all ∧
      (t.line l).pendingSet =
        { CauseSet.empty with
          journalHigh := decide (s.settings.highWater ≤ t.journal.unreleased)
          journalFull := decide (t.journal.free ≤ 32), clockHeld := t.clock.held.isSome }) ∧
    t.day.state = .closed ∧ t.day.openDay = s.day.openDay ∧ t.day.grace = none ∧
    (s.day.state = .closed → t.day.fresh = s.day.fresh ∧ t.clock = s.clock) ∧
    (s.day.state ≠ .closed → t.day.fresh = false ∧ t.clock.held = none ∧
      t.clock.now = s.clock.held.getD s.clock.now) ∧
    t.journal.oldest = s.journal.oldest ∧ t.journal.sendMark = s.journal.oldest ∧
    t.stagedState = s.stagedState ∧ t.generation = s.generation ∧ t.settings = s.settings ∧ t.key = s.key ∧
    t.clock.valid = s.clock.valid ∧ t.store.scrubMark = false ∧ t.store.signatureGood = s.store.signatureGood

/-- What a warm start leaves where no session was open and auto-open is off (R155, R192, R196). -/
def warmStarted (s t : State) : Prop :=
  restarted s t ∧ t.slot = none ∧ t.journal.claims = s.journal.claims ∧
    t.journal.records.take s.journal.records.length = s.journal.records ∧ t.active = s.active ∧ t.cache = s.cache

/-- The list entries of the open sessions in station and list order, with station and borrower (R27, R196). -/
def openEntries (s : State) : List (Station × Number × ListEntry) :=
  stations.flatMap fun st =>
    match (s.session st).borrower with
    | none => []
    | some n => (s.session st).items.map fun e => (st, n, e)

/-- The record of a list entry at the conversion (R27).  That it carries the staff number of an overridden entry, and
not PROVISIONAL, is read together (log entry 14). -/
def convertedEntry (s : State) : Station × Number × ListEntry → Record
  | (st, n, e) =>
    dated s.clock.now
      { draft .checkout with
        station := some st, borrower := some n, item := some e.item, due := some e.due
        staff := if e.flags.overridden = true then (s.session st).overrideStaff else none
        flags :=
          { noRecordFlags with
            unconfirmed := true, overridden := e.flags.overridden, clamped := e.flags.clamped
            dueOnClosed := e.flags.dueOnClosed, holdFilled := e.flags.holdFilled, renewed := e.flags.renewed } }

/-- The entry of a borrower after the conversion: a retired one that no record holds leaves (R27, R54). -/
def convertedBorrower (s : State) (e : Borrower) : Option Borrower :=
  match e.sessionStation with
  | none => some e
  | some st =>
    let items := (s.session st).items
    if e.retiring = true ∧ e.pending + items.length = 0 then none
    else
      some
        { e with
          loansHeld := min 255 (e.loansHeld + items.countP ListEntry.isCheckout)
          pending := e.pending + items.length, sessionStation := none }

/-- What a warm start makes of open sessions and of an interrupted desk-day, and its test of auto-open (R27, R155, R165,
R168, R196): the UNCONFIRMED records first, then what finds room of DAY_CLOSE and CLOCK_STEP.  That the CLOCK_STEP carries
the day and minute after the step is the model's choice (log entry 34). -/
def warmStartedOver (s t : State) : Prop :=
  let closing := if s.day.state = .closed then [] else closingDrafts s
  let drafts := (openEntries s).map (convertedEntry s) ++ closing.take s.journal.free
  restarted s t ∧ openingTested none t ∧
    t.journal =
      { records := s.journal.records ++ numbered s true drafts, oldest := s.journal.oldest
        sendMark := s.journal.oldest, nextSeq := s.journal.nextSeq + drafts.length, claims := 0
        overflow := if s.journal.free < closing.length then true else s.journal.overflow && drafts.isEmpty } ∧
    t.active =
      { s.active with
        items := ((openEntries s).foldl (fun b x => fillHold x.2.1 b x.2.2) s.active).items
        borrowers := s.active.borrowers.filterMap (convertedBorrower s) } ∧
    t.cache = (openEntries s).foldl (fun c x => cacheTake x.2.1 s.clock.now.day c x.2.2) s.cache

/-- Steps 1 to 4 of R180: the status that refuses a request before its owning rule, if one does. -/
def refusedBefore (s : State) (q : Req) (name : ReqName) (ownerOnly malformed : Bool) : Option Status :=
  match (s.line q.line).state with
  | .down => some .wrongState
  | .refused => some .version
  | .active =>
    if malformed = true then some .badRequest
    else if name.isBasic = false ∧ keyIsSet s.key = true ∧ (s.line q.line).unlocked = false then some .locked
    else if ownerOnly = true ∧ q.line ≠ (if s.uplink.state = .active then .uplink else .supervisor) then some .notOwner
    else none

/-! ### Invariants -/

/-- The list entries of all sessions. -/
def State.listEntries (s : State) : Nat := (stations.map fun st => (s.session st).items.length).sum

/-- The unreleased records stand with consecutive sequences from `oldest`. -/
def sequencesFrom : Nat → List Record → Prop
  | _, [] => True
  | n, r :: rs => r.seq = n ∧ sequencesFrom (n + 1) rs

/-- R141, R142: the pointers in order, the records between `oldest` and `next_seq`, the claims those of the lists, and
room for every claim. -/
def JournalSound (s : State) : Prop :=
  1 ≤ s.journal.oldest ∧ s.journal.oldest ≤ s.journal.sendMark ∧ s.journal.sendMark ≤ s.journal.nextSeq ∧
    s.journal.records.length = s.journal.unreleased ∧ sequencesFrom s.journal.oldest s.journal.records ∧
    s.journal.claims = s.listEntries ∧ s.journal.unreleased + s.journal.claims ≤ ringSlots ∧
    (∀ st : Station, (s.session st).items.length ≤ listCapacity) ∧
    (∀ st : Station, (s.session st).borrower = none → (s.session st).items = []) ∧
    (∀ u, s.upload = some u → u.endPoint ≤ s.journal.nextSeq)

/-- Ascending order without repetition. -/
def ascending {α : Type} (key : α → Number) (list : List α) : Prop := list.Pairwise fun a b => (key a).lt (key b) = true

/-- R41, R43, R64, R65, R66, R90: the order and the capacity of a bank's collections. -/
def BankSound (b : Bank) : Prop :=
  ascending Borrower.number b.borrowers ∧ b.borrowers.length ≤ borrowerCapacity ∧
    ascending Item.number b.items ∧ b.items.length ≤ itemCapacity ∧ b.holdCount ≤ itemCapacity ∧
    (∀ e ∈ b.items, e.spent = false ∧ e.queue.length ≤ queueCapacity) ∧
    ascending StaffEntry.number b.staff ∧ b.staff.length ≤ staffCapacity ∧
    (b.exceptions.Pairwise fun x y => x.day < y.day) ∧ b.exceptions.length ≤ exceptionCapacity

/-- The staged bank, and the bank a STAGE_BEGIN under way is clearing (log entry 6). -/
def State.stagedBanks (s : State) : List Bank :=
  match s.slot with
  | some { op := .stageBegin replaced, .. } => [s.staged, replaced]
  | _ => [s.staged]

/-- The banks keep the order and the capacity of their collections. -/
def TablesSound (s : State) : Prop := BankSound s.active ∧ ∀ b ∈ s.stagedBanks, BankSound b

/-- Whether a record is COUNTED for a borrower. -/
def Record.countsFor (n : Number) (r : Record) : Bool := r.flags.counted && decide (r.borrower = some n)

/-- R51, R58: `pending` is the number of unreleased COUNTED records naming the borrower, each such record has its entry,
and no staged entry has `pending`, a session or a mark. -/
def PendingSound (s : State) : Prop :=
  (∀ e ∈ s.active.borrowers, e.pending = s.journal.records.countP (Record.countsFor e.number)) ∧
    (∀ r ∈ s.journal.records, r.flags.counted = true →
      ∃ e ∈ s.active.borrowers, r.borrower = some e.number) ∧
    ∀ b ∈ s.stagedBanks, ∀ e ∈ b.borrowers,
      e.pending = 0 ∧ e.sessionStation = none ∧ e.provisional = false ∧ e.retiring = false

/-- R2, R168, R172: an open session's borrower has an ACTIVE entry that names its station, an entry that names a station
is that session's, and no session is open while the desk-day is CLOSED. -/
def LinksSound (s : State) : Prop :=
  (∀ (st : Station) (n : Number), (s.session st).borrower = some n →
      ∃ e ∈ s.active.borrowers, e.number = n ∧ e.sessionStation = some st) ∧
    (∀ e ∈ s.active.borrowers, ∀ st : Station, e.sessionStation = some st →
      (s.session st).borrower = some e.number) ∧
    (s.day.state = .closed → ∀ st : Station, (s.session st).borrower = none) ∧
    (∀ b ∈ s.stagedBanks, ∀ e ∈ b.borrowers, e.sessionStation = none)

end Sys2Proof.Machine
end

