-- ==== Sys2Proof/Certificates/Slice0/Obligations.lean ====
section
/-! DEFINITION. The statements about the model, for the provers. -/

open Sys2Proof Sys2Proof.Machine

/-! ### The queue, reset, and the invariants -/

/-- A step takes the command at the front of the queue and runs it on the state with the queue's rest.  That an empty
queue idles is the model's choice (log entry 20). -/
def Obligations.StepRunsTheFrontCommand : Prop :=
  ∀ (s : State) (c : Instr) (rest : List Instr),
    step (s.withPending (c :: rest)) = exec c (s.withPending rest) ∧
      step (s.withPending []) = .next (s.withPending [])

/-- R195: what a cold start leaves. -/
def Obligations.ResetIsTheColdStart : Prop :=
  let s := State.reset
  s.store.signatureGood = true ∧ s.store.scrubMark = false ∧
    (∀ bank : BankName, ∀ b, b = s.bank bank →
      (∀ i : Fin 32, b.prefixTable[i] = PrefixEntry.unused) ∧ b.staff = [] ∧ (∀ d : Fin 7, b.weekdays[d] = 0) ∧
        b.exceptions = [] ∧ b.borrowers = [] ∧ b.items = [] ∧ b.nextCreated = 1) ∧
    s.stagedState = .empty ∧ s.generation = 0 ∧ s.cache = [] ∧ s.journal.records = [] ∧
    s.journal.oldest = 1 ∧ s.journal.sendMark = 1 ∧ s.journal.nextSeq = 1 ∧ s.journal.claims = 0 ∧
    s.journal.overflow = false ∧ (∀ st : Station, s.session st = Session.empty) ∧ s.day.state = .closed ∧
    s.day.openDay = none ∧ s.day.fresh = false ∧ s.clock.held = none ∧ keyIsSet s.key = false ∧
    (∀ st : Station, s.settings.enableMask[st] = true ∧ s.settings.printerWidths[st] = 40#8) ∧
    s.settings.idleTimeout = 90 ∧ s.settings.closingGrace = 10 ∧ s.settings.autoOpen = false ∧
    s.settings.autoClose = false ∧ s.settings.highWater = 12288 ∧ s.settings.dateFormat = .dmy ∧
    s.settings.allowedFeatures = FeatureSet.all ∧ s.settings.stepLimit = 120 ∧
    s.clock.now = { day := 0, second := 0 } ∧ s.clock.valid = false ∧ s.uplink.state = .down ∧
    s.supervisor.state = .down ∧ (∀ st : Station, s.stationState st = .absent)

/-- The four invariants hold at reset. -/
def Obligations.InvariantsHoldAtReset : Prop :=
  JournalSound State.reset ∧ TablesSound State.reset ∧ PendingSound State.reset ∧ LinksSound State.reset

/-- R141, R142: the pointers stay in order, the ring holds the unreleased records, and every claim keeps its room. -/
def Obligations.EveryStepKeepsTheJournalSound : Prop :=
  ∀ s t : State, JournalSound s → step s = .next t → JournalSound t

/-- The tables of both banks keep their order and stay within their capacity. -/
def Obligations.EveryStepKeepsTheTablesSound : Prop :=
  ∀ s t : State, TablesSound s → step s = .next t → TablesSound t

/-- R51: `pending` stays the number of unreleased COUNTED records that name the borrower. -/
def Obligations.PendingCountsUnreleasedRecords : Prop :=
  ∀ s t : State, JournalSound s → TablesSound s → LinksSound s → PendingSound s → step s = .next t → PendingSound t

/-- R2: a borrower is open at no more than one station, and the entry names that station. -/
def Obligations.EveryStepKeepsTheSessionLinks : Prop :=
  (∀ s t : State, JournalSound s → TablesSound s → PendingSound s → LinksSound s → step s = .next t → LinksSound t) ∧
    ∀ s : State, TablesSound s → LinksSound s → ∀ (a b : Station) (n : Number),
      (s.session a).borrower = some n → (s.session b).borrower = some n → a = b

/-! ### Bytes on the lines -/

/-- A receiver that looks for a start gives back the body of a frame sent whole, whatever other bytes came before, and
looks again. -/
def Obligations.FramesComeBackFromTheWire : Prop :=
  ∀ (f : FrameFormat) (noise body : List Byte), f = stationFormat ∨ f = lineFormat → f.start ∉ noise →
    f.least ≤ body.length → body.length ≤ f.most →
    Receiver.takeAll f (noise ++ frameBytes f body) .looking = (.looking, [body])

/-- R128, R175: a length out of range ends the frame at once, and a frame whose CRC differs is dropped. -/
def Obligations.DamagedFramesAreDropped : Prop :=
  ∀ f : FrameFormat, f = stationFormat ∨ f = lineFormat →
    (∀ n, n < 256 ^ f.lengthSize → n < f.least ∨ f.most < n →
      Receiver.takeAll f (f.start :: bigEndian f.lengthSize n) .looking = (.looking, [])) ∧
    ∀ (body : List Byte) (a b : Byte), f.least ≤ body.length → body.length ≤ f.most →
      [a, b] ≠ bigEndian 2 (crc16 (bigEndian f.lengthSize body.length ++ body)).toNat →
      Receiver.takeAll f (f.start :: (bigEndian f.lengthSize body.length ++ body) ++ [a, b]) .looking = (.looking, [])

/-- R128, R136, R175, R176: the byte that ends a gap is the first byte of a new look, on a station line and on a management
line; a transmitter takes frames from the head of its list, one at a time. -/
def Obligations.LinesGapAndTransmit : Prop :=
  ((∀ (s : State) (st : Station) (next : Byte), s.running = true →
    exec (.stationFrameGap st next) s =
      .next (s.setPort st { s.port st with receiver := if next = 0x5A#8 then .length [] else .looking })) ∧
  ∀ (s : State) (l : Line) (next : Byte), s.running = true → s.restarting = none →
    exec (.lineFrameGap l next) s =
      .next (s.setLine l { s.line l with receiver := if next = 0xC3#8 then .length [] else .looking })) ∧
  (∀ (s : State) (st : Station), s.running = true →
    exec (.stationTransmit st) s =
      .next (s.setPort st { s.port st with wire := (s.port st).down.head?, down := (s.port st).down.tail })) ∧
  ∀ (s : State) (l : Line), s.running = true → s.restarting = none →
    exec (.lineTransmit l) s =
      .next (s.setLine l { s.line l with wire := (s.line l).sendList.head?, sendList := (s.line l).sendList.tail })

/-! ### Station lines -/

/-- R132: the first heartbeat of an enabled station brings it, and its standing text is shown.  R119, R120, R132, R139: a
heartbeat of a present or bridged station restarts the watch and replaces credit and paper state; paper out after paper
present raises PRINTER on both lines and shows PAPER, paper present after paper out shows the standing text.  R139: that
of a bridged station goes up as a PASS frame while the supervisor line is ACTIVE, and then the rest follows.  R129, R139: a
heartbeat that fails the form test is only relayed, if bridged, and one of a station not enabled is ignored; that the form
is two bytes with paper 0 or 1 is read from 07 section 7.1 (DEDUCED, log entry 23). -/
def Obligations.HeartbeatsBringAndRefreshTheStation : Prop :=
  (∀ (s : State) (st : Station) (paper credit : Byte), s.running = true → s.settings.enableMask[st] = true →
    (s.port st).present = false → (s.port st).bridged = false → paper = 0x00#8 ∨ paper = 0x01#8 →
    ∃ t, exec (.heartbeat st [paper, credit]) s = .next t ∧
      t.port st =
        { s.port st with
          receiver := .looking, present := true, watch := some 0, credit := min 8 credit.toNat,
          paperOut := decide (paper = 0x01#8), down := (t.port st).down } ∧
      (∀ i, t.standingText st = some i →
        (t.console st).line1 = fit20 (s.shownText i).line1 ∧ (t.console st).line2 = fit20 (s.shownText i).line2 ∧
          (t.port st).down = joinDisplay (.display (t.console st).line1 (t.console st).line2) (s.port st).down) ∧
      t.session st = s.session st ∧ othersKept st s t ∧ deskOnly s t ∧ t.journal = s.journal ∧
      t.active = s.active ∧ t.cache = s.cache ∧ t.uplink = s.uplink ∧ t.supervisor = s.supervisor) ∧
  (∀ (s : State) (st : Station) (paper credit : Byte), s.running = true → s.settings.enableMask[st] = true →
    (s.port st).present = true ∨ (s.port st).bridged = true → paper = 0x00#8 ∨ paper = 0x01#8 →
    let relayed : List LineFrame :=
      if (s.port st).bridged = true ∧ s.supervisor.state = .active then
        joinUnsolicited (.pass st [0x10#8, paper, credit]) s.supervisor.sendList
      else s.supervisor.sendList
    let runsOut : Prop := paper = 0x01#8 ∧ (s.port st).paperOut = false
    ∃ t, exec (.heartbeat st [paper, credit]) s = .next t ∧
      t.port st =
        { s.port st with
          receiver := .looking, watch := some 0, credit := min 8 credit.toNat, paperOut := decide (paper = 0x01#8),
          down := (t.port st).down } ∧
      (∀ l : Line, (t.line l).pendingSet.has .printer =
        ((s.line l).pendingSet.has .printer || (decide (paper = 0x01#8) && !(s.port st).paperOut))) ∧
      (runsOut → (s.console st).wiped = false →
        t.console st =
            { s.console st with
              line1 := fit20 (s.shownText 27).line1, line2 := fit20 (s.shownText 27).line2 } ∧
          (t.port st).down =
            if (s.port st).bridged then (s.port st).down
            else joinDisplay (.display (t.console st).line1 (t.console st).line2) (s.port st).down) ∧
      (runsOut → (s.console st).wiped = true →
        t.console st = s.console st ∧ (t.port st).down = (s.port st).down) ∧
      (paper = 0x00#8 → (s.port st).paperOut = true →
        (∀ i, t.standingText st = some i →
          t.console st =
              { s.console st with
                line1 := fit20 (s.shownText i).line1, line2 := fit20 (s.shownText i).line2 } ∧
            (t.port st).down =
              joinDisplay (.display (t.console st).line1 (t.console st).line2) (s.port st).down) ∧
        (t.standingText st = none → t.console st = s.console st ∧ (t.port st).down = (s.port st).down)) ∧
      (decide (paper = 0x01#8) = (s.port st).paperOut →
        t.console st = s.console st ∧ (t.port st).down = (s.port st).down) ∧
      (¬runsOut → t.uplink = s.uplink ∧ t.supervisor = { s.supervisor with sendList := relayed }) ∧
      relayed <+: t.supervisor.sendList ∧ linesKept s t ∧
      t.session st = s.session st ∧ othersKept st s t ∧ deskOnly s t ∧ t.journal = s.journal ∧
      t.active = s.active ∧ t.cache = s.cache) ∧
  ∀ (s : State) (st : Station) (content : List Byte), s.running = true →
    let heard := s.setPort st { s.port st with receiver := .looking }
    (s.settings.enableMask[st] = false → exec (.heartbeat st content) s = .next heard) ∧
    (s.settings.enableMask[st] = true → (∀ credit, content ≠ [0x00#8, credit] ∧ content ≠ [0x01#8, credit]) →
      ((s.port st).bridged = true → s.supervisor.state = .active →
        exec (.heartbeat st content) s =
          .next
            { heard with
              supervisor :=
                { s.supervisor with
                  sendList := joinUnsolicited (.pass st (0x10#8 :: content)) s.supervisor.sendList } }) ∧
      ((s.port st).bridged = false ∨ s.supervisor.state ≠ .active →
        exec (.heartbeat st content) s = .next heard))

/-- R129, R130, R135: a scan of 4 to 24 digits or a key joins the two slots, a third input is answered WAIT, a no-read is
answered REFUSE and joins none, and an absent station's inputs are dropped.  That a no-read passes the form test whatever
bytes follow its symbology code is read from 07 section 7.1 (DEDUCED, log entry 23). -/
def Obligations.InputsJoinTheSlots : Prop :=
  ∀ (s : State) (st : Station) (c : Instr) (i : Input), s.running = true → s.restarting = none →
    s.settings.enableMask[st] = true → (s.port st).bridged = false →
    (∃ (symbology : Byte) (chars : List Byte), symbology ≠ 0x00#8 ∧ (∀ b ∈ chars, isDigit b = true) ∧
        4 ≤ chars.length ∧ chars.length ≤ 24 ∧ c = .scanFrame st (symbology :: chars) ∧
        i = .scan (chars.map fun b => b.toNat - 0x30)) ∨
      (∃ k : Fin 5, c = .keyFrame st [BitVec.ofNat 8 (k.val + 1)] ∧
        i = .key ([KeyCode.endKey, .cancel, .returnKey, .checkout, .reprint].getD k.val .endKey)) →
    let p := { s.port st with receiver := .looking }
    ((s.port st).present = true → (s.port st).slots.length < 2 →
        exec c s = .next (s.setPort st { p with slots := (s.port st).slots ++ [i] })) ∧
      ((s.port st).present = true → 2 ≤ (s.port st).slots.length →
        exec c s = .next (s.setPort st { p with down := joinSignal .wait (s.port st).down })) ∧
      ((s.port st).present = false → exec c s = .next (s.setPort st p)) ∧
      ∀ digits : List Byte, (s.port st).present = true →
        exec (.scanFrame st (0x00#8 :: digits)) s =
          .next (s.setPort st { p with down := joinSignal .refuse (s.port st).down })

/-- R129, R139: while a station is bridged its scans, keys and frames of any other kind go up as PASS frames; a frame of an
unknown kind of any other station is dropped.  R139, R175: a PASS frame for a bridged station joins its down list, at
most four of them; a good frame of a kind that is dropped counts for the liveness watch and does nothing else, and so, by
the model's choice, do one of a kind byte that R175 does not list (log entry 27) and a PASS frame with empty content on
an ACTIVE supervisor line (log entry 30). -/
def Obligations.BridgedFramesAreRelayed : Prop :=
  (∀ (s : State) (st : Station) (kind : Byte) (content : List Byte), s.running = true →
    s.settings.enableMask[st] = true → s.supervisor.state = .active →
    let heard := s.setPort st { s.port st with receiver := .looking }
    let up (kind : Byte) : State :=
      { heard with
        supervisor :=
          { s.supervisor with sendList := joinUnsolicited (.pass st (kind :: content)) s.supervisor.sendList } }
    ((s.port st).bridged = true →
        exec (.scanFrame st content) s = .next (up 0x11#8) ∧ exec (.keyFrame st content) s = .next (up 0x12#8) ∧
          exec (.unknownKindStationFrame st kind content) s = .next (up kind)) ∧
      ((s.port st).bridged = false → exec (.unknownKindStationFrame st kind content) s = .next heard)) ∧
  (∀ (s : State) (st : Station) (body : List Byte), s.hears .supervisor → 1 ≤ body.length → body.length ≤ 64 →
    exec (.passDown st.val body) s =
      .next (((s.setLine .supervisor { s.supervisor with receiver := .looking, liveness := some 0 })).setPort st
        { s.port st with
          down :=
            if (s.port st).bridged = true ∧ (s.port st).down.countP DownFrame.isPass < 4 then
              (s.port st).down ++ [.pass body]
            else (s.port st).down })) ∧
  (∀ (s : State) (l : Line) (kind : DroppedKind), s.running = true → s.restarting = none →
    ¬(kind = .pass ∧ l = .supervisor ∧ s.supervisor.state = .active) →
    exec (.droppedGoodLineFrame l kind) s =
      .next (s.setLine l
        { s.line l with
          receiver := .looking, liveness := if (s.line l).state = .down then (s.line l).liveness else some 0 }))

/-- R22, R133, R139: when the watch reaches 10 s a bridged station only stops it; any other station is lost, an open
session being abandoned with one record; R168: the last session's end closes a desk that is CLOSING. -/
def Obligations.TheWatchLosesTheStation : Prop :=
  ∀ (s : State) (st : Station), s.running = true → (s.port st).watch = some 10 →
    ((s.port st).bridged = true →
      exec (.heartbeatWatchExpiry st) s = .next (s.setPort st { s.port st with watch := none })) ∧
    ((s.port st).bridged = false → ¬staysOpen s st →
      ∃ t, exec (.heartbeatWatchExpiry st) s = .next t ∧ t.stationState st = .absent ∧
        (t.session st).borrower = none ∧ t.notice = none ∧ t.clock.held = none ∧
        t.day = { s.day with state := .closed, fresh := false, grace := none, graceExpired := false }) ∧
    ((s.port st).bridged = false → staysOpen s st →
      ∃ t, exec (.heartbeatWatchExpiry st) s = .next t ∧
        t.port st =
          { s.port st with
            present := false, watch := none, slots := [], credit := 0, paperOut := false, down := [] } ∧
        t.console st =
          { s.console st with queue := [], headSent := 0, line1 := blankLine, line2 := blankLine } ∧
        (∀ l : Line, (t.line l).pendingSet.has .stationLost = true) ∧
        t.cache = s.cache ∧ t.stationState st = .absent ∧ othersKept st s t ∧ deskOnly s t ∧
        ((s.session st).borrower = none → t.journal = s.journal ∧ t.active = s.active ∧
          (t.session st).borrower = none ∧ (t.session st).armedUntil = none ∧ (t.session st).mode = .normal) ∧
        (∀ b, (s.session st).borrower = some b → t.session st = Session.empty ∧
          ((s.session st).items ≠ [] → t.journal.claims = s.journal.claims - (s.session st).items.length) ∧
          ((s.session st).items ≠ [] ∨ 1 ≤ s.journal.free →
            ∃ r, t.journal.records = s.journal.records ++ [r] ∧ r.seq = s.journal.nextSeq ∧
              r.kind = .sessionAbandoned ∧ r.station = some st ∧ r.borrower = some b ∧
              r.reason = some (.count (s.session st).items.length) ∧ r.staff = (s.session st).overrideStaff)))

/-- R119: one send prints the head's next unsent line, or cuts and makes the slip the copy, for one unit of credit. -/
def Obligations.OneSendOneLine : Prop :=
  ∀ (s : State) (st : Station) (head : Slip) (rest : List Slip), s.running = true → s.atDesk st = true →
    (s.port st).paperOut = false → 0 < (s.port st).credit → (s.port st).down.countP DownFrame.isPrint < 8 →
    (s.console st).queue = head :: rest →
    (∀ line, head.lines[(s.console st).headSent]? = some line →
      exec (.slipSend st) s =
        .next ((s.setPort st
          { s.port st with down := (s.port st).down ++ [.print line], credit := (s.port st).credit - 1 }).setConsole st
            { s.console st with headSent := (s.console st).headSent + 1 })) ∧
    (head.lines.length ≤ (s.console st).headSent →
      exec (.slipSend st) s =
        .next ((s.setPort st
          { s.port st with down := (s.port st).down ++ [.cut], credit := (s.port st).credit - 1 }).setConsole st
            { s.console st with queue := rest, headSent := 0, copy := some head }))

/-- R138: BRIDGE takes a station in IDLE or ABSENT off the desk.  R140: UNBRIDGE returns a station whose watch runs to IDLE,
and ends any other ABSENT with STATION_LOST. -/
def Obligations.BridgeAndUnbridge : Prop :=
  (∀ (s : State) (q : Req) (st : Station), s.admits .supervisor → q.line = .supervisor →
    (s.stationState st = .idle ∨ s.stationState st = .absent →
      ∃ t, exec (.bridge q (.shaped st.val)) s = .next t ∧ t.stationState st = .bridged ∧
        t.port st =
          { s.port st with
            bridged := true, present := false, slots := []
            down := (s.port st).down.filter fun f => !(f.isDisplay || f.isSignal) } ∧
        t.console st = s.console st ∧ (t.session st).armedUntil = none ∧ (t.session st).mode = .normal ∧
        othersKept st s t ∧ deskOnly s t ∧ t.journal = s.journal ∧ t.active = s.active ∧ t.cache = s.cache ∧
        t.uplink = s.uplink ∧ t.supervisor = s.supervisor.afterReply q .bridge Reply.ok) ∧
    (s.stationState st = .checkout ∨ s.stationState st = .returns ∨ s.stationState st = .bridged →
      exec (.bridge q (.shaped st.val)) s =
        .next (s.setLine .supervisor (s.supervisor.afterReply q .bridge (Reply.bare .busyStation))))) ∧
  ∀ (s : State) (q : Req) (st : Station), s.admits .supervisor → q.line = .supervisor → (s.port st).bridged = true →
    (s.session st).borrower = none → (s.session st).mode = .normal →
    ∃ t, exec (.unbridge q (.shaped st.val)) s = .next t ∧ (t.port st).bridged = false ∧
      (∀ f ∈ (t.port st).down, f.isPass = false) ∧
      ((s.settings.enableMask[st] && (s.port st).watch.isSome) = true →
        t.stationState st = .idle ∧ (t.console st).queue = (s.console st).queue ∧
          (t.console st).headSent = (s.console st).headSent ∧ t.uplink = s.uplink) ∧
      ((s.settings.enableMask[st] && (s.port st).watch.isSome) = false →
        t.stationState st = .absent ∧ (t.port st).credit = 0 ∧ (t.port st).paperOut = false ∧
          (t.console st).queue = [] ∧ (t.console st).line1 = blankLine ∧ (t.console st).line2 = blankLine ∧
          ∀ l : Line, (t.line l).pendingSet.has .stationLost = true) ∧
      othersKept st s t ∧ deskOnly s t ∧ t.journal = s.journal ∧ t.active = s.active ∧ t.cache = s.cache

/-! ### The desk -/

/-- R3: the input taken is the oldest of the first station, round-robin from the one after the last served, whose slots
hold one; none is taken while WIPE holds the slot, and then the decision commands change nothing. -/
def Obligations.TheArbiterGoesRound : Prop :=
  (∀ (s : State) (st : Station) (i : Input), s.wiping = false → s.restarting = none →
    (s.arbiterPick = some (st, i) ↔
      ((s.port st).slots.head? = some i ∧
        ∃ k : Fin 8, st = s.lastServed + 1 + k ∧ ∀ j < k, (s.port (s.lastServed + 1 + j)).slots = []))) ∧
    ∀ (s : State) (c : Instr), s.wiping = true →
      c ∈ [.borrowerScan, .itemScan, .staffScan, .ignoreOrCcRefusedScan, .endKey, .cancelKey, .returnKey, .checkoutKey,
        .reprintKey] → exec c s = .next s

/-- R7, R9, R47: a borrower whose failing checks are all covered opens a session; a number with no entry opens it on a
provisional one.  R6, R18: a scan of another borrower closes the session as END does, and goes on as one taken in IDLE. -/
def Obligations.BorrowerScansOpenSessions : Prop :=
  ∀ (s : State) (st : Station) (digits : List Nat) (n : Number) (c : Fin 16), s.takesNext st (.scan digits) →
    classify s.active.prefixTable digits = .borrower n c → s.day.state = .opened → s.attended st →
    let opened (staff : Option Number) (admitted : Bool) : Session :=
      { borrower := some n, items := [], overrideStaff := staff, armedUntil := none, admittedByOverride := admitted
        idle := s.settings.idleTimeout, mode := .normal }
    let linked (bank : Bank) : Bank :=
      { bank with
        borrowers := bank.borrowers.map fun x => if x.number = n then { x with sessionStation := some st } else x }
    let common (category : Fin 16) (loans : Nat) (t : State) : Prop :=
      shown s st (maskNumber (s.active.categories[category]).shownDigits n) (decimal loans) (some .accept) t ∧
        t.stationState st = .checkout ∧ slipsKept s st t ∧ t.journal = s.journal ∧ t.cache = s.cache ∧
        t.uplink = s.uplink ∧ t.supervisor = s.supervisor ∧ othersKept st s t ∧ deskOnly s t
    (∀ e, (s.session st).borrower = none → s.active.borrower n = some e →
      (∀ p ∈ borrowerChecks s st e, p.2 = true → coveredBy s (armedAt s st) p.1 = true) →
      ∃ t, exec .borrowerScan s = .next t ∧ common e.category e.loansHeld t ∧
        t.session st = opened (armedAt s st) ((borrowerChecks s st e).any Prod.snd) ∧ t.active = linked s.active) ∧
    (∀ room, (s.session st).borrower = none → s.active.borrower n = none → s.active.makeRoom = some room →
      ∃ t, exec .borrowerScan s = .next t ∧ common c 0 t ∧ t.session st = opened (armedAt s st) false ∧
        t.active =
          { room with
            nextCreated := room.nextCreated + 1
            borrowers :=
              insertBy (fun x y => x.number.lt y.number)
                { number := n, category := c, expiryDay := 65535, blocks := { admin := false, lostCard := false },
                  finesOwed := 0, overdueItems := 0, loansHeld := 0, pending := 0, sessionStation := some st,
                  provisional := true, retiring := false, createdSeq := room.nextCreated }
                room.borrowers }) ∧
    ∀ m e x, (s.session st).borrower = some m → m ≠ n → s.active.borrower m = some e → s.active.borrower n = some x →
      (∀ p ∈ borrowerChecks s st x, p.2 = false) →
      ∃ t mid, exec .borrowerScan s = .next t ∧ booked s st m e mid ∧ t.journal = mid.journal ∧ t.cache = mid.cache ∧
        t.active = linked mid.active ∧ slipQueued s st m t ∧ t.session st = opened none false ∧
        (t.console st).line1 =
          fit20 (lostOr s st (maskNumber (s.active.categories[x.category]).shownDigits n)) ∧
        (t.console st).line2 = fit20 (decimal x.loansHeld) ∧ ((s.port st).down.countP DownFrame.isSignal < 3 → .signal .accept ∈ (t.port st).down) ∧
        (t.port st).slots = (s.port st).slots.tail ∧ t.lastServed = st ∧ linesKept s t ∧ othersKept st s t ∧
        deskOnly s t

/-- R6, R7, R8, R47: a borrower scan is refused while the desk is not OPEN, by the first check that fails uncovered, and
for want of room; the session's own borrower only sounds DUPLICATE.  A scan refused by a check at a station with another
borrower's session has closed that session. -/
def Obligations.BorrowerScansAreRefused : Prop :=
  ∀ (s : State) (st : Station) (digits : List Nat) (n : Number) (c : Fin 16), s.takesNext st (.scan digits) →
    classify s.active.prefixTable digits = .borrower n c → s.attended st →
    (s.day.state ≠ .opened →
      ∃ t, exec .borrowerScan s = .next t ∧
        refusedAt s st .deskClosed (some n) none
          (if (s.session st).borrower = none then none else (s.session st).overrideStaff) t ∧
        t.session st = (if (s.session st).borrower = none then s.session st else reloaded s st) ∧
        othersKept st s t ∧ deskOnly s t) ∧
    (s.day.state = .opened → (s.session st).borrower = some n →
      ∃ t, exec .borrowerScan s = .next t ∧ signalled s st (some .duplicate) t ∧ slipsKept s st t ∧
        t.session st = reloaded s st ∧ unrecorded s t ∧ t.cache = s.cache ∧ othersKept st s t ∧ deskOnly s t) ∧
    (∀ r, s.day.state = .opened → (s.session st).borrower = none →
      (∃ e, s.active.borrower n = some e ∧
          ((borrowerChecks s st e).find? fun p => p.2 && !coveredBy s (armedAt s st) p.1) = some (r, true)) ∨
        (r = .tableFull ∧ s.active.borrower n = none ∧ s.active.makeRoom = none) →
      ∃ t, exec .borrowerScan s = .next t ∧ refusedAt s st r (some n) none (armedAt s st) t ∧
        t.session st =
          { s.session st with
            mode := .normal, armedUntil := none
            overrideStaff := if (s.session st).armedUntil = none then (s.session st).overrideStaff else none } ∧
        othersKept st s t ∧ deskOnly s t) ∧
    ∀ m e x r, s.day.state = .opened → (s.session st).borrower = some m → m ≠ n → s.active.borrower m = some e →
      s.active.borrower n = some x → (borrowerChecks s st x).find? Prod.snd = some (r, true) →
      ∃ t mid, exec .borrowerScan s = .next t ∧ booked s st m e mid ∧ slipQueued s st m t ∧ t.cache = mid.cache ∧
        (let after : State := { s with journal := mid.journal, active := mid.active }
         if 32 < mid.journal.free then
          appended after
            { draft .refusal with station := some st, reason := some (.refusal r), borrower := some n } t
        else unrecorded after t) ∧
        t.session st = Session.empty ∧ (t.console st).line1 = fit20 (lostOr s st (s.shownText r.textNumber).line1) ∧
        ((s.port st).down.countP DownFrame.isSignal < 3 → .signal .refuse ∈ (t.port st).down) ∧ t.lastServed = st ∧ linesKept s t ∧ othersKept st s t ∧ deskOnly s t

/-- R13 to R16: an item that passes its checks joins the list with its claim, and no table changes.  That item and RENEWED
label, and due day and time, are joined by one space on their display lines is the model's choice (log entry 12). -/
def Obligations.ItemScansJoinTheList : Prop :=
  ∀ (s : State) (st : Station) (digits : List Nat) (item n : Number) (default : Fin 32) (b : Borrower)
    (due : Computed), s.takesNext st (.scan digits) →
    classify s.active.prefixTable digits = .item item default → s.attended st →
    (s.session st).borrower = some n → s.active.borrower n = some b →
    ((s.session st).items.any fun e => e.item = item) = false →
    (∀ p ∈ itemChecksInOrder s st b item default, p.2 = false) → itemDue s b item default = .ok due →
    32 < s.journal.free →
    let e := entryOf s st b item default due
    ∃ t, exec .itemScan s = .next t ∧
      shown s st
        (if e.action = .renew then spaced (printNumber item) (s.shownText 30).line1 else printNumber item)
        (spaced (printDate s.settings.dateFormat due.due.day) (printMinute due.due.minute)) (some .accept) t ∧
      t.session st = { reloaded s st with items := (s.session st).items ++ [e] } ∧
      t.journal = { s.journal with claims := s.journal.claims + 1 } ∧ t.active = s.active ∧ t.cache = s.cache ∧
      slipsKept s st t ∧ othersKept st s t ∧ deskOnly s t

/-- R14 to R17, R25 (NO_BORROWER of R4): the first check that fails uncovered decides an item's refusal; an item of the
own list sounds DUPLICATE. -/
def Obligations.ItemScansAreRefused : Prop :=
  ∀ (s : State) (st : Station) (digits : List Nat) (item : Number) (default : Fin 32),
    s.takesNext st (.scan digits) → classify s.active.prefixTable digits = .item item default → s.attended st →
    ((s.session st).borrower = none → (s.session st).mode = .normal →
      ∃ t, exec .itemScan s = .next t ∧ refusedAt s st .noBorrower none (some item) none t ∧
        t.session st = s.session st ∧ othersKept st s t ∧ deskOnly s t) ∧
    ∀ n b, (s.session st).borrower = some n → s.active.borrower n = some b →
      let own := (s.session st).items.any fun e => decide (e.item = item)
      let refused (r : Reason) : Prop :=
        ∃ t, exec .itemScan s = .next t ∧
          refusedAt s st r (some n) (some item) (s.session st).overrideStaff t ∧ t.session st = reloaded s st ∧
          othersKept st s t ∧ deskOnly s t
      (12 ≤ (s.session st).items.length → refused .listFull) ∧
      ((s.session st).items.length < 12 → own = true →
        ∃ t, exec .itemScan s = .next t ∧ signalled s st (some .duplicate) t ∧ slipsKept s st t ∧
          t.session st = reloaded s st ∧ unrecorded s t ∧ t.cache = s.cache ∧ othersKept st s t ∧ deskOnly s t) ∧
      (∀ r, own = false → (itemChecksInOrder s st b item default).find? Prod.snd = some (r, true) → refused r) ∧
      (own = false → (∀ p ∈ itemChecksInOrder s st b item default, p.2 = false) →
        (∀ r, itemDue s b item default = .error r → refused r) ∧
          ∀ due, itemDue s b item default = .ok due → s.journal.free ≤ 32 → refused .journalFull)

/-- R15: no item scan leads past the loan limit without an override that covers LIMIT. -/
def Obligations.TheLoanLimitHolds : Prop :=
  ∀ (s t : State) (st : Station) (n : Number) (b : Borrower), exec .itemScan s = .next t →
    (s.session st).borrower = some n → s.active.borrower n = some b →
    coveredBy s (s.session st).overrideStaff .limit = false →
    b.loansHeld + (s.session st).items.countP ListEntry.isCheckout ≤ (s.active.categories[b.category]).loanLimit →
    b.loansHeld + (t.session st).items.countP ListEntry.isCheckout ≤ (s.active.categories[b.category]).loanLimit

/-- R11, R12: a known staff number arms an override before a borrower, and is the session's override in CHECKOUT; an
unknown one is refused UNKNOWN_STAFF. -/
def Obligations.StaffScansSetOverrides : Prop :=
  ∀ (s : State) (st : Station) (digits : List Nat) (n : Number), s.takesNext st (.scan digits) →
    classify s.active.prefixTable digits = .staff n → s.attended st →
    ((s.active.staff.any fun e => e.number = n) = true →
      ∃ t, exec .staffScan s = .next t ∧ shown s st (s.console st).line1 (printNumber n) (some .accept) t ∧
        t.session st =
          (if (s.session st).borrower = none then
            { s.session st with
              overrideStaff := some n, armedUntil := some ((s.clock.now.second + 60) % 86400) }
          else { reloaded s st with overrideStaff := some n }) ∧
        slipsKept s st t ∧ unrecorded s t ∧ t.cache = s.cache ∧ othersKept st s t ∧ deskOnly s t) ∧
    ((s.active.staff.any fun e => e.number = n) = false →
      ∃ t, exec .staffScan s = .next t ∧ refusedAt s st .unknownStaff (s.session st).borrower none (some n) t ∧
        t.session st = (if (s.session st).borrower = none then s.session st else reloaded s st) ∧
        othersKept st s t ∧ deskOnly s t)

/-- R4, R29, R33: an IGNORE scan has no effect but the idle timer's restart, and a scan that the classifier refuses is
answered with its reason. -/
def Obligations.OtherScansAreIgnoredOrRefused : Prop :=
  ∀ (s : State) (st : Station) (digits : List Nat), s.takesNext st (.scan digits) → s.attended st →
    let session := if (s.session st).borrower = none then s.session st else reloaded s st
    (classify s.active.prefixTable digits = .ignore → (s.console st).wiped = false →
      ∃ t, exec .ignoreOrCcRefusedScan s = .next t ∧ signalled s st none t ∧ slipsKept s st t ∧
        t.session st = session ∧ unrecorded s t ∧ t.cache = s.cache ∧ othersKept st s t ∧ deskOnly s t) ∧
    ∀ r, classify s.active.prefixTable digits = .refused r →
      ∃ t, exec .ignoreOrCcRefusedScan s = .next t ∧
        refusedAt s st r (s.session st).borrower none
          (if (s.session st).borrower = none then none else (s.session st).overrideStaff) t ∧
        t.session st = session ∧ othersKept st s t ∧ deskOnly s t

/-- R18, R19, R20, R124, R168: END closes a session: its records, its slip, ACCEPT and the count; the last one to end while
CLOSING brings the desk-day to CLOSED.  In IDLE or RETURNS the key has no effect.  That count and label of the display line
are joined by one space is the model's choice (log entry 12). -/
def Obligations.EndClosesTheSession : Prop :=
  ∀ (s : State) (st : Station), s.takesNext st (.key .endKey) → s.attended st →
    (∀ n b, (s.session st).borrower = some n → s.active.borrower n = some b →
      (staysOpen s st →
        ∃ t, exec .endKey s = .next t ∧ booked s st n b t ∧ slipQueued s st n t ∧ t.session st = Session.empty ∧
          (if (s.session st).items = [] then
            shown s st (idleText s st).line1 (idleText s st).line2 (some .accept) t
          else
            shown s st (lostOr s st (s.shownText 31).line1)
              (spaced (decimal (s.session st).items.length) (s.shownText 31).line2) (some .accept) t) ∧
          othersKept st s t ∧ deskOnly s t) ∧
      (JournalSound s → ¬staysOpen s st →
        ∃ t, exec .endKey s = .next t ∧ deskClosed s t ∧ t.session st = Session.empty ∧ slipQueued s st n t)) ∧
    ((s.session st).borrower = none → (s.console st).wiped = false →
      ∃ t, exec .endKey s = .next t ∧ signalled s st none t ∧ slipsKept s st t ∧ t.session st = s.session st ∧
        unrecorded s t ∧ t.cache = s.cache ∧ othersKept st s t ∧ deskOnly s t)

/-- R21: CANCEL drops the session without a record and gives its claims back; R168: the last session's end closes a desk
that is CLOSING; R4, R11: in IDLE or RETURNS the key removes an arm.  That the display stays as it was then is the model's
choice (log entry 31). -/
def Obligations.CancelDropsTheSession : Prop :=
  ∀ (s : State) (st : Station), s.takesNext st (.key .cancel) → s.attended st →
    (∀ n, (s.session st).borrower = some n → ¬staysOpen s st →
      ∃ t, exec .cancelKey s = .next t ∧ deskClosed s t ∧ t.session st = Session.empty ∧ t.cache = s.cache ∧
        t.lastServed = st) ∧
    (∀ n, (s.session st).borrower = some n → staysOpen s st →
      ∃ t, exec .cancelKey s = .next t ∧ t.session st = Session.empty ∧
        t.journal = { s.journal with claims := s.journal.claims - (s.session st).items.length } ∧
        t.active =
          { s.active with
            borrowers :=
              withoutRetired n
                (s.active.borrowers.map fun x => if x.number = n then { x with sessionStation := none } else x) } ∧
        t.cache = s.cache ∧ shown s st (idleText s st).line1 (idleText s st).line2 none t ∧ slipsKept s st t ∧
        othersKept st s t ∧ deskOnly s t) ∧
    ((s.session st).borrower = none → (s.console st).wiped = false →
      ∃ t, exec .cancelKey s = .next t ∧ signalled s st none t ∧ slipsKept s st t ∧
        t.session st =
          (if (s.session st).armedUntil = none then s.session st
          else { s.session st with armedUntil := none, overrideStaff := none }) ∧
        unrecorded s t ∧ t.cache = s.cache ∧ othersKept st s t ∧ deskOnly s t)

/-- R20, R24: the RETURN key leads to RETURNS, from CHECKOUT by closing the session; the CHECKOUT key leads back to IDLE;
elsewhere the two have no effect.  R121: REPRINT queues the last-slip copy with ACCEPT, drops it with SLIP LOST when the
queue is full, and sounds REFUSE when there is none. -/
def Obligations.KeysSetTheModeAndReprint : Prop :=
  (∀ (s : State) (st : Station), s.attended st →
    let still (t : State) : Prop :=
      slipsKept s st t ∧ unrecorded s t ∧ t.cache = s.cache ∧ othersKept st s t ∧ deskOnly s t
    (s.takesNext st (.key .returnKey) →
      (∀ n b, (s.session st).borrower = some n → s.active.borrower n = some b → staysOpen s st →
        ∃ t, exec .returnKey s = .next t ∧ booked s st n b t ∧ slipQueued s st n t ∧
          t.session st = { Session.empty with mode := .returns } ∧
          shown s st (lostOr s st (returnsText s st).line1) (returnsText s st).line2 (some .accept) t ∧
          othersKept st s t ∧ deskOnly s t) ∧
      (∀ n, JournalSound s → (s.session st).borrower = some n → ¬staysOpen s st →
        ∃ t, exec .returnKey s = .next t ∧ deskClosed s t ∧ slipQueued s st n t ∧
          t.session st = { Session.empty with mode := .returns }) ∧
      ((s.session st).borrower = none → (s.session st).mode = .normal → staysOpen s st →
        ∃ t, exec .returnKey s = .next t ∧ t.session st = { s.session st with mode := .returns } ∧
          shown s st (returnsText s st).line1 (returnsText s st).line2 (some .accept) t ∧ still t) ∧
      ((s.session st).borrower = none → (s.session st).mode = .returns → (s.console st).wiped = false →
        ∃ t, exec .returnKey s = .next t ∧ t.session st = s.session st ∧ signalled s st none t ∧ still t)) ∧
    (s.takesNext st (.key .checkout) →
      ((s.session st).borrower = none → (s.session st).mode = .returns →
        ∃ t, exec .checkoutKey s = .next t ∧ t.session st = { s.session st with mode := .normal } ∧
          shown s st (idleText s st).line1 (idleText s st).line2 none t ∧ still t) ∧
      ((s.session st).borrower ≠ none ∨ (s.session st).mode = .normal → (s.console st).wiped = false →
        ∃ t, exec .checkoutKey s = .next t ∧ signalled s st none t ∧
          t.session st = (if (s.session st).borrower = none then s.session st else reloaded s st) ∧ still t))) ∧
  ∀ (s : State) (st : Station), s.takesNext st (.key .reprint) → s.attended st → (s.console st).wiped = false →
    let session := if (s.session st).borrower = none then s.session st else reloaded s st
    let still (t : State) : Prop :=
      t.session st = session ∧ unrecorded s t ∧ t.cache = s.cache ∧ othersKept st s t ∧ deskOnly s t
    ((s.console st).copy = none →
      ∃ t, exec .reprintKey s = .next t ∧ signalled s st (some .refuse) t ∧ slipsKept s st t ∧ still t) ∧
    ∀ slip, (s.console st).copy = some slip →
      ((s.console st).queue.length < 2 →
        ∃ t, exec .reprintKey s = .next t ∧ signalled s st (some .accept) t ∧ still t ∧
          t.console st = { s.console st with queue := (s.console st).queue ++ [slip] }) ∧
      (2 ≤ (s.console st).queue.length →
        ∃ t, exec .reprintKey s = .next t ∧
          shown s st (s.shownText 28).line1 (s.console st).line2 (some .accept) t ∧ slipsKept s st t ∧ still t ∧
          ∀ l : Line, (t.line l).pendingSet.has .printer = true)

/-- R5, R11, R20, R168: an idle timer at zero and an expired grace close a session without a signal; an arm lapses when the
second of the day reaches its end; the grace's end is noted, and closes the desk when no session is open. -/
def Obligations.TimersRunOut : Prop :=
  ∀ (s : State) (st : Station), s.running = true →
    let closedSilently (t : State) : Prop :=
      (∀ n b, (s.session st).borrower = some n → s.active.borrower n = some b →
        booked s st n b t ∧ slipQueued s st n t) ∧
        t.session st = Session.empty ∧
        displayed s st (lostOr s st (idleText s st).line1) (idleText s st).line2 none (s.port st).slots t ∧
        t.lastServed = s.lastServed ∧ othersKept st s t ∧ deskOnly s t
    (s.attended st → (∃ n b, (s.session st).borrower = some n ∧ s.active.borrower n = some b) →
      (s.console st).wiped = false → staysOpen s st →
      ((s.session st).idle = 0 → ∃ t, exec (.idleTimeout st) s = .next t ∧ closedSilently t) ∧
        (s.day.graceExpired = true → ∃ t, exec (.graceSessionClose st) s = .next t ∧ closedSilently t)) ∧
    (JournalSound s → s.attended st → (s.session st).borrower ≠ none → ¬staysOpen s st →
      let ends (c : Instr) : Prop := ∃ t, exec c s = .next t ∧ deskClosed s t ∧ t.session st = Session.empty
      ((s.session st).idle = 0 → ends (.idleTimeout st)) ∧
        (s.day.graceExpired = true → ends (.graceSessionClose st))) ∧
    ((s.session st).armedUntil = some s.clock.now.second → (s.session st).borrower = none →
      exec (.armLapse st) s =
        .next (s.setSession st { s.session st with armedUntil := none, overrideStaff := none })) ∧
    (s.day.state = .closing → s.day.grace = some 0 → s.day.graceExpired = false →
      (∀ o : Station, (s.session o).borrower = none) → ∃ t, exec .graceExpiry s = .next t ∧ deskClosed s t) ∧
    (s.day.state = .closing → s.day.grace = some 0 → s.day.graceExpired = false →
      (∃ o : Station, (s.session o).borrower ≠ none) →
      exec .graceExpiry s = .next { s with day := { s.day with graceExpired := true } })

/-- R25, R26, R69, R83: a return removes the cache entry and credits its borrower, writes its RETURN record, and routes a
hold: a QUEUED head becomes WAITING with its HOLD_ROUTED record, and a routing slip is queued.  R25: what refuses a
return.  That item and RETURNED label, and pickup date and masked number, are joined by one space is the model's choice
(log entry 12). -/
def Obligations.ReturnsAreTakenOrRefused : Prop :=
  (∀ (s : State) (st : Station) (digits : List Nat) (item : Number) (default : Fin 32),
    s.takesNext st (.scan digits) → classify s.active.prefixTable digits = .item item default → s.attended st →
    (s.session st).borrower = none → (s.session st).mode = .returns → s.day.state ≠ .closed →
    (∀ o : Station, ((s.session o).items.any fun e => e.item = item) = false) →
    let lent := (s.cache.find? fun c => c.item = item).map CacheEntry.borrower
    let d : Record :=
      { draft .returned with
        station := some st, item := some item, borrower := lent
        flags := { noRecordFlags with creditedLocally := lent.isSome } }
    let credited : List Borrower :=
      s.active.borrowers.map fun x =>
        if lent = some x.number then { x with loansHeld := x.loansHeld - 1, pending := x.pending + 1 } else x
    let returned : Journal :=
      { s.journal with
        records := s.journal.records ++ [stamped s d], nextSeq := s.journal.nextSeq + 1, overflow := false }
    let label := spaced (printNumber item) (s.shownText 29).line1
    let common (t : State) : Prop :=
      t.session st = s.session st ∧ t.cache = s.cache.filter (fun c => c.item ≠ item) ∧ othersKept st s t ∧ deskOnly s t
    (s.active.queueOf item = [] → 33 ≤ s.journal.free →
      ∃ t, exec .itemScan s = .next t ∧ shown s st label [] (some .accept) t ∧ slipsKept s st t ∧
        t.journal = returned ∧ t.active = { s.active with borrowers := credited } ∧ common t) ∧
    ∀ h hs, s.active.queueOf item = h :: hs →
      let slip (h : Hold) : Slip := routingSlip s st item (s.active.classOf item default) h
      let routed (h : Hold) (p : Nat) (t : State) : Prop :=
        common t ∧
          shown s st (if (s.console st).queue.length < 2 then label else (s.shownText 28).line1)
            (spaced (printDate s.settings.dateFormat p)
              (maskNumber (s.active.categories[h.category]).shownDigits h.borrower)) (some .attention) t ∧
          (t.console st).queue =
            (if (s.console st).queue.length < 2 then (s.console st).queue ++ [slip { h with pickupBy := some p }]
            else (s.console st).queue)
      (∀ p, h.pickupBy = some p → 33 ≤ s.journal.free →
        ∃ t, exec .itemScan s = .next t ∧ routed h p t ∧ t.journal = returned ∧
          t.active = { s.active with borrowers := credited }) ∧
      (h.pickupBy = none → 34 ≤ s.journal.free →
        let p := pickupDay s.active s.clock.now.day (s.active.categories[h.category]).pickupDays
        ∃ t, exec .itemScan s = .next t ∧ routed h p t ∧
          t.journal.records.length = s.journal.records.length + 2 ∧
          t.journal.records.take (s.journal.records.length + 1) = returned.records ∧
          (∀ r, t.journal.records[s.journal.records.length + 1]? = some r →
            r.kind = .holdRouted ∧ r.seq = s.journal.nextSeq + 1 ∧ r.station = some st ∧ r.item = some item ∧
              r.borrower = some h.borrower ∧ r.due = some { day := p, minute := 1440 }) ∧
          t.active.queueOf item = { h with pickupBy := some p } :: hs ∧
          t.active.borrowers =
            credited.map fun x => if x.number = h.borrower then { x with pending := x.pending + 1 } else x)) ∧
  ∀ (s : State) (st : Station) (digits : List Nat) (item : Number) (default : Fin 32),
    s.takesNext st (.scan digits) → classify s.active.prefixTable digits = .item item default → s.attended st →
    (s.session st).borrower = none → (s.session st).mode = .returns →
    let refused (r : Reason) : Prop :=
      ∃ t, exec .itemScan s = .next t ∧ refusedAt s st r none (some item) none t ∧ t.session st = s.session st ∧
        othersKept st s t ∧ deskOnly s t
    let listed : Prop := ∃ o : Station, ((s.session o).items.any fun e => e.item = item) = true
    let needed := if ((s.active.queueOf item).head?.any fun h => h.pickupBy.isNone) = true then 34 else 33
    (s.day.state = .closed → refused .deskClosed) ∧
      (s.day.state ≠ .closed → listed → refused .inOtherSession) ∧
      (s.day.state ≠ .closed → ¬listed → s.journal.free < needed → refused .journalFull)

/-! ### Time, opening, the long operations -/

/-- R5, R133, R158, R161, R168, R177: a tick moves the clock, a held time and every running timer by one second; while the
part does not run, the time base alone goes on.  R165, R167: the tick that reaches the close instant of the open day, which is
minute 1,440 of a day that is not open, closes the desk, and a minute tick or rollover tests auto-open. -/
def Obligations.ATickMovesClockAndTimers : Prop :=
  ∀ s : State,
    (s.running = true → s.settings.autoClose = false → s.settings.autoOpen = false →
      exec .clockTick s =
        .next
          { s with
            clock := { s.clock with now := nextSecond s.clock.now, held := s.clock.held.map nextSecond }
            sessions := Vector.ofFn fun st =>
              if s.stationState st = .checkout then { s.session st with idle := (s.session st).idle - 1 }
              else s.session st
            day := { s.day with grace := s.day.grace.map fun n => n - 1 }
            ports := Vector.ofFn fun st => { s.port st with watch := (s.port st).watch.map fun n => min 10 (n + 1) }
            uplink := { s.uplink with liveness := s.uplink.liveness.map fun n => min 30 (n + 1) }
            supervisor := { s.supervisor with liveness := s.supervisor.liveness.map fun n => min 30 (n + 1) } }) ∧
    (s.running = false →
      exec .clockTick s =
        .next
          { s with clock := { s.clock with now := nextSecond s.clock.now, held := s.clock.held.map nextSecond } }) ∧
    (∀ (d : Nat) (p : Profile), s.running = true → s.settings.autoClose = true → s.settings.autoOpen = false →
      s.day.state = .opened → s.day.openDay = some d → hoursOf s.active d = some p →
      s.clock.now.day * 86400 + s.clock.now.second < d * 86400 + p.closeMinute * 60 →
      d * 86400 + p.closeMinute * 60 ≤ (nextSecond s.clock.now).day * 86400 + (nextSecond s.clock.now).second →
      ∃ t, exec .clockTick s = .next t ∧
        ((∃ st : Station, (s.session st).borrower ≠ none) →
          t.day = { s.day with state := .closing, grace := some (s.settings.closingGrace * 60), graceExpired := false }) ∧
        ((∀ st : Station, (s.session st).borrower = none) → t.day.state = .closed)) ∧
    (s.running = true →
      let seconds (i : Instant) : Nat := i.day * 86400 + i.second
      let next := nextSecond s.clock.now
      let closes : Prop :=
        s.settings.autoClose = true ∧ s.day.state = .opened ∧
          ∃ d, s.day.openDay = some d ∧
            let close := d * 86400 + ((hoursOf s.active d).map fun p => p.closeMinute * 60).getD 86400
            seconds s.clock.now < close ∧ close ≤ seconds next
      let newMinute : Prop := next.day ≠ s.clock.now.day ∨ next.second / 60 ≠ s.clock.now.second / 60
      let ticked : State :=
        { s with
          clock := { s.clock with now := next, held := s.clock.held.map nextSecond }
          sessions := Vector.ofFn fun st =>
            if s.stationState st = .checkout then { s.session st with idle := (s.session st).idle - 1 }
            else s.session st
          day := { s.day with grace := s.day.grace.map fun n => n - 1 }
          ports := Vector.ofFn fun st => { s.port st with watch := (s.port st).watch.map fun n => min 10 (n + 1) }
          uplink := { s.uplink with liveness := s.uplink.liveness.map fun n => min 30 (n + 1) }
          supervisor := { s.supervisor with liveness := s.supervisor.liveness.map fun n => min 30 (n + 1) } }
      (¬closes → ¬newMinute ∨ s.slot ≠ none ∨ ¬scheduledOpening ticked → exec .clockTick s = .next ticked) ∧
        (¬closes → newMinute → s.slot = none → scheduledOpening ticked →
          exec .clockTick s =
            .next { ticked with slot := some { op := .opening next.day none, requester := none } }) ∧
        (closes →
          ∃ t, exec .clockTick s = .next t ∧ openingTested s.slot t ∧
            ((∃ st : Station, (s.session st).borrower ≠ none) →
              t.day =
                { s.day with state := .closing, grace := some (s.settings.closingGrace * 60), graceExpired := false }) ∧
            ((∀ st : Station, (s.session st).borrower = none) →
              t.day = { s.day with state := .closed, fresh := false, grace := none, graceExpired := false } ∧
                t.notice = none ∧ t.clock.held = none)))

/-- R164, R165, R167: OPEN_DESK, auto-open and CLOSE_DESK. -/
def Obligations.TheDeskOpensAndCloses : Prop :=
  (∀ (s : State) (q : Req), s.admits q.line →
    let heard := received q .openDesk s
    let refused (st : Status) : Prop :=
      exec (.openDesk q (.shaped ())) s = .next (answered q .openDesk (Reply.bare st) s heard)
    (s.slot ≠ none → refused .busy) ∧ (s.slot = none → s.clock.valid = false → refused .wrongState) ∧
      (s.slot = none → s.day.state ≠ .closed → refused .wrongState) ∧
      (s.slot = none → s.clock.valid = true → s.day.state = .closed →
        exec (.openDesk q (.shaped ())) s =
          .next (answered q .openDesk (Reply.bare .accepted) s
            { heard with slot := some { op := .opening s.clock.now.day none, requester := some q } }))) ∧
  (∀ (s : State), s.running = true →
    let due : Prop :=
      s.settings.autoOpen = true ∧ s.day.state = .closed ∧ s.clock.valid = true ∧
        s.day.openDay ≠ some s.clock.now.day ∧ s.slot = none ∧
        ∃ p, hoursOf s.active s.clock.now.day = some p ∧ p.openMinute ≤ s.clock.now.second / 60 ∧
          s.clock.now.second / 60 < p.closeMinute
    (due → exec .autoOpen s =
      .next { s with slot := some { op := .opening s.clock.now.day none, requester := none } }) ∧
    (¬due → exec .autoOpen s = .next s)) ∧
  ∀ (s : State) (q : Req), s.admits q.line →
    let heard := received q .closeDesk s
    (s.wiping = true →
      exec (.closeDesk q (.shaped ())) s = .next (answered q .closeDesk (Reply.bare .busy) s heard)) ∧
    (s.wiping = false → s.day.state = .closed →
      exec (.closeDesk q (.shaped ())) s = .next (answered q .closeDesk (Reply.bare .wrongState) s heard)) ∧
    (s.wiping = false → s.day.state = .closing →
      exec (.closeDesk q (.shaped ())) s = .next (answered q .closeDesk Reply.ok s heard)) ∧
    (s.wiping = false → s.day.state = .opened → (∃ st : Station, (s.session st).borrower ≠ none) →
      exec (.closeDesk q (.shaped ())) s =
        .next (answered q .closeDesk Reply.ok s
          { heard with
            day :=
              { s.day with
                state := .closing, grace := some (s.settings.closingGrace * 60), graceExpired := false } })) ∧
    (s.wiping = false → s.day.state = .opened → (∀ st : Station, (s.session st).borrower = none) →
      ∃ t, exec (.closeDesk q (.shaped ())) s = .next t ∧ deskClosed s t ∧ t.active = s.active ∧
        t.cache = s.cache ∧ t.settings = s.settings ∧ t.key = s.key ∧
        (s.clock.held = none → t.sessions = s.sessions ∧ t.clock = s.clock))

/-- R66, R70: one entry of the sweep: an expired WAITING head leaves, and the next hold becomes WAITING; any other entry is
passed over.  R166: the end of an opening, its sweep done. -/
def Obligations.OpeningsSweepAndEnd : Prop :=
  (∀ (s : State) (q : Option Req) (day : Nat) (visited : Option Number) (e : Item) (rest : List Item),
    s.running = true → s.slot = some { op := .opening day visited, requester := q } →
    (match visited with
      | none => s.active.items
      | some n => s.active.items.filter fun x => n.lt x.number) = e :: rest →
    let moved : Option Slot := some { op := .opening day (some e.number), requester := q }
    ((∀ h p, e.queue.head? = some h → h.pickupBy = some p → day ≤ p) →
      exec .sweepStep s = .next { s with slot := moved }) ∧
    ∀ h hs p, e.queue = h :: hs → h.pickupBy = some p → p < day → 2 ≤ s.journal.free →
      let next := hs.head?.map fun k =>
        { k with pickupBy := some (pickupDay s.active day (s.active.categories[k.category]).pickupDays) }
      let expired : Record :=
        { draft .holdExpired with
          item := some e.number, borrower := some h.borrower, due := some { day := p, minute := 1440 } }
      ∃ t, exec .sweepStep s = .next t ∧ t.slot = moved ∧
        t.active.items =
          (s.active.items.map fun x =>
            if x.number = e.number then { x with queue := next.toList ++ hs.tail } else x).filter
            (fun x => !decide (x.number = e.number ∧ x.classOverride = none ∧ x.queue = [])) ∧
        t.journal.records.take (s.journal.records.length + 1) = s.journal.records ++ [stamped s expired] ∧
        t.journal.nextSeq = s.journal.nextSeq + 1 + next.toList.length ∧
        (∀ k, next = some k →
          t.journal.records =
            s.journal.records ++
              [stamped s expired,
                stamped
                  { s with
                    journal := { s.journal with nextSeq := s.journal.nextSeq + 1, overflow := false } }
                  { draft .holdRouted with
                    item := some e.number, borrower := some k.borrower
                    due := k.pickupBy.map fun d => { day := d, minute := 1440 } }]) ∧
        t.cache = s.cache ∧ t.sessions = s.sessions ∧ t.ports = s.ports ∧ t.consoles = s.consoles ∧ t.day = s.day) ∧
  ∀ (s : State) (q : Option Req) (day : Nat) (visited : Option Number), s.running = true →
    s.slot = some { op := .opening day visited, requester := q } →
    (match visited with
      | none => s.active.items
      | some n => s.active.items.filter fun x => n.lt x.number) = [] →
    1 ≤ s.journal.free →
    ∃ t, exec .openEnd s = .next t ∧ t.day = { s.day with state := .opened, openDay := some day } ∧ t.slot = none ∧
      appended s (draft .dayOpen) t ∧
      (∀ l : Line, (t.line l).pendingSet.has .bankStale =
        ((s.line l).pendingSet.has .bankStale || !s.day.fresh)) ∧
      (∀ r, q = some r → (s.line r.line).state = .active →
        LineFrame.reply r.tag { status := .ok, results := .opened day (!s.day.fresh) } ∈ (t.line r.line).sendList) ∧
      (∀ st : Station, s.stationState st = .idle → (s.console st).wiped = false →
        (t.console st).line1 =
          fit20 (s.shownText (if (s.port st).paperOut then 27 else 23)).line1) ∧
      t.sessions = s.sessions ∧ t.cache = s.cache ∧ t.clock = s.clock ∧ t.settings = s.settings ∧ t.staged = s.staged

/-- R170: STAGE_BEGIN takes the slot with the staged bank EMPTY and cleared, and ends with it LOADING. -/
def Obligations.StagingClearsTheStagedBank : Prop :=
  (∀ (s : State) (q : Req), s.admitsOwner q.line →
    (s.slot = none →
      exec (.stageBegin q (.shaped ())) s =
        .next (answered q .stageBegin (Reply.bare .accepted) s
          { received q .stageBegin s with
            stagedState := .empty, staged := Bank.cleared
            slot := some { op := .stageBegin s.staged, requester := some q } })) ∧
    (s.slot ≠ none →
      exec (.stageBegin q (.shaped ())) s =
        .next (answered q .stageBegin (Reply.bare .busy) s (received q .stageBegin s)))) ∧
  ∀ (s : State) (q : Option Req) (replaced : Bank), s.running = true → s.settings.autoOpen = false →
    s.slot = some { op := .stageBegin replaced, requester := q } →
    exec .stageBeginEnd s =
      .next (settle s (finalReply q .stageBegin Reply.ok { s with stagedState := .loading, slot := none }))

/-- R171, R172: a COMMIT's tests, its acceptance, and the change-over or its NOT_DRAINED.  The generation after the last one
of the field's range is a free value (log entry 18). -/
def Obligations.CommitChangesOver : Prop :=
  (∀ (s : State) (q : Req) (p : CommitParams), s.admitsOwner q.line →
    let heard := received q .commit s
    let refused (r : Reply) : Prop := exec (.commit q (.shaped p)) s = .next (answered q .commit r s heard)
    let counts := s.staged.counts
    let agree : Prop :=
      p.borrowers = s.staged.borrowers.length ∧ p.items = s.staged.items.length ∧
        p.exceptions = s.staged.exceptions.length ∧ p.holds = (s.staged.items.map fun e => e.queue.length).sum
    (s.slot ≠ none → refused (Reply.bare .busy)) ∧
    (s.slot = none → s.day.state ≠ .closed ∨ s.stagedState ≠ .loading → refused (Reply.bare .wrongState)) ∧
    (s.slot = none → s.day.state = .closed → s.stagedState = .loading →
      (s.journal.unreleased ≠ 0 → refused (Reply.bare .notDrained)) ∧
      (s.journal.unreleased = 0 → ¬agree → refused { status := .mismatch, results := .counts counts }) ∧
      (s.journal.unreleased = 0 → agree →
        exec (.commit q (.shaped p)) s =
          .next (answered q .commit (Reply.bare .accepted) s
            { heard with slot := some { op := .commit, requester := some q } })))) ∧
  ∀ (s : State) (q : Option Req), s.running = true → s.settings.autoOpen = false →
    s.slot = some { op := .commit, requester := q } →
    let g := if s.generation < 4294967295 then s.generation + 1 else (Config.generationPastEnd s.generation).toNat
    (s.day.state = .closed → s.journal.unreleased = 0 → 1 ≤ s.journal.free →
      exec .commitChangeover s =
        .next (settle s (finalReply q .commit { status := .ok, results := .committed g }
          { s with
            active := s.staged, staged := Bank.cleared, stagedState := .empty, cache := []
            generation := g, slot := none, day := { s.day with fresh := true }
            journal :=
              { s.journal with
                records :=
                  s.journal.records ++ [stamped { s with generation := g } (draft .commit)]
                nextSeq := s.journal.nextSeq + 1, overflow := false } }))) ∧
    (s.day.state ≠ .closed ∨ s.journal.unreleased ≠ 0 →
      exec .commitChangeover s =
        .next (settle s (finalReply q .commit (Reply.bare .notDrained) { s with slot := none })))

/-- R28, R198: the event of a WIPE.  R199: a scrub block moves the position, or ends the scrub; the last block of the store
ends it.  Which earlier block is the last is a free value (log entry 7). -/
def Obligations.WipesEmptyAndScrub : Prop :=
  (∀ (s : State) (q : Req), s.hears q.line →
    (s.slot ≠ none →
      exec (.wipe q (.shaped ())) s = .next (answered q .wipe (Reply.bare .busy) s (received q .wipe s))) ∧
    (s.slot = none →
      ∃ t, exec (.wipe q (.shaped ())) s = .next t ∧ t.slot = some { op := .wipe, requester := some q } ∧
        t.store = { s.store with scrubMark := true, scrubPos := 0 } ∧
        t.active = Bank.cleared ∧ t.staged = Bank.cleared ∧ t.stagedState = .empty ∧ t.cache = [] ∧
        (∀ st : Station, t.session st = Session.empty ∧ (t.console st).queue = [] ∧ (t.console st).copy = none ∧
          ((s.port st).present = true → (t.console st).wiped = true)) ∧
        (∀ st : Station, s.attended st → (t.console st).line1 = fit20 (ascii "WIPED")) ∧
        t.journal.oldest = s.journal.nextSeq ∧ t.journal.sendMark = s.journal.nextSeq ∧
        t.journal.nextSeq = s.journal.nextSeq + 1 ∧ t.journal.claims = 0 ∧ t.journal.overflow = false ∧
        t.journal.records =
          [stamped { s with journal := { s.journal with overflow := false }, clock := t.clock } (draft .wiped)] ∧
        t.day = { s.day with state := .closed, fresh := false, grace := none, graceExpired := false } ∧
        t.clock = { now := s.clock.held.getD s.clock.now, valid := s.clock.valid, held := none } ∧
        t.key = noKey ∧ t.toServer = NoteSlot.empty ∧ t.toSupervisor = NoteSlot.empty ∧ t.notice = none ∧
        t.settings = s.settings ∧ t.generation = s.generation ∧ t.upload = none ∧ t.lastServed = s.lastServed ∧
        (∀ l : Line, (t.line l).state = (s.line l).state ∧ (t.line l).granted = (s.line l).granted ∧
          (t.line l).unlocked = (s.line l).unlocked) ∧
        LineFrame.reply q.tag (Reply.bare .accepted) ∈ (t.line q.line).sendList ∧
        ∀ u, s.upload = some u →
          LineFrame.reply u.tag
            { status := okOrPartial u.clamped, results := .uploaded u.sent (s.journal.sendMark - 1) } ∈
            t.uplink.sendList)) ∧
  ∀ (s : State) (q : Option Req), s.running = true → s.settings.autoOpen = false → s.store.scrubMark = true →
    s.slot = some { op := .wipe, requester := q } →
    let moved : State :=
      { s with freeIx := s.freeIx + 1, store := { s.store with scrubPos := s.store.scrubPos + 1 } }
    let ended : State :=
      settle s (finalReply q .wipe Reply.ok
        { s with
          freeIx := s.freeIx + 1, store := { s.store with scrubMark := false, scrubPos := 0 }, slot := none })
    (exec .scrubBlock s = .next moved ∨ exec .scrubBlock s = .next ended) ∧
      (8191 ≤ s.store.scrubPos → exec .scrubBlock s = .next ended)

/-! ### The management lines -/

/-- R187, R189: at an event's end the level causes have followed their conditions, the edge causes stand as the event left
them, and an EVENT frame is made for each cause that has come to be pending and enabled, while fewer than 8 unsolicited
frames wait. -/
def Obligations.EventsEndWithTheirCauses : Prop :=
  ∀ (s0 s1 : State) (l : Line),
    let t := settle s0 s1
    let follows (before after : Bool) (k : Cause) : Prop :=
      (t.line l).pendingSet.has k = (if before = after then (s1.line l).pendingSet.has k else after)
    follows (decide (s0.settings.highWater ≤ s0.journal.unreleased))
        (decide (s1.settings.highWater ≤ s1.journal.unreleased)) .journalHigh ∧
      follows (decide (s0.journal.free ≤ 32)) (decide (s1.journal.free ≤ 32)) .journalFull ∧
      follows s0.clock.held.isSome s1.clock.held.isSome .clockHeld ∧
      (∀ k ∈ [Cause.uplinkLost, .note, .printer, .stationLost, .bankStale],
        (t.line l).pendingSet.has k = (s1.line l).pendingSet.has k) ∧
      (let begun : List Cause :=
        [Cause.journalHigh, .journalFull, .uplinkLost, .note, .printer, .stationLost, .clockHeld, .bankStale].filter
          fun k =>
            ((t.line l).pendingSet.has k && (t.line l).enableSet.has k) &&
              !((s0.line l).pendingSet.has k && (s0.line l).enableSet.has k)
      let room := 8 - (s1.line l).sendList.countP LineFrame.unsolicited
      (t.line l).sendList =
        if (s1.line l).state = .active ∧ (s1.line l).granted.events = true then
          (s1.line l).sendList ++
            (begun.take room).map fun k => .event k (t.line l).pendingSet s1.clock.now s1.clock.valid
        else (s1.line l).sendList) ∧
      t =
        { s1 with
          uplink := { s1.uplink with pendingSet := t.uplink.pendingSet, sendList := t.uplink.sendList }
          supervisor :=
            { s1.supervisor with pendingSet := t.supervisor.pendingSet, sendList := t.supervisor.sendList } }

/-- R190: the ATTN pin. -/
def Obligations.AttnFollowsTheSets : Prop :=
  ∀ s : State, s.powered = true →
    (s.attn = true ↔
      s.resetAsserted = false ∧ ∃ k : Cause, s.supervisor.pendingSet.has k = true ∧ s.supervisor.enableSet.has k = true)

/-- R178, R183: HELLO with major version 2 makes a line ACTIVE; with another it is REFUSED; a malformed one is answered
BAD_REQUEST.  R177: at 30 s the line is DOWN, with the effects of leaving ACTIVE.  R176: the send list is emptied at both
entries, and at REFUSED the HELLO's reply joins it then; that a RECORD frame handed over but still waiting goes with the
list, where R152 lets a handed-over one finish, is the model's choice (log entry 26), and so the clauses on the send list
are the model's.  That a malformed HELLO leaves the lock mark as it was is the model's choice too (log entry 29). -/
def Obligations.HelloAndLivenessDecideTheLine : Prop :=
  (∀ (s : State) (q : Req) (p : HelloParams), s.running = true → s.restarting = none →
    let wished := p.wished.set
    let allowed := s.settings.allowedFeatures
    let granted : FeatureSet :=
      { trickle := wished.trickle && allowed.trickle && decide (q.line = .uplink)
        events := wished.events && allowed.events, notes := wished.notes && allowed.notes }
    (p.major = 2#8 →
      exec (.hello q (.shaped p)) s =
        .next (answered q .hello { status := .ok, results := .hello 2 3 granted q.line } s
          ((if q.line = .uplink then
              { s with upload := none, journal := { s.journal with sendMark := s.journal.oldest } }
            else s).setLine q.line
            { s.line q.line with
              state := .active, granted := granted, unlocked := false, lastError := none, liveness := some 0
              receiver := .looking }))) ∧
    (p.major ≠ 2#8 →
      ∃ t, exec (.hello q (.shaped p)) s = .next t ∧ (t.line q.line).state = .refused ∧
        (t.line q.line).granted = FeatureSet.empty ∧ (t.line q.line).unlocked = false ∧
        (t.line q.line).lastError = some (.version, .hello) ∧ (t.line q.line).liveness = some 0 ∧
        (t.line q.line).sendList = [.reply q.tag { status := .version, results := .version 2 3 }] ∧
        (s.uplink.state = .active → q.line = .uplink → t.upload = none ∧
          t.journal.sendMark = s.journal.oldest ∧ t.supervisor.pendingSet.has .uplinkLost = true) ∧
        (s.supervisor.state = .active → q.line = .supervisor → ∀ st : Station, (t.port st).bridged = false) ∧
        t.active = s.active ∧ t.cache = s.cache ∧ t.clock = s.clock ∧ t.day = s.day ∧ t.slot = s.slot) ∧
    exec (.hello q .malformed) s =
      .next (answered q .hello (Reply.bare .badRequest) s (goodLineFrame q.line s))) ∧
  ∀ (s : State) (l : Line), s.running = true → (s.line l).liveness = some 30 → s.restarting ≠ some l →
    ∃ t, exec (.livenessExpiry l) s = .next t ∧ (t.line l).state = .down ∧
      (t.line l).granted = FeatureSet.empty ∧ (t.line l).unlocked = false ∧ (t.line l).lastError = none ∧
      (t.line l).sendList = [] ∧ (t.line l).liveness = none ∧ (t.line l).wire = (s.line l).wire ∧
      t.owner = (if l = .uplink then .supervisor else s.owner) ∧
      (l = .uplink → s.uplink.state = .active →
        t.upload = none ∧ t.journal = { s.journal with sendMark := s.journal.oldest } ∧
          t.supervisor.pendingSet.has .uplinkLost = true ∧ t.ports = s.ports ∧ t.sessions = s.sessions) ∧
      (l = .supervisor → s.supervisor.state = .active →
        (∀ st : Station, (t.port st).bridged = false) ∧ t.journal = s.journal ∧ t.upload = s.upload) ∧
      t.active = s.active ∧ t.staged = s.staged ∧ t.cache = s.cache ∧ t.clock = s.clock ∧ t.day = s.day ∧
      t.slot = s.slot ∧ t.settings = s.settings ∧ t.key = s.key

/-- R179, R180, R183: the order of a request's tests, and what a refused one leaves: every request but HELLO, with a good
or a malformed content, is turned away by the first test it fails.  An unknown name is refused BAD_REQUEST, and so is a
content without a name; that the last error keeps a free value then is the model's choice (log entry 28).  R38, R126: a
PUT_PREFIX or PUT_TEMPLATE beyond their counts is malformed.  R169, R173: every table write meets the slot and the staged
state before its own rule. -/
def Obligations.RequestsMeetTheirTests : Prop :=
  ∀ s : State, s.running = true → s.restarting = none →
    (∀ (q : Req) (code : Byte),
      exec (.unknownRequestName q (some code)) s =
        .next (answered q (.unknown code)
          (Reply.bare ((refusedBefore s q (.unknown code) false true).getD .badRequest)) s
          (received q (.unknown code) s))) ∧
    (∀ q : Req, ∃ code : Byte,
      exec (.unknownRequestName q none) s =
        .next (answered q (.unknown code)
          (Reply.bare ((refusedBefore s q (.unknown code) false true).getD .badRequest)) s
          { received q (.unknown code) s with freeIx := s.freeIx + 1 })) ∧
    (∀ (c : Instr) (r : Tested) (st : Status), testedRequest c = some r →
      refusedBefore s r.q r.name r.ownerOnly r.malformed = some st →
      exec c s = .next (answered r.q r.name (Reply.bare st) s (received r.q r.name s))) ∧
    ∀ (c : Instr) (q : Req) (name : ReqName) (bank : BankName), tableWriteOf c = some (q, name, bank) →
      let refused (st : Status) : Prop :=
        exec c s = .next (answered q name (Reply.bare st) s (received q name s))
      (∀ st, refusedBefore s q name true false = some st → refused st) ∧
        (refusedBefore s q name true false = none → s.slot ≠ none → refused .busy) ∧
        (refusedBefore s q name true false = none → s.slot = none → bank = .staged → s.stagedState = .empty →
          refused .wrongState)

/-- R182: UNLOCK and SET_KEY. -/
def Obligations.KeysLockTheLines : Prop :=
  ∀ (s : State) (q : Req) (k : Key),
    let none16 (k : Key) : Prop := k = Vector.replicate 16 0x00#8 ∨ k = Vector.replicate 16 0xFF#8
    (s.hears q.line →
      let heard := received q .unlock s
      (none16 s.key → exec (.unlock q (.shaped k)) s = .next (answered q .unlock Reply.ok s heard)) ∧
      (¬none16 s.key → k = s.key →
        exec (.unlock q (.shaped k)) s =
          .next (answered q .unlock Reply.ok s
            (heard.setLine q.line { heard.line q.line with unlocked := true }))) ∧
      (¬none16 s.key → k ≠ s.key →
        exec (.unlock q (.shaped k)) s =
          .next (answered q .unlock (Reply.bare .badKey) s
            (heard.setLine q.line { heard.line q.line with unlocked := false })))) ∧
    (s.admits q.line →
      let heard := received q .setKey s
      let other : Line := if q.line = .uplink then .supervisor else .uplink
      exec (.setKey q (.shaped k)) s =
        .next (answered q .setKey Reply.ok s
          (({ heard with key := k }.setLine q.line { heard.line q.line with unlocked := true }).setLine other
            { heard.line other with unlocked := false })))

/-- R188: an acknowledgement takes out the named edge causes and no level cause; a mask replaces the enable set; a name
outside the eight causes is refused. -/
def Obligations.AttentionIsAcknowledgedAndMasked : Prop :=
  ∀ (s : State) (q : Req) (p : Named CauseSet), s.hears q.line →
    let heardAck := received q .ackAttention s
    let heardMask := received q .setAttentionMask s
    let old := (s.line q.line).pendingSet
    (p.outside = true →
      exec (.ackAttention q (.shaped p)) s = .next (answered q .ackAttention (Reply.bare .badValue) s heardAck) ∧
        exec (.setAttentionMask q (.shaped p)) s =
          .next (answered q .setAttentionMask (Reply.bare .badValue) s heardMask)) ∧
    (p.outside = false →
      (∃ new : CauseSet,
        exec (.ackAttention q (.shaped p)) s =
            .next (answered q .ackAttention { status := .ok, results := .pendingSet new } s
              (heardAck.setLine q.line { heardAck.line q.line with pendingSet := new })) ∧
          ∀ k : Cause,
            new.has k =
              (old.has k && !(p.set.has k && !decide (k = .journalHigh ∨ k = .journalFull ∨ k = .clockHeld)))) ∧
        exec (.setAttentionMask q (.shaped p)) s =
          .next (answered q .setAttentionMask { status := .ok, results := .attentionSets old p.set } s
            (heardMask.setLine q.line { heardMask.line q.line with enableSet := p.set })))

/-- R186: READ_NOTE gives the slot addressed to the line and clears its marks, or the desk notice. -/
def Obligations.ReadNoteClearsTheMarks : Prop :=
  ∀ (s : State) (q : Req), s.hears q.line →
    let heard := received q .readNote s
    (q.line = .uplink →
      exec (.readNote q (.shaped .addressed)) s =
        .next (answered q .readNote
          { status := .ok, results := .note s.toServer.text s.toServer.unread s.toServer.overwritten } s
          { heard with toServer := { s.toServer with unread := false, overwritten := false } })) ∧
    (q.line = .supervisor →
      exec (.readNote q (.shaped .addressed)) s =
        .next (answered q .readNote
          { status := .ok
            results := .note s.toSupervisor.text s.toSupervisor.unread s.toSupervisor.overwritten } s
          { heard with toSupervisor := { s.toSupervisor with unread := false, overwritten := false } })) ∧
    exec (.readNote q (.shaped .slips)) s =
      .next (answered q .readNote { status := .ok, results := .notice s.notice } s heard) ∧
    exec (.readNote q (.shaped .other)) s = .next (answered q .readNote (Reply.bare .badValue) s heard)

/-- R123, R185: posts to the note slots and to the desk notice, and what refuses them. -/
def Obligations.PostsFillTheNotes : Prop :=
  ∀ (s : State) (q : Req) (text : Text), s.admits q.line →
    let heard := received q .postNote s
    let post (target : Option NoteTarget) : Instr := .postNote q (.shaped { target := target, text := text })
    let status (size : Nat) : Status := if size < text.length then .partiallyTaken else .ok
    let good := text.all fun b => decide (0x20 ≤ b.toNat ∧ b.toNat ≤ 0x7E)
    let refused (target : Option NoteTarget) (st : Status) : Prop :=
      exec (post target) s = .next (answered q .postNote (Reply.bare st) s heard)
    (good = true → text ≠ [] → q.line = .uplink →
      ∃ t, exec (post (some .supervisor)) s = .next t ∧
        t.toSupervisor =
          { text := some (text.take 64), unread := true
            overwritten := s.toSupervisor.overwritten || s.toSupervisor.unread } ∧
        t.supervisor.pendingSet.has .note = true ∧ .reply q.tag (Reply.bare (status 64)) ∈ t.uplink.sendList ∧
        (s.supervisor.state = .active → s.supervisor.granted.notes = true →
          s.supervisor.sendList.countP LineFrame.unsolicited < 8 →
          .note (text.take 64) ∈ t.supervisor.sendList) ∧
        t.toServer = s.toServer ∧ t.notice = s.notice ∧ t.active = s.active ∧ t.journal = s.journal) ∧
    (good = true → text ≠ [] → q.line = .supervisor →
      ∃ t, exec (post (some .server)) s = .next t ∧
        t.toServer =
          { text := some (text.take 64), unread := true
            overwritten := s.toServer.overwritten || s.toServer.unread } ∧
        t.uplink.pendingSet.has .note = true ∧ .reply q.tag (Reply.bare (status 64)) ∈ t.supervisor.sendList ∧
        t.toSupervisor = s.toSupervisor ∧ t.notice = s.notice ∧ t.active = s.active ∧ t.journal = s.journal) ∧
    (good = true → s.owner = q.line →
      exec (post (some .slips)) s =
        .next (answered q .postNote (Reply.bare (status 48)) s
          { heard with notice := if text = [] then none else some (text.take 48) })) ∧
    (s.owner ≠ q.line → refused (some .slips) .notOwner) ∧
    (good = false → refused (some .supervisor) .badValue ∧ refused (some .server) .badValue) ∧
    (text = [] → refused (some .supervisor) .badValue ∧ refused (some .server) .badValue) ∧ refused none .badValue ∧
    (good = true → text ≠ [] → q.line = .supervisor → refused (some .supervisor) .wrongState) ∧
    (good = true → text ≠ [] → q.line = .uplink → refused (some .server) .wrongState)

/-- R60, R79, R84, R111, R126, R156, R179, R191: a request that only reads is answered with what it reads and changes
nothing but its line. -/
def Obligations.ReadsAnswerAndChangeNothing : Prop :=
  ∀ (s : State) (q : Req),
    let gives (c : Instr) (name : ReqName) (st : Status) (r : Results) : Prop :=
      exec c s = .next (s.setLine q.line ((s.line q.line).afterReply q name { status := st, results := r }))
    (s.hears q.line → gives (.nop q (.shaped ())) .nop .ok .plain) ∧
    (s.hears q.line → ∃ r : StatusReport, gives (.status q (.shaped ())) .status .ok (.status r) ∧
      r.deskDay = s.day.state ∧ r.openDay = s.day.openDay ∧ r.fresh = s.day.fresh ∧ r.grace = s.day.grace ∧
      r.now = s.clock.now ∧ r.valid = s.clock.valid ∧ r.held = s.clock.held ∧ r.uplink.state = s.uplink.state ∧
      r.supervisor.state = s.supervisor.state ∧ r.uplink.granted = s.uplink.granted ∧
      r.supervisor.granted = s.supervisor.granted ∧ r.lastError = (s.line q.line).lastError ∧
      r.unreleased = s.journal.nextSeq - s.journal.oldest ∧ r.claims = s.journal.claims ∧
      r.free = 16384 - (s.journal.nextSeq - s.journal.oldest) - s.journal.claims ∧
      r.oldest = s.journal.oldest ∧ r.sendMark = s.journal.sendMark ∧ r.nextSeq = s.journal.nextSeq ∧
      r.uploadTag = s.upload.map Upload.tag ∧ r.generation = s.generation ∧ r.stagedState = s.stagedState ∧
      r.pendingSet = (s.line q.line).pendingSet ∧ r.enableSet = (s.line q.line).enableSet ∧ r.attn = s.attn ∧
      r.owner = (if s.uplink.state = .active then .uplink else .supervisor) ∧ r.keySet = keyIsSet s.key ∧
      r.uplink.locked = (keyIsSet s.key && !s.uplink.unlocked) ∧
      r.supervisor.locked = (keyIsSet s.key && !s.supervisor.unlocked) ∧
      r.slot = s.slot.map (fun k => (k.op.name, k.requester)) ∧
      (∀ n : BankName, (match n with
        | .active => r.activeCounts
        | .staged => r.stagedCounts) =
          { borrowers := (s.bank n).borrowers.length, items := (s.bank n).items.length
            exceptions := (s.bank n).exceptions.length
            holds := ((s.bank n).items.map fun e => e.queue.length).sum }) ∧
      ∀ st : Station, r.stations[st] = (s.stationState st, (s.console st).queue.length)) ∧
    (s.admits q.line →
      (∀ (bank : BankName) (n : Number),
        (∀ e, (s.bank bank).borrowers.find? (fun e => e.number = n) = some e →
          gives (.readBorrower q (.shaped (.byNumber bank n))) .readBorrower .ok
            (.borrowerEntry e
              (if s.clock.valid then
                some (derivedBlocks (s.bank bank).categories[e.category] e s.clock.now.day)
              else none))) ∧
        (∀ e, (s.bank bank).items.find? (fun e => e.number = n) = some e →
          gives (.readItem q (.shaped (.byNumber bank n))) .readItem .ok (.itemEntry e)) ∧
        ((s.bank bank).borrowers.find? (fun e => e.number = n) = none →
          gives (.readBorrower q (.shaped (.byNumber bank n))) .readBorrower .notFound .plain) ∧
        ((s.bank bank).items.find? (fun e => e.number = n) = none →
          gives (.readItem q (.shaped (.byNumber bank n))) .readItem .notFound .plain)) ∧
      (∀ (bank : BankName) (start : Nat),
        gives (.readBorrower q (.shaped (.byIndex bank start))) .readBorrower .ok
            (.borrowers (s.bank bank).borrowers.length (((s.bank bank).borrowers.drop start).take 8)) ∧
          gives (.readItem q (.shaped (.byIndex bank start))) .readItem .ok
            (.items (s.bank bank).items.length ((s.bank bank).items.map fun e => e.queue.length).sum
              (((s.bank bank).items.drop start).take 8)) ∧
          gives (.readRules q (.shaped (.staff bank start))) .readRules .ok
            (.staff (s.bank bank).staff.length (((s.bank bank).staff.drop start).take 16)) ∧
          gives (.readCalendar q (.shaped (.exceptions bank start))) .readCalendar .ok
            (.exceptions (s.bank bank).exceptions.length (((s.bank bank).exceptions.drop start).take 16)) ∧
          gives (.readCalendar q (.shaped (.profiles bank))) .readCalendar .ok
            (.profiles (s.bank bank).profiles) ∧
          gives (.readCalendar q (.shaped (.weekdays bank))) .readCalendar .ok
            (.weekdays (s.bank bank).weekdays)) ∧
      (∀ (i : Nat) (c : CacheEntry), s.cache[i]? = some c → (∀ j d, j < i → s.cache[j]? = some d → d.item ≠ c.item) →
        gives (.readOlc q (.shaped (.byNumber c.item))) .readOlc .ok (.cacheEntry c i)) ∧
      (∀ n, (∀ c ∈ s.cache, c.item ≠ n) → gives (.readOlc q (.shaped (.byNumber n))) .readOlc .notFound .plain) ∧
      (∀ start, gives (.readOlc q (.shaped (.byIndex start))) .readOlc .ok
        (.cacheEntries s.cache.length ((s.cache.drop start).take 16))) ∧
      (∀ (bank : BankName) (i : Nat),
        (∀ h : i < 16, gives (.readRules q (.shaped (.category bank i))) .readRules .ok
            (.category (s.bank bank).categories[i]) ∧
          gives (.readRules q (.shaped (.rule bank i))) .readRules .ok (.ruleRow (s.bank bank).rules[i])) ∧
        (∀ h : i < 32, gives (.readRules q (.shaped (.itemClass bank i))) .readRules .ok
            (.itemClass (s.bank bank).classes[i]) ∧
          gives (.readRules q (.shaped (.codePosition bank i))) .readRules .ok
            (.prefixEntry (s.bank bank).prefixTable[i]) ∧
          gives (.readTemplate q (.shaped (.text bank i))) .readTemplate .ok
            (.stationText (s.bank bank).texts[i])) ∧
        (∀ h : i < 8, gives (.readTemplate q (.shaped (.template bank i))) .readTemplate .ok
          (.template (s.bank bank).templates[i])) ∧
        (16 ≤ i → gives (.readRules q (.shaped (.category bank i))) .readRules .badValue .plain ∧
          gives (.readRules q (.shaped (.rule bank i))) .readRules .badValue .plain) ∧
        (32 ≤ i → gives (.readRules q (.shaped (.itemClass bank i))) .readRules .badValue .plain ∧
          gives (.readRules q (.shaped (.codePosition bank i))) .readRules .badValue .plain ∧
          gives (.readTemplate q (.shaped (.text bank i))) .readTemplate .badValue .plain) ∧
        (8 ≤ i → gives (.readTemplate q (.shaped (.template bank i))) .readTemplate .badValue .plain)) ∧
      gives (.readSettings q (.shaped ())) .readSettings .ok (.settings s.settings (keyIsSet s.key)) ∧
      ∀ start count : Nat,
        let m := if count < 1 then 1 else if 16 < count then 16 else count
        (start < s.journal.oldest →
          gives (.readJournal q (.shaped { start := start, count := count })) .readJournal .notFound .plain) ∧
        (s.journal.oldest ≤ start →
          gives (.readJournal q (.shaped { start := start, count := count })) .readJournal
            (if m = count then .ok else .partiallyTaken)
            (.journal s.journal.oldest s.journal.nextSeq
              ((s.journal.records.drop (start - s.journal.oldest)).take m))))

/-- R197: RESTART is answered; from then on the part takes no frame and no gap of either line, no decision, and no scan or
key into a slot, heartbeats and relays apart (log entry 24); and the warm start comes when the reply has been sent whole or
its line enters DOWN (in which commands is log entry 4).  R27, R196: the conversion of the open sessions, the close of an
interrupted desk-day and the test of auto-open; which flags a converted record carries is log entry 14, and that the
CLOCK_STEP of an applied held time carries the day and minute after the step is the model's choice (log entry 34). -/
def Obligations.RestartEndsInAWarmStart : Prop :=
  (∀ (s : State) (q : Req), s.admits q.line →
    exec (.restart q (.shaped ())) s =
      .next (answered q .restart { status := .ok, results := .restarting } s
        { received q .restart s with restarting := some q.line })) ∧
  (∀ (s : State) (l : Line), s.running = true → s.restarting = some l →
    (∀ c : Instr, fromManagementLine c = true ∨ isDecision c = true → exec c s = .next s) ∧
    ∀ (st : Station) (content : List Byte), (s.port st).bridged = false →
      let heard := s.setPort st { s.port st with receiver := .looking }
      exec (.keyFrame st content) s = .next heard ∧
        (content.head? ≠ some 0x00#8 → exec (.scanFrame st content) s = .next heard)) ∧
  ∀ (s : State) (l : Line), s.running = true → s.restarting = some l →
    let sentWhole : Prop :=
      (∀ f ∈ (s.line l).sendList, f.isRestartReply = false) ∧ (s.line l).wire.any LineFrame.isRestartReply = false
    let warm (done : State → Prop) : Prop :=
      ((s.line l).state = .down ∨ sentWhole → ∃ t, exec .restartWarmStart s = .next t ∧ done t) ∧
        ((s.line l).wire.any LineFrame.isRestartReply = true → ∃ t, exec (.lineTransmit l) s = .next t ∧ done t) ∧
        ((s.line l).liveness = some 30 → ∃ t, exec (.livenessExpiry l) s = .next t ∧ done t)
    (s.settings.autoOpen = false → (∀ st : Station, (s.session st).borrower = none) → warm (warmStarted s)) ∧
      (JournalSound s → TablesSound s → LinksSound s → warm (warmStartedOver s)) ∧
      ((s.line l).state ≠ .down → ¬sentWhole → exec .restartWarmStart s = .next s)

/-! ### Table writes -/

/-- R62, R78, R106, R181: a write from the supervisor line to the ACTIVE bank appends a TABLE_CHANGE record naming the
request; a write from the uplink, or to the STAGED bank, appends none; nothing but the bank named, the journal and the
lines changes.  R165, R167: a write to the ACTIVE calendar is the same, but for the close and the opening it may bring
about after its record (log entry 25). -/
def Obligations.SupervisorWritesAreJournaled : Prop :=
  ∀ (s : State) (q : Req) (name : ReqName) (bank : BankName) (borrower item : Option Number) (r : Reply) (b : Bank),
    let t := written q name bank borrower item r b s
    let d : Record :=
      { draft .tableChange with reason := some (.request name), borrower := borrower, item := item }
    (bank = .active → q.line = .supervisor →
      (1 ≤ s.journal.free → appended { s with active := b } d t) ∧
        (s.journal.free = 0 → t.active = b ∧ t.journal = { s.journal with overflow := true })) ∧
    (bank = .staged ∨ q.line = .uplink → t.bank bank = b ∧ t.journal = s.journal) ∧
    (bank = .staged → t.active = s.active) ∧ (bank = .active → t.staged = s.staged) ∧
    LineFrame.reply q.tag r ∈ (t.line q.line).sendList ∧
    (r.status.isRefusal = false → name.isBasic = false → (t.line q.line).lastError = none) ∧
    t.sessions = s.sessions ∧ t.ports = s.ports ∧ t.consoles = s.consoles ∧ t.cache = s.cache ∧ t.day = s.day ∧
    t.clock = s.clock ∧ t.settings = s.settings ∧ t.key = s.key ∧ t.slot = s.slot ∧ t.stagedState = s.stagedState ∧
    t.generation = s.generation ∧ t.upload = s.upload ∧ t.notice = s.notice ∧
    let w := calendarWritten q name bank b s
    let change := { draft .tableChange with reason := some (.request name) }
    let wrote : List Record :=
      if bank = .active ∧ q.line = .supervisor ∧ 1 ≤ s.journal.free then [stamped { s with active := b } change] else []
    (bank = .staged ∨ (s.settings.autoClose = false ∧ s.settings.autoOpen = false) →
      w = written q name bank none none Reply.ok b s) ∧
    (bank = .active →
      (∃ after, w.journal.records = s.journal.records ++ wrote ++ after ∧
        ∀ r ∈ after, r.kind = .dayClose ∨ r.kind = .clockStep) ∧
      w.active = b ∧ w.staged = s.staged ∧ LineFrame.reply q.tag Reply.ok ∈ (w.line q.line).sendList ∧
      openingTested s.slot w ∧ w.settings = s.settings ∧ w.cache = s.cache ∧ w.key = s.key)

/-- R53, R55, R56, R57, R59: the writes to a borrower table; a refused one changes nothing but its line.  That the `pending`
in the reply to a supervisor's PUT_BORROWER of the ACTIVE bank is without the raise by its own record is the model's choice
(log entry 32). -/
def Obligations.BorrowerWrites : Prop :=
  (∀ (s : State) (q : Req) (bank : BankName) (n : Number), s.admitsWrite q.line bank → 4 ≤ n.digits → n.digits ≤ 14 →
    let b := s.bank bank
    let found := b.borrowers.find? fun e => e.number = n
    let change (f : Borrower → Borrower) : Bank :=
      { b with borrowers := b.borrowers.map fun e => if e.number = n then f e else e }
    let takes (c : Instr) (name : ReqName) (st : Status) (r : Results) (b' : Bank) : Prop :=
      exec c s = .next (written q name bank (some n) none { status := st, results := r } b' s)
    let refuses (c : Instr) (name : ReqName) (st : Status) : Prop :=
      exec c s = .next (answered q name (Reply.bare st) s (received q name s))
    let del : Instr := .delBorrower q (.shaped { bank := bank, number := n })
    (∀ (category : Fin 16) (expiry fines overdue loans : Nat) (blocks : Blocks),
      let put : Instr :=
        .putBorrower q (.shaped
          { bank := bank, number := n, category := category.val, expiryDay := expiry
            blocks := { set := blocks, outside := false }, finesOwed := fines, overdueItems := overdue
            loansHeld := loans })
      let cut := decide (9999999 < fines ∨ 255 < overdue ∨ 255 < loans)
      let fill (held : Nat) (e : Borrower) : Borrower :=
        { e with
          category := category, expiryDay := expiry, blocks := blocks, finesOwed := min 9999999 fines
          overdueItems := min 255 overdue, loansHeld := held, provisional := false, retiring := false }
      let fresh : Borrower :=
        { number := n, category := category, expiryDay := expiry, blocks := blocks
          finesOwed := min 9999999 fines, overdueItems := min 255 overdue, loansHeld := min 255 loans, pending := 0
          sessionStation := none, provisional := false, retiring := false, createdSeq := b.nextCreated }
      (∀ e, found = some e → e.pending = 0 →
        takes put .putBorrower (if cut then .partiallyTaken else .ok) (.loansAndPending (min 255 loans) 0)
          (change (fill (min 255 loans)))) ∧
      (∀ e, found = some e → 0 < e.pending →
        takes put .putBorrower .partiallyTaken (.loansAndPending e.loansHeld e.pending)
          (change (fill e.loansHeld))) ∧
      (∀ room, found = none → b.makeRoom = some room →
        takes put .putBorrower (if cut then .partiallyTaken else .ok) (.loansAndPending (min 255 loans) 0)
          { room with
            nextCreated := b.nextCreated + 1
            borrowers := insertBy (fun x y => x.number.lt y.number) fresh room.borrowers }) ∧
      (found = none → b.makeRoom = none → refuses put .putBorrower .full)) ∧
    ((found = none → refuses del .delBorrower .notFound) ∧
      (∀ e, found = some e → e.pending = 0 → e.sessionStation = none → e.retiring = false →
        takes del .delBorrower .ok (.pendingAndSession 0 none)
          { b with borrowers := b.borrowers.filter fun e => e.number ≠ n }) ∧
      (∀ e, found = some e → 0 < e.pending ∨ e.sessionStation ≠ none ∨ e.retiring = true →
        takes del .delBorrower .partiallyTaken (.pendingAndSession e.pending e.sessionStation)
          (change fun e => { e with retiring := true }))) ∧
    ∀ dl df : Int,
      let adjust : Instr :=
        .adjustBorrower q (.shaped { bank := bank, number := n, loansDelta := dl, finesDelta := df })
      (found = none → refuses adjust .adjustBorrower .notFound) ∧
      ∀ e, found = some e →
        let loans := min 255 ((e.loansHeld : Int) + max (-255) (min 255 dl)).toNat
        let fines := min 9999999 ((e.finesOwed : Int) + max (-9999999) (min 9999999 df)).toNat
        let exact : Bool :=
          decide (-255 ≤ dl ∧ dl ≤ 255 ∧ -9999999 ≤ df ∧ df ≤ 9999999 ∧ (loans : Int) = e.loansHeld + dl ∧
            (fines : Int) = e.finesOwed + df)
        takes adjust .adjustBorrower (if exact then .ok else .partiallyTaken) (.loansAndFines loans fines)
          (change fun e => { e with loansHeld := loans, finesOwed := fines })) ∧
  ∀ (s : State) (q : Req),
    let refuses (c : Instr) (name : ReqName) : Prop :=
      exec c s = .next (answered q name (Reply.bare .badValue) s (received q name s))
    let badCount (n : Number) : Prop := n.digits < 4 ∨ 14 < n.digits
    (∀ p : PutBorrowerParams, s.admitsWrite q.line p.bank →
      badCount p.number ∨ 15 < p.category ∨ p.blocks.outside = true → refuses (.putBorrower q (.shaped p)) .putBorrower) ∧
    (∀ p : BankNumber, s.admitsWrite q.line p.bank → badCount p.number → refuses (.delBorrower q (.shaped p)) .delBorrower) ∧
    ∀ p : AdjustBorrowerParams, s.admitsWrite q.line p.bank → badCount p.number →
      refuses (.adjustBorrower q (.shaped p)) .adjustBorrower


/-- R47, R48, R57: a table with room needs no eviction; what is evicted from a full one is the provisional entry with the
lowest `created_seq` among those with no pending record and no session. -/
def Obligations.EvictionTakesTheOldestCandidate : Prop :=
  ∀ b : Bank,
    let candidate (e : Borrower) : Prop := e.provisional = true ∧ e.pending = 0 ∧ e.sessionStation = none
    (b.borrowers.length < 16384 → b.makeRoom = some b) ∧
      (16384 ≤ b.borrowers.length →
        (b.makeRoom = none ↔ ∀ e ∈ b.borrowers, ¬candidate e) ∧
          ∀ b', b.makeRoom = some b' → ∃ e ∈ b.borrowers, candidate e ∧
            (∀ x ∈ b.borrowers, candidate x → e.createdSeq ≤ x.createdSeq) ∧
            b' = { b with borrowers := b.borrowers.filter fun x => x.number ≠ e.number })

/-- R65, R72 to R76: the writes to an item table and its hold queues. -/
def Obligations.ItemAndHoldWrites : Prop :=
  (∀ (s : State) (q : Req) (bank : BankName) (n : Number), s.admitsWrite q.line bank → 4 ≤ n.digits → n.digits ≤ 14 →
    let b := s.bank bank
    let found := b.items.find? fun e => e.number = n
    let change (f : Item → Item) : List Item := b.items.map fun e => if e.number = n then f e else e
    let tidy (list : List Item) : List Item :=
      list.filter fun e => !decide (e.number = n ∧ e.classOverride = none ∧ e.queue = [])
    let join (e : Item) : List Item := insertBy (fun x y => x.number.lt y.number) e b.items
    let takes (c : Instr) (name : ReqName) (who : Option Number) (st : Status) (r : Results) (items : List Item) :
        Prop :=
      exec c s = .next (written q name bank who (some n) { status := st, results := r } { b with items := items } s)
    let refuses (c : Instr) (name : ReqName) (st : Status) : Prop :=
      exec c s = .next (answered q name (Reply.bare st) s (received q name s))
    let del : Instr := .delItem q (.shaped { bank := bank, number := n })
    let kept := tidy (change fun e => { e with classOverride := none })
    (∀ k : Fin 32,
      let put : Instr := .putItem q (.shaped { bank := bank, number := n, itemClass := k.val })
      (found ≠ none → takes put .putItem none .ok .plain (change fun e => { e with classOverride := some k })) ∧
      (found = none → b.items.length < 4096 →
        takes put .putItem none .ok .plain (join { number := n, classOverride := some k, queue := [] })) ∧
      (found = none → 4096 ≤ b.items.length → refuses put .putItem .full)) ∧
    ((∀ e, found = some e → e.classOverride ≠ none → e.queue = [] → takes del .delItem none .ok .plain kept) ∧
      (∀ e, found = some e → e.classOverride ≠ none → e.queue ≠ [] →
        takes del .delItem none .partiallyTaken (.queueLength e.queue.length) kept) ∧
      ((∀ e, found = some e → e.classOverride = none) → refuses del .delItem .notFound)) ∧
    ∀ who : Number, 4 ≤ who.digits → who.digits ≤ 14 →
      let queue := (found.map Item.queue).getD []
      let has := queue.any fun h => h.borrower = who
      let cancel : Instr := .cancelHold q (.shaped { bank := bank, item := n, borrower := who })
      (∀ (category : Fin 16) (k : Fin 32) (placed : Nat) (pickup : Option Nat),
        let add : Instr :=
          .addHold q (.shaped
            { bank := bank, item := n, borrower := who, category := category.val, itemClass := k.val
              placedDay := placed, pickupBy := pickup })
        let holdable := (b.classes[((found.bind Item.classOverride).getD k)]).holdable
        let holds := (b.items.map fun e => e.queue.length).sum
        let h : Hold := { borrower := who, category := category, pickupBy := pickup, placedDay := placed }
        (holdable = false → refuses add .addHold .wrongState) ∧
        (holdable = true → has = true → refuses add .addHold .duplicate) ∧
        (holdable = true → has = false → 4 ≤ queue.length ∨ 4096 ≤ holds → refuses add .addHold .full) ∧
        (holdable = true → has = false → queue.length < 4 → holds < 4096 →
          (found = none → 4096 ≤ b.items.length → refuses add .addHold .full) ∧
          (pickup ≠ none → queue ≠ [] → refuses add .addHold .wrongState) ∧
          (pickup = none ∨ queue = [] →
            (found ≠ none →
              takes add .addHold (some who) .ok (.holdPosition queue.length)
                (change fun e => { e with queue := e.queue ++ [h] })) ∧
            (found = none → b.items.length < 4096 →
              takes add .addHold (some who) .ok (.holdPosition 0)
                (join { number := n, classOverride := none, queue := [h] }))))) ∧
      ((has = false → refuses cancel .cancelHold .notFound) ∧
        (has = true →
          takes cancel .cancelHold (some who) .ok (.queueLength (queue.length - 1))
            (tidy (change fun e => { e with queue := e.queue.filter fun h => h.borrower ≠ who }))))) ∧
  ∀ (s : State) (q : Req),
    let refuses (c : Instr) (name : ReqName) : Prop :=
      exec c s = .next (answered q name (Reply.bare .badValue) s (received q name s))
    let badCount (n : Number) : Prop := n.digits < 4 ∨ 14 < n.digits
    (∀ p : PutItemParams, s.admitsWrite q.line p.bank → badCount p.number ∨ 31 < p.itemClass →
      refuses (.putItem q (.shaped p)) .putItem) ∧
    (∀ p : BankNumber, s.admitsWrite q.line p.bank → badCount p.number → refuses (.delItem q (.shaped p)) .delItem) ∧
    (∀ p : AddHoldParams, s.admitsWrite q.line p.bank →
      badCount p.item ∨ badCount p.borrower ∨ 15 < p.category ∨ 31 < p.itemClass →
      refuses (.addHold q (.shaped p)) .addHold) ∧
    ∀ p : CancelHoldParams, s.admitsWrite q.line p.bank → badCount p.item ∨ badCount p.borrower →
      refuses (.cancelHold q (.shaped p)) .cancelHold


/-- R38, R39, R41: the writes to the prefix table and the staff list; lengths and strip of an entry are clamped, and a
default out of range is refused.  R87, R88, R89, R107, R108: the writes to the category and class records and to the rule
cells. -/
def Obligations.PrefixStaffRecordAndRuleWrites : Prop :=
  (∀ (s : State) (q : Req) (bank : BankName), s.admitsWrite q.line bank →
    let b := s.bank bank
    let takes (c : Instr) (name : ReqName) (st : Status) (b' : Bank) : Prop :=
      exec c s = .next (written q name bank none none (Reply.bare st) b' s)
    let refuses (c : Instr) (name : ReqName) (st : Status) : Prop :=
      exec c s = .next (answered q name (Reply.bare st) s (received q name s))
    (∀ (i : Fin 32) (pattern : List PatternPos) (lo hi strip default : Nat) (check : CheckScheme) (kind : CodeKind),
      pattern.length ≤ 16 →
      let put : Instr :=
        .putPrefix q (.shaped
          { bank := bank, position := i.val, pattern := pattern.map some, minLength := lo, maxLength := hi
            check := some check, kind := some kind, strip := strip, default := default })
      let held : Nat := match kind with
        | .borrower | .item => default
        | .staff | .ignore => 0
      let tooHigh : Prop := (kind = .borrower ∧ 15 < default) ∨ (kind = .item ∧ 31 < default)
      let lo' := max 4 (min 16 lo)
      let hi' := max 4 (min 16 hi)
      let exact : Bool := decide (lo' = lo ∧ hi' = hi ∧ strip ≤ 8)
      (lo' ≤ hi' → pattern.length ≤ hi' → ¬tooHigh →
        takes put .putPrefix (if exact then .ok else .partiallyTaken)
          { b with
            prefixTable := b.prefixTable.set i
              { inUse := true, pattern := pattern, minLength := lo', maxLength := hi', check := check, kind := kind
                strip := min 8 strip, default := held } }) ∧
      (hi' < lo' ∨ hi' < pattern.length ∨ tooHigh → refuses put .putPrefix .badValue)) ∧
    (∀ i : Fin 32,
      let del : Instr := .delPrefix q (.shaped { bank := bank, index := i.val })
      (b.prefixTable[i].inUse = true →
        takes del .delPrefix .ok { b with prefixTable := b.prefixTable.set i PrefixEntry.unused }) ∧
      (b.prefixTable[i].inUse = false → refuses del .delPrefix .notFound)) ∧
    ∀ n : Number,
      let known := b.staff.any fun e => e.number = n
      let del : Instr := .delStaff q (.shaped { bank := bank, number := n })
      (∀ set : OverrideSet, 4 ≤ n.digits → n.digits ≤ 14 →
        let put : Instr :=
          .putStaff q (.shaped { bank := bank, number := n, overrides := { set := set, outside := false } })
        (known = true →
          takes put .putStaff .ok
            { b with staff := b.staff.map fun e => if e.number = n then { e with overrides := set } else e }) ∧
        (known = false → b.staff.length < 64 →
          takes put .putStaff .ok
            { b with
              staff := insertBy (fun x y => x.number.lt y.number) { number := n, overrides := set } b.staff }) ∧
        (known = false → 64 ≤ b.staff.length → refuses put .putStaff .full)) ∧
      ((known = true → takes del .delStaff .ok { b with staff := b.staff.filter fun e => e.number ≠ n }) ∧
        (known = false → refuses del .delStaff .notFound))) ∧
  (∀ (s : State) (q : Req) (bank : BankName), s.admitsWrite q.line bank →
    let b := s.bank bank
    let takes (c : Instr) (name : ReqName) (st : Status) (b' : Bank) : Prop :=
      exec c s = .next (written q name bank none none (Reply.bare st) b' s)
    (∀ (i : Fin 16) (loan fine overdue pickup digits : Nat) (term : Option Nat),
      let stored : CategoryRec :=
        { loanLimit := min 255 loan, fineLimit := min 9999999 fine, overdueLimit := min 255 overdue
          termEndDay := term, pickupDays := max 1 (min 30 pickup), shownDigits := min 14 digits }
      let exact : Bool :=
        decide (loan ≤ 255 ∧ fine ≤ 9999999 ∧ overdue ≤ 255 ∧ 1 ≤ pickup ∧ pickup ≤ 30 ∧ digits ≤ 14)
      takes
        (.putCategory q (.shaped
          { bank := bank, category := i.val, loanLimit := loan, fineLimit := fine, overdueLimit := overdue
            termEndDay := term, pickupDays := pickup, shownDigits := digits }))
        .putCategory (if exact then .ok else .partiallyTaken) { b with categories := b.categories.set i stored }) ∧
    (∀ i : Fin 16,
      takes (.delCategory q (.shaped { bank := bank, index := i.val })) .delCategory .ok
        { b with
          categories := b.categories.set i
            { loanLimit := 0, fineLimit := 0, overdueLimit := 0, termEndDay := none, pickupDays := 1
              shownDigits := 0 } }) ∧
    (∀ (i : Fin 32) (loanable holdable : Bool) (fixed : Option Nat) (checkout routing : Fin 8),
      takes
        (.putClass q (.shaped
          { bank := bank, itemClass := i.val, loanable := loanable, fixedDueDay := fixed, holdable := holdable
            checkoutTemplate := checkout.val, routingTemplate := routing.val }))
        .putClass .ok
        { b with
          classes := b.classes.set i
            { loanable := loanable, fixedDueDay := fixed, holdable := holdable, checkoutTemplate := checkout
              routingTemplate := routing } }) ∧
    (∀ i : Fin 32,
      takes (.delClass q (.shaped { bank := bank, index := i.val })) .delClass .ok
        { b with
          classes := b.classes.set i
            { loanable := false, fixedDueDay := none, holdable := false, checkoutTemplate := 0
              routingTemplate := 0 } }) ∧
    (∀ (i : Fin 16) (j : Fin 32) (kind : CellKind) (period renew round : Nat),
      let period' : Nat := match kind with
        | .days => max 1 (min 180 period)
        | .hours => max 1 (min 72 period)
        | .none => 1
      let round' : Nat := if round ≤ 1 then 1 else if round ≤ 5 then 5 else if round ≤ 15 then 15 else 30
      let exact : Bool :=
        decide ((kind = .none ∨ period' = period) ∧ renew ≤ 9 ∧ round' = round)
      takes
        (.putRule q (.shaped
          { bank := bank, category := i.val, itemClass := j.val, kind := some kind, period := period
            renewLimit := renew, roundStep := round }))
        .putRule (if exact then .ok else .partiallyTaken)
        { b with
          rules := b.rules.set i
            (b.rules[i].set j { kind := kind, period := period', renewLimit := min 9 renew, roundStep := round' }) }) ∧
    ∀ (i : Fin 16) (j : Fin 32),
      takes (.delRule q (.shaped { bank := bank, category := i.val, itemClass := j.val })) .delRule .ok
        { b with
          rules := b.rules.set i
            (b.rules[i].set j { kind := .none, period := 1, renewLimit := 0, roundStep := 1 }) }) ∧
  ∀ (s : State) (q : Req),
    let refuses (c : Instr) (name : ReqName) : Prop :=
      exec c s = .next (answered q name (Reply.bare .badValue) s (received q name s))
    let badCount (n : Number) : Prop := n.digits < 4 ∨ 14 < n.digits
    (∀ p : PutPrefixParams, s.admitsWrite q.line p.bank → 16 < p.pattern.length →
      exec (.putPrefix q (.shaped p)) s =
        .next (answered q .putPrefix (Reply.bare .badRequest) s (received q .putPrefix s))) ∧
    (∀ p : PutPrefixParams, s.admitsWrite q.line p.bank → p.pattern.length ≤ 16 →
      31 < p.position ∨ p.kind = none ∨ p.check = none ∨ none ∈ p.pattern → refuses (.putPrefix q (.shaped p)) .putPrefix) ∧
    (∀ p : PutStaffParams, s.admitsWrite q.line p.bank → badCount p.number ∨ p.overrides.outside = true →
      refuses (.putStaff q (.shaped p)) .putStaff) ∧
    (∀ p : PutCategoryParams, s.admitsWrite q.line p.bank → 15 < p.category →
      refuses (.putCategory q (.shaped p)) .putCategory) ∧
    (∀ p : PutClassParams, s.admitsWrite q.line p.bank →
      31 < p.itemClass ∨ 7 < p.checkoutTemplate ∨ 7 < p.routingTemplate → refuses (.putClass q (.shaped p)) .putClass) ∧
    (∀ p : PutRuleParams, s.admitsWrite q.line p.bank → 15 < p.category ∨ 31 < p.itemClass ∨ p.kind = none →
      refuses (.putRule q (.shaped p)) .putRule) ∧
    (∀ p : DelRuleParams, s.admitsWrite q.line p.bank → 15 < p.category ∨ 31 < p.itemClass →
      refuses (.delRule q (.shaped p)) .delRule) ∧
    ∀ p : BankIndex, s.admitsWrite q.line p.bank →
      (15 < p.index → refuses (.delCategory q (.shaped p)) .delCategory) ∧
        (31 < p.index → refuses (.delClass q (.shaped p)) .delClass ∧ refuses (.delPrefix q (.shaped p)) .delPrefix)


/-- R90, R109, R110: the writes to the calendar.  R165, R167: one taken to the ACTIVE calendar is followed by the tests of
auto-close and then of auto-open (DEDUCED, log entry 25). -/
def Obligations.CalendarWrites : Prop :=
  (∀ (s : State) (q : Req) (bank : BankName), s.admitsWrite q.line bank →
    let b := s.bank bank
    let takes (c : Instr) (name : ReqName) (b' : Bank) : Prop :=
      exec c s = .next (calendarWritten q name bank b' s)
    let refuses (c : Instr) (name : ReqName) (st : Status) : Prop :=
      exec c s = .next (answered q name (Reply.bare st) s (received q name s))
    (∀ number opening closing : Nat,
      let put : Instr :=
        .putProfile q (.shaped { bank := bank, profile := number, openMinute := opening, closeMinute := closing })
      (∀ i : Fin 7, number = i.val + 1 → opening ≤ 1439 → closing ≤ 1440 → opening < closing →
        takes put .putProfile
          { b with profiles := b.profiles.set i { openMinute := opening, closeMinute := closing } }) ∧
      (number = 0 ∨ 7 < number ∨ 1439 < opening ∨ 1440 < closing ∨ closing ≤ opening →
        refuses put .putProfile .badValue)) ∧
    (∀ number : Nat,
      let del : Instr := .delProfile q (.shaped { bank := bank, index := number })
      (∀ i : Fin 7, number = i.val + 1 →
        takes del .delProfile { b with profiles := b.profiles.set i { openMinute := 0, closeMinute := 1440 } }) ∧
      (number = 0 ∨ 7 < number → refuses del .delProfile .badValue)) ∧
    (∀ (d : Fin 7) (p : Fin 8),
      takes (.putWeekday q (.shaped { bank := bank, day := d.val, profile := p.val })) .putWeekday
          { b with weekdays := b.weekdays.set d p } ∧
        takes (.delWeekday q (.shaped { bank := bank, index := d.val })) .delWeekday
          { b with weekdays := b.weekdays.set d 0 }) ∧
    ∀ day : Nat,
      let known := b.exceptions.any fun e => e.day = day
      let del : Instr := .delException q (.shaped { bank := bank, index := day })
      (∀ p : Fin 8,
        let put : Instr := .putException q (.shaped { bank := bank, day := day, profile := p.val })
        (known = true →
          takes put .putException
            { b with exceptions := b.exceptions.map fun e => if e.day = day then { e with profile := p } else e }) ∧
        (known = false → b.exceptions.length < 96 →
          takes put .putException
            { b with
              exceptions :=
                insertBy (fun x y => decide (x.day < y.day)) { day := day, profile := p } b.exceptions }) ∧
        (known = false → 96 ≤ b.exceptions.length → refuses put .putException .full)) ∧
      ((known = true →
          takes del .delException { b with exceptions := b.exceptions.filter fun e => e.day ≠ day }) ∧
        (known = false → refuses del .delException .notFound))) ∧
  ∀ (s : State) (q : Req),
    let refuses (c : Instr) (name : ReqName) : Prop :=
      exec c s = .next (answered q name (Reply.bare .badValue) s (received q name s))
    (∀ p : PutDayParams, s.admitsWrite q.line p.bank →
      (6 < p.day ∨ 7 < p.profile → refuses (.putWeekday q (.shaped p)) .putWeekday) ∧
        (7 < p.profile → refuses (.putException q (.shaped p)) .putException)) ∧
    ∀ p : BankIndex, s.admitsWrite q.line p.bank → 6 < p.index → refuses (.delWeekday q (.shaped p)) .delWeekday


/-- R126: the writes to the templates and texts. -/
def Obligations.TemplateAndTextWrites : Prop :=
  (∀ (s : State) (q : Req) (bank : BankName), s.admitsWrite q.line bank →
    let b := s.bank bank
    let takes (c : Instr) (name : ReqName) (b' : Bank) : Prop :=
      exec c s = .next (written q name bank none none Reply.ok b' s)
    let refuses (c : Instr) (name : ReqName) (st : Status) : Prop :=
      exec c s = .next (answered q name (Reply.bare st) s (received q name s))
    let good (t : Text) : Prop := ∀ x ∈ t, 0x20 ≤ x.toNat ∧ x.toNat ≤ 0x7E
    (∀ (i : Fin 8) (lines : List TemplateLine), lines.length ≤ 16 →
      (∀ l ∈ lines, l.slots.length ≤ 4 ∧ l.text.length ≤ 48 ∧ good l.text ∧ ∀ x ∈ l.slots, x.column ≤ 47) →
      takes
        (.putTemplate q (.shaped
          { bank := bank, template := i.val
            lines := lines.map fun l =>
              { text := l.text, repeated := l.repeated, slots := l.slots.map fun x => (x.column, some x.field) } }))
        .putTemplate { b with templates := b.templates.set i lines }) ∧
    (∀ (n : Nat) (lines : List TemplateLineParams), lines.length ≤ 16 → (∀ l ∈ lines, l.slots.length ≤ 4) →
      7 < n ∨ (∃ l ∈ lines, 48 < l.text.length ∨ ¬good l.text ∨ ∃ x ∈ l.slots, 47 < x.1 ∨ x.2 = none) →
      refuses (.putTemplate q (.shaped { bank := bank, template := n, lines := lines })) .putTemplate .badValue) ∧
    (∀ (n : Nat) (lines : List TemplateLineParams), 16 < lines.length ∨ (∃ l ∈ lines, 4 < l.slots.length) →
      refuses (.putTemplate q (.shaped { bank := bank, template := n, lines := lines })) .putTemplate .badRequest) ∧
    (∀ i : Fin 8,
      takes (.delTemplate q (.shaped { bank := bank, index := i.val })) .delTemplate
        { b with templates := b.templates.set i [] }) ∧
    ∀ i : Fin 32,
      (∀ line1 line2 : Text,
        let put : Instr := .putText q (.shaped { bank := bank, text := i.val, line1 := line1, line2 := line2 })
        (line1.length ≤ 20 → line2.length ≤ 20 → good line1 → good line2 →
          takes put .putText
            { b with
              texts := b.texts.set i
                { line1 := line1 ++ List.replicate (20 - line1.length) 0x20#8
                  line2 := line2 ++ List.replicate (20 - line2.length) 0x20#8 } }) ∧
        (20 < line1.length ∨ 20 < line2.length ∨ ¬good line1 ∨ ¬good line2 → refuses put .putText .badValue)) ∧
      takes (.delText q (.shaped { bank := bank, index := i.val })) .delText
        { b with
          texts := b.texts.set i
            { line1 := List.replicate 20 0x20#8, line2 := List.replicate 20 0x20#8 } }) ∧
  ∀ (s : State) (q : Req),
    let refuses (c : Instr) (name : ReqName) : Prop :=
      exec c s = .next (answered q name (Reply.bare .badValue) s (received q name s))
    (∀ p : BankIndex, s.admitsWrite q.line p.bank →
      (7 < p.index → refuses (.delTemplate q (.shaped p)) .delTemplate) ∧
        (31 < p.index → refuses (.delText q (.shaped p)) .delText)) ∧
    ∀ p : PutTextParams, s.admitsWrite q.line p.bank → 31 < p.text → refuses (.putText q (.shaped p)) .putText


/-! ### The journal's requests -/

/-- R150, R151: UPLOAD's tests and end point; each record goes out when the send list is empty, and the last one brings the
final reply. -/
def Obligations.UploadsSendRecordsInOrder : Prop :=
  (∀ (s : State) (q : Req) (n : Nat), s.admits q.line →
    let heard := received q .upload s
    let refused (st : Status) : Prop :=
      exec (.upload q (.shaped n)) s = .next (answered q .upload (Reply.bare st) s heard)
    let count := if n < 1 then 1 else if 256 < n then 256 else n
    let endPoint := min (s.journal.sendMark + count) s.journal.nextSeq
    let may : Prop := s.day.state = .closed ∨ s.uplink.granted.trickle = true
    (q.line = .supervisor → refused .wrongState) ∧
    (q.line = .uplink → s.upload ≠ none → refused .busy) ∧
    (q.line = .uplink → s.upload = none → ¬may → refused .wrongState) ∧
    (q.line = .uplink → s.upload = none → may → endPoint ≠ s.journal.sendMark →
      exec (.upload q (.shaped n)) s =
        .next
          { heard with
            upload :=
              some { tag := q.tag, endPoint := endPoint, clamped := decide (count ≠ n), sent := 0 } }) ∧
    (q.line = .uplink → s.upload = none → may → endPoint = s.journal.sendMark →
      exec (.upload q (.shaped n)) s =
        .next (answered q .upload
          { status := if count = n then .ok else .partiallyTaken
            results := .uploaded 0 (s.journal.sendMark - 1) } s heard))) ∧
  ∀ (s : State) (u : Upload) (r : Record), s.running = true → s.upload = some u → s.uplink.sendList = [] →
    s.journal.sendMark < u.endPoint → s.journal.oldest ≤ s.journal.sendMark →
    s.journal.records[s.journal.sendMark - s.journal.oldest]? = some r →
    let sent : Journal := { s.journal with sendMark := s.journal.sendMark + 1 }
    (s.journal.sendMark + 1 < u.endPoint →
      exec .recordSend s =
        .next
          { s with
            journal := sent, upload := some { u with sent := u.sent + 1 }
            uplink := { s.uplink with sendList := [.record u.tag r] } }) ∧
    (s.journal.sendMark + 1 = u.endPoint →
      exec .recordSend s =
        .next
          { s with
            journal := sent, upload := none
            uplink :=
              { s.uplink with
                sendList :=
                  [.record u.tag r,
                    .reply u.tag
                      { status := if u.clamped then .partiallyTaken else .ok
                        results := .uploaded (u.sent + 1) s.journal.sendMark }] } })

/-- R51, R54, R153: RELEASE frees the records up to its limit and lowers the counts of the borrowers they name. -/
def Obligations.ReleaseFreesSentRecords : Prop :=
  ∀ (s : State) (q : Req) (seq : Nat), s.admits q.line →
    let heard := received q .release s
    let j := s.journal
    let limit := if j.sendMark ≤ seq then j.sendMark - 1 else seq
    let status : Status := if j.sendMark ≤ seq then .partiallyTaken else .ok
    let answers (r : Reply) : Prop := exec (.release q (.shaped seq)) s = .next (answered q .release r s heard)
    (q.line = .supervisor → answers (Reply.bare .wrongState)) ∧
    (q.line = .uplink → seq < j.oldest → answers { status := .ok, results := .released j.oldest 0 }) ∧
    (q.line = .uplink → j.oldest ≤ seq → limit < j.oldest →
      answers { status := .partiallyTaken, results := .released j.oldest 0 }) ∧
    (q.line = .uplink → j.oldest ≤ seq → j.oldest ≤ limit →
      let n := limit + 1 - j.oldest
      ∃ t, exec (.release q (.shaped seq)) s = .next t ∧
        t.journal = { j with records := j.records.drop n, oldest := limit + 1 } ∧
        LineFrame.reply q.tag { status := status, results := .released (limit + 1) n } ∈ t.uplink.sendList ∧
        (JournalSound s → TablesSound s → PendingSound s →
          t.active.borrowers =
            (s.active.borrowers.map fun e =>
              { e with pending := (j.records.drop n).countP (Record.countsFor e.number) }).filter fun e =>
              !decide (e.retiring = true ∧ e.pending = 0 ∧ e.sessionStation = none ∧
                (j.records.take n).any (Record.countsFor e.number) = true)) ∧
        t.active.items = s.active.items ∧ t.sessions = s.sessions ∧ t.ports = s.ports ∧ t.cache = s.cache ∧
        t.upload = s.upload ∧ t.day = s.day ∧ t.clock = s.clock)

/-! ### The clock's requests, the settings, the supplies -/

/-- R159 to R162: what TIME and SET_TIME do to the clock.  R159, R165, R167, R168: a step that reaches the close instant
closes the desk, and auto-open is tested in its event; that its CLOCK_STEP comes before the DAY_CLOSE is the model's choice
(log entry 33).  That a time which only makes the clock valid removes no arm is log entry 25 (DEDUCED). -/
def Obligations.TimesSetOrHoldTheClock : Prop :=
  ∀ (s : State) (l : Line) (tag : Tag) (day second : Nat), s.admits l →
    let q : Req := { line := l, tag := tag }
    let c : Instr :=
      match l with
      | .uplink => .time q (.shaped { day := day, second := second })
      | .supervisor => .setTime q (.shaped { day := day, second := second })
    let name : ReqName := match l with
      | .uplink => .time
      | .supervisor => .setTime
    let heard := received q name s
    let new : Instant := { day := day, second := second }
    let refused (st : Status) : Prop := exec c s = .next (answered q name (Reply.bare st) s heard)
    let far : Int := (day * 86400 + second : Nat) - (s.clock.now.day * 86400 + s.clock.now.second : Nat)
    let small : Prop := -(s.settings.stepLimit : Int) ≤ far ∧ far ≤ s.settings.stepLimit
    let unscheduled : Prop := s.settings.autoClose = false ∧ s.settings.autoOpen = false
    let stepped : Reply := { status := .ok, results := .clock new true none }
    let disarmed : Vector Session 8 := Vector.ofFn fun st =>
      if (s.session st).armedUntil = none then s.session st
      else
        { s.session st with
          armedUntil := none
          overrideStaff := if (s.session st).borrower = none then none else (s.session st).overrideStaff }
    (exec (.time { line := .supervisor, tag := tag } (.shaped { day := day, second := second })) s =
        .next (answered { line := .supervisor, tag := tag } .time (Reply.bare .wrongState) s
          (received { line := .supervisor, tag := tag } .time s)) ∨ ¬s.admits .supervisor) ∧
    (exec (.setTime { line := .uplink, tag := tag } (.shaped { day := day, second := second })) s =
        .next (answered { line := .uplink, tag := tag } .setTime (Reply.bare .wrongState) s
          (received { line := .uplink, tag := tag } .setTime s)) ∨ ¬s.admits .uplink) ∧
    (l = .supervisor → s.uplink.state = .active → refused .notOwner) ∧
    (l = .uplink ∨ s.uplink.state ≠ .active →
      (86399 < second → refused .badValue) ∧
      (second ≤ 86399 → s.clock.valid = false → new ≠ s.clock.now → unscheduled →
        exec c s =
          .next (answered q name stepped s
            { heard with clock := { now := new, valid := true, held := none }, sessions := disarmed })) ∧
      (second ≤ 86399 → s.clock.valid = false → new = s.clock.now → unscheduled →
        exec c s =
          .next (answered q name stepped s
            { heard with clock := { now := new, valid := true, held := none }, sessions := s.sessions })) ∧
      (second ≤ 86399 → s.clock.valid = true → new = s.clock.now →
        exec c s = .next (answered q name stepped s { heard with clock := { s.clock with held := none } })) ∧
      (second ≤ 86399 → s.clock.valid = true → new ≠ s.clock.now → s.day.state = .closed ∨ small → unscheduled →
        1 ≤ s.journal.free →
        ∃ t, exec c s = .next t ∧ t.clock = { now := new, valid := true, held := none } ∧ t.sessions = disarmed ∧
          appended { s with clock := { now := new, valid := true, held := none } }
            { draft .clockStep with
              due := some { day := s.clock.now.day, minute := s.clock.now.second / 60 } } t ∧
          LineFrame.reply tag stepped ∈ (t.line l).sendList ∧
          t.day = s.day ∧ t.ports = s.ports ∧ t.cache = s.cache ∧ t.slot = s.slot ∧ t.settings = s.settings) ∧
      (second ≤ 86399 → s.clock.valid = true → s.day.state ≠ .closed → ¬small →
        exec c s =
          .next (answered q name { status := .partiallyTaken, results := .clock s.clock.now true (some new) } s
            { heard with clock := { s.clock with held := some new } })) ∧
      (second ≤ 86399 → s.clock.valid = false ∨ (new ≠ s.clock.now ∧ (s.day.state = .closed ∨ small)) →
        let seconds (i : Instant) : Nat := i.day * 86400 + i.second
        let reaches : Prop :=
          s.settings.autoClose = true ∧ s.day.state = .opened ∧
            ∃ d, s.day.openDay = some d ∧
              let close := d * 86400 + ((hoursOf s.active d).map fun p => p.closeMinute * 60).getD 86400
              seconds s.clock.now < close ∧ close ≤ seconds new
        let ends : Prop := reaches ∧ ∀ st : Station, (s.session st).borrower = none
        let recorded (drafts : List Record) (t : State) : Prop :=
          let taken := drafts.take s.journal.free
          t.journal =
            { s.journal with
              records := s.journal.records ++ numbered s (decide (s.uplink.state ≠ .active)) taken
              nextSeq := s.journal.nextSeq + taken.length
              overflow := if s.journal.free < drafts.length then true else s.journal.overflow && drafts.isEmpty }
        let moved : List Record :=
          if s.clock.valid = false then []
          else
            [dated new
              { draft .clockStep with
                due := some { day := s.clock.now.day, minute := s.clock.now.second / 60 } }]
        ∃ t, exec c s = .next t ∧ t.clock = { now := new, valid := true, held := none } ∧
          (new = s.clock.now → t.sessions = s.sessions) ∧ (new ≠ s.clock.now → t.sessions = disarmed) ∧
          LineFrame.reply tag stepped ∈ (t.line l).sendList ∧ openingTested s.slot t ∧
          (¬reaches → t.day = s.day) ∧
          (reaches → (∃ st : Station, (s.session st).borrower ≠ none) →
            t.day =
              { s.day with
                state := .closing, grace := some (s.settings.closingGrace * 60), graceExpired := false }) ∧
          (¬ends → t.notice = s.notice ∧ t.ports = s.ports ∧ t.consoles = s.consoles) ∧
          (ends →
            t.day = { s.day with state := .closed, fresh := false, grace := none, graceExpired := false } ∧
              t.notice = none ∧
              ∀ (st : Station) (i : Fin 32), t.standingText st = some i →
                (t.console st).line1 = fit20 (s.shownText i).line1 ∧
                  (t.console st).line2 = fit20 (s.shownText i).line2) ∧
          (s.journal.oldest ≤ s.journal.nextSeq →
            (¬ends → recorded moved t) ∧ (ends → recorded (moved ++ [dated new (draft .dayClose)]) t)) ∧
          t.active = s.active ∧ t.staged = s.staged ∧ t.cache = s.cache ∧ t.settings = s.settings ∧
          t.key = s.key ∧ t.upload = s.upload ∧ t.store = s.store ∧ t.generation = s.generation))

/-- R174: SET_SETTINGS replaces the whole record, its ranged values clamped, and changes nothing else where no station is
lost by it.  R22, R134, R165, R168: present stations that the new mask leaves out are lost in station order, an open session
among them is abandoned, the last one brings a CLOSING desk to CLOSED, and then auto-open is tested (in this order: log
entry 15). -/
def Obligations.SettingsAreReplaced : Prop :=
  (∀ (s : State) (q : Req) (p : SettingsParams), s.admitsOwner q.line →
    p.autoOpen = none ∨ p.autoClose = none ∨ p.dateFormat = none ∨ p.allowedFeatures.outside = true →
    exec (.setSettings q (.shaped p)) s =
      .next (answered q .setSettings (Reply.bare .badValue) s (received q .setSettings s))) ∧
  ∀ (s : State) (q : Req) (p : SettingsParams) (opens closes : Bool) (f : DateFormat), s.admitsOwner q.line →
    p.autoOpen = some opens → p.autoClose = some closes → p.dateFormat = some f → p.allowedFeatures.outside = false →
    let record : Settings :=
      { enableMask := p.enableMask, printerWidths := p.printerWidths
        idleTimeout := max 30 (min 600 p.idleTimeout), closingGrace := max 1 (min 30 p.closingGrace)
        autoOpen := opens, autoClose := closes, highWater := max 1024 (min 16352 p.highWater), dateFormat := f
        allowedFeatures := p.allowedFeatures.set, stepLimit := min 600 p.stepLimit }
    let exact : Bool :=
      decide (record.idleTimeout = p.idleTimeout ∧ record.closingGrace = p.closingGrace ∧
        record.highWater = p.highWater ∧ record.stepLimit = p.stepLimit ∧
        ∀ st : Station, p.printerWidths[st] = 32#8 ∨ p.printerWidths[st] = 40#8 ∨ p.printerWidths[st] = 48#8)
    let stored : Reply := { status := if exact then .ok else .partiallyTaken, results := .settingsStored record }
    (opens = false → s.day.state ≠ .closing → (∀ st : Station, (s.port st).present = true → p.enableMask[st] = true) →
      exec (.setSettings q (.shaped p)) s =
        .next (answered q .setSettings stored s { received q .setSettings s with settings := record })) ∧
    (JournalSound s → TablesSound s → LinksSound s →
      let lost : List Station :=
        stations.filter fun st => (s.port st).present && !(s.port st).bridged && !p.enableMask[st]
      let abandoned : List Record := lost.filterMap (abandonedAt s)
      let lastEnds : Prop := s.day.state = .closing ∧ ∀ st : Station, (s.session st).borrower ≠ none → st ∈ lost
      let wrote (drafts : List Record) (t : State) : Prop :=
        t.journal.records = s.journal.records ++ numbered s (decide (s.uplink.state ≠ .active)) drafts ∧
          t.journal.nextSeq = s.journal.nextSeq + drafts.length ∧
          t.journal.overflow = (s.journal.overflow && drafts.isEmpty)
      ∃ t, exec (.setSettings q (.shaped p)) s = .next t ∧
        t.settings = record ∧ LineFrame.reply q.tag stored ∈ (t.line q.line).sendList ∧
        (∀ st ∈ lost, t.stationState st = .absent ∧
          t.port st =
            { s.port st with
              present := false, watch := none, slots := [], credit := 0, paperOut := false, down := [] } ∧
          t.console st =
            { s.console st with queue := [], headSent := 0, line1 := blankLine, line2 := blankLine } ∧
          (t.session st).borrower = none ∧ (t.session st).items = [] ∧ (t.session st).armedUntil = none ∧
          (t.session st).mode = .normal) ∧
        (∀ l : Line, (t.line l).pendingSet.has .stationLost =
          ((s.line l).pendingSet.has .stationLost || !lost.isEmpty)) ∧
        (¬lastEnds → t.day = s.day ∧ t.clock = s.clock ∧ t.notice = s.notice ∧
          ∀ st : Station, st ∉ lost →
            t.port st = s.port st ∧ t.console st = s.console st ∧ t.session st = s.session st) ∧
        (lastEnds →
          t.day = { s.day with state := .closed, fresh := false, grace := none, graceExpired := false } ∧
            t.notice = none ∧ t.clock = { s.clock with now := s.clock.held.getD s.clock.now, held := none }) ∧
        t.journal.oldest = s.journal.oldest ∧ t.journal.sendMark = s.journal.sendMark ∧
        t.journal.claims = s.journal.claims - (lost.map fun st => (s.session st).items.length).sum ∧
        (abandoned.length + 2 ≤ s.journal.free →
          (¬lastEnds → wrote abandoned t) ∧ (lastEnds → wrote (abandoned ++ closingDrafts s) t) ∧
          t.active =
            { s.active with
              borrowers := s.active.borrowers.map fun e =>
                if ∃ st ∈ lost, e.sessionStation = some st then
                  { e with pending := e.pending + 1, sessionStation := none }
                else e }) ∧
        t.cache = s.cache ∧ openingTested s.slot t ∧ t.staged = s.staged ∧ t.stagedState = s.stagedState ∧
        t.generation = s.generation ∧ t.key = s.key ∧ t.upload = s.upload ∧ t.store = s.store)

/-- R193, R194, R197: the supplies and the RESET pin.  R27, R196: what a warm start makes of open sessions and of an
interrupted desk-day; which flags a converted record carries is log entry 14, and that the CLOCK_STEP of an applied held
time carries the day and minute after the step is the model's choice (log entry 34). -/
def Obligations.SuppliesAndResetStartThePart : Prop :=
  ∀ s : State,
    let good : Prop := s.store.signatureGood = true ∧ s.store.backupFail = false
    let still : Prop := s.settings.autoOpen = false ∧ ∀ st : Station, (s.session st).borrower = none
    let sound : Prop := JournalSound s ∧ TablesSound s ∧ LinksSound s
    let cold (t : State) : Prop :=
      t = { State.reset with pending := s.pending, freeIx := s.freeIx }
    exec .powerFail s = .next { s with powered := false } ∧
    exec .resetAssert s = .next { s with resetAsserted := true } ∧
    (s.powered = false → exec .backupFail s = .next { s with store := { s.store with backupFail := true } }) ∧
    (s.powered = true → exec .backupFail s = .next s) ∧
    (s.powered = false → s.resetAsserted = false →
      (¬good → ∃ t, exec .powerUp s = .next t ∧ cold t) ∧
        (good → still → ∃ t, exec .powerUp s = .next t ∧ warmStarted s t) ∧
        (good → sound → ∃ t, exec .powerUp s = .next t ∧ warmStartedOver s t)) ∧
    (s.powered = false → s.resetAsserted = true → exec .powerUp s = .next { s with powered := true }) ∧
    (s.powered = true → s.resetAsserted = true →
      (¬good → ∃ t, exec .resetRelease s = .next t ∧ cold t) ∧
        (good → still → ∃ t, exec .resetRelease s = .next t ∧ warmStarted s t) ∧
        (good → sound → ∃ t, exec .resetRelease s = .next t ∧ warmStartedOver s t))

/-! ### Numbers and dates -/

/-- R35, R36: exactly one digit checks a W31 code; an M11 code has none when its expected value is 10, and else one. -/
def Obligations.CheckDigitsAreUnique : Prop :=
  ∀ data : List Nat,
    (∃ d, d < 10 ∧ checkDigitOk .w31 (data ++ [d]) = true ∧
      ∀ e, e < 10 → checkDigitOk .w31 (data ++ [e]) = true → e = d) ∧
    (m11Expected data = 10 → ∀ d, d < 10 → checkDigitOk .m11 (data ++ [d]) = false) ∧
    (m11Expected data ≠ 10 → ∃ d, d < 10 ∧ ∀ e, e < 10 → (checkDigitOk .m11 (data ++ [e]) = true ↔ e = d))

/-- R94, R101, R102: a due is later than the decision instant, its day is at or before the ceiling, and a renewal is never
due earlier than before. -/
def Obligations.DuesLieBetweenNowAndTheCeiling : Prop :=
  ∀ (i : DueInput) (old : Option Due) (c : Computed), dueFor i old = .ok c →
    (i.day < c.due.day ∨ (i.day = c.due.day ∧ i.minute < c.due.minute)) ∧ c.due.day ≤ i.expiryDay ∧
      (∀ t, i.category.termEndDay = some t → c.due.day ≤ t) ∧
      ∀ o, old = some o → o.day < c.due.day ∨ (o.day = c.due.day ∧ o.minute ≤ c.due.minute)

/-- R103: a pickup day is the first open day from D + p, and D + p itself when the search finds none, 65,535 at most. -/
def Obligations.PickupDays : Prop :=
  ∀ (b : Bank) (day p : Nat),
    (∀ d, day + p ≤ d → d < day + p + 14 → d ≤ 65535 → hoursOf b d ≠ none →
      (∀ x, day + p ≤ x → x < d → hoursOf b x = none) → pickupDay b day p = d) ∧
    ((∀ d, day + p ≤ d → d < day + p + 14 → d ≤ 65535 → hoursOf b d = none) →
      pickupDay b day p = min (day + p) 65535)
end

