-- ==== Sys2Proof/Laws/State.lean ====
section
/-! SUPPORT. One lemma per field per update of the state, so that no proof unfolds a record update. -/

namespace Sys2Proof.Machine

variable (s : State) (st o : Station) (l : Line) (n : BankName)


/-! ### setPort -/

@[simp] theorem setPort_pending (p : Port) : (s.setPort st p).pending = s.pending := rfl
@[simp] theorem setPort_active (p : Port) : (s.setPort st p).active = s.active := rfl
@[simp] theorem setPort_staged (p : Port) : (s.setPort st p).staged = s.staged := rfl
@[simp] theorem setPort_stagedState (p : Port) : (s.setPort st p).stagedState = s.stagedState := rfl
@[simp] theorem setPort_generation (p : Port) : (s.setPort st p).generation = s.generation := rfl
@[simp] theorem setPort_cache (p : Port) : (s.setPort st p).cache = s.cache := rfl
@[simp] theorem setPort_journal (p : Port) : (s.setPort st p).journal = s.journal := rfl
@[simp] theorem setPort_upload (p : Port) : (s.setPort st p).upload = s.upload := rfl
@[simp] theorem setPort_sessions (p : Port) : (s.setPort st p).sessions = s.sessions := rfl
@[simp] theorem setPort_day (p : Port) : (s.setPort st p).day = s.day := rfl
@[simp] theorem setPort_clock (p : Port) : (s.setPort st p).clock = s.clock := rfl
@[simp] theorem setPort_settings (p : Port) : (s.setPort st p).settings = s.settings := rfl
@[simp] theorem setPort_key (p : Port) : (s.setPort st p).key = s.key := rfl
@[simp] theorem setPort_slot (p : Port) : (s.setPort st p).slot = s.slot := rfl
@[simp] theorem setPort_consoles (p : Port) : (s.setPort st p).consoles = s.consoles := rfl
@[simp] theorem setPort_notice (p : Port) : (s.setPort st p).notice = s.notice := rfl
@[simp] theorem setPort_uplink (p : Port) : (s.setPort st p).uplink = s.uplink := rfl
@[simp] theorem setPort_supervisor (p : Port) : (s.setPort st p).supervisor = s.supervisor := rfl
@[simp] theorem setPort_toSupervisor (p : Port) : (s.setPort st p).toSupervisor = s.toSupervisor := rfl
@[simp] theorem setPort_toServer (p : Port) : (s.setPort st p).toServer = s.toServer := rfl
@[simp] theorem setPort_lastServed (p : Port) : (s.setPort st p).lastServed = s.lastServed := rfl
@[simp] theorem setPort_store (p : Port) : (s.setPort st p).store = s.store := rfl
@[simp] theorem setPort_powered (p : Port) : (s.setPort st p).powered = s.powered := rfl
@[simp] theorem setPort_resetAsserted (p : Port) : (s.setPort st p).resetAsserted = s.resetAsserted := rfl
@[simp] theorem setPort_restarting (p : Port) : (s.setPort st p).restarting = s.restarting := rfl
@[simp] theorem setPort_freeIx (p : Port) : (s.setPort st p).freeIx = s.freeIx := rfl

/-! ### setConsole -/

@[simp] theorem setConsole_pending (c : Console) : (s.setConsole st c).pending = s.pending := rfl
@[simp] theorem setConsole_active (c : Console) : (s.setConsole st c).active = s.active := rfl
@[simp] theorem setConsole_staged (c : Console) : (s.setConsole st c).staged = s.staged := rfl
@[simp] theorem setConsole_stagedState (c : Console) : (s.setConsole st c).stagedState = s.stagedState := rfl
@[simp] theorem setConsole_generation (c : Console) : (s.setConsole st c).generation = s.generation := rfl
@[simp] theorem setConsole_cache (c : Console) : (s.setConsole st c).cache = s.cache := rfl
@[simp] theorem setConsole_journal (c : Console) : (s.setConsole st c).journal = s.journal := rfl
@[simp] theorem setConsole_upload (c : Console) : (s.setConsole st c).upload = s.upload := rfl
@[simp] theorem setConsole_sessions (c : Console) : (s.setConsole st c).sessions = s.sessions := rfl
@[simp] theorem setConsole_day (c : Console) : (s.setConsole st c).day = s.day := rfl
@[simp] theorem setConsole_clock (c : Console) : (s.setConsole st c).clock = s.clock := rfl
@[simp] theorem setConsole_settings (c : Console) : (s.setConsole st c).settings = s.settings := rfl
@[simp] theorem setConsole_key (c : Console) : (s.setConsole st c).key = s.key := rfl
@[simp] theorem setConsole_slot (c : Console) : (s.setConsole st c).slot = s.slot := rfl
@[simp] theorem setConsole_ports (c : Console) : (s.setConsole st c).ports = s.ports := rfl
@[simp] theorem setConsole_notice (c : Console) : (s.setConsole st c).notice = s.notice := rfl
@[simp] theorem setConsole_uplink (c : Console) : (s.setConsole st c).uplink = s.uplink := rfl
@[simp] theorem setConsole_supervisor (c : Console) : (s.setConsole st c).supervisor = s.supervisor := rfl
@[simp] theorem setConsole_toSupervisor (c : Console) : (s.setConsole st c).toSupervisor = s.toSupervisor := rfl
@[simp] theorem setConsole_toServer (c : Console) : (s.setConsole st c).toServer = s.toServer := rfl
@[simp] theorem setConsole_lastServed (c : Console) : (s.setConsole st c).lastServed = s.lastServed := rfl
@[simp] theorem setConsole_store (c : Console) : (s.setConsole st c).store = s.store := rfl
@[simp] theorem setConsole_powered (c : Console) : (s.setConsole st c).powered = s.powered := rfl
@[simp] theorem setConsole_resetAsserted (c : Console) : (s.setConsole st c).resetAsserted = s.resetAsserted := rfl
@[simp] theorem setConsole_restarting (c : Console) : (s.setConsole st c).restarting = s.restarting := rfl
@[simp] theorem setConsole_freeIx (c : Console) : (s.setConsole st c).freeIx = s.freeIx := rfl

/-! ### setSession -/

@[simp] theorem setSession_pending (r : Session) : (s.setSession st r).pending = s.pending := rfl
@[simp] theorem setSession_active (r : Session) : (s.setSession st r).active = s.active := rfl
@[simp] theorem setSession_staged (r : Session) : (s.setSession st r).staged = s.staged := rfl
@[simp] theorem setSession_stagedState (r : Session) : (s.setSession st r).stagedState = s.stagedState := rfl
@[simp] theorem setSession_generation (r : Session) : (s.setSession st r).generation = s.generation := rfl
@[simp] theorem setSession_cache (r : Session) : (s.setSession st r).cache = s.cache := rfl
@[simp] theorem setSession_journal (r : Session) : (s.setSession st r).journal = s.journal := rfl
@[simp] theorem setSession_upload (r : Session) : (s.setSession st r).upload = s.upload := rfl
@[simp] theorem setSession_day (r : Session) : (s.setSession st r).day = s.day := rfl
@[simp] theorem setSession_clock (r : Session) : (s.setSession st r).clock = s.clock := rfl
@[simp] theorem setSession_settings (r : Session) : (s.setSession st r).settings = s.settings := rfl
@[simp] theorem setSession_key (r : Session) : (s.setSession st r).key = s.key := rfl
@[simp] theorem setSession_slot (r : Session) : (s.setSession st r).slot = s.slot := rfl
@[simp] theorem setSession_ports (r : Session) : (s.setSession st r).ports = s.ports := rfl
@[simp] theorem setSession_consoles (r : Session) : (s.setSession st r).consoles = s.consoles := rfl
@[simp] theorem setSession_notice (r : Session) : (s.setSession st r).notice = s.notice := rfl
@[simp] theorem setSession_uplink (r : Session) : (s.setSession st r).uplink = s.uplink := rfl
@[simp] theorem setSession_supervisor (r : Session) : (s.setSession st r).supervisor = s.supervisor := rfl
@[simp] theorem setSession_toSupervisor (r : Session) : (s.setSession st r).toSupervisor = s.toSupervisor := rfl
@[simp] theorem setSession_toServer (r : Session) : (s.setSession st r).toServer = s.toServer := rfl
@[simp] theorem setSession_lastServed (r : Session) : (s.setSession st r).lastServed = s.lastServed := rfl
@[simp] theorem setSession_store (r : Session) : (s.setSession st r).store = s.store := rfl
@[simp] theorem setSession_powered (r : Session) : (s.setSession st r).powered = s.powered := rfl
@[simp] theorem setSession_resetAsserted (r : Session) : (s.setSession st r).resetAsserted = s.resetAsserted := rfl
@[simp] theorem setSession_restarting (r : Session) : (s.setSession st r).restarting = s.restarting := rfl
@[simp] theorem setSession_freeIx (r : Session) : (s.setSession st r).freeIx = s.freeIx := rfl

/-! ### setLine -/

@[simp] theorem setLine_pending (c : LineCtl) : (s.setLine l c).pending = s.pending := by cases l <;> rfl
@[simp] theorem setLine_active (c : LineCtl) : (s.setLine l c).active = s.active := by cases l <;> rfl
@[simp] theorem setLine_staged (c : LineCtl) : (s.setLine l c).staged = s.staged := by cases l <;> rfl
@[simp] theorem setLine_stagedState (c : LineCtl) : (s.setLine l c).stagedState = s.stagedState := by cases l <;> rfl
@[simp] theorem setLine_generation (c : LineCtl) : (s.setLine l c).generation = s.generation := by cases l <;> rfl
@[simp] theorem setLine_cache (c : LineCtl) : (s.setLine l c).cache = s.cache := by cases l <;> rfl
@[simp] theorem setLine_journal (c : LineCtl) : (s.setLine l c).journal = s.journal := by cases l <;> rfl
@[simp] theorem setLine_upload (c : LineCtl) : (s.setLine l c).upload = s.upload := by cases l <;> rfl
@[simp] theorem setLine_sessions (c : LineCtl) : (s.setLine l c).sessions = s.sessions := by cases l <;> rfl
@[simp] theorem setLine_day (c : LineCtl) : (s.setLine l c).day = s.day := by cases l <;> rfl
@[simp] theorem setLine_clock (c : LineCtl) : (s.setLine l c).clock = s.clock := by cases l <;> rfl
@[simp] theorem setLine_settings (c : LineCtl) : (s.setLine l c).settings = s.settings := by cases l <;> rfl
@[simp] theorem setLine_key (c : LineCtl) : (s.setLine l c).key = s.key := by cases l <;> rfl
@[simp] theorem setLine_slot (c : LineCtl) : (s.setLine l c).slot = s.slot := by cases l <;> rfl
@[simp] theorem setLine_ports (c : LineCtl) : (s.setLine l c).ports = s.ports := by cases l <;> rfl
@[simp] theorem setLine_consoles (c : LineCtl) : (s.setLine l c).consoles = s.consoles := by cases l <;> rfl
@[simp] theorem setLine_notice (c : LineCtl) : (s.setLine l c).notice = s.notice := by cases l <;> rfl
@[simp] theorem setLine_toSupervisor (c : LineCtl) : (s.setLine l c).toSupervisor = s.toSupervisor := by cases l <;> rfl
@[simp] theorem setLine_toServer (c : LineCtl) : (s.setLine l c).toServer = s.toServer := by cases l <;> rfl
@[simp] theorem setLine_lastServed (c : LineCtl) : (s.setLine l c).lastServed = s.lastServed := by cases l <;> rfl
@[simp] theorem setLine_store (c : LineCtl) : (s.setLine l c).store = s.store := by cases l <;> rfl
@[simp] theorem setLine_powered (c : LineCtl) : (s.setLine l c).powered = s.powered := by cases l <;> rfl
@[simp] theorem setLine_resetAsserted (c : LineCtl) : (s.setLine l c).resetAsserted = s.resetAsserted := by cases l <;> rfl
@[simp] theorem setLine_restarting (c : LineCtl) : (s.setLine l c).restarting = s.restarting := by cases l <;> rfl
@[simp] theorem setLine_freeIx (c : LineCtl) : (s.setLine l c).freeIx = s.freeIx := by cases l <;> rfl

/-! ### setBank -/

@[simp] theorem setBank_pending (b : Bank) : (s.setBank n b).pending = s.pending := by cases n <;> rfl
@[simp] theorem setBank_stagedState (b : Bank) : (s.setBank n b).stagedState = s.stagedState := by cases n <;> rfl
@[simp] theorem setBank_generation (b : Bank) : (s.setBank n b).generation = s.generation := by cases n <;> rfl
@[simp] theorem setBank_cache (b : Bank) : (s.setBank n b).cache = s.cache := by cases n <;> rfl
@[simp] theorem setBank_journal (b : Bank) : (s.setBank n b).journal = s.journal := by cases n <;> rfl
@[simp] theorem setBank_upload (b : Bank) : (s.setBank n b).upload = s.upload := by cases n <;> rfl
@[simp] theorem setBank_sessions (b : Bank) : (s.setBank n b).sessions = s.sessions := by cases n <;> rfl
@[simp] theorem setBank_day (b : Bank) : (s.setBank n b).day = s.day := by cases n <;> rfl
@[simp] theorem setBank_clock (b : Bank) : (s.setBank n b).clock = s.clock := by cases n <;> rfl
@[simp] theorem setBank_settings (b : Bank) : (s.setBank n b).settings = s.settings := by cases n <;> rfl
@[simp] theorem setBank_key (b : Bank) : (s.setBank n b).key = s.key := by cases n <;> rfl
@[simp] theorem setBank_slot (b : Bank) : (s.setBank n b).slot = s.slot := by cases n <;> rfl
@[simp] theorem setBank_ports (b : Bank) : (s.setBank n b).ports = s.ports := by cases n <;> rfl
@[simp] theorem setBank_consoles (b : Bank) : (s.setBank n b).consoles = s.consoles := by cases n <;> rfl
@[simp] theorem setBank_notice (b : Bank) : (s.setBank n b).notice = s.notice := by cases n <;> rfl
@[simp] theorem setBank_uplink (b : Bank) : (s.setBank n b).uplink = s.uplink := by cases n <;> rfl
@[simp] theorem setBank_supervisor (b : Bank) : (s.setBank n b).supervisor = s.supervisor := by cases n <;> rfl
@[simp] theorem setBank_toSupervisor (b : Bank) : (s.setBank n b).toSupervisor = s.toSupervisor := by cases n <;> rfl
@[simp] theorem setBank_toServer (b : Bank) : (s.setBank n b).toServer = s.toServer := by cases n <;> rfl
@[simp] theorem setBank_lastServed (b : Bank) : (s.setBank n b).lastServed = s.lastServed := by cases n <;> rfl
@[simp] theorem setBank_store (b : Bank) : (s.setBank n b).store = s.store := by cases n <;> rfl
@[simp] theorem setBank_powered (b : Bank) : (s.setBank n b).powered = s.powered := by cases n <;> rfl
@[simp] theorem setBank_resetAsserted (b : Bank) : (s.setBank n b).resetAsserted = s.resetAsserted := by cases n <;> rfl
@[simp] theorem setBank_restarting (b : Bank) : (s.setBank n b).restarting = s.restarting := by cases n <;> rfl
@[simp] theorem setBank_freeIx (b : Bank) : (s.setBank n b).freeIx = s.freeIx := by cases n <;> rfl

/-! ### withPending, useFree, settle -/

@[simp] theorem withPending_active (q : List Instr) : (s.withPending q).active = s.active := rfl
@[simp] theorem withPending_staged (q : List Instr) : (s.withPending q).staged = s.staged := rfl
@[simp] theorem withPending_stagedState (q : List Instr) : (s.withPending q).stagedState = s.stagedState := rfl
@[simp] theorem withPending_generation (q : List Instr) : (s.withPending q).generation = s.generation := rfl
@[simp] theorem withPending_cache (q : List Instr) : (s.withPending q).cache = s.cache := rfl
@[simp] theorem withPending_journal (q : List Instr) : (s.withPending q).journal = s.journal := rfl
@[simp] theorem withPending_upload (q : List Instr) : (s.withPending q).upload = s.upload := rfl
@[simp] theorem withPending_sessions (q : List Instr) : (s.withPending q).sessions = s.sessions := rfl
@[simp] theorem withPending_day (q : List Instr) : (s.withPending q).day = s.day := rfl
@[simp] theorem withPending_clock (q : List Instr) : (s.withPending q).clock = s.clock := rfl
@[simp] theorem withPending_settings (q : List Instr) : (s.withPending q).settings = s.settings := rfl
@[simp] theorem withPending_key (q : List Instr) : (s.withPending q).key = s.key := rfl
@[simp] theorem withPending_slot (q : List Instr) : (s.withPending q).slot = s.slot := rfl
@[simp] theorem withPending_ports (q : List Instr) : (s.withPending q).ports = s.ports := rfl
@[simp] theorem withPending_consoles (q : List Instr) : (s.withPending q).consoles = s.consoles := rfl
@[simp] theorem withPending_notice (q : List Instr) : (s.withPending q).notice = s.notice := rfl
@[simp] theorem withPending_uplink (q : List Instr) : (s.withPending q).uplink = s.uplink := rfl
@[simp] theorem withPending_supervisor (q : List Instr) : (s.withPending q).supervisor = s.supervisor := rfl
@[simp] theorem withPending_toSupervisor (q : List Instr) : (s.withPending q).toSupervisor = s.toSupervisor := rfl
@[simp] theorem withPending_toServer (q : List Instr) : (s.withPending q).toServer = s.toServer := rfl
@[simp] theorem withPending_lastServed (q : List Instr) : (s.withPending q).lastServed = s.lastServed := rfl
@[simp] theorem withPending_store (q : List Instr) : (s.withPending q).store = s.store := rfl
@[simp] theorem withPending_powered (q : List Instr) : (s.withPending q).powered = s.powered := rfl
@[simp] theorem withPending_resetAsserted (q : List Instr) : (s.withPending q).resetAsserted = s.resetAsserted := rfl
@[simp] theorem withPending_restarting (q : List Instr) : (s.withPending q).restarting = s.restarting := rfl
@[simp] theorem withPending_freeIx (q : List Instr) : (s.withPending q).freeIx = s.freeIx := rfl
@[simp] theorem useFree_pending : s.useFree.pending = s.pending := rfl
@[simp] theorem useFree_active : s.useFree.active = s.active := rfl
@[simp] theorem useFree_staged : s.useFree.staged = s.staged := rfl
@[simp] theorem useFree_stagedState : s.useFree.stagedState = s.stagedState := rfl
@[simp] theorem useFree_generation : s.useFree.generation = s.generation := rfl
@[simp] theorem useFree_cache : s.useFree.cache = s.cache := rfl
@[simp] theorem useFree_journal : s.useFree.journal = s.journal := rfl
@[simp] theorem useFree_upload : s.useFree.upload = s.upload := rfl
@[simp] theorem useFree_sessions : s.useFree.sessions = s.sessions := rfl
@[simp] theorem useFree_day : s.useFree.day = s.day := rfl
@[simp] theorem useFree_clock : s.useFree.clock = s.clock := rfl
@[simp] theorem useFree_settings : s.useFree.settings = s.settings := rfl
@[simp] theorem useFree_key : s.useFree.key = s.key := rfl
@[simp] theorem useFree_slot : s.useFree.slot = s.slot := rfl
@[simp] theorem useFree_ports : s.useFree.ports = s.ports := rfl
@[simp] theorem useFree_consoles : s.useFree.consoles = s.consoles := rfl
@[simp] theorem useFree_notice : s.useFree.notice = s.notice := rfl
@[simp] theorem useFree_uplink : s.useFree.uplink = s.uplink := rfl
@[simp] theorem useFree_supervisor : s.useFree.supervisor = s.supervisor := rfl
@[simp] theorem useFree_toSupervisor : s.useFree.toSupervisor = s.toSupervisor := rfl
@[simp] theorem useFree_toServer : s.useFree.toServer = s.toServer := rfl
@[simp] theorem useFree_lastServed : s.useFree.lastServed = s.lastServed := rfl
@[simp] theorem useFree_store : s.useFree.store = s.store := rfl
@[simp] theorem useFree_powered : s.useFree.powered = s.powered := rfl
@[simp] theorem useFree_resetAsserted : s.useFree.resetAsserted = s.resetAsserted := rfl
@[simp] theorem useFree_restarting : s.useFree.restarting = s.restarting := rfl
@[simp] theorem settle_pending (s0 : State) : (settle s0 s).pending = s.pending := rfl
@[simp] theorem settle_active (s0 : State) : (settle s0 s).active = s.active := rfl
@[simp] theorem settle_staged (s0 : State) : (settle s0 s).staged = s.staged := rfl
@[simp] theorem settle_stagedState (s0 : State) : (settle s0 s).stagedState = s.stagedState := rfl
@[simp] theorem settle_generation (s0 : State) : (settle s0 s).generation = s.generation := rfl
@[simp] theorem settle_cache (s0 : State) : (settle s0 s).cache = s.cache := rfl
@[simp] theorem settle_journal (s0 : State) : (settle s0 s).journal = s.journal := rfl
@[simp] theorem settle_upload (s0 : State) : (settle s0 s).upload = s.upload := rfl
@[simp] theorem settle_sessions (s0 : State) : (settle s0 s).sessions = s.sessions := rfl
@[simp] theorem settle_day (s0 : State) : (settle s0 s).day = s.day := rfl
@[simp] theorem settle_clock (s0 : State) : (settle s0 s).clock = s.clock := rfl
@[simp] theorem settle_settings (s0 : State) : (settle s0 s).settings = s.settings := rfl
@[simp] theorem settle_key (s0 : State) : (settle s0 s).key = s.key := rfl
@[simp] theorem settle_slot (s0 : State) : (settle s0 s).slot = s.slot := rfl
@[simp] theorem settle_ports (s0 : State) : (settle s0 s).ports = s.ports := rfl
@[simp] theorem settle_consoles (s0 : State) : (settle s0 s).consoles = s.consoles := rfl
@[simp] theorem settle_notice (s0 : State) : (settle s0 s).notice = s.notice := rfl
@[simp] theorem settle_toSupervisor (s0 : State) : (settle s0 s).toSupervisor = s.toSupervisor := rfl
@[simp] theorem settle_toServer (s0 : State) : (settle s0 s).toServer = s.toServer := rfl
@[simp] theorem settle_lastServed (s0 : State) : (settle s0 s).lastServed = s.lastServed := rfl
@[simp] theorem settle_store (s0 : State) : (settle s0 s).store = s.store := rfl
@[simp] theorem settle_powered (s0 : State) : (settle s0 s).powered = s.powered := rfl
@[simp] theorem settle_resetAsserted (s0 : State) : (settle s0 s).resetAsserted = s.resetAsserted := rfl
@[simp] theorem settle_restarting (s0 : State) : (settle s0 s).restarting = s.restarting := rfl
@[simp] theorem settle_freeIx (s0 : State) : (settle s0 s).freeIx = s.freeIx := rfl

@[simp] theorem withPending_pending (q : List Instr) : (s.withPending q).pending = q := rfl
@[simp] theorem useFree_freeIx : s.useFree.freeIx = s.freeIx + 1 := rfl
@[simp] theorem settle_uplink (s0 : State) : (settle s0 s).uplink = settleLine s0 s s0.uplink s.uplink := rfl
@[simp] theorem settle_supervisor (s0 : State) :
    (settle s0 s).supervisor = settleLine s0 s s0.supervisor s.supervisor := rfl

/-! ### Accessors -/

@[simp] theorem port_setPort (p : Port) : (s.setPort st p).port st = p := by simp [State.port, State.setPort]

@[simp] theorem port_setPort_of_ne {p : Port} (h : o ≠ st) : (s.setPort st p).port o = s.port o := by
  have : st.val ≠ o.val := fun e => h (Fin.ext e.symm)
  simp [State.port, State.setPort, this]

@[simp] theorem console_setConsole (c : Console) : (s.setConsole st c).console st = c := by
  simp [State.console, State.setConsole]

@[simp] theorem console_setConsole_of_ne {c : Console} (h : o ≠ st) :
    (s.setConsole st c).console o = s.console o := by
  have : st.val ≠ o.val := fun e => h (Fin.ext e.symm)
  simp [State.console, State.setConsole, this]

@[simp] theorem session_setSession (r : Session) : (s.setSession st r).session st = r := by
  simp [State.session, State.setSession]

@[simp] theorem session_setSession_of_ne {r : Session} (h : o ≠ st) :
    (s.setSession st r).session o = s.session o := by
  have : st.val ≠ o.val := fun e => h (Fin.ext e.symm)
  simp [State.session, State.setSession, this]

@[simp] theorem port_setConsole (c : Console) : (s.setConsole st c).port o = s.port o := rfl
@[simp] theorem port_setSession (r : Session) : (s.setSession st r).port o = s.port o := rfl
@[simp] theorem console_setPort (p : Port) : (s.setPort st p).console o = s.console o := rfl
@[simp] theorem console_setSession (r : Session) : (s.setSession st r).console o = s.console o := rfl
@[simp] theorem session_setPort (p : Port) : (s.setPort st p).session o = s.session o := rfl
@[simp] theorem session_setConsole (c : Console) : (s.setConsole st c).session o = s.session o := rfl
@[simp] theorem port_setLine (c : LineCtl) : (s.setLine l c).port o = s.port o := by cases l <;> rfl
@[simp] theorem console_setLine (c : LineCtl) : (s.setLine l c).console o = s.console o := by cases l <;> rfl
@[simp] theorem session_setLine (c : LineCtl) : (s.setLine l c).session o = s.session o := by cases l <;> rfl
@[simp] theorem port_settle (s0 : State) : (settle s0 s).port o = s.port o := rfl
@[simp] theorem console_settle (s0 : State) : (settle s0 s).console o = s.console o := rfl
@[simp] theorem session_settle (s0 : State) : (settle s0 s).session o = s.session o := rfl

@[simp] theorem line_setLine (c : LineCtl) : (s.setLine l c).line l = c := by cases l <;> rfl
@[simp] theorem line_setLine_other (c : LineCtl) : (s.setLine l c).line (Line.other l) = s.line (Line.other l) := by
  cases l <;> rfl
@[simp] theorem line_setPort (p : Port) : (s.setPort st p).line l = s.line l := by cases l <;> rfl
@[simp] theorem line_setConsole (c : Console) : (s.setConsole st c).line l = s.line l := by cases l <;> rfl
@[simp] theorem line_setSession (r : Session) : (s.setSession st r).line l = s.line l := by cases l <;> rfl
@[simp] theorem line_setBank (b : Bank) : (s.setBank n b).line l = s.line l := by cases l <;> cases n <;> rfl
@[simp] theorem setLine_setLine (c d : LineCtl) : (s.setLine l c).setLine l d = s.setLine l d := by cases l <;> rfl
@[simp] theorem setLine_line : s.setLine l (s.line l) = s := by cases l <;> rfl

@[simp] theorem bank_setBank (b : Bank) : (s.setBank n b).bank n = b := by cases n <;> rfl
@[simp] theorem bank_setLine (c : LineCtl) : (s.setLine l c).bank n = s.bank n := by cases l <;> cases n <;> rfl
@[simp] theorem bank_setPort (p : Port) : (s.setPort st p).bank n = s.bank n := by cases n <;> rfl
@[simp] theorem bank_setSession (r : Session) : (s.setSession st r).bank n = s.bank n := by cases n <;> rfl
@[simp] theorem bank_settle (s0 : State) : (settle s0 s).bank n = s.bank n := by cases n <;> rfl

end Sys2Proof.Machine
end

