-- ==== Sys2Proof/Laws/Events.lean ====
section
/-! SUPPORT. What each shape of event answers: said once here, cited by the proofs about single commands. -/

namespace Sys2Proof.Machine

variable {s s0 s1 : State}

/-! ### Shapes of events -/

theorem partEvent_running {f : State → State} (h : s.running = true) :
    partEvent f s = .next (settle s (f s)) := by simp [partEvent, h]

theorem partEvent_stopped {f : State → State} (h : s.running = false) : partEvent f s = .next s := by
  simp [partEvent, h]

theorem guardedEvent_taken {g : State → Bool} {f : State → State} (h : s.running = true) (hg : g s = true) :
    guardedEvent g f s = .next (settle s (f s)) := by simp [guardedEvent, partEvent, h, hg]

theorem decision_taken {takes : State → Input → Bool} {body : Station → Input → Bool → State → State} {st : Station}
    {i : Input} (h : s.takesNext st i) (ht : takes s i = true) :
    decision takes body s = .next (settle s (body st i (s.console st).wiped (takeInput st s))) := by
  simp [decision, partEvent, h.1, h.2, ht]

theorem keyDecision_taken {k : KeyCode} {body : Station → Bool → State → State} {st : Station}
    (h : s.takesNext st (.key k)) :
    keyDecision k body s = .next (settle s (body st (s.console st).wiped (takeInput st s))) := by
  simp [keyDecision, decision, partEvent, h.1, h.2]

theorem stationEvent_enabled {f : State → State} {st : Station} (h : s.running = true)
    (he : s.settings.enableMask[st] = true) :
    stationEvent st f s = .next (settle s (f (s.setPort st { s.port st with receiver := .looking }))) := by
  simp [stationEvent, partEvent, h, he]

theorem lineEvent_taken {f : State → State} {l : Line} (h : s.running = true) (hr : s.restarting = none) :
    lineEvent l f s = .next (settle s (f (goodLineFrame l s))) := by
  simp [lineEvent, guardedEvent, partEvent, h, hr]

/-! ### The tests of a request -/

@[simp] theorem line_goodLineFrame_self (l : Line) :
    (goodLineFrame l s).line l =
      { s.line l with
        receiver := .looking
        liveness := if (s.line l).state = .down then (s.line l).liveness else some 0 } := by
  simp [goodLineFrame]

@[simp] theorem key_goodLineFrame (l : Line) : (goodLineFrame l s).key = s.key := by simp [goodLineFrame]

@[simp] theorem line_clearLastError_self (l : Line) :
    (clearLastError l s).line l = { s.line l with lastError := none } := by simp [clearLastError]

@[simp] theorem key_clearLastError (l : Line) : (clearLastError l s).key = s.key := by simp [clearLastError]

@[simp] theorem owner_goodLineFrame (l : Line) : (goodLineFrame l s).owner = s.owner := by
  cases l <;> rfl

@[simp] theorem owner_clearLastError (l : Line) : (clearLastError l s).owner = s.owner := by
  cases l <;> rfl

theorem gate_received {q : Req} {name : ReqName} {owner malformed : Bool} :
    gate q name owner malformed (received q name s) = gate q name owner malformed s := by
  unfold received
  split <;> simp [gate, State.locked]

/-- The gate lets an unlocked line's request through; an owner-only one needs the owner's line. -/
theorem gate_open {q : Req} {name : ReqName} {owner : Bool} (h : (s.line q.line).state = .active)
    (hl : name.isBasic = true ∨ s.locked q.line = false) (ho : owner = true → s.owner = q.line) :
    gate q name owner false s = none := by
  cases owner <;> rcases hl with hl | hl <;> simp_all [gate]

theorem requestEvent_taken {α : Type} {q : Req} {name : ReqName} {owner : α → Bool} {p : α}
    {rule : α → State → State} (h : s.running = true) (hr : s.restarting = none)
    (hg : gate q name (owner p) false s = none) :
    requestEvent q name owner (.shaped p) rule s = .next (settle s (rule p (received q name s))) := by
  have : gate q name (owner p) false (received q name s) = none := by rw [gate_received]; exact hg
  rw [requestEvent, lineEvent_taken h hr]
  simp only [received] at this ⊢
  split <;> simp_all

theorem requestEvent_turnedAway {α : Type} {q : Req} {name : ReqName} {owner : α → Bool} {p : α} {st : Status}
    {rule : α → State → State} (h : s.running = true) (hr : s.restarting = none)
    (hg : gate q name (owner p) false s = some st) :
    requestEvent q name owner (.shaped p) rule s = .next (answered q name (Reply.bare st) s (received q name s)) := by
  have : gate q name (owner p) false (received q name s) = some st := by rw [gate_received]; exact hg
  rw [requestEvent, lineEvent_taken h hr]
  simp only [received, answered, answer] at this ⊢
  split <;> simp_all

theorem request_taken {α : Type} {q : Req} {name : ReqName} {owner : Bool} {p : α}
    {rule : α → State → State × Reply} (h : s.running = true) (hr : s.restarting = none)
    (hg : gate q name owner false s = none) :
    request q name owner (.shaped p) rule s =
      .next (answered q name (rule p (received q name s)).2 s (rule p (received q name s)).1) := by
  rw [request, requestEvent_taken h hr hg]
  rfl

theorem readRequest_taken {α : Type} {q : Req} {name : ReqName} {p : α} {reply : α → State → Reply}
    (h : s.running = true) (hr : s.restarting = none) (hg : gate q name false false s = none) :
    readRequest q name (.shaped p) reply s =
      .next (answered q name (reply p (received q name s)) s (received q name s)) := by
  rw [readRequest, request_taken h hr hg]

theorem tableRequest_taken {α : Type} {q : Req} {name : ReqName} {p : α} {bank : α → BankName}
    {borrower item : α → Option Number} {rule : α → Bank → WriteResult} {b : Bank} {r : Reply}
    (h : s.admitsWrite q.line (bank p)) (hb : rule p (s.bank (bank p)) = .ok (b, r)) :
    tableRequest q name (.shaped p) bank borrower item rule s =
      .next (written q name (bank p) (borrower p) (item p) r b s) := by
  obtain ⟨⟨⟨⟨hr, hs, ha⟩, hl⟩, ho⟩, hk, hst⟩ := h
  rw [tableRequest, request_taken hr hs (gate_open ha (.inr hl) fun _ => ho)]
  have hbank : (received q name s).bank (bank p) = s.bank (bank p) := by
    unfold received
    split <;> simp [goodLineFrame, clearLastError]
  have hslot : (received q name s).slot = none := by
    unfold received
    split <;> simp [goodLineFrame, clearLastError, hk]
  have hstaged : (received q name s).stagedState = s.stagedState := by
    unfold received
    split <;> simp [goodLineFrame, clearLastError]
  have hbar : writeBar (bank p) (received q name s) = none := by
    simp only [writeBar, hslot, hstaged]
    cases hbk : bank p <;> simp_all
  simp [writeTable, hbar, hbank, hb, written]

/-! ### The end of an event -/

/-- An event that changes no condition of a level cause and no set of causes ends where it stands. -/
theorem settle_quiet (hh : s1.clockHeld = s0.clockHeld) (hf : s1.journalFull = s0.journalFull)
    (hj : s1.journalHigh = s0.journalHigh) (hu : s1.uplink.pendingSet = s0.uplink.pendingSet)
    (hue : s1.uplink.enableSet = s0.uplink.enableSet) (hs : s1.supervisor.pendingSet = s0.supervisor.pendingSet)
    (hse : s1.supervisor.enableSet = s0.supervisor.enableSet) : settle s0 s1 = s1 := by
  have quiet : ∀ before after : LineCtl, after.pendingSet = before.pendingSet →
      after.enableSet = before.enableSet → settleLine s0 s1 before after = after := by
    intro before after hp he
    have hl : followLevels s0 s1 after.pendingSet = after.pendingSet := by
      simp [followLevels, followLevel, hh, hf, hj]
    have hr : ∀ k, LineCtl.reports after k = LineCtl.reports before k := by
      intro k; simp [LineCtl.reports, hp, he]
    simp only [settleLine, hl]
    have hev : eventFrames before after s1.clock = [] := by
      simp [eventFrames, hr]
    simp [hev]
  simp [settle, quiet _ _ hu hue, quiet _ _ hs hse]

/-- The end of an event touches the lines' pending sets and send lists alone. -/
theorem settle_frame (s0 s1 : State) :
    settle s0 s1 =
      { s1 with
        uplink := { s1.uplink with
          pendingSet := (settle s0 s1).uplink.pendingSet, sendList := (settle s0 s1).uplink.sendList }
        supervisor := { s1.supervisor with
          pendingSet := (settle s0 s1).supervisor.pendingSet
          sendList := (settle s0 s1).supervisor.sendList } } := rfl

end Sys2Proof.Machine
end

