-- ==== Sys2Proof/Laws/Ops.lean ====
section
/-! SUPPORT. What each shared operation can change, said once: the displays and sounders, the causes, the send lists, the
journal's appends, the tables' insertions, the scheduled opening. -/

namespace Sys2Proof.Machine

variable (s : State)

/-! ### Stations -/

theorem sound_frame (st : Station) (g : Signal) :
    sound st g s = { s with ports := (sound st g s).ports } := by
  unfold sound; split <;> rfl

theorem showLines_frame (st : Station) (a b : Text) :
    showLines st a b s =
      { s with ports := (showLines st a b s).ports, consoles := (showLines st a b s).consoles } := by
  unfold showLines; split <;> rfl

theorem showText_frame (st : Station) (i : Fin 32) :
    showText st i s =
      { s with ports := (showText st i s).ports, consoles := (showText st i s).consoles } :=
  showLines_frame s st _ _

theorem showStanding_frame (st : Station) :
    showStanding st s =
      { s with ports := (showStanding st s).ports, consoles := (showStanding st s).consoles } := by
  unfold showStanding
  split
  · exact showText_frame s st _
  · rfl

theorem showUnwiped_frame (st : Station) (w : Bool) :
    showUnwiped st w s =
      { s with ports := (showUnwiped st w s).ports, consoles := (showUnwiped st w s).consoles } := by
  unfold showUnwiped
  split
  · exact showStanding_frame s st
  · rfl

theorem showIfLost_frame (st : Station) (lost : Bool) :
    showIfLost st lost s =
      { s with ports := (showIfLost st lost s).ports, consoles := (showIfLost st lost s).consoles } := by
  unfold showIfLost
  split
  · exact showLines_frame s st _ _
  · rfl

/-- A run of display changes is a display change. -/
theorem foldl_display_frame (f : State → Station → State)
    (h : ∀ s st, f s st = { s with ports := (f s st).ports, consoles := (f s st).consoles }) (l : List Station) :
    ∀ s : State, l.foldl f s = { s with ports := (l.foldl f s).ports, consoles := (l.foldl f s).consoles } := by
  induction l with
  | nil => intro s; rfl
  | cons a l ih =>
    intro s
    simp only [List.foldl_cons]
    have h1 := ih (f s a)
    have h2 := h s a
    generalize l.foldl f (f s a) = t at h1 ⊢
    rw [h1, h2]

theorem showStandingAll_frame :
    showStandingAll s =
      { s with ports := (showStandingAll s).ports, consoles := (showStandingAll s).consoles } :=
  foldl_display_frame _ (fun s st => showStanding_frame s st) _ s

theorem takeInput_frame (st : Station) :
    takeInput st s =
      { s with
        ports := s.ports.set st { s.port st with slots := (s.port st).slots.drop 1 }
        consoles := s.consoles.set st { s.console st with wiped := false }
        sessions := (takeInput st s).sessions, lastServed := st } := by
  unfold takeInput; split <;> rfl

/-! ### Causes and send lists -/

theorem raise_frame (c : Cause) (l : Line) :
    raise c l s = s.setLine l { s.line l with pendingSet := (s.line l).pendingSet.put true c } := rfl

@[simp] theorem has_put (p : CauseSet) (v : Bool) (c : Cause) : (p.put v c).has c = v := by cases c <;> rfl

theorem has_put_of_ne (p : CauseSet) (v : Bool) {c k : Cause} (h : k ≠ c) : (p.put v c).has k = p.has k := by
  cases c <;> cases k <;> first | rfl | exact absurd rfl h

theorem sendReply_line (q : Req) (name : ReqName) (r : Reply) :
    (sendReply q name r s).line q.line =
      { s.line q.line with
        sendList := (s.line q.line).sendList ++ [.reply q.tag r]
        lastError := if r.status.isRefusal then some (r.status, name) else (s.line q.line).lastError } := by
  simp [sendReply]

/-! ### The journal -/

theorem append_journal (d : Record) :
    (append d s).journal =
      { s.journal with
        records := s.journal.records ++ [s.fillRecord d], nextSeq := s.journal.nextSeq + 1, overflow := false } := rfl

theorem append_frame (d : Record) :
    append d s = { s with journal := (append d s).journal, active := raisePending d s.active } := rfl

theorem appendSystem_room {d : Record} (h : 1 ≤ s.journal.free) : appendSystem d s = append d s := by
  simp [appendSystem, h]

theorem appendSystem_full {d : Record} (h : s.journal.free = 0) :
    appendSystem d s = { s with journal := { s.journal with overflow := true } } := by
  simp [appendSystem, h]

theorem appendAboveReserve_room {d : Record} (h : reserveSlots < s.journal.free) :
    appendAboveReserve d s = append d s := by simp [appendAboveReserve, h]

theorem appendAboveReserve_none {d : Record} (h : s.journal.free ≤ reserveSlots) : appendAboveReserve d s = s := by
  simp [appendAboveReserve, Nat.not_lt.mpr h]

theorem raisePending_number (d : Record) (b : Bank) :
    (raisePending d b).borrowers.map Borrower.number = b.borrowers.map Borrower.number := by
  unfold raisePending
  split
  · rfl
  · simp only [Bank.mapBorrower, List.map_map]
    refine List.map_congr_left fun e _ => ?_
    simp only [Function.comp]
    split <;> rfl

/-! ### Tables -/

theorem mapBorrower_number (b : Bank) (n : Number) (f : Borrower → Borrower) (h : ∀ e, (f e).number = e.number) :
    (b.mapBorrower n f).borrowers.map Borrower.number = b.borrowers.map Borrower.number := by
  simp only [Bank.mapBorrower, List.map_map]
  refine List.map_congr_left fun e _ => ?_
  simp only [Function.comp]
  split
  · exact h e
  · rfl

theorem insertBy_length {α : Type} (lt : α → α → Bool) (e : α) (l : List α) :
    (insertBy lt e l).length = l.length + 1 := by
  induction l with
  | nil => rfl
  | cons x xs ih =>
    unfold insertBy
    split <;> simp_all

theorem mem_insertBy {α : Type} (lt : α → α → Bool) (e x : α) (l : List α) :
    x ∈ insertBy lt e l ↔ x = e ∨ x ∈ l := by
  induction l with
  | nil => simp [insertBy]
  | cons y ys ih =>
    unfold insertBy
    split
    · simp
    · simp only [List.mem_cons, ih]
      tauto

theorem clamp_le {lo hi v : Nat} (h : lo ≤ hi) : clamp lo hi v ≤ hi := by
  unfold clamp
  split
  · exact h
  · split <;> omega

theorem le_clamp {lo hi v : Nat} (h : lo ≤ hi) : lo ≤ clamp lo hi v := by
  unfold clamp
  split
  · exact le_refl _
  · split <;> omega

theorem clamp_inside {lo hi v : Nat} (h : clamps lo hi v = false) : clamp lo hi v = v := by
  have h' : ¬ v < lo ∧ ¬ hi < v := by simpa [clamps, not_or] using h
  simp [clamp, h'.1, h'.2]

/-! ### The scheduled opening -/

theorem autoOpenTest_frame : autoOpenTest s = { s with slot := (autoOpenTest s).slot } := by
  unfold autoOpenTest; split <;> rfl

theorem autoOpenTest_open (h : s.day.state ≠ .closed) : autoOpenTest s = s := by
  simp [autoOpenTest, State.mayAutoOpen, h]

theorem closeIfDone_still (h : s.day.state ≠ .closing) : closeIfDone s = s := by simp [closeIfDone, h]

end Sys2Proof.Machine
end

