-- ==== Sys2Proof/Laws/PerInstr.lean ====
section
/-! SUPPORT. Statements for all commands, made per command. -/

namespace Sys2Proof.Laws.TableWriteNamed

open Sys2Proof.Machine

set_option Elab.async false

/-- A TABLE-class write goes by a name of the code table that is not BASIC, so it needs an unlocked line (R179). -/
def Statement (i : Instr) : Prop :=
  ∀ q name bank, tableWriteOf i = some (q, name, bank) → name.isBasic = false ∧ codeKnown name.code = true

theorem ofNone {i : Instr} (h : tableWriteOf i = none) : Statement i := by
  intro _ _ _ e
  rw [h] at e
  cases e

theorem ofSome {i : Instr} {q : Req} {n : ReqName} {b : BankName} (h : tableWriteOf i = some (q, n, b))
    (hn : n.isBasic = false ∧ codeKnown n.code = true) : Statement i := by
  intro _ _ _ e
  rw [h] at e
  cases e
  exact hn

theorem heartbeat (st : Station) (content : List Byte) : Statement (.heartbeat st content) := ofNone rfl
theorem scanFrame (st : Station) (content : List Byte) : Statement (.scanFrame st content) := ofNone rfl
theorem keyFrame (st : Station) (content : List Byte) : Statement (.keyFrame st content) := ofNone rfl
theorem stationFrameGap (st : Station) (next : Byte) : Statement (.stationFrameGap st next) := ofNone rfl
theorem stationTransmit (st : Station) : Statement (.stationTransmit st) := ofNone rfl
theorem borrowerScan : Statement (.borrowerScan) := ofNone rfl
theorem itemScan : Statement (.itemScan) := ofNone rfl
theorem staffScan : Statement (.staffScan) := ofNone rfl
theorem endKey : Statement (.endKey) := ofNone rfl
theorem cancelKey : Statement (.cancelKey) := ofNone rfl
theorem returnKey : Statement (.returnKey) := ofNone rfl
theorem checkoutKey : Statement (.checkoutKey) := ofNone rfl
theorem reprintKey : Statement (.reprintKey) := ofNone rfl
theorem idleTimeout (st : Station) : Statement (.idleTimeout st) := ofNone rfl
theorem armLapse (st : Station) : Statement (.armLapse st) := ofNone rfl
theorem heartbeatWatchExpiry (st : Station) : Statement (.heartbeatWatchExpiry st) := ofNone rfl
theorem slipSend (st : Station) : Statement (.slipSend st) := ofNone rfl
theorem graceExpiry : Statement (.graceExpiry) := ofNone rfl
theorem graceSessionClose (st : Station) : Statement (.graceSessionClose st) := ofNone rfl
theorem clockTick : Statement (.clockTick) := ofNone rfl
theorem autoOpen : Statement (.autoOpen) := ofNone rfl
theorem sweepStep : Statement (.sweepStep) := ofNone rfl
theorem openEnd : Statement (.openEnd) := ofNone rfl
theorem stageBeginEnd : Statement (.stageBeginEnd) := ofNone rfl
theorem commitChangeover : Statement (.commitChangeover) := ofNone rfl
theorem scrubBlock : Statement (.scrubBlock) := ofNone rfl
theorem recordSend : Statement (.recordSend) := ofNone rfl
theorem lineFrameGap (l : Line) (next : Byte) : Statement (.lineFrameGap l next) := ofNone rfl
theorem lineTransmit (l : Line) : Statement (.lineTransmit l) := ofNone rfl
theorem livenessExpiry (l : Line) : Statement (.livenessExpiry l) := ofNone rfl
theorem passDown (station : Nat) (body : List Byte) : Statement (.passDown station body) := ofNone rfl
theorem hello (q : Req) (c : Content HelloParams) : Statement (.hello q c) := ofNone rfl
theorem nop (q : Req) (c : Content Unit) : Statement (.nop q c) := ofNone rfl
theorem status (q : Req) (c : Content Unit) : Statement (.status q c) := ofNone rfl
theorem unlock (q : Req) (c : Content Key) : Statement (.unlock q c) := ofNone rfl
theorem wipe (q : Req) (c : Content Unit) : Statement (.wipe q c) := ofNone rfl
theorem ackAttention (q : Req) (c : Content (Named CauseSet)) : Statement (.ackAttention q c) := ofNone rfl
theorem setAttentionMask (q : Req) (c : Content (Named CauseSet)) : Statement (.setAttentionMask q c) := ofNone rfl
theorem readNote (q : Req) (c : Content ReadNoteTarget) : Statement (.readNote q c) := ofNone rfl
theorem readBorrower (q : Req) (c : Content BankRead) : Statement (.readBorrower q c) := ofNone rfl
theorem readItem (q : Req) (c : Content BankRead) : Statement (.readItem q c) := ofNone rfl
theorem readOlc (q : Req) (c : Content CacheRead) : Statement (.readOlc q c) := ofNone rfl
theorem readRules (q : Req) (c : Content RulesRead) : Statement (.readRules q c) := ofNone rfl
theorem readCalendar (q : Req) (c : Content CalendarRead) : Statement (.readCalendar q c) := ofNone rfl
theorem readTemplate (q : Req) (c : Content TemplateRead) : Statement (.readTemplate q c) := ofNone rfl
theorem readSettings (q : Req) (c : Content Unit) : Statement (.readSettings q c) := ofNone rfl
theorem putBorrower (q : Req) (c : Content PutBorrowerParams) : Statement (.putBorrower q c) := by
  cases c with
  | malformed => exact ofNone rfl
  | shaped p => exact ofSome rfl (by decide)
theorem delBorrower (q : Req) (c : Content BankNumber) : Statement (.delBorrower q c) := by
  cases c with
  | malformed => exact ofNone rfl
  | shaped p => exact ofSome rfl (by decide)
theorem adjustBorrower (q : Req) (c : Content AdjustBorrowerParams) : Statement (.adjustBorrower q c) := by
  cases c with
  | malformed => exact ofNone rfl
  | shaped p => exact ofSome rfl (by decide)
theorem putItem (q : Req) (c : Content PutItemParams) : Statement (.putItem q c) := by
  cases c with
  | malformed => exact ofNone rfl
  | shaped p => exact ofSome rfl (by decide)
theorem delItem (q : Req) (c : Content BankNumber) : Statement (.delItem q c) := by
  cases c with
  | malformed => exact ofNone rfl
  | shaped p => exact ofSome rfl (by decide)
theorem addHold (q : Req) (c : Content AddHoldParams) : Statement (.addHold q c) := by
  cases c with
  | malformed => exact ofNone rfl
  | shaped p => exact ofSome rfl (by decide)
theorem cancelHold (q : Req) (c : Content CancelHoldParams) : Statement (.cancelHold q c) := by
  cases c with
  | malformed => exact ofNone rfl
  | shaped p => exact ofSome rfl (by decide)
theorem putPrefix (q : Req) (c : Content PutPrefixParams) : Statement (.putPrefix q c) := by
  cases c with
  | malformed => exact ofNone rfl
  | shaped p =>
    by_cases h : tableWriteOf (.putPrefix q (.shaped p)) = none
    · exact ofNone h
    · refine ofSome (q := q) (n := .putPrefix) (b := p.bank) ?_ (by decide)
      simp only [tableWriteOf] at h ⊢
      split at h
      · simp_all
      · exact absurd rfl h
theorem delPrefix (q : Req) (c : Content BankIndex) : Statement (.delPrefix q c) := by
  cases c with
  | malformed => exact ofNone rfl
  | shaped p => exact ofSome rfl (by decide)
theorem putStaff (q : Req) (c : Content PutStaffParams) : Statement (.putStaff q c) := by
  cases c with
  | malformed => exact ofNone rfl
  | shaped p => exact ofSome rfl (by decide)
theorem delStaff (q : Req) (c : Content BankNumber) : Statement (.delStaff q c) := by
  cases c with
  | malformed => exact ofNone rfl
  | shaped p => exact ofSome rfl (by decide)
theorem putCategory (q : Req) (c : Content PutCategoryParams) : Statement (.putCategory q c) := by
  cases c with
  | malformed => exact ofNone rfl
  | shaped p => exact ofSome rfl (by decide)
theorem delCategory (q : Req) (c : Content BankIndex) : Statement (.delCategory q c) := by
  cases c with
  | malformed => exact ofNone rfl
  | shaped p => exact ofSome rfl (by decide)
theorem putClass (q : Req) (c : Content PutClassParams) : Statement (.putClass q c) := by
  cases c with
  | malformed => exact ofNone rfl
  | shaped p => exact ofSome rfl (by decide)
theorem delClass (q : Req) (c : Content BankIndex) : Statement (.delClass q c) := by
  cases c with
  | malformed => exact ofNone rfl
  | shaped p => exact ofSome rfl (by decide)
theorem putRule (q : Req) (c : Content PutRuleParams) : Statement (.putRule q c) := by
  cases c with
  | malformed => exact ofNone rfl
  | shaped p => exact ofSome rfl (by decide)
theorem delRule (q : Req) (c : Content DelRuleParams) : Statement (.delRule q c) := by
  cases c with
  | malformed => exact ofNone rfl
  | shaped p => exact ofSome rfl (by decide)
theorem putProfile (q : Req) (c : Content PutProfileParams) : Statement (.putProfile q c) := by
  cases c with
  | malformed => exact ofNone rfl
  | shaped p => exact ofSome rfl (by decide)
theorem delProfile (q : Req) (c : Content BankIndex) : Statement (.delProfile q c) := by
  cases c with
  | malformed => exact ofNone rfl
  | shaped p => exact ofSome rfl (by decide)
theorem putWeekday (q : Req) (c : Content PutDayParams) : Statement (.putWeekday q c) := by
  cases c with
  | malformed => exact ofNone rfl
  | shaped p => exact ofSome rfl (by decide)
theorem delWeekday (q : Req) (c : Content BankIndex) : Statement (.delWeekday q c) := by
  cases c with
  | malformed => exact ofNone rfl
  | shaped p => exact ofSome rfl (by decide)
theorem putException (q : Req) (c : Content PutDayParams) : Statement (.putException q c) := by
  cases c with
  | malformed => exact ofNone rfl
  | shaped p => exact ofSome rfl (by decide)
theorem delException (q : Req) (c : Content BankIndex) : Statement (.delException q c) := by
  cases c with
  | malformed => exact ofNone rfl
  | shaped p => exact ofSome rfl (by decide)
theorem putTemplate (q : Req) (c : Content PutTemplateParams) : Statement (.putTemplate q c) := by
  cases c with
  | malformed => exact ofNone rfl
  | shaped p =>
    by_cases h : tableWriteOf (.putTemplate q (.shaped p)) = none
    · exact ofNone h
    · refine ofSome (q := q) (n := .putTemplate) (b := p.bank) ?_ (by decide)
      simp only [tableWriteOf] at h ⊢
      split at h
      · simp_all
      · exact absurd rfl h
theorem delTemplate (q : Req) (c : Content BankIndex) : Statement (.delTemplate q c) := by
  cases c with
  | malformed => exact ofNone rfl
  | shaped p => exact ofSome rfl (by decide)
theorem putText (q : Req) (c : Content PutTextParams) : Statement (.putText q c) := by
  cases c with
  | malformed => exact ofNone rfl
  | shaped p => exact ofSome rfl (by decide)
theorem delText (q : Req) (c : Content BankIndex) : Statement (.delText q c) := by
  cases c with
  | malformed => exact ofNone rfl
  | shaped p => exact ofSome rfl (by decide)
theorem upload (q : Req) (c : Content Nat) : Statement (.upload q c) := ofNone rfl
theorem release (q : Req) (c : Content Nat) : Statement (.release q c) := ofNone rfl
theorem readJournal (q : Req) (c : Content ReadJournalParams) : Statement (.readJournal q c) := ofNone rfl
theorem openDesk (q : Req) (c : Content Unit) : Statement (.openDesk q c) := ofNone rfl
theorem closeDesk (q : Req) (c : Content Unit) : Statement (.closeDesk q c) := ofNone rfl
theorem time (q : Req) (c : Content TimeParams) : Statement (.time q c) := ofNone rfl
theorem setTime (q : Req) (c : Content TimeParams) : Statement (.setTime q c) := ofNone rfl
theorem stageBegin (q : Req) (c : Content Unit) : Statement (.stageBegin q c) := ofNone rfl
theorem commit (q : Req) (c : Content CommitParams) : Statement (.commit q c) := ofNone rfl
theorem setSettings (q : Req) (c : Content SettingsParams) : Statement (.setSettings q c) := ofNone rfl
theorem setKey (q : Req) (c : Content Key) : Statement (.setKey q c) := ofNone rfl
theorem bridge (q : Req) (c : Content Nat) : Statement (.bridge q c) := ofNone rfl
theorem unbridge (q : Req) (c : Content Nat) : Statement (.unbridge q c) := ofNone rfl
theorem restart (q : Req) (c : Content Unit) : Statement (.restart q c) := ofNone rfl
theorem restartWarmStart : Statement (.restartWarmStart) := ofNone rfl
theorem postNote (q : Req) (c : Content PostNoteParams) : Statement (.postNote q c) := ofNone rfl
theorem powerUp : Statement (.powerUp) := ofNone rfl
theorem powerFail : Statement (.powerFail) := ofNone rfl
theorem backupFail : Statement (.backupFail) := ofNone rfl
theorem resetAssert : Statement (.resetAssert) := ofNone rfl
theorem resetRelease : Statement (.resetRelease) := ofNone rfl
theorem ignoreOrCcRefusedScan : Statement (.ignoreOrCcRefusedScan) := ofNone rfl
theorem unknownKindStationFrame (st : Station) (kind : Byte) (content : List Byte) :
    Statement (.unknownKindStationFrame st kind content) := ofNone rfl
theorem droppedGoodLineFrame (l : Line) (kind : DroppedKind) :
    Statement (.droppedGoodLineFrame l kind) := ofNone rfl
theorem unknownRequestName (q : Req) (code : Option Byte) : Statement (.unknownRequestName q code) := ofNone rfl

end Sys2Proof.Laws.TableWriteNamed
end

