-- ==== Sys2Proof/WellFormed.lean ====
section
/-! DEFINITION. Which commands the lines can carry: operands that fit the fields the spec gives them.  A value that the
spec refuses or clamps is well formed; one that no frame can hold is not. -/

namespace Sys2Proof

/-- A number whose value has its count of digits; the count is one byte (10 section 10.8). -/
def Number.fits (n : Number) : Bool := decide (n.digits ≤ 255) && decide (n.value < 10 ^ n.digits)

/-- A day number (00 Days, minutes and seconds). -/
def dayFits (d : Nat) : Bool := decide (d ≤ 65535)

/-- A 32-bit sequence (R141). -/
def sequenceFits (q : Nat) : Bool := decide (q < 2 ^ 32)

/-- The content of a station frame: its body has 1 to 64 bytes (R128). -/
def stationContentFits (content : List Byte) : Bool := decide (content.length ≤ 63)

/-- Bytes within a line frame's content (R175). -/
def lineContentFits (bytes : List Byte) : Bool := decide (bytes.length ≤ 1097)

/-- A content that is malformed, or whose parameters fit. -/
def Content.fits {α : Type} (f : α → Bool) : Content α → Bool
  | .malformed => true
  | .shaped p => f p

def bankReadFits : BankRead → Bool
  | .byNumber _ n => n.fits
  | .byIndex _ _ => true

def cacheReadFits : CacheRead → Bool
  | .byNumber n => n.fits
  | .byIndex _ => true

def addHoldFits (p : AddHoldParams) : Bool :=
  p.item.fits && p.borrower.fits && dayFits p.placedDay && p.pickupBy.all dayFits

def templateBytesFit (p : PutTemplateParams) : Bool := p.lines.all fun l => lineContentFits l.text

/-- Well-formed commands. -/
def Instr.wf : Instr → Bool
  | .heartbeat _ content | .scanFrame _ content | .keyFrame _ content => stationContentFits content
  | .unknownKindStationFrame _ kind content =>
    stationContentFits content && decide (kind ≠ 0x10#8 ∧ kind ≠ 0x11#8 ∧ kind ≠ 0x12#8)
  | .passDown station body => decide (station ≤ 255) && lineContentFits body
  | .unknownRequestName _ code => code.all fun c => !Machine.codeKnown c
  | .droppedGoodLineFrame _ (.unlisted kind) => decide (kind.toNat < 0x01 ∨ 0x06 < kind.toNat)
  | .readBorrower _ c | .readItem _ c => c.fits bankReadFits
  | .readOlc _ c => c.fits cacheReadFits
  | .putBorrower _ c => c.fits fun p => p.number.fits && dayFits p.expiryDay
  | .delBorrower _ c | .delItem _ c | .delStaff _ c => c.fits fun p => p.number.fits
  | .adjustBorrower _ c => c.fits fun p => p.number.fits
  | .putItem _ c => c.fits fun p => p.number.fits
  | .addHold _ c => c.fits addHoldFits
  | .cancelHold _ c => c.fits fun p => p.item.fits && p.borrower.fits
  | .putStaff _ c => c.fits fun p => p.number.fits
  | .putCategory _ c => c.fits fun p => p.termEndDay.all dayFits
  | .putClass _ c => c.fits fun p => p.fixedDueDay.all dayFits
  | .putException _ c => c.fits fun p => dayFits p.day
  | .delException _ c => c.fits fun p => dayFits p.index
  | .putTemplate _ c => c.fits templateBytesFit
  | .putText _ c => c.fits fun p => lineContentFits (p.line1 ++ p.line2)
  | .postNote _ c => c.fits fun p => lineContentFits p.text
  | .release _ c => c.fits sequenceFits
  | .readJournal _ c => c.fits fun p => sequenceFits p.start
  | .time _ c | .setTime _ c => c.fits fun p => dayFits p.day
  | .stationFrameGap .. | .stationTransmit .. | .borrowerScan | .itemScan | .staffScan | .endKey | .cancelKey
  | .returnKey | .checkoutKey | .reprintKey | .idleTimeout .. | .armLapse .. | .heartbeatWatchExpiry ..
  | .slipSend .. | .graceExpiry | .graceSessionClose .. | .clockTick | .autoOpen | .sweepStep | .openEnd
  | .stageBeginEnd | .commitChangeover | .scrubBlock | .recordSend | .lineFrameGap .. | .lineTransmit ..
  | .livenessExpiry .. | .hello .. | .nop .. | .status .. | .unlock .. | .wipe .. | .ackAttention ..
  | .setAttentionMask .. | .readNote .. | .readRules .. | .readCalendar .. | .readTemplate .. | .readSettings ..
  | .putPrefix .. | .delPrefix .. | .delCategory .. | .delClass .. | .putRule .. | .delRule .. | .putProfile ..
  | .delProfile .. | .putWeekday .. | .delWeekday .. | .delTemplate .. | .delText .. | .upload .. | .openDesk ..
  | .closeDesk .. | .stageBegin .. | .commit .. | .setSettings .. | .setKey .. | .bridge .. | .unbridge ..
  | .restart .. | .restartWarmStart | .powerUp | .powerFail | .backupFail | .resetAssert | .resetRelease
  | .ignoreOrCcRefusedScan | .droppedGoodLineFrame .. => true

end Sys2Proof
end

