-- ==== Sys2Proof/Tests/Slice0.lean ====
section
/-! SUPPORT. Tests: what well-formedness refuses, worked cases of the spec, one step of each command, and states that
meet the hypotheses of the statements. -/

namespace Sys2Proof.Tests

open Sys2Proof.Machine

set_option Elab.async false

/-! ### States -/

/-- The state a command leaves; the given state when it stops. -/
def run (c : Instr) (s : State) : State :=
  match exec c s with
  | .next t => t
  | .fault _ | .refused _ => s

def digitsOf (s : String) : List Nat := (ascii s).map fun b => b.toNat - 0x30

def entryA : Borrower :=
  { number := ⟨20031457, 8⟩, category := 2, expiryDay := 9440, blocks := ⟨false, false⟩, finesOwed := 0, overdueItems := 0
    loansHeld := 3, pending := 0, sessionStation := none, provisional := false, retiring := false, createdSeq := 1 }

def entryB : Borrower := { entryA with number := ⟨20031999, 8⟩, expiryDay := 9800, loansHeld := 1, createdSeq := 2 }

def a : Number := ⟨20031457, 8⟩
def b : Number := ⟨20031999, 8⟩
def i1 : Number := ⟨31000011, 8⟩
def i2 : Number := ⟨31000022, 8⟩
def i3 : Number := ⟨31000033, 8⟩

/-- The prefix table of 02 section 2.7. -/
def prefixes : Vector PrefixEntry 32 :=
  let e (pattern : List (Fin 10)) (lo hi : Nat) (check : CheckScheme) (kind : CodeKind) (strip default : Nat) :
      PrefixEntry :=
    { inUse := true, pattern := pattern.map PatternPos.digit, minLength := lo, maxLength := hi, check := check
      kind := kind, strip := strip, default := default }
  ((((((Vector.replicate 32 PrefixEntry.unused).set 0 (e [9, 9] 6 6 .none .staff 2 0)).set 1
    (e [2] 9 9 .w31 .borrower 0 2)).set 2 (e [3] 9 9 .m11 .item 0 4)).set 3
    (e [0, 0] 4 16 .none .ignore 0 0)).set 4 (e [2] 10 14 .none .borrower 1 0))

/-- The calendar of 05 section 5.12, the tables of 01 section 1.10 and the template of 06 section 6.7. -/
def hall : Bank :=
  let slot (column : Nat) (field : FieldName) : TemplateSlot := { column := column, field := field }
  let line (text : String) (repeated : Bool) (slots : List TemplateSlot) : TemplateLine :=
    { text := ascii text, repeated := repeated, slots := slots }
  let loanable : ClassRec :=
    { loanable := true, fixedDueDay := none, holdable := true, checkoutTemplate := 1, routingTemplate := 0 }
  let row : Vector Cell 32 :=
    ((Vector.replicate 32 Cell.cleared).set 4 { kind := .days, period := 21, renewLimit := 1, roundStep := 1 }).set 9
      { kind := .hours, period := 4, renewLimit := 1, roundStep := 15 }
  { Bank.cleared with
    prefixTable := prefixes
    staff :=
      [{ number := ⟨7301, 4⟩, overrides := { OverrideSet.empty with held := true, limit := true } }]
    categories :=
      Bank.cleared.categories.set 2
        { loanLimit := 10, fineLimit := 0, overdueLimit := 0, termEndDay := none, pickupDays := 7, shownDigits := 4 }
    classes := (Bank.cleared.classes.set 4 loanable).set 9 loanable
    rules := Bank.cleared.rules.set 2 row
    profiles := (Bank.cleared.profiles.set 0 { openMinute := 540, closeMinute := 1200 }).set 1
      { openMinute := 600, closeMinute := 960 }
    weekdays := #v[1, 1, 1, 1, 1, 2, 0]
    exceptions := [{ day := 9445, profile := 0 }]
    templates :=
      Bank.cleared.templates.set 1
        [line "LOAN HALL DESK" false [slot 15 .station], line "" false [slot 0 .today, slot 11 .now],
          line "BORROWER" false [slot 9 .borrower], line "" true [slot 0 .item],
          line "  DUE" true [slot 6 .dueDate, slot 17 .dueTime, slot 23 .flags],
          line "ITEMS:" false [slot 7 .count], line "" false [slot 0 .notice]]
    borrowers := [entryA, entryB]
    nextCreated := 3
    items :=
      [{ number := i2, classOverride := none
         queue := [{ borrower := b, category := 2, pickupBy := none, placedDay := 9420 }] },
        { number := i3, classOverride := some 9, queue := [] }] }

/-- An ACTIVE line with every feature granted. -/
def activeLine : LineCtl :=
  { LineCtl.start with state := .active, granted := FeatureSet.all, liveness := some 3 }

/-- The start of 01 section 1.10: stations 2 and 5 IDLE, the arbiter having last served station 1. -/
def desk : State :=
  let at0 : Port := { Port.start with present := true, watch := some 1, credit := 8 }
  { State.reset with
    active := hall
    settings := { Settings.defaults with printerWidths := Vector.replicate 8 32#8 }
    journal := { Journal.cold with oldest := 501, sendMark := 501, nextSeq := 501 }
    clock := { now := { day := 9424, second := 50400 }, valid := true, held := none }
    day := { state := .opened, openDay := some 9424, fresh := false, grace := none, graceExpired := false }
    ports := ((Vector.replicate 8 Port.start).set 2 at0).set 5 at0
    notice := some (ascii "HALL CLOSES 19:00 FRIDAY")
    uplink := activeLine
    supervisor := activeLine
    lastServed := 1 }

/-- An input in the slots of a station. -/
def withInput (s : State) (st : Station) (i : Input) : State := s.setPort st { s.port st with slots := [i] }

def scanned (s : State) (st : Station) (digits : String) : State := withInput s st (.scan (digitsOf digits))

def pressed (s : State) (st : Station) (k : KeyCode) : State := withInput s st (.key k)

def up : Req := { line := .uplink, tag := 7 }
def sup : Req := { line := .supervisor, tag := 9 }

/-! ### Well-formedness: one ill-formed term for each check -/

def tooManyDigits : Number := { value := 0, digits := 256 }
def valueTooLong : Number := { value := 1234, digits := 3 }

def putB (n : Number) (expiry : Nat) : PutBorrowerParams :=
  { bank := .active, number := n, category := 2, expiryDay := expiry, blocks := ⟨⟨false, false⟩, false⟩, finesOwed := 0
    overdueItems := 0, loansHeld := 0 }

def addH (item borrower : Number) (placed : Nat) (pickup : Option Nat) : AddHoldParams :=
  { bank := .active, item := item, borrower := borrower, category := 2, itemClass := 4, placedDay := placed
    pickupBy := pickup }

theorem test_wf_number_digits : (Instr.putItem up (.shaped ⟨.active, tooManyDigits, 4⟩)).wf = false := by decide
theorem test_wf_number_value : (Instr.delItem up (.shaped ⟨.active, valueTooLong⟩)).wf = false := by decide
theorem test_wf_station_content : (Instr.scanFrame 0 (List.replicate 64 0#8)).wf = false := by decide
theorem test_wf_unknown_kind_content : (Instr.unknownKindStationFrame 0 0x77#8 (List.replicate 64 0#8)).wf = false := by
  decide
theorem test_wf_unknown_kind : (Instr.unknownKindStationFrame 0 0x10#8 []).wf = false := by decide
theorem test_wf_pass_station : (Instr.passDown 256 [0#8]).wf = false := by decide
theorem test_wf_pass_body : (Instr.passDown 0 (List.replicate 1098 0#8)).wf = false := by
  decide +kernel
theorem test_wf_listed_kind : (Instr.droppedGoodLineFrame .uplink (.unlisted 0x06#8)).wf = false := by decide
theorem test_wf_unknown_name : (Instr.unknownRequestName up (some 0x01#8)).wf = false := by decide
theorem test_wf_read_borrower : (Instr.readBorrower up (.shaped (.byNumber .active valueTooLong))).wf = false := by decide
theorem test_wf_read_item : (Instr.readItem up (.shaped (.byNumber .active valueTooLong))).wf = false := by decide
theorem test_wf_read_olc : (Instr.readOlc up (.shaped (.byNumber valueTooLong))).wf = false := by decide
theorem test_wf_put_borrower_number : (Instr.putBorrower up (.shaped (putB valueTooLong 9440))).wf = false := by decide
theorem test_wf_put_borrower_expiry : (Instr.putBorrower up (.shaped (putB a 65536))).wf = false := by decide
theorem test_wf_del_borrower : (Instr.delBorrower up (.shaped ⟨.active, valueTooLong⟩)).wf = false := by decide
theorem test_wf_adjust : (Instr.adjustBorrower up (.shaped ⟨.active, valueTooLong, 0, 0⟩)).wf = false := by decide
theorem test_wf_add_hold_item : (Instr.addHold up (.shaped (addH valueTooLong a 0 none))).wf = false := by decide
theorem test_wf_add_hold_borrower : (Instr.addHold up (.shaped (addH i1 valueTooLong 0 none))).wf = false := by decide
theorem test_wf_add_hold_placed : (Instr.addHold up (.shaped (addH i1 a 65536 none))).wf = false := by decide
theorem test_wf_add_hold_pickup : (Instr.addHold up (.shaped (addH i1 a 0 (some 65536)))).wf = false := by decide
theorem test_wf_cancel_hold_item : (Instr.cancelHold up (.shaped ⟨.active, valueTooLong, a⟩)).wf = false := by decide
theorem test_wf_cancel_hold_borrower : (Instr.cancelHold up (.shaped ⟨.active, i1, valueTooLong⟩)).wf = false := by
  decide
theorem test_wf_put_staff :
    (Instr.putStaff up (.shaped ⟨.active, valueTooLong, ⟨OverrideSet.empty, false⟩⟩)).wf = false := by decide
theorem test_wf_del_staff : (Instr.delStaff up (.shaped ⟨.active, valueTooLong⟩)).wf = false := by decide
theorem test_wf_put_category :
    (Instr.putCategory up (.shaped ⟨.active, 2, 0, 0, 0, some 65536, 1, 0⟩)).wf = false := by decide
theorem test_wf_put_class :
    (Instr.putClass up (.shaped ⟨.active, 4, true, some 65536, true, 0, 0⟩)).wf = false := by decide
theorem test_wf_put_exception : (Instr.putException up (.shaped ⟨.active, 65536, 0⟩)).wf = false := by decide
theorem test_wf_del_exception : (Instr.delException up (.shaped ⟨.active, 65536⟩)).wf = false := by decide
theorem test_wf_put_template :
    (Instr.putTemplate up (.shaped ⟨.active, 0, [⟨List.replicate 1098 0x20#8, false, []⟩]⟩)).wf = false := by
  decide +kernel
theorem test_wf_put_text :
    (Instr.putText up (.shaped ⟨.active, 0, List.replicate 1098 0x20#8, []⟩)).wf = false := by
  decide +kernel
theorem test_wf_post_note :
    (Instr.postNote up (.shaped ⟨none, List.replicate 1098 0x20#8⟩)).wf = false := by
  decide +kernel
theorem test_wf_release : (Instr.release up (.shaped 4294967296)).wf = false := by decide
theorem test_wf_read_journal : (Instr.readJournal up (.shaped ⟨4294967296, 1⟩)).wf = false := by decide
theorem test_wf_time : (Instr.time up (.shaped ⟨65536, 0⟩)).wf = false := by decide
theorem test_wf_accepts :
    (Instr.putBorrower up (.shaped (putB a 9440))).wf = true ∧ (Instr.unknownRequestName up (some 0xFF#8)).wf = true ∧
      (Instr.unknownRequestName up none).wf = true ∧ (Instr.droppedGoodLineFrame .uplink (.unlisted 0x07#8)).wf = true ∧
      (Instr.addHold up (.shaped (addH i1 a 9440 (some 9441)))).wf = true := by decide

/-! ### Numbers, dates, dues -/

/-- 02 section 2.7. -/
theorem test_classifier_table :
    classify prefixes (digitsOf "200314572") = .borrower a 2 ∧
      classify prefixes (digitsOf "200314573") = .refused .badCode ∧
      classify prefixes (digitsOf "2003145720") = .borrower ⟨3145720, 9⟩ 0 ∧
      classify prefixes (digitsOf "310000116") = .item i1 4 ∧
      classify prefixes (digitsOf "310000069") = .refused .badCode ∧
      classify prefixes (digitsOf "997301") = .staff ⟨7301, 4⟩ ∧
      classify prefixes (digitsOf "99730") = .refused .unknownCode ∧
      classify prefixes (digitsOf "0042") = .ignore ∧
      classify prefixes (digitsOf "512345") = .refused .unknownCode ∧
      classify prefixes (digitsOf "31000000000000000000") = .refused .badCode := by
  decide

def hours : Cell := { kind := .hours, period := 4, renewLimit := 1, roundStep := 15 }
def days21 : Cell := { kind := .days, period := 21, renewLimit := 1, roundStep := 1 }

def dueOf (day minute : Nat) (cell : Cell) (fixed term : Option Nat) (expiry : Nat) (old : Option Due) :
    Except Reason (Nat × Nat × Bool) :=
  (dueFor
    { day := day, minute := minute, category := { hall.categories[2] with termEndDay := term }
      itemClass := { hall.classes[4] with fixedDueDay := fixed }, cell := cell, expiryDay := expiry, bank := hall }
    old).map fun c => (c.due.day, c.due.minute, c.clamped)

/-- 05 section 5.12, DAYS and FIXED. -/
theorem test_due_days :
    dueOf 9424 1020 days21 none none 9440 none = .ok (9440, 1200, true) ∧
      dueOf 9424 1020 days21 none none 9500 none = .ok (9446, 1200, false) ∧
      dueOf 9424 1020 days21 (some 9436) none 9440 none = .ok (9436, 960, false) ∧
      dueOf 9424 1020 days21 (some 9445) none 9440 none = .ok (9440, 1200, true) ∧
      dueOf 9424 1020 days21 (some 9420) none 9440 none = .error .fixedPast ∧
      dueOf 9424 1100 days21 none (some 9424) 9440 none = .ok (9424, 1200, true) ∧
      dueOf 9424 1210 days21 none (some 9424) 9440 none = .error .termEnded ∧
      dueOf 9425 600 days21 none (some 9424) 9440 none = .error .termEnded := by
  decide

/-- 05 section 5.12, HOURS and renewals. -/
theorem test_due_hours :
    dueOf 9424 1020 hours none none 9440 none = .ok (9425, 600, false) ∧
      dueOf 9424 1013 hours none none 9440 none = .ok (9425, 600, false) ∧
      dueOf 9429 900 hours none none 9440 none = .ok (9431, 720, false) ∧
      dueOf 9425 600 hours none none 9440 (some ⟨9424, 1080⟩) = .ok (9425, 840, false) ∧
      dueOf 9431 600 days21 none none 9440 (some ⟨9440, 1200⟩) = .ok (9440, 1200, true) := by
  decide +kernel

theorem test_dates :
    printDate .dmy 9424 = ascii "20.10.2025" ∧ printMinute 1080 = ascii "18:00" ∧ pickupDay hall 9424 6 = 9431 ∧
      pickupDay hall 9424 5 = 9429 := by
  decide +kernel

/-- 07 section 7.1: the CRC of the nine characters 1 to 9 by the polynomial and start value given there (log entry 9). -/
theorem test_crc : crc16 (ascii "123456789") = 0x29B1#16 := by decide +kernel

/-- A heartbeat frame comes back from its bytes. -/
theorem test_frame :
    Receiver.takeAll stationFormat (0x00#8 :: frameBytes stationFormat [0x10#8, 0x00#8, 0x08#8]) .looking =
      (.looking, [[0x10#8, 0x00#8, 0x08#8]]) := by
  decide +kernel

/-! ### Worked sequence of 01 section 1.10 -/

def lent (item : Number) (k : Fin 32) (due : Due) (clamped overridden : Bool) : ListEntry :=
  { item := item, itemClass := k, action := .checkout, due := due
    flags := { noEntryFlags with clamped := clamped, overridden := overridden } }

def sessionOf (n : Number) (items : List ListEntry) (staff : Option Number) : Session :=
  { Session.empty with borrower := some n, items := items, overrideStaff := staff, idle := 5 }

def withSession (st : Station) (n : Number) (items : List ListEntry) (staff : Option Number) (s : State) : State :=
  { s.setSession st (sessionOf n items staff) with
    journal := { s.journal with claims := s.journal.claims + items.length }
    active := s.active.mapBorrower n fun e => { e with sessionStation := some st } }

def listed : List ListEntry :=
  [lent i1 4 ⟨9440, 1200⟩ true false, lent i2 4 ⟨9440, 1200⟩ true true, lent i3 9 ⟨9424, 1080⟩ false false]

/-- Station 2 lends to A, station 5 to B. -/
def lending (items : List ListEntry) (staff : Option Number) : State :=
  withSession 5 b [] none (withSession 2 a items staff desk)

theorem test_step1 :
    let t := run .borrowerScan (scanned desk 2 "200314572")
    t.stationState 2 = .checkout ∧ (t.session 2).borrower = some a ∧
      (t.active.borrower a).bind Borrower.sessionStation = some 2 ∧ (t.session 2).idle = 90 ∧
      (t.console 2).line1 = fit20 (ascii "****1457") ∧ (t.console 2).line2 = fit20 (ascii "3") ∧
      t.lastServed = 2 := by
  decide

theorem test_step2 :
    let t := run .itemScan (scanned (lending [] none) 2 "310000116")
    (t.session 2).items = [lent i1 4 ⟨9440, 1200⟩ true false] ∧ t.journal.claims = 1 := by
  decide

/-- Step 3: the arbiter, having served station 2, takes station 5's input before station 2's. -/
theorem test_step3 :
    (scanned (scanned { desk with lastServed := 2 } 2 "310000221") 5 "200319993").arbiterPick =
      some (5, .scan (digitsOf "200319993")) := by
  decide

theorem test_step4 :
    let t := run .itemScan (scanned (lending (listed.take 1) none) 2 "310000221")
    t.journal.records.map (fun r => (r.seq, r.kind, r.station)) = [(501, .refusal, some 2)] ∧
      t.journal.records.map (fun r => (r.borrower, r.item, r.reason)) = [(some a, some i2, some (.refusal .held))] ∧
      t.journal.records.map (fun r => r.flags.counted) = [true] ∧
      (t.active.borrower a).map Borrower.pending = some 1 ∧ (t.session 2).items.length = 1 ∧
      (t.port 2).down = [.display (t.console 2).line1 (t.console 2).line2, .signal .refuse] := by
  decide

theorem test_step5 :
    let t := run .staffScan (scanned (lending (listed.take 1) none) 2 "997301")
    (t.session 2).overrideStaff = some ⟨7301, 4⟩ ∧ (t.session 2).armedUntil = none ∧
      (t.port 2).down.getLast? = some (.signal .accept) := by
  decide

theorem test_step6 :
    let t := run .itemScan (scanned (lending (listed.take 1) (some ⟨7301, 4⟩)) 2 "310000221")
    (t.session 2).items = listed.take 2 ∧ t.journal.records = [] := by
  decide

theorem test_step7 :
    let t := run .itemScan (scanned (lending (listed.take 2) none) 5 "310000221")
    t.journal.records.map (fun r => (r.station, r.borrower, r.reason)) =
        [(some 5, some b, some (.refusal .inOtherSession))] ∧
      (t.active.borrower b).map Borrower.pending = some 1 := by
  decide

theorem test_step8 :
    (run .itemScan (scanned (lending (listed.take 2) none) 2 "310000337")).session 2 =
      { sessionOf a listed none with idle := 90 } := by
  decide

/-- The close: 01 section 1.10 step 9 and the slip of 06 section 6.7. -/
def closed9 : State := run .endKey (pressed (lending listed (some ⟨7301, 4⟩)) 2 .endKey)

theorem test_step9_records :
    closed9.journal.records.map (fun r => (r.seq, r.item, r.kind)) =
        [(501, some i1, .checkout), (502, some i2, .checkout), (503, some i3, .checkout)] ∧
      closed9.journal.records.map (fun r => (r.staff, r.flags.overridden, r.flags.clamped)) =
        [(none, false, true), (some ⟨7301, 4⟩, true, true), (none, false, false)] ∧
      closed9.journal.claims = 0 ∧
      (closed9.active.borrower a).map (fun e => (e.loansHeld, e.pending, e.sessionStation)) = some (6, 3, none) ∧
      closed9.cache.map CacheEntry.item = [i1, i2, i3] ∧ closed9.stationState 2 = .idle ∧
      (closed9.active.queueOf i2).length = 1 := by
  decide

theorem test_step9_slip :
    (closed9.console 2).queue.map Slip.lines =
      [[ascii "LOAN HALL DESK 2", ascii "20.10.2025 14:00", ascii "BORROWER ****1457", ascii "31000011",
        ascii "  DUE 05.11.2025 20:00 CLAMPED", ascii "31000022", ascii "  DUE 05.11.2025 20:00 CLAMPED O",
        ascii "31000033", ascii "  DUE 20.10.2025 18:00", ascii "ITEMS: 3", ascii "HALL CLOSES 19:00 FRIDAY"]] := by
  decide

/-! ### One step of each other command -/

def statuses (c : LineCtl) : List (Tag × Status) :=
  c.sendList.filterMap fun
    | .reply t r => some (t, r.status)
    | _ => none

/-- The last reply of the uplink after a command of the uplink. -/
def answerOf (c : Instr) (s : State) : Option Reply :=
  (run c s).uplink.sendList.getLast?.bind fun
    | .reply _ r => some r
    | _ => none

def shut : State := { desk with day := { desk.day with state := .closed } }

def holding (op : LongOp) (s : State) : State := { s with slot := some { op := op, requester := some up } }

def withPort (st : Station) (f : Port → Port) (s : State) : State := s.setPort st (f (s.port st))

def withConsole (st : Station) (f : Console → Console) (s : State) : State := s.setConsole st (f (s.console st))

def withMode (st : Station) (m : Mode) (s : State) : State := s.setSession st { s.session st with mode := m }

def withRecords (n : Nat) (s : State) : State :=
  { s with
    journal :=
      { s.journal with
        records := (List.range n).map fun i => { draft .dayOpen with seq := 501 + i }, nextSeq := 501 + n } }

theorem test_heartbeat :
    let t := run (.heartbeat 0 [0x00#8, 0x09#8]) desk
    (t.port 0).present = true ∧ (t.port 0).credit = 8 ∧ (t.port 0).watch = some 0 ∧ t.stationState 0 = .idle := by
  decide

theorem test_scan_frame :
    let t := run (.scanFrame 2 (0x01#8 :: ascii "0042")) desk
    (t.port 2).slots = [.scan [0, 0, 4, 2]] ∧
      (run (.scanFrame 2 (0x01#8 :: ascii "004")) desk).port 2 = desk.port 2 ∧
      ((run (.scanFrame 2 [0x00#8]) desk).port 2).down = [.signal .refuse] := by
  decide

theorem test_key_frame : ((run (.keyFrame 5 [0x03#8]) desk).port 5).slots = [.key .returnKey] := by decide

theorem test_station_frame_gap :
    ((run (.stationFrameGap 2 0x5A#8) desk).port 2).receiver = .length [] ∧
      ((run (.stationFrameGap 2 0x10#8) desk).port 2).receiver = .looking := by
  decide

theorem test_station_transmit :
    let s := withPort 2 (fun p => { p with down := [.cut, .signal .wait] }) desk
    ((run (.stationTransmit 2) s).port 2).wire = some .cut ∧
      ((run (.stationTransmit 2) s).port 2).down = [.signal .wait] := by
  decide

theorem test_unknown_kind :
    let s := withPort 2 (fun p => { p with bridged := true, present := false }) desk
    (run (.unknownKindStationFrame 2 0x77#8 [0x01#8]) s).supervisor.sendList = [.pass 2 [0x77#8, 0x01#8]] ∧
      (run (.unknownKindStationFrame 2 0x77#8 [0x01#8]) desk).supervisor.sendList = [] := by
  decide

theorem test_cancel :
    let t := run .cancelKey (pressed (lending listed none) 2 .cancel)
    t.stationState 2 = .idle ∧ t.journal.claims = 0 ∧ t.journal.records = [] ∧ t.cache = [] := by
  decide

theorem test_return_key : (run .returnKey (pressed desk 2 .returnKey)).stationState 2 = .returns := by decide

theorem test_checkout_key :
    (run .checkoutKey (pressed (withMode 2 .returns desk) 2 .checkout)).stationState 2 = .idle := by decide

theorem test_reprint :
    let s := pressed (withConsole 2 (fun c => { c with copy := some ⟨[ascii "X"]⟩ }) desk) 2 .reprint
    ((run .reprintKey s).console 2).queue = [⟨[ascii "X"]⟩] := by
  decide

theorem test_return :
    let s := { withMode 2 .returns desk with cache := [⟨i2, a, ⟨9440, 1200⟩, 0, 9420⟩] }
    let t := run .itemScan (scanned s 2 "310000221")
    t.cache = [] ∧ (t.active.borrower a).map Borrower.loansHeld = some 2 ∧
      t.journal.records.map (fun r => (r.kind, r.borrower)) = [(.returned, some a), (.holdRouted, some b)] ∧
      (t.active.queueOf i2).map Hold.pickupBy = [some 9431] := by
  decide

theorem test_ignored_scan :
    (run .ignoreOrCcRefusedScan (scanned desk 2 "0042")).journal = desk.journal ∧
      (run .ignoreOrCcRefusedScan (scanned desk 2 "512345")).journal.records.map Record.reason =
        [some (.refusal .unknownCode)] := by
  decide

def closing : State :=
  { lending [] none with
    day := { desk.day with state := .closing, grace := some 0 } }

theorem test_idle_timeout :
    let s := (lending listed none).setSession 2 { sessionOf a listed none with idle := 0 }
    (run (.idleTimeout 2) s).stationState 2 = .idle ∧ (run (.idleTimeout 2) s).journal.nextSeq = 504 ∧
      (run (.idleTimeout 2) (lending listed none)).stationState 2 = .checkout := by
  decide

theorem test_arm_lapse :
    let s := desk.setSession 2 { Session.empty with overrideStaff := some ⟨7301, 4⟩, armedUntil := some 50400 }
    (run (.armLapse 2) s).session 2 = Session.empty := by
  decide

theorem test_watch_expiry :
    let t := run (.heartbeatWatchExpiry 2) (withPort 2 (fun p => { p with watch := some 10 }) (lending listed none))
    t.stationState 2 = .absent ∧ t.journal.claims = 0 ∧
      t.journal.records.map (fun r => (r.kind, r.reason)) = [(.sessionAbandoned, some (.count 3))] := by
  decide

theorem test_slip_send :
    let s := withConsole 2 (fun c => { c with queue := [⟨[ascii "X"]⟩] }) desk
    let t := run (.slipSend 2) s
    (t.port 2).down = [.print (ascii "X")] ∧ (t.port 2).credit = 7 ∧
      ((run (.slipSend 2) t).console 2).copy = some ⟨[ascii "X"]⟩ := by
  decide

theorem test_grace :
    (run .graceExpiry closing).day.graceExpired = true ∧
      (run (.graceSessionClose 5) (run .graceExpiry closing)).stationState 5 = .idle := by
  decide

theorem test_clock_tick :
    (run .clockTick { desk with clock := { desk.clock with now := ⟨9424, 86399⟩ } }).clock.now = ⟨9425, 0⟩ ∧
      ((run .clockTick desk).port 2).watch = some 2 ∧ ((run .clockTick (lending [] none)).session 2).idle = 4 := by
  decide

def autoDue : State :=
  { shut with settings := { shut.settings with autoOpen := true }, day := { shut.day with openDay := some 9423 } }

theorem test_auto_open :
    (run .autoOpen autoDue).slot = some { op := .opening 9424 none, requester := none } ∧
      (run .autoOpen desk).slot = none := by
  decide

def sweeping : State :=
  let hold (pickup : Option Nat) (n : Number) : Hold :=
    { borrower := n, category := 2, pickupBy := pickup, placedDay := 9400 }
  holding (.opening 9424 none)
    { shut with
      active := { hall with items := [{ number := i2, classOverride := none, queue := [hold (some 9423) a, hold none b] }] } }

theorem test_sweep :
    let t := run .sweepStep sweeping
    (t.active.queueOf i2).map Hold.pickupBy = [some 9431] ∧
      t.journal.records.map Record.kind = [.holdExpired, .holdRouted] := by
  decide

theorem test_open_end :
    let t := run .openEnd (holding (.opening 9424 (some i3)) shut)
    t.day.state = .opened ∧ t.slot = none ∧ t.journal.records.map Record.kind = [.dayOpen] ∧
      t.supervisor.pendingSet.bankStale = true := by
  decide

theorem test_stage_begin :
    answerOf (.stageBegin up (.shaped ())) shut = some (Reply.bare .accepted) ∧
      (run .stageBeginEnd (holding (.stageBegin hall) shut)).stagedState = .loading := by
  decide

theorem test_commit :
    let s := { shut with stagedState := .loading, staged := hall }
    answerOf (.commit up (.shaped ⟨2, 2, 1, 1⟩)) s = some (Reply.bare .accepted) ∧
      (answerOf (.commit up (.shaped ⟨2, 2, 1, 0⟩)) s).map Reply.status = some .mismatch ∧
      (run .commitChangeover (holding .commit s)).generation = 1 := by
  decide

theorem test_scrub :
    (run .scrubBlock (holding .wipe { shut with store := ⟨true, false, true, 8191⟩ })).slot = none := by
  decide

theorem test_wipe :
    let t := run (.wipe up (.shaped ())) shut
    t.active = Bank.cleared ∧ t.store.scrubMark = true ∧ t.journal.records.map Record.kind = [.wiped] := by
  decide

theorem test_upload :
    let t := run (.upload up (.shaped 2)) (withRecords 3 shut)
    t.upload = some { tag := 7, endPoint := 503, clamped := false, sent := 0 } ∧
      (run .recordSend t).journal.sendMark = 502 := by
  decide

theorem test_release :
    let s := withRecords 3 shut
    let t := run (.release up (.shaped 501)) { s with journal := { s.journal with sendMark := 503 } }
    t.journal.oldest = 502 ∧ t.journal.records.length = 2 ∧ statuses t.uplink = [(7, .ok)] := by
  decide

theorem test_read_journal :
    (answerOf (.readJournal up (.shaped ⟨502, 17⟩)) (withRecords 3 shut)).map
        (fun r => match r.results with
          | .journal o n rs => (o, n, rs.map Record.seq)
          | _ => (0, 0, [])) = some (501, 504, [502, 503]) := by
  decide

theorem test_line_gap :
    (run (.lineFrameGap .uplink 0xC3#8) desk).uplink.receiver = .length [] := by decide

theorem test_line_transmit :
    (run (.lineTransmit .uplink) { desk with uplink := { activeLine with sendList := [.note (ascii "N")] } }).uplink.wire =
      some (.note (ascii "N")) := by
  decide

theorem test_liveness :
    let t := run (.livenessExpiry .uplink) { desk with uplink := { activeLine with liveness := some 30 } }
    t.uplink.state = .down ∧ t.supervisor.pendingSet.uplinkLost = true ∧ t.owner = .supervisor := by
  decide

theorem test_pass_down :
    let s := withPort 2 (fun p => { p with bridged := true, present := false }) desk
    ((run (.passDown 2 [0x01#8]) s).port 2).down = [.pass [0x01#8]] ∧
      ((run (.passDown 2 [0x01#8]) desk).port 2).down = [] := by
  decide

theorem test_dropped_good :
    (∀ kind ∈ [DroppedKind.event, .unlisted 0x07#8],
      (run (.droppedGoodLineFrame .uplink kind) desk).uplink = { activeLine with liveness := some 0 }) := by decide

theorem test_empty_pass :
    run (.droppedGoodLineFrame .supervisor .emptyPass) desk =
        { desk with supervisor := { activeLine with liveness := some 0 } } ∧
      run (.droppedGoodLineFrame .supervisor .pass) desk = desk := by decide

theorem test_hello :
    let t := run (.hello up (.shaped ⟨2, 0, ⟨FeatureSet.all, false⟩⟩)) State.reset
    t.uplink.state = .active ∧ statuses t.uplink = [(7, .ok)] ∧
      (run (.hello up (.shaped ⟨1, 0, ⟨FeatureSet.all, false⟩⟩)) State.reset).uplink.state = .refused := by
  decide

theorem test_nop : answerOf (.nop up (.shaped ())) desk = some Reply.ok := by decide

theorem test_status :
    ((answerOf (.status up (.shaped ())) desk).map Reply.status) = some .ok ∧ (desk.report .uplink).free = 16384 ∧
      (desk.report .uplink).activeCounts = ⟨2, 2, 1, 1⟩ := by
  decide

def key5 : Key := Vector.replicate 16 5#8

theorem test_keys :
    let s := run (.setKey up (.shaped key5)) desk
    s.uplink.unlocked = true ∧ s.locked .supervisor = true ∧
      answerOf (.unlock up (.shaped noKey)) s = some (Reply.bare .badKey) ∧
      (run (.unlock sup (.shaped key5)) s).supervisor.unlocked = true := by
  decide

theorem test_attention :
    let s := { desk with supervisor := { activeLine with pendingSet := CauseSet.all } }
    (run (.ackAttention sup (.shaped ⟨CauseSet.all, false⟩)) s).supervisor.pendingSet =
        { CauseSet.empty with journalHigh := true, journalFull := true, clockHeld := true } ∧
      (run (.setAttentionMask sup (.shaped ⟨CauseSet.empty, false⟩)) s).attn = false ∧ s.attn = true := by
  decide

theorem test_notes :
    let t := run (.postNote sup (.shaped ⟨some .server, ascii "HI"⟩)) desk
    t.toServer = { text := some (ascii "HI"), unread := true, overwritten := false } ∧
      answerOf (.readNote up (.shaped .addressed)) t =
        some { status := .ok, results := .note (some (ascii "HI")) true false } := by
  decide

theorem test_reads :
    (answerOf (.readBorrower up (.shaped (.byNumber .active a))) desk).map Reply.results =
        some (.borrowerEntry entryA (some ⟨false, false, false⟩)) ∧
      (answerOf (.readItem up (.shaped (.byNumber .active i1))) desk).map Reply.status = some .notFound ∧
      (answerOf (.readOlc up (.shaped (.byIndex 0))) desk).map Reply.results = some (.cacheEntries 0 []) := by
  decide

theorem test_reads_of_rules :
    (answerOf (.readRules up (.shaped (.staff .active 0))) desk).map Reply.results =
        some (.staff 1 hall.staff) ∧
      (answerOf (.readCalendar up (.shaped (.exceptions .active 0))) desk).map Reply.results =
        some (.exceptions 1 [⟨9445, 0⟩]) ∧
      (answerOf (.readTemplate up (.shaped (.template .active 8))) desk).map Reply.status = some .badValue ∧
      (answerOf (.readSettings up (.shaped ())) desk).map Reply.results = some (.settings desk.settings false) := by
  decide

theorem test_put_borrower :
    let t := run (.putBorrower sup (.shaped { putB a 9500 with loansHeld := 300 })) { desk with uplink := LineCtl.start }
    (t.active.borrower a).map (fun e => (e.expiryDay, e.loansHeld, e.createdSeq)) = some (9500, 255, 1) ∧
      statuses t.supervisor = [(9, .partiallyTaken)] ∧ t.journal.records.map Record.kind = [.tableChange] := by
  decide

theorem test_del_borrower :
    (run (.delBorrower up (.shaped ⟨.active, a⟩)) desk).active.borrowers = [entryB] ∧
      (run (.delBorrower up (.shaped ⟨.active, a⟩)) (lending [] none)).active.borrowers.map Borrower.retiring =
        [true, false] := by
  decide

theorem test_adjust :
    answerOf (.adjustBorrower up (.shaped ⟨.active, a, -5, 7⟩)) desk =
      some { status := .partiallyTaken, results := .loansAndFines 0 7 } := by
  decide

theorem test_items :
    (run (.putItem up (.shaped ⟨.active, i1, 9⟩)) desk).active.items.map Item.number = [i1, i2, i3] ∧
      (run (.delItem up (.shaped ⟨.active, i3⟩)) desk).active.items.map Item.number = [i2] ∧
      (answerOf (.delItem up (.shaped ⟨.active, i2⟩)) desk).map Reply.status = some .notFound := by
  decide

theorem test_holds :
    ((run (.addHold up (.shaped (addH i2 a 9424 none))) desk).active.queueOf i2).map Hold.borrower = [b, a] ∧
      (answerOf (.addHold up (.shaped (addH i2 b 9424 none))) desk).map Reply.status = some .duplicate ∧
      (run (.cancelHold up (.shaped ⟨.active, i2, b⟩)) desk).active.items.map Item.number = [i3] := by
  decide

theorem test_prefix_writes :
    let put (kind : CodeKind) (default : Nat) : Instr :=
      .putPrefix up (.shaped ⟨.active, 5, [some (.digit 4)], 4, 99, some .none, some kind, 9, default⟩)
    (run (put .item 31) desk).active.prefixTable[5] =
        { inUse := true, pattern := [.digit 4], minLength := 4, maxLength := 16, check := .none, kind := .item
          strip := 8, default := 31 } ∧
      (∀ c ∈ [put .item 32, put .borrower 16],
        answerOf c desk = some (Reply.bare .badValue) ∧ (run c desk).active = desk.active) ∧
      (run (put .staff 40) desk).active.prefixTable[5].default = 0 ∧
      (run (.delPrefix up (.shaped ⟨.active, 0⟩)) desk).active.prefixTable[0] = PrefixEntry.unused := by
  decide

theorem test_staff_writes :
    (run (.putStaff up (.shaped ⟨.active, ⟨7300, 4⟩, ⟨OverrideSet.empty, false⟩⟩)) desk).active.staff.map
        StaffEntry.number = [⟨7300, 4⟩, ⟨7301, 4⟩] ∧
      (run (.delStaff up (.shaped ⟨.active, ⟨7301, 4⟩⟩)) desk).active.staff = [] := by
  decide

theorem test_category_and_class_writes :
    (run (.putCategory up (.shaped ⟨.active, 3, 300, 0, 0, none, 0, 15⟩)) desk).active.categories[3] =
        { loanLimit := 255, fineLimit := 0, overdueLimit := 0, termEndDay := none, pickupDays := 1, shownDigits := 14 } ∧
      (run (.delCategory up (.shaped ⟨.active, 2⟩)) desk).active.categories[2] = CategoryRec.cleared ∧
      (run (.putClass up (.shaped ⟨.active, 5, true, some 9436, false, 7, 0⟩)) desk).active.classes[5].checkoutTemplate = 7 ∧
      (run (.delClass up (.shaped ⟨.active, 4⟩)) desk).active.classes[4] = ClassRec.cleared := by
  decide

theorem test_rule_writes :
    (run (.putRule up (.shaped ⟨.active, 2, 4, some .hours, 99, 10, 7⟩)) desk).active.rules[2][4] =
        { kind := .hours, period := 72, renewLimit := 9, roundStep := 15 } ∧
      (run (.delRule up (.shaped ⟨.active, 2, 4⟩)) desk).active.rules[2][4] = Cell.cleared := by
  decide

theorem test_profile_writes :
    (run (.putProfile up (.shaped ⟨.active, 7, 1439, 1440⟩)) desk).active.profiles[6] = ⟨1439, 1440⟩ ∧
      (answerOf (.putProfile up (.shaped ⟨.active, 0, 1, 2⟩)) desk).map Reply.status = some .badValue ∧
      (run (.delProfile up (.shaped ⟨.active, 1⟩)) desk).active.profiles[0] = Profile.cleared := by
  decide

theorem test_calendar_writes :
    (run (.putWeekday up (.shaped ⟨.active, 6, 2⟩)) desk).active.weekdays[6] = 2 ∧
      (run (.delWeekday up (.shaped ⟨.active, 0⟩)) desk).active.weekdays[0] = 0 ∧
      (run (.putException up (.shaped ⟨.active, 9430, 1⟩)) desk).active.exceptions = [⟨9430, 1⟩, ⟨9445, 0⟩] ∧
      (run (.delException up (.shaped ⟨.active, 9445⟩)) desk).active.exceptions = [] := by
  decide

theorem test_template_writes :
    (run (.putTemplate up (.shaped ⟨.active, 0, [⟨ascii "T", false, [(47, some .now)]⟩]⟩)) desk).active.templates[0] =
        [⟨ascii "T", false, [⟨47, .now⟩]⟩] ∧
      (run (.delTemplate up (.shaped ⟨.active, 1⟩)) desk).active.templates[1] = [] := by
  decide

theorem test_text_writes :
    ((run (.putText up (.shaped ⟨.active, 23, ascii "OPEN", []⟩)) desk).active.texts[23]).line1 =
        fit20 (ascii "OPEN") ∧
      (run (.delText up (.shaped ⟨.active, 23⟩)) desk).active.texts[23] = StationText.cleared := by
  decide

theorem test_open_and_close :
    (run (.openDesk up (.shaped ())) shut).slot = some { op := .opening 9424 none, requester := some up } ∧
      (run (.closeDesk up (.shaped ())) desk).day.state = .closed ∧
      (run (.closeDesk up (.shaped ())) (lending [] none)).day.grace = some 600 := by
  decide

theorem test_times :
    (run (.time up (.shaped ⟨9424, 50460⟩)) desk).clock.now = ⟨9424, 50460⟩ ∧
      (run (.time up (.shaped ⟨9425, 0⟩)) desk).clock.held = some ⟨9425, 0⟩ ∧
      (run (.setTime sup (.shaped ⟨9424, 50460⟩)) { desk with uplink := LineCtl.start }).clock.now = ⟨9424, 50460⟩ := by
  decide

def settingsOf (mask : Vector Bool 8) : SettingsParams :=
  { enableMask := mask, printerWidths := Vector.replicate 8 33#8, idleTimeout := 29, closingGrace := 31
    autoOpen := some false, autoClose := some false, highWater := 1, dateFormat := some .ymd
    allowedFeatures := ⟨FeatureSet.all, false⟩, stepLimit := 601 }

theorem test_settings :
    let t := run (.setSettings up (.shaped (settingsOf (Vector.replicate 8 true)))) desk
    t.settings.idleTimeout = 30 ∧ t.settings.closingGrace = 30 ∧ t.settings.highWater = 1024 ∧
      t.settings.stepLimit = 600 ∧ statuses t.uplink = [(7, .partiallyTaken)] := by
  decide

theorem test_bridges :
    let t := run (.bridge sup (.shaped 2)) desk
    t.stationState 2 = .bridged ∧ (run (.unbridge sup (.shaped 2)) t).stationState 2 = .idle ∧
      statuses (run (.bridge sup (.shaped 2)) (lending [] none)).supervisor = [(9, .busyStation)] := by
  decide

theorem test_restart :
    let t := run (.restart up (.shaped ())) desk
    t.restarting = some .uplink ∧ (run (.lineTransmit .uplink) (run (.lineTransmit .uplink) t)).uplink.state = .down ∧
      (run .restartWarmStart { t with uplink := LineCtl.start }).restarting = none := by
  decide

theorem test_unknown_name :
    answerOf (.unknownRequestName up (some 0xFF#8)) desk = some (Reply.bare .badRequest) ∧
      (run (.unknownRequestName up (some 0xFF#8)) desk).uplink.lastError = some (.badRequest, .unknown 0xFF#8) ∧
      answerOf (.unknownRequestName up none) desk = some (Reply.bare .badRequest) ∧
      (run (.unknownRequestName up none) desk).uplink.lastError.isSome = true ∧
      (run (.unknownRequestName up none) desk).freeIx = desk.freeIx + 1 := by
  decide

theorem test_power :
    let off := run .powerFail desk
    off.powered = false ∧ (run .powerUp off).day.state = .closed ∧ (run .powerUp off).active = desk.active ∧
      (run .powerUp (run .backupFail off)).active = Bank.cleared := by
  decide

theorem test_reset_pin :
    let held := run .resetAssert desk
    held.attn = false ∧ (run .resetRelease held).uplink.state = .down ∧ (run .resetRelease held).resetAsserted = false := by
  decide

/-! ### The hypotheses of the statements are met

Each theorem is named after a statement and shows states and operands that meet its hypotheses, clause by clause, at the
ends of their ranges where a clause has one. -/

/-- What is left to check of a journal that holds no record, with no upload in flight. -/
theorem journalSound_of {s : State} (hr : s.journal.records = []) (hu : s.upload = none)
    (h : 1 ≤ s.journal.oldest ∧ s.journal.oldest ≤ s.journal.sendMark ∧ s.journal.sendMark ≤ s.journal.nextSeq ∧
      s.journal.records.length = s.journal.unreleased ∧ s.journal.claims = s.listEntries ∧
      s.journal.unreleased + s.journal.claims ≤ ringSlots ∧
      (∀ st : Station, (s.session st).items.length ≤ listCapacity) ∧
      ∀ st : Station, (s.session st).borrower = none → (s.session st).items = []) : JournalSound s := by
  obtain ⟨h1, h2, h3, h4, h5, h6, h7, h8⟩ := h
  refine ⟨h1, h2, h3, h4, ?_, h5, h6, h7, h8, ?_⟩
  · rw [hr]
    trivial
  · intro u h
    rw [hu] at h
    cases h

/-- The session links, checked borrower by borrower. -/
theorem linksSound_of {s : State}
    (h : (∀ st : Station, ∀ n ∈ (s.session st).borrower,
        ∃ e ∈ s.active.borrowers, e.number = n ∧ e.sessionStation = some st) ∧
      (∀ e ∈ s.active.borrowers, ∀ st ∈ e.sessionStation, (s.session st).borrower = some e.number) ∧
      (s.day.state = .closed → ∀ st : Station, (s.session st).borrower = none) ∧
      ∀ b ∈ s.stagedBanks, ∀ e ∈ b.borrowers, e.sessionStation = none) : LinksSound s :=
  ⟨fun st n e => h.1 st n e, fun e he st hs => h.2.1 e he st hs, h.2.2⟩

theorem test_met_invariants :
    let s := (lending listed none).withPending [.clockTick]
    JournalSound s ∧ TablesSound s ∧ PendingSound s ∧ LinksSound s ∧ (∃ t, step s = .next t) ∧
      (s.session 2).borrower = some a := by
  have links : ∀ st : Station, ∀ n ∈ ((lending listed none).session st).borrower,
      ∃ e ∈ (lending listed none).active.borrowers, e.number = n ∧ e.sessionStation = some st := by decide
  have back : ∀ e ∈ (lending listed none).active.borrowers, ∀ st ∈ e.sessionStation,
      ((lending listed none).session st).borrower = some e.number := by decide
  refine ⟨⟨by decide, by decide, by decide, by decide, trivial, by decide, by decide, by decide, by decide, ?_⟩,
    ?_, ?_, ⟨fun st n h => links st n h, fun e he st h => back e he st h, by decide, ?_⟩, ⟨_, rfl⟩, by decide⟩
  · intro u h
    exact nomatch (show (none : Option Upload) = some u from h)
  · unfold TablesSound BankSound ascending
    decide
  · unfold PendingSound
    decide
  · decide

theorem test_met_FramesComeBackFromTheWire :
    stationFormat.start ∉ [0x00#8, 0xC3#8] ∧ stationFormat.least ≤ (List.replicate 64 0#8).length ∧
      (List.replicate 64 0#8).length ≤ stationFormat.most ∧ lineFormat.start ∉ [0x5A#8] ∧
      lineFormat.least ≤ [1#8, 2#8, 3#8].length ∧ [1#8, 2#8, 3#8].length ≤ lineFormat.most := by
  decide

theorem test_met_DamagedFramesAreDropped :
    (0 < 256 ^ stationFormat.lengthSize ∧ 0 < stationFormat.least) ∧
      (65 < 256 ^ stationFormat.lengthSize ∧ stationFormat.most < 65) ∧
      (2 < 256 ^ lineFormat.lengthSize ∧ 2 < lineFormat.least) ∧
      (1101 < 256 ^ lineFormat.lengthSize ∧ lineFormat.most < 1101) ∧
      [0#8, 0#8] ≠ bigEndian 2 (crc16 (bigEndian stationFormat.lengthSize 1 ++ [0x10#8])).toNat := by
  decide +kernel

theorem test_met_LinesGapAndTransmit : desk.running = true ∧ desk.restarting = none := by decide

def bridged2 : State := withPort 2 (fun p => { p with bridged := true, present := false }) desk

theorem test_met_HeartbeatsBringAndRefreshTheStation :
    desk.running = true ∧ desk.settings.enableMask[0] = true ∧ (desk.port 0).present = false ∧
      (desk.port 0).bridged = false ∧ (run (.heartbeat 0 [0x00#8, 0x00#8]) desk).standingText 0 = some 23 ∧
      (run (.heartbeat 0 [0x01#8, 0x00#8]) desk).standingText 0 = some 27 ∧
      (desk.port 2).present = true ∧ (desk.port 2).paperOut = false ∧ (desk.console 2).wiped = false ∧
      (bridged2.port 2).bridged = true ∧ bridged2.settings.enableMask[2] = true := by
  decide

/-- The settings of a desk whose station 2 is not enabled. -/
def without2 : Settings := { Settings.defaults with enableMask := Settings.defaults.enableMask.set 2 false }

/-- Paper runs out and comes back at an IDLE, a CHECKOUT, a WIPED and a bridged station; a heartbeat that is no heartbeat,
and a station not enabled. -/
theorem test_met_HeartbeatsBringAndRefreshTheStation_paper :
    let out (s : State) : State := withPort 2 (fun p => { p with paperOut := true }) s
    let wiped : State := withConsole 2 (fun c => { c with wiped := true }) desk
    let returned (s : State) : State := run (.heartbeat 2 [0x00#8, 0x04#8]) (out s)
    let wrong : List Byte := [0x02#8, 0x00#8]
    (∀ s ∈ [desk, lending [] none, wiped, bridged2],
      s.running = true ∧ s.settings.enableMask[2] = true ∧ ((s.port 2).present = true ∨ (s.port 2).bridged = true) ∧
        (s.port 2).paperOut = false ∧ ((out s).port 2).paperOut = true) ∧
      (wiped.console 2).wiped = true ∧ (returned desk).standingText 2 = some 23 ∧
      (returned (lending [] none)).standingText 2 = none ∧ (returned bridged2).standingText 2 = none ∧
      (bridged2.port 2).bridged = true ∧ bridged2.supervisor.state = .active ∧ (desk.port 2).bridged = false ∧
      (run (.heartbeat 2 [0x01#8, 0x00#8]) bridged2).supervisor.sendList.head? =
        some (.pass 2 [0x10#8, 0x01#8, 0x00#8]) ∧
      (∀ credit : Byte, wrong ≠ [0x00#8, credit] ∧ wrong ≠ [0x01#8, credit]) ∧
      { desk with settings := without2 }.settings.enableMask[2] = false := by
  refine ⟨by decide, by decide, by decide, by decide, by decide, by decide, by decide, by decide, by decide, ?_, by decide⟩
  intro credit
  constructor <;> intro h <;> exact absurd (List.cons.inj h).1 (by decide)

theorem test_met_InputsJoinTheSlots :
    let code (n : Nat) : List Byte := List.replicate n 0x39#8
    let full := withPort 2 (fun p => { p with slots := [.key .endKey, .key .endKey] }) desk
    desk.running = true ∧ desk.restarting = none ∧ desk.settings.enableMask[2] = true ∧
      (desk.port 2).bridged = false ∧ (desk.port 2).present = true ∧ (desk.port 2).slots.length < 2 ∧
      (full.port 2).present = true ∧ 2 ≤ (full.port 2).slots.length ∧ (desk.port 0).present = false ∧
      (desk.port 0).bridged = false ∧ (∀ x ∈ code 24, isDigit x = true) ∧ 4 ≤ (code 4).length ∧
      (code 24).length ≤ 24 ∧ 0x01#8 ≠ 0x00#8 := by
  decide

theorem test_met_BridgedFramesAreRelayed :
    bridged2.running = true ∧ bridged2.settings.enableMask[2] = true ∧ bridged2.supervisor.state = .active ∧
      (bridged2.port 2).bridged = true ∧ (bridged2.port 5).bridged = false ∧ bridged2.hears .supervisor ∧
      1 ≤ [0x10#8].length ∧ (List.replicate 64 0#8).length ≤ 64 ∧
      ¬(DroppedKind.pass = .pass ∧ Line.uplink = .supervisor ∧ bridged2.supervisor.state = .active) ∧
      ¬(DroppedKind.event = .pass ∧ Line.supervisor = .supervisor ∧ bridged2.supervisor.state = .active) ∧
      ¬(DroppedKind.emptyPass = .pass ∧ Line.supervisor = .supervisor ∧ bridged2.supervisor.state = .active) := by
  decide

theorem test_met_TheWatchLosesTheStation :
    let ends (s : State) : State := withPort 2 (fun p => { p with watch := some 10 }) s
    (∀ s ∈ [ends bridged2, ends desk, ends (lending listed none), ends (lending [] none)],
      s.running = true ∧ (s.port 2).watch = some 10 ∧ staysOpen s 2) ∧
      (¬staysOpen (ends { desk with day := { desk.day with state := .closing, grace := some 5 } }) 2) ∧
      ((ends bridged2).port 2).bridged = true ∧ ((ends desk).port 2).bridged = false ∧
      ((ends desk).session 2).borrower = none ∧ ((ends (lending listed none)).session 2).borrower = some a ∧
      ((ends (lending listed none)).session 2).items ≠ [] ∧ 1 ≤ (ends (lending [] none)).journal.free := by
  decide

def printing : State := withConsole 2 (fun c => { c with queue := [⟨[ascii "X"]⟩] }) desk

theorem test_met_OneSendOneLine :
    let sent := withConsole 2 (fun c => { c with headSent := 1 }) printing
    printing.running = true ∧ printing.atDesk 2 = true ∧ (printing.port 2).paperOut = false ∧
      0 < (printing.port 2).credit ∧ (printing.port 2).down.countP DownFrame.isPrint < 8 ∧
      (printing.console 2).queue = ⟨[ascii "X"]⟩ :: [] ∧
      [ascii "X"][(printing.console 2).headSent]? = some (ascii "X") ∧ (sent.console 2).queue = ⟨[ascii "X"]⟩ :: [] ∧
      [ascii "X"].length ≤ (sent.console 2).headSent := by
  decide

theorem test_met_BridgeAndUnbridge :
    desk.admits .supervisor ∧ desk.stationState 2 = .idle ∧ desk.stationState 0 = .absent ∧
      (lending [] none).stationState 2 = .checkout ∧ (withMode 2 .returns desk).stationState 2 = .returns ∧
      bridged2.stationState 2 = .bridged ∧ bridged2.admits .supervisor ∧ (bridged2.session 2).borrower = none ∧
      (bridged2.session 2).mode = .normal ∧
      (bridged2.settings.enableMask[(2 : Station)] && (bridged2.port 2).watch.isSome) = true ∧
      ((withPort 2 (fun p => { p with watch := none }) bridged2).port 2).watch.isSome = false := by
  decide

theorem test_met_TheArbiterGoesRound :
    let s := scanned desk 1 "0042"
    s.wiping = false ∧ s.restarting = none ∧ s.arbiterPick = some (1, .scan [0, 0, 4, 2]) ∧
      (s.port 1).slots.head? = some (.scan [0, 0, 4, 2]) ∧
      (∀ j : Fin 8, j < 7 → (s.port (s.lastServed + 1 + j)).slots = []) ∧
      (holding .wipe s).wiping = true := by
  decide

/-- A card that no entry holds. -/
def newcomer : Number := ⟨20030000, 8⟩

def newcomerCode : List Nat := [2, 0, 0, 3, 0, 0, 0, 0, w31Expected [2, 0, 0, 3, 0, 0, 0, 0]]

/-- A's card blocked, station 2 armed by a staff member who covers the block. -/
def armed : State :=
  { desk.setSession 2 { Session.empty with overrideStaff := some ⟨7301, 4⟩, armedUntil := some 50460 } with
    active :=
      { hall with
        staff := [{ number := ⟨7301, 4⟩, overrides := { OverrideSet.empty with admin := true } }]
        borrowers := [{ entryA with blocks := ⟨true, false⟩ }, entryB] } }

theorem test_met_BorrowerScansOpenSessions :
    let s := scanned desk 2 "200314572"
    let u := withInput desk 2 (.scan newcomerCode)
    let v := scanned armed 2 "200314572"
    (s.takesNext 2 (.scan (digitsOf "200314572")) ∧
        classify s.active.prefixTable (digitsOf "200314572") = .borrower a 2 ∧ s.day.state = .opened ∧ s.attended 2 ∧
        (s.session 2).borrower = none ∧ s.active.borrower a = some entryA ∧
        ∀ p ∈ borrowerChecks s 2 entryA, p.2 = true → coveredBy s (armedAt s 2) p.1 = true) ∧
      (u.takesNext 2 (.scan newcomerCode) ∧ classify u.active.prefixTable newcomerCode = .borrower newcomer 2 ∧
        u.day.state = .opened ∧ u.attended 2 ∧ (u.session 2).borrower = none ∧ u.active.borrower newcomer = none ∧
        u.active.makeRoom = some u.active) ∧
      (v.takesNext 2 (.scan (digitsOf "200314572")) ∧
        v.active.borrower a = some { entryA with blocks := ⟨true, false⟩ } ∧
        (borrowerChecks v 2 { entryA with blocks := ⟨true, false⟩ }).any Prod.snd = true ∧
        ∀ p ∈ borrowerChecks v 2 { entryA with blocks := ⟨true, false⟩ },
          p.2 = true → coveredBy v (armedAt v 2) p.1 = true) := by
  decide

/-- B, expired or not, is scanned where A's session is open. -/
def follows (expiry : Nat) : State :=
  scanned
    { withSession 2 a listed none desk with
      active :=
        { (withSession 2 a listed none desk).active with
          borrowers := [{ entryA with sessionStation := some 2 }, { entryB with expiryDay := expiry }] } }
    2 "200319993"

theorem test_met_BorrowerScansCloseTheSession :
    ∀ expiry ∈ [9424, 9425],
      let s := follows expiry
      let x : Borrower := { entryB with expiryDay := expiry }
      s.takesNext 2 (.scan (digitsOf "200319993")) ∧
        classify s.active.prefixTable (digitsOf "200319993") = .borrower b 2 ∧ s.day.state = .opened ∧ s.attended 2 ∧
        (s.session 2).borrower = some a ∧ a ≠ b ∧
        s.active.borrower a = some { entryA with sessionStation := some 2 } ∧ s.active.borrower b = some x ∧
        (borrowerChecks s 2 x).find? Prod.snd = (if expiry = 9424 then some (.expired, true) else none) := by
  decide

theorem test_met_BorrowerScansAreRefused :
    let closedScan := scanned shut 2 "200314572"
    let own := scanned (lending [] none) 2 "200314572"
    let expired := scanned { desk with clock := { desk.clock with now := ⟨9440, 0⟩ } } 2 "200314572"
    (∀ s ∈ [closedScan, own, expired],
      s.takesNext 2 (.scan (digitsOf "200314572")) ∧
        classify s.active.prefixTable (digitsOf "200314572") = .borrower a 2 ∧ s.attended 2) ∧
      closedScan.day.state ≠ .opened ∧ own.day.state = .opened ∧ (own.session 2).borrower = some a ∧
      expired.day.state = .opened ∧ (expired.session 2).borrower = none ∧ expired.active.borrower a = some entryA ∧
      ((borrowerChecks expired 2 entryA).find? fun p => p.2 && !coveredBy expired (armedAt expired 2) p.1) =
        some (.expired, true) := by
  decide

/-- A's entry while station 2 lends to A. -/
def entryA2 : Borrower := { entryA with sessionStation := some 2 }

/-- The journal holds so much that only as many slots are free. -/
def withFree (n : Nat) (s : State) : State := { s with journal := { s.journal with claims := 16384 - n } }

theorem test_met_ItemScansJoinTheList :
    let s := withFree 33 (scanned (lending (listed.take 2) none) 2 "310000337")
    s.takesNext 2 (.scan (digitsOf "310000337")) ∧
      classify s.active.prefixTable (digitsOf "310000337") = .item i3 4 ∧ s.attended 2 ∧
      (s.session 2).borrower = some a ∧ s.active.borrower a = some entryA2 ∧
      ((s.session 2).items.any fun e => e.item = i3) = false ∧
      (∀ p ∈ itemChecksInOrder s 2 entryA2 i3 4, p.2 = false) ∧
      itemDue s entryA2 i3 4 = .ok ⟨⟨9424, 1080⟩, false, false⟩ ∧ 32 < s.journal.free := by
  decide

def fullList : List ListEntry := (List.range 12).map fun k => lent ⟨32000000 + k, 8⟩ 4 ⟨9440, 1200⟩ false false

theorem test_met_ItemScansAreRefused :
    let code := digitsOf "310000337"
    let idle := scanned desk 2 "310000337"
    let full := scanned (lending fullList none) 2 "310000337"
    let own := scanned (lending listed none) 2 "310000337"
    let held := scanned (lending [] none) 2 "310000221"
    let late := scanned { lending [] none with clock := { desk.clock with now := ⟨9441, 0⟩ } } 2 "310000337"
    let crowded := withFree 32 (scanned (lending [] none) 2 "310000337")
    (∀ s ∈ [idle, full, own, late, crowded],
      s.takesNext 2 (.scan code) ∧ classify s.active.prefixTable code = .item i3 4 ∧ s.attended 2) ∧
      ((idle.session 2).borrower = none ∧ (idle.session 2).mode = .normal) ∧
      (∀ s ∈ [full, own, held, late, crowded],
        (s.session 2).borrower = some a ∧ s.active.borrower a = some entryA2) ∧
      12 ≤ (full.session 2).items.length ∧ (own.session 2).items.length < 12 ∧
      ((own.session 2).items.any fun e => decide (e.item = i3)) = true ∧
      ((held.session 2).items.any fun e => decide (e.item = i2)) = false ∧
      (itemChecksInOrder held 2 entryA2 i2 4).find? Prod.snd = some (.held, true) ∧
      (∀ p ∈ itemChecksInOrder late 2 entryA2 i3 4, p.2 = false) ∧
      itemDue late entryA2 i3 4 = .error .termEnded ∧
      (∀ p ∈ itemChecksInOrder crowded 2 entryA2 i3 4, p.2 = false) ∧
      itemDue crowded entryA2 i3 4 = .ok ⟨⟨9424, 1080⟩, false, false⟩ ∧ crowded.journal.free ≤ 32 := by
  decide

theorem test_met_TheLoanLimitHolds :
    let s := scanned (lending (listed.take 2) none) 2 "310000337"
    (∃ t, exec .itemScan s = .next t) ∧ (s.session 2).borrower = some a ∧ s.active.borrower a = some entryA2 ∧
      coveredBy s (s.session 2).overrideStaff .limit = false ∧
      entryA2.loansHeld + (s.session 2).items.countP ListEntry.isCheckout ≤
        (s.active.categories[entryA2.category]).loanLimit := by
  refine ⟨⟨_, rfl⟩, ?_⟩
  decide

theorem test_met_StaffScansSetOverrides :
    let code := digitsOf "997301"
    let other := digitsOf "997302"
    let idle := scanned desk 2 "997301"
    let session := scanned (lending [] none) 2 "997301"
    let unknown := scanned desk 2 "997302"
    (∀ s ∈ [idle, session],
      s.takesNext 2 (.scan code) ∧ classify s.active.prefixTable code = .staff ⟨7301, 4⟩ ∧ s.attended 2 ∧
        (s.active.staff.any fun e => e.number = ⟨7301, 4⟩) = true) ∧
      unknown.takesNext 2 (.scan other) ∧ classify unknown.active.prefixTable other = .staff ⟨7302, 4⟩ ∧
      unknown.attended 2 ∧ (unknown.active.staff.any fun e => e.number = ⟨7302, 4⟩) = false := by
  decide

theorem test_met_OtherScansAreIgnoredOrRefused :
    let ignored := scanned desk 2 "0042"
    let refused := scanned desk 2 "512345"
    (ignored.takesNext 2 (.scan (digitsOf "0042")) ∧ ignored.attended 2 ∧
        classify ignored.active.prefixTable (digitsOf "0042") = .ignore ∧ (ignored.console 2).wiped = false) ∧
      refused.takesNext 2 (.scan (digitsOf "512345")) ∧ refused.attended 2 ∧
      classify refused.active.prefixTable (digitsOf "512345") = .refused .unknownCode := by
  decide

/-- Station 2's session is the last one open while the desk closes. -/
def lastOne : State := { withSession 2 a listed none desk with day := closing.day }

theorem test_met_EndClosesTheSession :
    let open2 := pressed (lending listed none) 2 .endKey
    let empty := pressed (lending [] none) 2 .endKey
    let last := pressed lastOne 2 .endKey
    let idle := pressed desk 2 .endKey
    (∀ s ∈ [open2, empty, last, idle], s.takesNext 2 (.key .endKey) ∧ s.attended 2) ∧
      (∀ s ∈ [open2, empty, last], (s.session 2).borrower = some a ∧ s.active.borrower a = some entryA2) ∧
      staysOpen open2 2 ∧ staysOpen empty 2 ∧ ¬staysOpen last 2 ∧ (idle.session 2).borrower = none ∧
      (idle.console 2).wiped = false := by
  decide

theorem test_met_EndClosesTheSession_sound : JournalSound (pressed lastOne 2 .endKey) :=
  journalSound_of rfl rfl (by decide)

theorem test_met_CancelDropsTheSession :
    let session := pressed (lending listed none) 2 .cancel
    let idle := pressed armed 2 .cancel
    let last := pressed lastOne 2 .cancel
    (∀ s ∈ [session, idle, last], s.takesNext 2 (.key .cancel) ∧ s.attended 2) ∧ (session.session 2).borrower = some a ∧
      staysOpen session 2 ∧ (last.session 2).borrower = some a ∧ ¬staysOpen last 2 ∧ (idle.session 2).borrower = none ∧ (idle.session 2).armedUntil ≠ none ∧
      (idle.console 2).wiped = false := by
  decide

theorem test_met_KeysSetTheModeAndReprint :
    let session := pressed (lending listed none) 2 .returnKey
    let idle := pressed desk 2 .returnKey
    let again := pressed (withMode 2 .returns desk) 2 .returnKey
    let back := pressed (withMode 2 .returns desk) 2 .checkout
    let none2 := pressed desk 2 .checkout
    let copied (n : Nat) : State :=
      pressed (withConsole 2 (fun c => { c with copy := some ⟨[]⟩, queue := List.replicate n ⟨[]⟩ }) desk) 2 .reprint
    let noCopy := pressed desk 2 .reprint
    (∀ s ∈ [session, idle, again], s.takesNext 2 (.key .returnKey) ∧ s.attended 2) ∧
      (session.session 2).borrower = some a ∧ session.active.borrower a = some entryA2 ∧ staysOpen session 2 ∧
      (idle.session 2).borrower = none ∧ (idle.session 2).mode = .normal ∧ staysOpen idle 2 ∧
      (again.session 2).mode = .returns ∧ (again.console 2).wiped = false ∧
      (∀ s ∈ [back, none2], s.takesNext 2 (.key .checkout) ∧ s.attended 2) ∧ (back.session 2).mode = .returns ∧
      (none2.session 2).mode = .normal ∧ (none2.console 2).wiped = false ∧
      (∀ s ∈ [noCopy, copied 1, copied 2],
        s.takesNext 2 (.key .reprint) ∧ s.attended 2 ∧ (s.console 2).wiped = false) ∧
      (noCopy.console 2).copy = none ∧ ((copied 1).console 2).copy = some ⟨[]⟩ ∧
      ((copied 1).console 2).queue.length < 2 ∧ 2 ≤ ((copied 2).console 2).queue.length := by
  decide

theorem test_met_KeysSetTheModeAndReprint_last :
    let s := pressed lastOne 2 .returnKey
    s.takesNext 2 (.key .returnKey) ∧ s.attended 2 ∧ (s.session 2).borrower = some a ∧ ¬staysOpen s 2 := by
  decide

theorem test_met_KeysSetTheModeAndReprint_sound : JournalSound (pressed lastOne 2 .returnKey) :=
  journalSound_of rfl rfl (by decide)

theorem test_met_TimersRunOut :
    let idle := (lending listed none).setSession 2 { sessionOf a listed none with idle := 0 }
    let graceOver : State := { lending [] none with day := { closing.day with graceExpired := true } }
    let nobody : State := { desk with day := closing.day }
    (∀ s ∈ [idle, graceOver], s.running = true ∧ s.attended 2 ∧ (s.session 2).borrower = some a ∧
      s.active.borrower a = some entryA2 ∧ (s.console 2).wiped = false ∧ staysOpen s 2) ∧
      (idle.session 2).idle = 0 ∧ graceOver.day.graceExpired = true ∧
      (∀ s ∈ [{ lastOne with day := { closing.day with graceExpired := true } },
          lastOne.setSession 2 { lastOne.session 2 with idle := 0 }],
        s.running = true ∧ s.attended 2 ∧ (s.session 2).borrower ≠ none ∧ ¬staysOpen s 2 ∧
          ((s.session 2).idle = 0 ∨ s.day.graceExpired = true)) ∧
      ({ armed with clock := { armed.clock with now := ⟨9424, 50460⟩ } }.session 2).armedUntil = some 50460 ∧
      (armed.session 2).borrower = none ∧
      (∀ s ∈ [nobody, closing], s.day.state = .closing ∧ s.day.grace = some 0 ∧ s.day.graceExpired = false) ∧
      (∀ o : Station, (nobody.session o).borrower = none) ∧ (closing.session 2).borrower ≠ none := by
  decide

theorem test_met_TimersRunOut_sound :
    JournalSound { lastOne with day := { closing.day with graceExpired := true } } ∧
      JournalSound (lastOne.setSession 2 { lastOne.session 2 with idle := 0 }) :=
  ⟨journalSound_of rfl rfl (by decide), journalSound_of rfl rfl (by decide)⟩

/-- Station 2 in RETURNS. -/
def returning (digits : String) (s : State) : State := scanned (withMode 2 .returns s) 2 digits

def waiting : State :=
  { desk with active := hall.mapQueue i2 fun q => q.map fun h => { h with pickupBy := some 9424 } }

theorem test_met_ReturnsAreTakenOrRefused :
    let free3 := returning "310000337" (withFree 33 desk)
    let wait := returning "310000221" (withFree 33 waiting)
    let route := returning "310000221" (withFree 34 desk)
    let closedDay := returning "310000221" shut
    let listed5 := returning "310000221" (withSession 5 b (listed.drop 1) none desk)
    let full := returning "310000221" (withFree 33 desk)
    (∀ s ∈ [wait, route, closedDay, listed5, full],
      s.takesNext 2 (.scan (digitsOf "310000221")) ∧
        classify s.active.prefixTable (digitsOf "310000221") = .item i2 4 ∧ s.attended 2 ∧
        (s.session 2).borrower = none ∧ (s.session 2).mode = .returns) ∧
      (free3.takesNext 2 (.scan (digitsOf "310000337")) ∧
        classify free3.active.prefixTable (digitsOf "310000337") = .item i3 4 ∧ free3.active.queueOf i3 = [] ∧
        33 ≤ free3.journal.free) ∧
      (∀ s ∈ [free3, wait, route, full],
        s.day.state ≠ .closed ∧ ∀ o : Station, ((s.session o).items.any fun e => e.item = i2) = false) ∧
      (wait.active.queueOf i2).map Hold.pickupBy = [some 9424] ∧ 33 ≤ wait.journal.free ∧
      (route.active.queueOf i2).map Hold.pickupBy = [none] ∧ 34 ≤ route.journal.free ∧
      closedDay.day.state = .closed ∧ listed5.day.state ≠ .closed ∧
      ((listed5.session 5).items.any fun e => e.item = i2) = true ∧ full.journal.free < 34 := by
  decide

theorem test_met_ATickMovesClockAndTimers :
    let auto (s : State) : State :=
      { s with
        settings := { s.settings with autoClose := true }, clock := { s.clock with now := ⟨9424, 71999⟩ } }
    (desk.running = true ∧ desk.settings.autoClose = false ∧ desk.settings.autoOpen = false) ∧
      { desk with powered := false }.running = false ∧
      (∀ s ∈ [auto desk, auto (lending [] none)],
        s.running = true ∧ s.settings.autoClose = true ∧ s.settings.autoOpen = false ∧ s.day.state = .opened ∧
          s.day.openDay = some 9424 ∧ hoursOf s.active 9424 = some ⟨540, 1200⟩ ∧
          s.clock.now.day * 86400 + s.clock.now.second < 9424 * 86400 + 1200 * 60 ∧
          9424 * 86400 + 1200 * 60 ≤ (nextSecond s.clock.now).day * 86400 + (nextSecond s.clock.now).second) ∧
      ((auto (lending [] none)).session 2).borrower ≠ none ∧
      ∀ st : Station, ((auto desk).session st).borrower = none := by
  decide

/-- At the rollover: a desk left OPEN on day 9,445, which is not open, and one that auto-open may open at 09:00. -/
theorem test_met_ATickMovesClockAndTimers_auto :
    let late (s : State) : State :=
      { s with
        settings := { s.settings with autoClose := true }, day := { s.day with openDay := some 9445 }
        clock := { s.clock with now := ⟨9445, 86399⟩ } }
    let early (second : Nat) : State :=
      { shut with
        settings := { shut.settings with autoOpen := true }, day := { shut.day with openDay := some 9423 }
        clock := { shut.clock with now := ⟨9424, second⟩ } }
    (∀ s ∈ [late desk, late (lending [] none)],
      s.running = true ∧ s.settings.autoClose = true ∧ s.day.state = .opened ∧ s.day.openDay = some 9445 ∧
        hoursOf s.active 9445 = none ∧ s.clock.now.day * 86400 + s.clock.now.second < 9445 * 86400 + 86400 ∧
        9445 * 86400 + 86400 ≤ (nextSecond s.clock.now).day * 86400 + (nextSecond s.clock.now).second) ∧
      (∀ s ∈ [early 32399, early 50400],
        s.running = true ∧ s.settings.autoClose = false ∧ s.slot = none ∧ s.day.state = .closed ∧
          s.clock.valid = true ∧ s.day.openDay ≠ some 9424 ∧ hoursOf s.active 9424 = some ⟨540, 1200⟩) ∧
      (nextSecond ⟨9424, 32399⟩).second / 60 = 540 ∧ 32399 / 60 = 539 ∧
      (run .clockTick (early 32399)).slot = some { op := .opening 9424 none, requester := none } ∧
      (run .clockTick (early 50400)).slot = none ∧ (run .clockTick (late desk)).day.state = .closed ∧
      (run .clockTick (late (lending [] none))).day.state = .closing := by
  decide

theorem test_met_TheDeskOpensAndCloses :
    let noClock : State := { shut with clock := { shut.clock with valid := false } }
    (desk.admits .uplink ∧ desk.slot = none ∧ desk.day.state ≠ .closed) ∧
      (shut.admits .uplink ∧ shut.slot = none ∧ shut.clock.valid = true ∧ shut.day.state = .closed) ∧
      (noClock.slot = none ∧ noClock.clock.valid = false ∧ (holding .commit shut).slot ≠ none) ∧
      (autoDue.running = true ∧ autoDue.settings.autoOpen = true ∧ autoDue.day.state = .closed ∧
        autoDue.clock.valid = true ∧ autoDue.day.openDay ≠ some autoDue.clock.now.day ∧ autoDue.slot = none ∧
        hoursOf autoDue.active autoDue.clock.now.day = some ⟨540, 1200⟩ ∧ 540 ≤ autoDue.clock.now.second / 60 ∧
        autoDue.clock.now.second / 60 < 1200) ∧
      desk.settings.autoOpen = false ∧
      ((holding .wipe desk).wiping = true ∧ desk.wiping = false ∧ shut.wiping = false ∧
        closing.day.state = .closing ∧ closing.wiping = false ∧ (lending [] none).day.state = .opened ∧
        ((lending [] none).session 2).borrower ≠ none ∧ desk.day.state = .opened ∧
        ∀ st : Station, (desk.session st).borrower = none) := by
  decide

theorem test_met_OpeningsSweepAndEnd :
    let s := sweeping
    let ended := holding (.opening 9424 (some i3)) shut
    let kept := holding (.opening 9424 none) { shut with active := waiting.active }
    (s.running = true ∧ s.slot = some { op := .opening 9424 none, requester := some up } ∧
        s.active.items.map (fun e => (e.number, e.queue.length)) = [(i2, 2)] ∧
        (s.active.queueOf i2).map Hold.pickupBy = [some 9423, none] ∧ 2 ≤ s.journal.free) ∧
      (kept.active.items.map Item.number = [i2, i3] ∧ (kept.active.queueOf i2).map Hold.pickupBy = [some 9424]) ∧
      ended.running = true ∧ ended.slot = some { op := .opening 9424 (some i3), requester := some up } ∧
      (ended.active.items.filter fun x => i3.lt x.number) = [] ∧ 1 ≤ ended.journal.free ∧
      ended.uplink.state = .active ∧ (run .openEnd ended).stationState 2 = .idle := by
  decide

theorem test_met_StagingClearsTheStagedBank :
    shut.admitsOwner .uplink ∧ shut.slot = none ∧ (holding .commit shut).admitsOwner .uplink ∧
      (holding .commit shut).slot ≠ none ∧ (holding (.stageBegin hall) shut).running = true ∧
      shut.settings.autoOpen = false := by
  decide

def loaded : State := { shut with stagedState := .loading, staged := hall }

theorem test_met_CommitChangesOver :
    loaded.admitsOwner .uplink ∧ loaded.slot = none ∧ loaded.day.state = .closed ∧ loaded.stagedState = .loading ∧
      loaded.journal.unreleased = 0 ∧ loaded.staged.borrowers.length = 2 ∧ loaded.staged.items.length = 2 ∧
      loaded.staged.exceptions.length = 1 ∧ (loaded.staged.items.map fun e => e.queue.length).sum = 1 ∧
      shut.stagedState ≠ .loading ∧ (withRecords 1 loaded).journal.unreleased ≠ 0 ∧
      (holding .commit loaded).running = true ∧ (holding .commit loaded).settings.autoOpen = false ∧
      (holding .commit loaded).slot = some { op := .commit, requester := some up } ∧
      1 ≤ (holding .commit loaded).journal.free ∧ (holding .commit (withRecords 1 loaded)).journal.unreleased ≠ 0 := by
  decide

theorem test_met_WipesEmptyAndScrub :
    let scrub (n : Nat) : State := holding .wipe { shut with store := ⟨true, false, true, n⟩ }
    let sending : State := { shut with upload := some { tag := 3, endPoint := 501, clamped := false, sent := 0 } }
    shut.hears .uplink ∧ shut.slot = none ∧ (scrub 0).slot ≠ none ∧ (shut.port 2).present = true ∧ shut.attended 2 ∧
      sending.upload = some { tag := 3, endPoint := 501, clamped := false, sent := 0 } ∧
      (scrub 8191).running = true ∧ (scrub 8191).settings.autoOpen = false ∧ (scrub 8191).store.scrubMark = true ∧
      (scrub 8191).slot = some { op := .wipe, requester := some up } ∧ 8191 ≤ (scrub 8191).store.scrubPos := by
  decide

theorem test_met_EventsEndWithTheirCauses :
    desk.uplink.state = .active ∧ desk.uplink.granted.events = true ∧
      { desk with clock := { desk.clock with held := some ⟨0, 0⟩ } }.clock.held.isSome ≠ desk.clock.held.isSome := by
  decide

theorem test_met_AttnFollowsTheSets : desk.powered = true := by decide

theorem test_met_HelloAndLivenessDecideTheLine :
    let lapsed (l : Line) : State := desk.setLine l { activeLine with liveness := some 30 }
    desk.running = true ∧ desk.restarting = none ∧ desk.uplink.state = .active ∧ desk.supervisor.state = .active ∧
      (1#8 ≠ 2#8) ∧ (∀ l ∈ [Line.uplink, .supervisor],
        (lapsed l).running = true ∧ ((lapsed l).line l).liveness = some 30 ∧ (lapsed l).restarting ≠ some l) := by
  decide

theorem test_met_RequestsMeetTheirTests :
    let c : Instr := .delItem sup (.shaped ⟨.active, i1⟩)
    let d : Instr := .delItem up (.shaped ⟨.staged, i1⟩)
    desk.running = true ∧ desk.restarting = none ∧ tableWriteOf c = some (sup, .delItem, .active) ∧
      refusedBefore desk sup .delItem true false = some .notOwner ∧ tableWriteOf d = some (up, .delItem, .staged) ∧
      refusedBefore desk up .delItem true false = none ∧ desk.slot = none ∧ desk.stagedState = .empty ∧
      refusedBefore (holding .commit desk) up .delItem true false = none ∧ (holding .commit desk).slot ≠ none ∧
      refusedBefore State.reset up .delItem true false = some .wrongState ∧
      refusedBefore { desk with key := key5 } up .delItem true false = some .locked := by
  decide

/-- Requests of each class that the tests of R180 turn away: a line DOWN and REFUSED, a malformed content, a locked line, a
line that is not the owner. -/
theorem test_met_RequestsMeetTheirTests_classes :
    let locked : State := { desk with key := key5 }
    let refused : State := { desk with supervisor := { activeLine with state := .refused } }
    let long : PutPrefixParams := ⟨.active, 0, List.replicate 17 none, 4, 16, some .none, some .item, 0, 4⟩
    let post (target : NoteTarget) : Instr := .postNote sup (.shaped ⟨some target, ascii "HI"⟩)
    let turnedAway (s : State) (c : Instr) : Option Status :=
      (testedRequest c).bind fun r => refusedBefore s r.q r.name r.ownerOnly r.malformed
    turnedAway State.reset (.nop up (.shaped ())) = some .wrongState ∧
      turnedAway refused (.readItem sup (.shaped (.byIndex .active 0))) = some .version ∧
      (∀ c ∈ [.status up .malformed, .readItem up .malformed, .delItem up .malformed, .upload up .malformed,
          .openDesk up .malformed, .putPrefix up (.shaped long)],
        turnedAway locked c = some .badRequest) ∧
      (∀ c ∈ [.readSettings up (.shaped ()), .release up (.shaped 500), .closeDesk up (.shaped ()), post .slips],
        turnedAway locked c = some .locked) ∧
      turnedAway locked (.wipe up (.shaped ())) = none ∧
      (∀ c ∈ [.stageBegin sup (.shaped ()), .commit sup (.shaped ⟨0, 0, 0, 0⟩),
          .setSettings sup (.shaped (settingsOf (Vector.replicate 8 true))), post .slips],
        turnedAway desk c = some .notOwner) ∧
      turnedAway desk (post .server) = none := by
  decide

theorem test_met_KeysLockTheLines :
    let s : State := { desk with key := key5, uplink := { activeLine with unlocked := true } }
    desk.hears .uplink ∧ desk.admits .uplink ∧ s.hears .uplink ∧ s.admits .uplink ∧
      desk.key = Vector.replicate 16 0x00#8 ∧ s.key ≠ Vector.replicate 16 0x00#8 ∧ s.key ≠ Vector.replicate 16 0xFF#8 ∧
      noKey ≠ s.key := by
  decide

theorem test_met_AttentionIsAcknowledgedAndMasked :
    desk.hears .supervisor ∧ (⟨CauseSet.all, true⟩ : Named CauseSet).outside = true ∧
      (⟨CauseSet.all, false⟩ : Named CauseSet).outside = false := by
  decide

theorem test_met_ReadNoteClearsTheMarks : desk.hears .uplink ∧ desk.hears .supervisor := by decide

theorem test_met_PostsFillTheNotes :
    let good (t : Text) : Bool := t.all fun x => decide (0x20 ≤ x.toNat ∧ x.toNat ≤ 0x7E)
    desk.admits .uplink ∧ desk.admits .supervisor ∧ good [0x20#8] = true ∧ good [0x7E#8] = true ∧
      good [0x1F#8] = false ∧ good [0x7F#8] = false ∧ good [] = true ∧ desk.owner = .uplink ∧
      desk.owner ≠ .supervisor ∧ desk.supervisor.state = .active ∧ desk.supervisor.granted.notes = true ∧
      desk.supervisor.sendList.countP LineFrame.unsolicited < 8 := by
  decide

theorem test_met_ReadsAnswerAndChangeNothing :
    let c : CacheEntry := ⟨i2, a, ⟨9440, 1200⟩, 0, 9420⟩
    let s : State := { withRecords 1 desk with cache := [c] }
    s.hears .uplink ∧ s.admits .uplink ∧ (s.bank .active).borrowers.find? (fun e => e.number = a) = some entryA ∧
      ((s.bank .active).items.find? (fun e => e.number = i3)).map Item.queue = some [] ∧
      (s.bank .active).borrowers.find? (fun e => e.number = newcomer) = none ∧
      (s.bank .active).items.find? (fun e => e.number = i1) = none ∧ s.cache[0]? = some c ∧
      (∀ x ∈ s.cache, x.item ≠ i1) ∧ 500 < s.journal.oldest ∧ s.journal.oldest ≤ 501 := by
  decide

/-- The reply of a RESTART, and states in which the warm start is due, not yet due, or due at a line that has failed. -/
def restartReply : LineFrame := .reply 7 { status := .ok, results := .restarting }

def restartingWith (c : LineCtl) (s : State) : State := { s with restarting := some .uplink, uplink := c }

theorem test_met_RestartEndsInAWarmStart :
    let gone := restartingWith activeLine desk
    let waits := restartingWith { activeLine with sendList := [restartReply] } desk
    let going := restartingWith { activeLine with wire := some restartReply } desk
    let failed := restartingWith { activeLine with wire := some restartReply, liveness := some 30 } desk
    let down := restartingWith LineCtl.start desk
    desk.admits .uplink ∧
      (∀ s ∈ [gone, waits, going, failed, down],
        s.running = true ∧ s.restarting = some .uplink ∧ s.settings.autoOpen = false ∧ (s.port 2).bridged = false ∧
          ∀ st : Station, (s.session st).borrower = none) ∧
      ((∀ f ∈ (gone.line .uplink).sendList, f.isRestartReply = false) ∧
        (gone.line .uplink).wire.any LineFrame.isRestartReply = false) ∧
      (waits.line .uplink).state ≠ .down ∧ (waits.line .uplink).sendList.any LineFrame.isRestartReply = true ∧
      (going.line .uplink).wire.any LineFrame.isRestartReply = true ∧ (failed.line .uplink).liveness = some 30 ∧
      (down.line .uplink).state = .down ∧ fromManagementLine (.restart up (.shaped ())) = true ∧
      fromManagementLine (.unknownRequestName sup none) = true ∧ isDecision .reprintKey = true ∧
      ([] : List Byte).head? ≠ some 0x00#8 ∧ [0x01#8].head? ≠ some 0x00#8 := by
  decide

/-- An open desk with two sessions, auto-open on: what a warm start converts, closes and opens again. -/
def interrupted : State :=
  { lending listed (some ⟨7301, 4⟩) with
    day := { desk.day with openDay := some 9423 }
    settings := { desk.settings with autoOpen := true } }

theorem test_met_RestartEndsInAWarmStart_sessions :
    let s := restartingWith { activeLine with wire := some restartReply } interrupted
    let t := run (.lineTransmit .uplink) s
    s.running = true ∧ s.restarting = some .uplink ∧ (s.session 2).borrower = some a ∧
      t.journal.records.map Record.kind = [.checkout, .checkout, .checkout, .dayClose] ∧
      (t.journal.records.map fun r => r.flags.unconfirmed) = [true, true, true, false] ∧ t.journal.claims = 0 ∧
      (t.active.borrower a).map Borrower.pending = some 3 ∧
      t.slot = some { op := .opening 9424 none, requester := none } ∧ t.day.state = .closed := by
  decide

theorem test_met_RestartEndsInAWarmStart_sound :
    let s := restartingWith { activeLine with wire := some restartReply } interrupted
    JournalSound s ∧ TablesSound s ∧ LinksSound s := by
  refine ⟨journalSound_of rfl rfl (by decide), ?_, linksSound_of (by decide)⟩
  unfold TablesSound BankSound ascending
  decide

theorem test_met_SupervisorWritesAreJournaled :
    sup.line = .supervisor ∧ up.line = .uplink ∧ 1 ≤ desk.journal.free ∧ (withFree 0 desk).journal.free = 0 ∧
      Reply.ok.status.isRefusal = false ∧ ReqName.putItem.isBasic = false ∧ desk.settings.autoClose = false ∧
      desk.settings.autoOpen = false := by
  decide

/-- A's entry with two unreleased records. -/
def entryAPending : Borrower := { entryA with pending := 2 }

theorem test_met_BorrowerWrites :
    let s : State := { desk with active := { hall with borrowers := [entryAPending] } }
    desk.admitsWrite .uplink .active ∧ loaded.admitsWrite .uplink .staged ∧ 4 ≤ a.digits ∧ a.digits ≤ 14 ∧
      desk.active.borrowers.find? (fun e => e.number = a) = some entryA ∧ entryA.pending = 0 ∧
      entryA.sessionStation = none ∧ entryA.retiring = false ∧
      s.active.borrowers.find? (fun e => e.number = a) = some entryAPending ∧ 0 < entryAPending.pending ∧
      desk.active.borrowers.find? (fun e => e.number = newcomer) = none ∧ desk.active.makeRoom = some desk.active := by
  decide

/-- A bank whose borrower table is full, none of its entries evictable; with an evictable one in front. -/
def fullBank (provisional : Bool) : Bank :=
  { Bank.cleared with borrowers := { entryA with provisional := provisional } :: List.replicate 16383 entryB }

theorem oldestEvictable_replicate (e : Borrower) (h : e.evictable = false) (n : Nat) :
    oldestEvictable (List.replicate n e) = none := by
  induction n with
  | zero => rfl
  | succ n ih => simp [List.replicate_succ, oldestEvictable, ih, h]

theorem makeRoom_none (t : Bank) (full : 16384 ≤ t.borrowers.length) (none_left : oldestEvictable t.borrowers = none) :
    t.makeRoom = none := by
  unfold Bank.makeRoom borrowerCapacity
  rw [if_neg (by omega), none_left]

/-- A full table without a candidate: the newcomer's scan and PUT_BORROWER find no room. -/
theorem test_met_TableFull :
    let s := withInput { desk with active := { fullBank false with prefixTable := prefixes } } 2 (.scan newcomerCode)
    s.takesNext 2 (.scan newcomerCode) ∧ classify s.active.prefixTable newcomerCode = .borrower newcomer 2 ∧
      s.day.state = .opened ∧ s.attended 2 ∧ (s.session 2).borrower = none ∧ s.active.borrower newcomer = none ∧
      s.active.makeRoom = none ∧ s.admitsWrite .uplink .active := by
  refine ⟨by decide, by decide, by decide, by decide, by decide, ?_, ?_, by decide⟩
  · refine List.find?_eq_none.2 fun e he => ?_
    rcases List.mem_cons.1 he with h | h
    · subst h
      decide
    · rw [(List.mem_replicate.1 h).2]
      decide
  · refine makeRoom_none _ ?_ ?_
    · show 16384 ≤ (_ :: List.replicate 16383 entryB).length
      rw [List.length_cons, List.length_replicate]
    · show oldestEvictable (_ :: List.replicate 16383 entryB) = none
      rw [oldestEvictable, oldestEvictable_replicate entryB rfl]
      rfl

theorem test_met_EvictionTakesTheOldestCandidate :
    16384 ≤ (fullBank true).borrowers.length ∧
      ∃ e ∈ (fullBank true).borrowers, e.provisional = true ∧ e.pending = 0 ∧ e.sessionStation = none := by
  constructor
  · rw [fullBank, List.length_cons, List.length_replicate]
  · exact ⟨_, List.mem_cons_self, rfl, rfl, rfl⟩

theorem test_met_ItemAndHoldWrites :
    let lone : State :=
      { desk with active := { hall with items := [{ number := i3, classOverride := some 9, queue := [⟨b, 2, none, 0⟩] }] } }
    let four : State := { desk with active := hall.mapQueue i2 fun _ => List.replicate 4 ⟨b, 2, none, 0⟩ }
    desk.admitsWrite .uplink .active ∧ 4 ≤ i1.digits ∧ i1.digits ≤ 14 ∧ 4 ≤ b.digits ∧ b.digits ≤ 14 ∧
      desk.active.items.find? (fun e => e.number = i1) = none ∧ desk.active.items.length < 4096 ∧
      (desk.active.items.find? fun e => e.number = i3) = some { number := i3, classOverride := some 9, queue := [] } ∧
      ((desk.active.items.find? fun e => e.number = i2).map Item.classOverride) = some none ∧
      ((lone.active.items.find? fun e => e.number = i3).map fun e => e.queue.length) = some 1 ∧
      desk.active.classes[(0 : Fin 32)].holdable = false ∧ desk.active.classes[(4 : Fin 32)].holdable = true ∧
      ((desk.active.queueOf i2).any fun h => h.borrower = b) = true ∧
      ((desk.active.queueOf i2).any fun h => h.borrower = a) = false ∧ (desk.active.queueOf i2).length = 1 ∧
      (desk.active.items.map fun e => e.queue.length).sum < 4096 ∧ (four.active.queueOf i2).length = 4 := by
  decide

theorem test_met_ItemAndHoldWrites_full :
    4096 ≤ (List.replicate 4096 ({ number := i3, classOverride := none, queue := [⟨b, 2, none, 0⟩] } : Item)).length ∧
      4096 ≤ ((List.replicate 4096 ({ number := i3, classOverride := none, queue := [⟨b, 2, none, 0⟩] } : Item)).map
        fun e => e.queue.length).sum := by
  rw [List.map_replicate, List.sum_replicate, List.length_replicate]
  decide

theorem test_met_PrefixStaffRecordAndRuleWrites :
    desk.admitsWrite .uplink .active ∧ ([] : List PatternPos).length ≤ 16 ∧ max 4 (min 16 0) ≤ max 4 (min 16 99) ∧
      ([.digit 4] : List PatternPos).length ≤ max 4 (min 16 4) ∧ max 4 (min 16 5) < max 4 (min 16 9) ∧
      max 4 (min 16 4) < (List.replicate 5 PatternPos.any).length ∧ 16 < (List.replicate 17 PatternPos.any).length ∧
      ¬((CodeKind.item = .borrower ∧ 15 < 31) ∨ (CodeKind.item = .item ∧ 31 < 31)) ∧
      ¬((CodeKind.staff = .borrower ∧ 15 < 32) ∨ (CodeKind.staff = .item ∧ 31 < 32)) ∧
      (CodeKind.borrower = .borrower ∧ 15 < 16) ∧ desk.active.prefixTable[(0 : Fin 32)].inUse = true ∧
      desk.active.prefixTable[(5 : Fin 32)].inUse = false ∧
      (desk.active.staff.any fun e => e.number = ⟨7301, 4⟩) = true ∧
      (desk.active.staff.any fun e => e.number = ⟨7302, 4⟩) = false ∧ desk.active.staff.length < 64 ∧
      64 ≤ (List.replicate 64 (⟨⟨7301, 4⟩, OverrideSet.empty⟩ : StaffEntry)).length ∧
      ((List.replicate 64 (⟨⟨7301, 4⟩, OverrideSet.empty⟩ : StaffEntry)).any fun e => e.number = ⟨7302, 4⟩) = false := by
  decide

theorem test_met_CalendarWrites :
    desk.admitsWrite .uplink .active ∧ (7 = (6 : Fin 7).val + 1 ∧ 1439 ≤ 1439 ∧ 1440 ≤ 1440 ∧ 1439 < 1440) ∧
      (1440 ≤ 1440 ∧ 7 < 8 ∧ 1439 < 1440 ∧ 1440 < 1441) ∧
      (desk.active.exceptions.any fun e => e.day = 9445) = true ∧
      (desk.active.exceptions.any fun e => e.day = 0) = false ∧ desk.active.exceptions.length < 96 ∧
      96 ≤ (List.replicate 96 (⟨9445, 0⟩ : CalendarException)).length ∧
      ((List.replicate 96 (⟨9445, 0⟩ : CalendarException)).any fun e => e.day = 0) = false := by
  decide

theorem test_met_TemplateAndTextWrites :
    let line (n column slots : Nat) : TemplateLineParams :=
      { text := List.replicate n 0x7E#8, repeated := true, slots := List.replicate slots (column, some .item) }
    desk.admitsWrite .uplink .active ∧ (List.replicate 16 (line 48 47 4)).length ≤ 16 ∧ (line 48 47 4).text.length ≤ 48 ∧
      (∀ x ∈ (line 48 47 4).text, 0x20 ≤ x.toNat ∧ x.toNat ≤ 0x7E) ∧ (∀ x ∈ (line 48 47 4).slots, x.1 ≤ 47) ∧
      48 < (line 49 0 0).text.length ∧ 47 < 48 ∧ 7 < 8 ∧ 16 < (List.replicate 17 (line 0 0 0)).length ∧
      4 < (line 0 0 5).slots.length ∧ (ascii "OPEN").length ≤ 20 ∧ 20 < (List.replicate 21 0x20#8).length := by
  decide

/-- The clauses of the writes that answer BAD_VALUE, at the ends of the ranges. -/
theorem test_met_WritesOutOfRange :
    let short : Number := { value := 999, digits := 3 }
    let long : Number := { value := 0, digits := 15 }
    desk.admitsWrite .uplink (putB short 0).bank ∧ (putB short 0).number.digits < 4 ∧
      14 < (putB long 0).number.digits ∧ 15 < { putB a 0 with category := 16 }.category ∧
      { putB a 0 with blocks := ⟨⟨false, false⟩, true⟩ }.blocks.outside = true ∧
      desk.admitsWrite .uplink (addH short a 0 none).bank ∧ (addH short a 0 none).item.digits < 4 ∧
      31 < { addH i1 a 0 none with itemClass := 32 }.itemClass ∧
      (none : Option PatternPos) ∈ [some PatternPos.any, none] ∧
      desk.admitsWrite .uplink (⟨.active, 32⟩ : BankIndex).bank ∧ 31 < (⟨.active, 32⟩ : BankIndex).index ∧
      15 < (⟨.active, 16⟩ : BankIndex).index ∧ 7 < (⟨.active, 8⟩ : BankIndex).index ∧
      6 < (⟨.active, 7, 0⟩ : PutDayParams).day ∧ 7 < (⟨.active, 0, 8⟩ : PutDayParams).profile := by
  decide

theorem test_met_UploadsSendRecordsInOrder :
    let s := withRecords 2 shut
    let u : Upload := { tag := 7, endPoint := 503, clamped := false, sent := 0 }
    let busy : State := { s with upload := some u }
    let last : State := { s with upload := some { u with endPoint := 502 } }
    let offTrickle : State := { desk with uplink := { activeLine with granted := FeatureSet.empty } }
    s.admits .uplink ∧ s.admits .supervisor ∧ s.upload = none ∧ s.day.state = .closed ∧
      min (s.journal.sendMark + 256) s.journal.nextSeq ≠ s.journal.sendMark ∧
      min (shut.journal.sendMark + 1) shut.journal.nextSeq = shut.journal.sendMark ∧ busy.upload ≠ none ∧
      (offTrickle.admits .uplink ∧ ¬(offTrickle.day.state = .closed ∨ offTrickle.uplink.granted.trickle = true)) ∧
      busy.running = true ∧ busy.upload = some u ∧ busy.uplink.sendList = [] ∧
      busy.journal.sendMark < u.endPoint ∧ busy.journal.oldest ≤ busy.journal.sendMark ∧
      (busy.journal.records[busy.journal.sendMark - busy.journal.oldest]?).map Record.seq = some 501 ∧
      busy.journal.sendMark + 1 < u.endPoint ∧ last.upload = some { u with endPoint := 502 } ∧
      last.journal.sendMark + 1 = 502 := by
  decide

theorem test_met_ReleaseFreesSentRecords :
    let s : State := { withRecords 2 shut with journal := { (withRecords 2 shut).journal with sendMark := 502 } }
    s.admits .uplink ∧ s.admits .supervisor ∧ 500 < s.journal.oldest ∧ s.journal.oldest ≤ 501 ∧
      501 < s.journal.sendMark ∧ s.journal.sendMark ≤ 502 ∧
      (withRecords 2 shut).journal.sendMark ≤ 501 ∧ 501 - 1 < (withRecords 2 shut).journal.oldest := by
  decide

theorem test_met_ReleaseFreesSentRecords_sound :
    let s : State := { withRecords 2 shut with journal := { (withRecords 2 shut).journal with sendMark := 502 } }
    JournalSound s ∧ TablesSound s ∧ PendingSound s := by
  refine ⟨⟨by decide, by decide, by decide, by decide, ⟨rfl, rfl, trivial⟩, by decide, by decide, by decide, by decide, ?_⟩,
    ?_, ?_⟩
  · intro u h
    exact nomatch (show (none : Option Upload) = some u from h)
  · unfold TablesSound BankSound ascending
    decide
  · unfold PendingSound
    decide

theorem test_met_TimesSetOrHoldTheClock :
    let noUplink : State := { desk with uplink := LineCtl.start }
    let fresh : State := { desk with clock := ⟨⟨0, 0⟩, false, none⟩ }
    let far (second : Nat) : Int := ((9424 * 86400 + second : Nat) : Int) - (9424 * 86400 + 50400 : Nat)
    desk.admits .uplink ∧ desk.admits .supervisor ∧ noUplink.admits .supervisor ∧ noUplink.uplink.state ≠ .active ∧
      desk.settings.autoClose = false ∧ desk.settings.autoOpen = false ∧ fresh.clock.valid = false ∧
      ({ day := 9424, second := 0 } : Instant) ≠ fresh.clock.now ∧ ({ day := 0, second := 0 } : Instant) = fresh.clock.now ∧ desk.clock.valid = true ∧
      ({ day := 9424, second := 50400 } : Instant) = desk.clock.now ∧ shut.day.state = .closed ∧
      far 50520 ≤ desk.settings.stepLimit ∧ -(desk.settings.stepLimit : Int) ≤ far 50280 ∧
      desk.settings.stepLimit < far 50521 ∧ far 50279 < -(desk.settings.stepLimit : Int) ∧ 1 ≤ desk.journal.free ∧
      desk.day.state ≠ .closed := by
  decide

/-- Steps at an OPEN desk with auto-close on, to the close instant and short of it, and at a CLOSED one with auto-open
on. -/
theorem test_met_TimesSetOrHoldTheClock_scheduled :
    let late (s : State) : State :=
      { s with settings := { s.settings with autoClose := true }, clock := { s.clock with now := ⟨9424, 71990⟩ } }
    let fresh : State := { autoDue with clock := ⟨⟨9424, 50400⟩, false, none⟩ }
    let timed (second : Nat) (s : State) : State := run (.time up (.shaped ⟨9424, second⟩)) s
    (∀ s ∈ [late desk, late (lending [] none)],
      s.admits .uplink ∧ s.clock.valid = true ∧ s.settings.autoClose = true ∧ s.day.state = .opened ∧
        s.day.openDay = some 9424 ∧ hoursOf s.active 9424 = some ⟨540, 1200⟩ ∧
        s.journal.oldest ≤ s.journal.nextSeq ∧ (timed 71999 s).day = s.day) ∧
      (∀ st : Station, ((late desk).session st).borrower = none) ∧
      ((late (lending [] none)).session 2).borrower ≠ none ∧
      (timed 72000 (late desk)).day.state = .closed ∧
      (timed 72000 (late desk)).journal.records.map Record.kind = [.clockStep, .dayClose] ∧
      (timed 72000 (late desk)).standingText 2 = some 24 ∧
      (timed 72000 (late (lending [] none))).day.state = .closing ∧
      fresh.admits .uplink ∧ fresh.clock.valid = false ∧ (timed 50400 fresh).slot ≠ none ∧
      (timed 32399 fresh).slot = none ∧ (timed 32400 fresh).slot ≠ none ∧ (timed 32400 fresh).journal = fresh.journal := by
  decide

theorem test_met_SettingsAreReplaced :
    let p := settingsOf (Vector.replicate 8 true)
    desk.admitsOwner .uplink ∧ p.autoOpen = some false ∧ p.autoClose = some false ∧ p.dateFormat = some .ymd ∧
      desk.day.state ≠ .closing ∧ (∀ st : Station, (desk.port st).present = true → p.enableMask[st] = true) ∧
      p.allowedFeatures.outside = false ∧ { p with allowedFeatures := ⟨FeatureSet.all, true⟩ }.allowedFeatures.outside = true := by
  decide

/-- Station 2, whose session is the last of a CLOSING desk, and station 5 are taken from the mask. -/
theorem test_met_SettingsAreReplaced_lost :
    let p : SettingsParams := { settingsOf (Vector.replicate 8 false) with autoOpen := some true }
    let t := run (.setSettings up (.shaped p)) lastOne
    lastOne.admitsOwner .uplink ∧ p.autoOpen = some true ∧ p.autoClose = some false ∧ p.dateFormat = some .ymd ∧
      p.allowedFeatures.outside = false ∧ lastOne.day.state = .closing ∧ 1 + 2 ≤ lastOne.journal.free ∧
      (∀ st : Station, (lastOne.session st).borrower ≠ none → st = 2) ∧ t.stationState 2 = .absent ∧
      t.stationState 5 = .absent ∧ t.day.state = .closed ∧
      t.journal.records.map Record.kind = [.sessionAbandoned, .dayClose] ∧ t.journal.claims = 0 := by
  decide

theorem test_met_SettingsAreReplaced_sound :
    JournalSound lastOne ∧ TablesSound lastOne ∧ LinksSound lastOne := by
  refine ⟨journalSound_of rfl rfl (by decide), ?_, linksSound_of (by decide)⟩
  unfold TablesSound BankSound ascending
  decide

theorem test_met_SuppliesAndResetStartThePart :
    let off : State := { desk with powered := false }
    let bad : State := { off with store := { off.store with backupFail := true } }
    let held : State := { desk with resetAsserted := true }
    off.powered = false ∧ off.resetAsserted = false ∧ off.store.signatureGood = true ∧ off.store.backupFail = false ∧
      off.settings.autoOpen = false ∧ (∀ st : Station, (off.session st).borrower = none) ∧
      ¬(bad.store.signatureGood = true ∧ bad.store.backupFail = false) ∧ held.powered = true ∧
      held.resetAsserted = true ∧ { off with resetAsserted := true }.resetAsserted = true := by
  decide

theorem test_met_SuppliesAndResetStartThePart_sound :
    ∀ s ∈ [{ interrupted with powered := false }, { interrupted with resetAsserted := true }],
      JournalSound s ∧ TablesSound s ∧ LinksSound s := by
  have tables : TablesSound interrupted := by
    unfold TablesSound BankSound ascending
    decide
  intro s hs
  fin_cases hs <;> exact ⟨journalSound_of rfl rfl (by decide), tables, linksSound_of (by decide)⟩

theorem test_met_CheckDigitsAreUnique :
    m11Expected (digitsOf "31000006") = 10 ∧ m11Expected (digitsOf "31000011") ≠ 10 := by
  decide

theorem test_met_DuesLieBetweenNowAndTheCeiling :
    let i : DueInput :=
      { day := 9424, minute := 1020, category := { hall.categories[2] with termEndDay := some 9440 }
        itemClass := hall.classes[4], cell := days21, expiryDay := 9440, bank := hall }
    dueFor i none = .ok ⟨⟨9440, 1200⟩, true, false⟩ ∧
      dueFor i (some ⟨9440, 1200⟩) = .ok ⟨⟨9440, 1200⟩, true, false⟩ ∧ i.category.termEndDay = some 9440 := by
  decide

theorem test_met_PickupDays :
    (hoursOf hall 9431 ≠ none ∧ ∀ x, x < 9431 → 9430 ≤ x → hoursOf hall x = none) ∧
      ∀ d, hoursOf Bank.cleared d = none := by
  constructor
  · refine ⟨by decide, fun x h1 h2 => ?_⟩
    obtain rfl : x = 9430 := by omega
    decide
  · intro d
    have h : ∀ w : Fin 7, Bank.cleared.weekdays[w] = 0 := by decide
    have hp : profileNumber Bank.cleared d = 0 := h (weekday d)
    unfold hoursOf
    rw [hp]

end Sys2Proof.Tests
end

