-- ==== Sys2Proof/Proofs/SessionLinks.lean ====
section
/-! SUPPORT. The links between sessions and borrower entries (R2): what they are read from, which operations leave that
alone, and what each of the others makes of them. -/

namespace Sys2Proof.Links

open Sys2Proof.Machine

/-! ### What the links are read from -/

/-- The number and the session mark of each entry of a bank. -/
def marks (b : Bank) : List (Number × Option Station) := b.borrowers.map fun e => (e.number, e.sessionStation)

/-- What the session links are read from. -/
structure View where
  holder : Station → Option Number
  marks : List (Number × Option Station)
  day : DeskDay
  staged : List Bank

def view (s : State) : View :=
  { holder := fun st => (s.session st).borrower, marks := marks s.active, day := s.day.state, staged := s.stagedBanks }

/-- No entry of the bank names a station. -/
def Unmarked (b : Bank) : Prop := ∀ p ∈ marks b, p.2 = none

/-- Whether some entry of a number names a station, and no other number's. -/
def View.Sound (v : View) : Prop :=
  (∀ n st, (n, some st) ∈ v.marks ↔ v.holder st = some n) ∧ (v.day = .closed → ∀ st, v.holder st = none) ∧
    ∀ b ∈ v.staged, Unmarked b

theorem linksSound_iff (s : State) : LinksSound s ↔ (view s).Sound := by
  constructor
  · rintro ⟨named, marked, closed, staged⟩
    refine ⟨fun n st => ⟨fun h => ?_, fun h => ?_⟩, closed, fun b hb p hp => ?_⟩
    · obtain ⟨e, he, hp⟩ := List.mem_map.mp h
      obtain ⟨rfl, hst⟩ := Prod.mk.inj hp
      exact marked e he st hst
    · obtain ⟨e, he, rfl, hst⟩ := named st n h
      exact List.mem_map.mpr ⟨e, he, by rw [hst]⟩
    · obtain ⟨e, he, rfl⟩ := List.mem_map.mp hp
      exact staged b hb e he
  · rintro ⟨linked, closed, staged⟩
    refine ⟨fun st n h => ?_, fun e he st hst => ?_, closed, fun b hb e he => ?_⟩
    · obtain ⟨e, he, hp⟩ := List.mem_map.mp ((linked n st).mpr h)
      obtain ⟨rfl, hst⟩ := Prod.mk.inj hp
      exact ⟨e, he, rfl, hst⟩
    · exact (linked e.number st).mp (List.mem_map.mpr ⟨e, he, by rw [hst]⟩)
    · exact staged b hb _ (List.mem_map.mpr ⟨e, he, rfl⟩)

theorem linksSound_of_view {s t : State} (h : view t = view s) (hs : LinksSound s) : LinksSound t := by
  rw [linksSound_iff] at *
  rwa [h]

/-- The links are sound and no two entries have one number. -/
def Linked (s : State) : Prop := LinksSound s ∧ ((view s).marks.map Prod.fst).Nodup

theorem linked_of_view {s t : State} (h : view t = view s) (hs : Linked s) : Linked t :=
  ⟨linksSound_of_view h hs.1, h ▸ hs.2⟩

theorem nodup_of_ascending {α : Type} {key : α → Number} {l : List α} (h : ascending key l) : (l.map key).Nodup := by
  refine List.pairwise_map.mpr (h.imp fun {a b} hab e => ?_)
  simp [Number.lt, e] at hab

theorem linked_of_sound {s : State} (ht : TablesSound s) (hl : LinksSound s) : Linked s := by
  refine ⟨hl, ?_⟩
  have : (view s).marks.map Prod.fst = s.active.borrowers.map Borrower.number := by simp [view, marks]
  rw [this]
  exact nodup_of_ascending ht.1.1

/-- A station is read off its borrower's entry, so two stations have different borrowers. -/
theorem station_unique {s : State} (hs : Linked s) {a b : Station} {n : Number} (ha : (s.session a).borrower = some n)
    (hb : (s.session b).borrower = some n) : a = b := by
  obtain ⟨linked, -, -⟩ := (linksSound_iff s).mp hs.1
  have same := List.inj_on_of_nodup_map hs.2 ((linked n a).mpr ha) ((linked n b).mpr hb) rfl
  simpa using same

/-! ### Operations that leave the links alone -/

variable (s : State) (st : Station)

@[simp] theorem view_setPort (p : Port) : view (s.setPort st p) = view s := rfl
@[simp] theorem view_setConsole (c : Console) : view (s.setConsole st c) = view s := rfl
@[simp] theorem view_setLine (l : Line) (c : LineCtl) : view (s.setLine l c) = view s := by cases l <;> rfl
@[simp] theorem view_settle (s0 : State) : view (settle s0 s) = view s := rfl
@[simp] theorem view_withPending (q : List Instr) : view (s.withPending q) = view s := rfl
@[simp] theorem view_useFree : view s.useFree = view s := rfl

@[simp] theorem view_setSession {r : Session} (h : r.borrower = (s.session st).borrower) :
    view (s.setSession st r) = view s := by
  have holder : (fun o => ((s.setSession st r).session o).borrower) = fun o => (s.session o).borrower := by
    funext o
    by_cases ho : o = st
    · subst ho; simpa using h
    · simp [ho]
  simp only [view, holder]
  rfl

@[simp] theorem view_sound (g : Signal) : view (sound st g s) = view s := by rw [sound_frame]; rfl
@[simp] theorem view_showLines (a b : Text) : view (showLines st a b s) = view s := by rw [showLines_frame]; rfl
@[simp] theorem view_showText (i : Fin 32) : view (showText st i s) = view s := by rw [showText_frame]; rfl
@[simp] theorem view_showStanding : view (showStanding st s) = view s := by rw [showStanding_frame]; rfl
@[simp] theorem view_showUnwiped (w : Bool) : view (showUnwiped st w s) = view s := by rw [showUnwiped_frame]; rfl
@[simp] theorem view_showIfLost (w : Bool) : view (showIfLost st w s) = view s := by rw [showIfLost_frame]; rfl

@[simp] theorem view_raise (c : Cause) (l : Line) : view (raise c l s) = view s := by simp [raise]
@[simp] theorem view_raiseBoth (c : Cause) : view (raiseBoth c s) = view s := by simp [raiseBoth]
@[simp] theorem view_sendFrame (l : Line) (f : LineFrame) : view (sendFrame l f s) = view s := by simp [sendFrame]
@[simp] theorem view_sendUnsolicited (l : Line) (f : LineFrame) : view (sendUnsolicited l f s) = view s := by
  simp [sendUnsolicited]
@[simp] theorem view_sendReply (q : Req) (name : ReqName) (r : Reply) : view (sendReply q name r s) = view s := by
  simp [sendReply]
@[simp] theorem view_finalReply (q : Option Req) (name : ReqName) (r : Reply) :
    view (finalReply q name r s) = view s := by
  unfold finalReply
  split
  · rfl
  · split <;> simp
@[simp] theorem view_answer (q : Req) (name : ReqName) (p : State × Reply) : view (answer q name p) = view p.1 := by
  simp [answer]
@[simp] theorem view_goodLineFrame (l : Line) : view (goodLineFrame l s) = view s := by simp [goodLineFrame]
@[simp] theorem view_clearLastError (l : Line) : view (clearLastError l s) = view s := by simp [clearLastError]
@[simp] theorem view_received (q : Req) (name : ReqName) : view (received q name s) = view s := by
  unfold received; split <;> simp

theorem marks_mapBorrower (b : Bank) (n : Number) {f : Borrower → Borrower}
    (hf : ∀ e, (f e).number = e.number ∧ (f e).sessionStation = e.sessionStation) :
    marks (b.mapBorrower n f) = marks b := by
  simp only [marks, Bank.mapBorrower, List.map_map]
  refine List.map_congr_left fun e _ => ?_
  by_cases h : e.number = n <;> simp [h, hf e]

theorem marks_raisePending (d : Record) (b : Bank) : marks (raisePending d b) = marks b := by
  unfold raisePending
  split
  · rfl
  · exact marks_mapBorrower b _ fun _ => ⟨rfl, rfl⟩

/-- A change of the ACTIVE bank that keeps the marks. -/
theorem view_of_marks {t : State} (hh : t.sessions = s.sessions) (hm : marks t.active = marks s.active)
    (hd : t.day.state = s.day.state) (hb : t.stagedBanks = s.stagedBanks) : view t = view s := by
  simp only [view, State.session, hh, hm, hd, hb]

@[simp] theorem view_append (d : Record) : view (append d s) = view s :=
  view_of_marks s rfl (marks_raisePending d s.active) rfl rfl
@[simp] theorem view_appendAboveReserve (d : Record) : view (appendAboveReserve d s) = view s := by
  unfold appendAboveReserve; split <;> simp
@[simp] theorem view_appendSystem (d : Record) : view (appendSystem d s) = view s := by
  unfold appendSystem
  split
  · simp
  · rfl
@[simp] theorem view_releaseClaims (n : Nat) : view (releaseClaims n s) = view s := rfl
@[simp] theorem view_appendClaimed (d : Record) : view (appendClaimed d s) = view s := by simp [appendClaimed]

/-- A run of operations that each leave the view alone. -/
theorem view_foldl {α : Type} {f : State → α → State} (h : ∀ s a, view (f s a) = view s) (l : List α) :
    ∀ s, view (l.foldl f s) = view s := by
  induction l with
  | nil => intro s; rfl
  | cons a l ih => intro s; rw [List.foldl_cons, ih, h]

@[simp] theorem view_showStandingAll : view (showStandingAll s) = view s :=
  view_foldl (fun s st => view_showStanding s st) stations s

@[simp] theorem view_takeInput : view (takeInput st s) = view s := by
  have taken : view
      { (s.setPort st { s.port st with slots := (s.port st).slots.drop 1 }).setConsole st
          { s.console st with wiped := false } with lastServed := st } = view s := rfl
  unfold takeInput
  split
  · refine (view_setSession _ _ ?_).trans taken
    rfl
  · exact taken

@[simp] theorem borrower_disarm (r : Session) : r.disarm.borrower = r.borrower := by
  unfold Session.disarm; split <;> rfl
@[simp] theorem borrower_leaveDesk (r : Session) : r.leaveDesk.borrower = r.borrower := borrower_disarm r

/-- A change of every session that keeps the borrowers. -/
theorem view_of_holder {t : State} (hh : ∀ o, (t.session o).borrower = (s.session o).borrower)
    (hm : t.active = s.active) (hd : t.day.state = s.day.state) (hb : t.stagedBanks = s.stagedBanks) :
    view t = view s := by
  simp only [view, hh, hm, hd, hb]

@[simp] theorem view_disarmAll : view (disarmAll s) = view s :=
  view_of_holder s (fun o => by simp [disarmAll, State.session]) rfl rfl rfl
@[simp] theorem view_stepClock (t : Instant) : view (stepClock t s) = view s :=
  (show view (stepClock t s) = view (disarmAll s) from rfl).trans (view_disarmAll s)
@[simp] theorem view_recordedStep (t : Instant) : view (recordedStep t s) = view s := by simp [recordedStep]
@[simp] theorem view_dropHeld : view (dropHeld s) = view s := rfl
@[simp] theorem view_applyHeld : view (applyHeld s) = view s := by unfold applyHeld; split <;> simp

@[simp] theorem view_beginOpening (q : Option Req) (h : s.slot = none) : view (beginOpening q s) = view s :=
  view_of_marks s rfl rfl rfl (by simp [State.stagedBanks, beginOpening, h])
@[simp] theorem view_autoOpenTest : view (autoOpenTest s) = view s := by
  unfold autoOpenTest
  split
  · next h =>
    have : s.slot = none := by
      simp only [State.mayAutoOpen, Bool.and_eq_true, Option.isNone_iff_eq_none] at h
      exact h.1.2
    exact view_beginOpening s none this
  · rfl

@[simp] theorem view_queueSlip (p : Slip) : view (queueSlip st p s).1 = view s := by
  unfold queueSlip; split <;> simp
@[simp] theorem view_goAbsent : view (goAbsent st s) = view s := by simp [goAbsent]
@[simp] theorem view_beginBridge : view (beginBridge st s) = view s := by simp [beginBridge]
@[simp] theorem view_endBridge : view (endBridge st s) = view s := by unfold endBridge; simp only; split <;> simp
@[simp] theorem view_endBridges : view (endBridges s) = view s :=
  view_foldl (fun s st => by split <;> simp) stations s
@[simp] theorem view_passUp (body : List Byte) : view (passUp st body s) = view s := by
  unfold passUp; split <;> simp
@[simp] theorem view_joinInput (i : Input) : view (joinInput st i s) = view s := by
  unfold joinInput
  split
  · rfl
  · split <;> simp
@[simp] theorem view_takePaper (out : Bool) (credit : Nat) : view (takePaper st out credit s) = view s := by
  unfold takePaper
  simp only
  split
  · split <;> simp
  · split <;> simp
@[simp] theorem view_appear (out : Bool) (credit : Nat) : view (appear st out credit s) = view s := by simp [appear]
@[simp] theorem view_printOne : view (printOne st s) = view s := by
  unfold printOne
  simp only
  split
  · rfl
  · split <;> simp [sendPrint]
@[simp] theorem view_tickClock : view (tickClock s) = view s := rfl
@[simp] theorem view_tickTimers : view (tickTimers s) = view s := by
  refine view_of_holder s (fun o => ?_) rfl rfl rfl
  simp only [tickTimers, State.session, Fin.getElem_fin, Vector.getElem_ofFn]
  split <;> rfl
@[simp] theorem view_rewind : view (rewind s) = view s := rfl
@[simp] theorem view_cutUpload : view (cutUpload s) = view s := rfl
@[simp] theorem view_endUpload : view (endUpload s) = view s := by
  unfold endUpload
  split
  · rfl
  · exact view_sendReply _ _ _ _
@[simp] theorem view_leaveActive (l : Line) : view (leaveActive l s) = view s := by cases l <;> simp [leaveActive]
@[simp] theorem view_enterInactive (l : Line) (state : LineState) (w : Option Nat) :
    view (enterInactive l state w s) = view s := by
  unfold enterInactive; simp only; split <;> simp

end Sys2Proof.Links
end

