-- ==== Sys2Proof/Proofs/SessionEnds.lean ====
section
/-! SUPPORT. What the ends and the openings of sessions, and the entry into CLOSED, make of the session links (R2,
R168). -/

namespace Sys2Proof.Links

open Sys2Proof.Machine

/-! ### The end of a session -/

@[simp] theorem marks_mapItem (b : Bank) (n : Number) (f : Item → Item) : marks (b.mapItem n f) = marks b := rfl
@[simp] theorem marks_mapQueue (b : Bank) (n : Number) (f : List Hold → List Hold) :
    marks (b.mapQueue n f) = marks b := rfl

theorem marks_fillHolds (n : Number) (l : List ListEntry) : ∀ b, marks (l.foldl (fillHold n) b) = marks b := by
  induction l with
  | nil => intro b; rfl
  | cons e l ih =>
    intro b
    rw [List.foldl_cons, ih]
    unfold fillHold
    split <;> rfl

variable (s : State) (st : Station)

@[simp] theorem view_bookItems (mk : ListEntry → Record) (n : Number) (items : List ListEntry) :
    view (bookItems mk n items s) = view s := by
  refine Eq.trans ?_ (view_foldl (fun s e => view_appendClaimed s (mk e)) items s)
  refine view_of_marks _ rfl ?_ rfl rfl
  exact (marks_fillHolds n items _).trans (marks_mapBorrower _ n fun _ => ⟨rfl, rfl⟩)

@[simp] theorem view_slipForClose (n : Number) (items : List ListEntry) :
    view (slipForClose st n items s).1 = view s := by
  unfold slipForClose; split <;> simp

/-- The marks once a borrower's is taken away: those of the others, and none of that borrower's. -/
theorem mem_marks_unlink (n : Number) (p : Number × Option Station) :
    p ∈ marks (unlinkBorrower n s).active → (p.1 ≠ n ∧ p ∈ marks s.active) ∨ (p.1 = n ∧ p.2 = none) := by
  intro h
  obtain ⟨e, he, rfl⟩ := List.mem_map.mp h
  obtain ⟨x, hx, rfl⟩ := List.mem_map.mp (List.mem_filter.mp he).1
  by_cases hn : x.number = n
  · exact .inr (by simp [hn])
  · exact .inl (by simp [hn]; exact List.mem_map.mpr ⟨x, hx, rfl⟩)

theorem marks_unlink_of_ne {n : Number} {p : Number × Option Station} (hn : p.1 ≠ n) (hp : p ∈ marks s.active) :
    p ∈ marks (unlinkBorrower n s).active := by
  obtain ⟨e, he, rfl⟩ := List.mem_map.mp hp
  have hn : e.number ≠ n := hn
  refine List.mem_map.mpr ⟨e, List.mem_filter.mpr ⟨List.mem_map.mpr ⟨e, he, by simp [hn]⟩, by simp [hn]⟩, rfl⟩

theorem marks_numbers (b : Bank) : (marks b).map Prod.fst = b.borrowers.map Borrower.number := by
  simp only [marks, List.map_map]
  rfl

theorem nodup_unlink {n : Number} (h : ((marks s.active).map Prod.fst).Nodup) :
    ((marks (unlinkBorrower n s).active).map Prod.fst).Nodup := by
  rw [marks_numbers] at *
  rw [← mapBorrower_number s.active n (fun b => { b with sessionStation := none }) fun _ => rfl] at h
  exact h.sublist (List.filter_sublist.map _)

/-- The session of a station ends: its record is emptied and its borrower unlinked. -/
theorem linked_sessionEnd {s x : State} {st : Station} {n : Number} {r : Session} (hs : Linked s)
    (hv : view x = view s) (hn : (s.session st).borrower = some n) (hr : r.borrower = none) :
    Linked ((unlinkBorrower n x).setSession st r) := by
  have hx : Linked x := linked_of_view hv hs
  have hxn : (x.session st).borrower = some n := (congrFun (congrArg View.holder hv) st).trans hn
  obtain ⟨linked, closed, staged⟩ := (linksSound_iff x).mp hx.1
  have others : ∀ o, o ≠ st →
      (((unlinkBorrower n x).setSession st r).session o).borrower = (x.session o).borrower := by
    intro o ho; rw [session_setSession_of_ne _ _ _ ho]; rfl
  have own : (((unlinkBorrower n x).setSession st r).session st).borrower = none := by simp [hr]
  refine ⟨(linksSound_iff _).mpr ⟨fun m o => ⟨fun h => ?_, fun h => ?_⟩, fun hc o => ?_, staged⟩, nodup_unlink x hx.2⟩
  · obtain ⟨hm, h⟩ | ⟨-, h⟩ := mem_marks_unlink x n _ h
    · have hold := (linked m o).mp h
      have ho : o ≠ st := by
        rintro rfl
        exact hm (Option.some.inj (hold.symm.trans hxn))
      exact (others o ho).trans hold
    · cases h
  · have ho : o ≠ st := by
      rintro rfl
      exact absurd (own.symm.trans h) (by simp)
    have hold : (x.session o).borrower = some m := (others o ho).symm.trans h
    refine marks_unlink_of_ne x (fun hm : m = n => ho ?_) ((linked m o).mpr hold)
    exact station_unique hx (hm ▸ hold) hxn
  · by_cases ho : o = st
    · rw [ho]; exact own
    · exact (others o ho).trans (closed hc o)

theorem linked_closeSession {s : State} (hs : Linked s) (st : Station) (m : Mode) : Linked (closeSession st m s).1 := by
  unfold closeSession
  simp only
  split
  · exact linked_of_view (view_setSession s st rfl) hs
  · next n hn => exact linked_sessionEnd hs (by simp) hn rfl

theorem linked_cancelSession {s : State} (hs : Linked s) (st : Station) : Linked (cancelSession st s) := by
  unfold cancelSession
  split
  · exact hs
  · next n hn => exact linked_sessionEnd hs (by simp) hn rfl

theorem linked_abandonSession {s : State} (hs : Linked s) (st : Station) : Linked (abandonSession st s) := by
  unfold abandonSession
  simp only
  split
  · exact hs
  · next n hn => exact linked_sessionEnd hs (by split <;> simp) hn rfl

theorem linked_loseStation {s : State} (hs : Linked s) (st : Station) : Linked (loseStation st s) := by
  unfold loseStation
  exact linked_of_view (view_goAbsent _ st) (linked_abandonSession hs st)

/-! ### The entry into CLOSED -/

theorem anySession_false {s : State} : s.anySession = false ↔ ∀ st : Station, (s.session st).borrower = none := by
  simp [State.anySession, stations]

/-- Where no session is open the desk-day may enter any state. -/
theorem linksSound_of_noSession {s t : State} (hs : LinksSound s) (hn : ∀ st : Station, (s.session st).borrower = none)
    (hv : view t = { view s with day := t.day.state }) : LinksSound t := by
  rw [linksSound_iff] at *
  obtain ⟨linked, -, staged⟩ := hs
  rw [hv]
  exact ⟨linked, fun _ => hn, staged⟩

theorem day_view : (view s).day = s.day.state := rfl

theorem view_enterClosed : view (enterClosed s) = { view s with day := .closed } := by
  simp only [enterClosed, view_showStandingAll, view_applyHeld]
  have := view_appendSystem s (draft .dayClose)
  rw [← this]
  rfl

theorem linksSound_enterClosed {s : State} (hs : LinksSound s) (hn : ∀ st : Station, (s.session st).borrower = none) :
    LinksSound (enterClosed s) := by
  have hv := view_enterClosed s
  refine linksSound_of_noSession hs hn (hv.trans ?_)
  rw [(day_view (enterClosed s)).symm.trans (congrArg View.day hv)]

theorem linksSound_closeIfDone {s : State} (hs : LinksSound s) : LinksSound (closeIfDone s) := by
  unfold closeIfDone
  split
  · next h =>
    exact linksSound_of_view (view_autoOpenTest _) (linksSound_enterClosed hs (anySession_false.mp h.2))
  · exact hs

/-- A desk-day that is not CLOSED asks nothing of the sessions. -/
theorem linksSound_of_open {s t : State} (hs : LinksSound s) (hd : t.day.state ≠ .closed)
    (hv : view t = { view s with day := t.day.state }) : LinksSound t := by
  rw [linksSound_iff] at *
  obtain ⟨linked, -, staged⟩ := hs
  rw [hv]
  exact ⟨linked, fun h => absurd h hd, staged⟩

theorem linksSound_enterClosing {s : State} (hs : LinksSound s) : LinksSound (enterClosing s) :=
  linksSound_closeIfDone (linksSound_of_open hs (by simp) rfl)

theorem linksSound_autoCloseTest {s0 s : State} (hs : LinksSound s) : LinksSound (autoCloseTest s0 s) := by
  unfold autoCloseTest
  split
  · exact linksSound_enterClosing hs
  · exact hs

theorem linksSound_autoOpenTest {s : State} (hs : LinksSound s) : LinksSound (autoOpenTest s) :=
  linksSound_of_view (view_autoOpenTest s) hs

theorem linksSound_closeSilently {s : State} (hs : Linked s) (st : Station) : LinksSound (closeSilently st s) :=
  linksSound_closeIfDone (linksSound_of_view (by simp) (linked_closeSession hs st .normal).1)

/-! ### The opening of a session -/

theorem find_number {l : List Borrower} {n : Number} {e : Borrower} (h : (l.find? fun e => e.number = n) = some e) :
    e ∈ l ∧ e.number = n :=
  ⟨List.mem_of_find?_eq_some h, by simpa using List.find?_some h⟩

/-- A session opens at a station without one, on an entry that names no other station. -/
theorem linksSound_openSession {s : State} (hs : Linked s) {st : Station} {n : Number} {e : Borrower} {admitted : Bool}
    (hopen : s.day.state ≠ .closed) (hfree : (s.session st).borrower = none) (he : s.active.borrower n = some e)
    (hst : e.sessionStation = none ∨ e.sessionStation = some st) : LinksSound (openSession st n admitted s) := by
  obtain ⟨hmem, hnum⟩ := find_number he
  obtain ⟨linked, -, staged⟩ := (linksSound_iff s).mp hs.1
  have only : ∀ x ∈ s.active.borrowers, x.number = n → x = e := by
    intro x hx hxn
    refine List.inj_on_of_nodup_map (f := Borrower.number) ?_ hx hmem (hxn.trans hnum.symm)
    exact marks_numbers s.active ▸ hs.2
  have elsewhere : ∀ o, (s.session o).borrower ≠ some n := by
    intro o ho
    obtain ⟨x, hx, hp⟩ := List.mem_map.mp ((linked n o).mpr ho)
    obtain ⟨hxn, hxo⟩ := Prod.mk.inj hp
    rw [only x hx hxn] at hxo
    obtain h | h := hst
    · rw [h] at hxo; cases hxo
    · rw [h] at hxo
      cases hxo
      rw [hfree] at ho
      cases ho
  unfold openSession
  simp only
  refine linksSound_of_view ((view_sound _ _ _).trans (view_showLines _ _ _ _)) ?_
  rw [linksSound_iff]
  have holder : ∀ (r : Session) (b : Bank) (o : Station),
      ((({ s.setSession st r with active := b } : State).session o).borrower) =
        if o = st then r.borrower else (s.session o).borrower := by
    intro r b o
    have : ({ s.setSession st r with active := b } : State).session o = (s.setSession st r).session o := rfl
    rw [this]
    by_cases ho : o = st
    · simp [ho]
    · simp [ho]
  refine ⟨fun m o => ?_, fun h => absurd h hopen, staged⟩
  simp only [view, holder]
  constructor
  · intro h
    obtain ⟨y, hy, hp⟩ := List.mem_map.mp h
    obtain ⟨x, hx, rfl⟩ := List.mem_map.mp hy
    obtain ⟨hm, ho⟩ := Prod.mk.inj hp
    by_cases hxn : x.number = n
    · simp only [hxn, if_true] at hm ho
      cases ho
      simp [← hm]
    · simp only [hxn, if_false] at hm ho
      have hold := (linked m o).mp (List.mem_map.mpr ⟨x, hx, by rw [hm, ho]⟩)
      have ho : o ≠ st := by
        rintro rfl
        exact absurd (hfree.symm.trans hold) (by simp)
      simpa [ho] using (show (s.session o).borrower = some m from hold)
  · intro h
    by_cases ho : o = st
    · simp only [ho, if_true, Option.some.injEq] at h
      subst h ho
      exact List.mem_map.mpr ⟨_, List.mem_map.mpr ⟨e, hmem, rfl⟩, by simp [hnum]⟩
    · simp only [ho, if_false] at h
      obtain ⟨x, hx, hp⟩ := List.mem_map.mp ((linked m o).mpr h)
      obtain ⟨hm, hxo⟩ := Prod.mk.inj hp
      have hmn : x.number ≠ n := fun hxn => elsewhere o (by rw [h, ← hm, hxn])
      exact List.mem_map.mpr ⟨x, List.mem_map.mpr ⟨x, hx, by simp [hmn]⟩, by rw [hm, hxo]⟩

theorem view_refuse (r : Reason) (b i staff : Option Number) : view (refuse st r b i staff s) = view s := by
  simp [refuse]

theorem view_refuseBorrower (n : Number) (r : Reason) : view (refuseBorrower st n r s) = view s := by
  simp [refuseBorrower, view_refuse]

/-! ### Entries that join and leave -/

/-- Two banks name the same stations with the same borrowers. -/
def SameLinks (a b : Bank) : Prop := ∀ n st, (n, some st) ∈ marks a ↔ (n, some st) ∈ marks b

theorem sameLinks_of_borrowers {a b : Bank} (h : a.borrowers = b.borrowers) : SameLinks a b := by
  intro n st
  simp [marks, h]

theorem sameLinks_of_marks {a b : Bank} (h : marks a = marks b) : SameLinks a b := fun n st => by rw [h]

theorem SameLinks.trans {a b c : Bank} (h : SameLinks a b) (h' : SameLinks b c) : SameLinks a c :=
  fun n st => (h n st).trans (h' n st)

theorem unmarked_of_sameLinks {a b : Bank} (h : SameLinks a b) (hb : Unmarked b) : Unmarked a := by
  rintro ⟨n, st⟩ hp
  cases st with
  | none => rfl
  | some st => exact absurd (hb _ ((h n st).mp hp)) (by simp)

/-- A filter that keeps every entry that names a station keeps the links. -/
theorem sameLinks_filter {a b : Bank} {p : Borrower → Bool} (h : a.borrowers = b.borrowers.filter p)
    (hp : ∀ e ∈ b.borrowers, e.sessionStation ≠ none → p e = true) : SameLinks a b := by
  intro n st
  simp only [marks, h, List.mem_map, List.mem_filter]
  constructor
  · rintro ⟨e, ⟨he, -⟩, heq⟩
    exact ⟨e, he, heq⟩
  · rintro ⟨e, he, heq⟩
    refine ⟨e, ⟨he, hp e he ?_⟩, heq⟩
    rw [(Prod.mk.inj heq).2]
    simp

theorem sameLinks_dropIfRetired (b : Bank) (n : Number) : SameLinks (b.dropIfRetired n) b := by
  refine sameLinks_filter rfl fun e _ hst => ?_
  have : e.leaves = false := by
    cases h : e.sessionStation with
    | none => exact absurd h hst
    | some _ => simp [Borrower.leaves, h]
  simp [this]

theorem sameLinks_dropBorrower {b : Bank} {e : Borrower} (hd : ((marks b).map Prod.fst).Nodup) (he : e ∈ b.borrowers)
    (hst : e.sessionStation = none) : SameLinks (b.dropBorrower e.number) b := by
  refine sameLinks_filter rfl fun x hx hxst => ?_
  rw [marks_numbers] at hd
  have : x.number ≠ e.number := fun h => hxst (List.inj_on_of_nodup_map hd hx he h ▸ hst)
  simp [this]

theorem sameLinks_joinBorrower (b : Bank) {e : Borrower} (he : e.sessionStation = none) :
    SameLinks (b.joinBorrower e) b := by
  intro n st
  simp [marks, Bank.joinBorrower, mem_insertBy, he]

theorem oldestEvictable_evictable {l : List Borrower} {e : Borrower} (h : oldestEvictable l = some e) :
    e ∈ l ∧ e.evictable = true := by
  induction l generalizing e with
  | nil => cases h
  | cons x xs ih =>
    simp only [oldestEvictable] at h
    split at h
    · split at h
      · next hx =>
        cases h
        exact ⟨by simp, hx⟩
      · cases h
    · next o ho =>
      split at h
      · next hx =>
        cases h
        rw [Bool.and_eq_true] at hx
        exact ⟨by simp, hx.1⟩
      · cases h
        exact ⟨List.mem_cons_of_mem _ (ih ho).1, (ih ho).2⟩

/-- Room is made by the loss of entries that name no station. -/
theorem makeRoom_spec {b room : Bank} (h : b.makeRoom = some room) :
    room.borrowers.Sublist b.borrowers ∧ (((marks b).map Prod.fst).Nodup → SameLinks room b) := by
  unfold Bank.makeRoom at h
  split at h
  · cases h
    exact ⟨List.Sublist.refl _, fun _ => sameLinks_of_borrowers rfl⟩
  · split at h
    · cases h
    · next e he =>
      cases h
      obtain ⟨hmem, hev⟩ := oldestEvictable_evictable he
      have hst : e.sessionStation = none := by
        simp only [Borrower.evictable, Bool.and_eq_true, Option.isNone_iff_eq_none] at hev
        exact hev.2
      exact ⟨List.filter_sublist, fun hd => sameLinks_dropBorrower hd hmem hst⟩

theorem insertBy_perm {α : Type} (lt : α → α → Bool) (e : α) (l : List α) : (insertBy lt e l).Perm (e :: l) := by
  induction l with
  | nil => exact List.Perm.refl _
  | cons x xs ih =>
    unfold insertBy
    split
    · exact List.Perm.refl _
    · exact (ih.cons x).trans (List.Perm.swap e x xs)

/-- An entry joins whose number the table did not hold. -/
theorem nodup_joinBorrower {b : Bank} {e : Borrower} (hd : ((marks b).map Prod.fst).Nodup)
    (hn : e.number ∉ b.borrowers.map Borrower.number) : ((marks (b.joinBorrower e)).map Prod.fst).Nodup := by
  rw [marks_numbers] at *
  exact ((insertBy_perm _ _ _).map Borrower.number).nodup_iff.mpr (List.nodup_cons.mpr ⟨hn, hd⟩)

theorem number_not_mem {b : Bank} {n : Number} (h : b.borrower n = none) : n ∉ b.borrowers.map Borrower.number := by
  intro hn
  obtain ⟨e, he, rfl⟩ := List.mem_map.mp hn
  exact absurd (List.find?_eq_none.mp h e he) (by simp)

/-- The ACTIVE bank changes and names the same stations with the same borrowers. -/
theorem linksSound_of_sameLinks {s t : State} (hs : LinksSound s)
    (hh : ∀ o, (t.session o).borrower = (s.session o).borrower)
    (hl : SameLinks t.active s.active) (hd : t.day.state = s.day.state) (hb : t.stagedBanks = s.stagedBanks) :
    LinksSound t := by
  rw [linksSound_iff] at *
  obtain ⟨linked, closed, staged⟩ := hs
  refine ⟨fun n st => (hl n st).trans ((linked n st).trans ?_), fun hc st => ?_, fun b h => staged b ?_⟩
  · show _ ↔ (t.session st).borrower = some n
    rw [hh]
    rfl
  · exact (hh st).trans (closed (hd.symm.trans hc) st)
  · show b ∈ s.stagedBanks
    rw [← hb]
    exact h

/-! ### The borrower scan -/

theorem linksSound_admitBorrower {s : State} (hs : Linked s) {st : Station} (n : Number) (c : Fin 16)
    (hopen : s.day.state ≠ .closed) (hfree : (s.session st).borrower = none) :
    LinksSound (admitBorrower st n c s) := by
  unfold admitBorrower
  split
  · next e he =>
    simp only
    split
    · exact linksSound_of_view (view_refuseBorrower _ _ _ _) hs.1
    · next hfind =>
      refine linksSound_openSession hs hopen hfree he ?_
      by_contra hst
      push Not at hst
      obtain ⟨o, ho⟩ := Option.ne_none_iff_exists'.mp hst.1
      have hfail : Reason.inUseElsewhere ∈ borrowerFailures s st e := by
        have : o ≠ st := fun h => hst.2 (by rw [ho, h])
        simp [borrowerFailures, failing, ho, this]
      have hcov : s.covers (s.session st).armedStaff .inUseElsewhere = false := by
        unfold State.covers
        split <;> rfl
      exact absurd (List.find?_eq_none.mp hfind _ hfail) (by simp [hcov])
  · next hnone =>
    split
    · exact linksSound_of_view (view_refuseBorrower _ _ _ _) hs.1
    · next room hroom =>
      obtain ⟨hsub, hlinks⟩ := makeRoom_spec hroom
      have hfresh : n ∉ room.borrowers.map Borrower.number :=
        fun h => number_not_mem hnone ((hsub.map _).subset h)
      have hnodup : ((marks room).map Prod.fst).Nodup := by
        have := hs.2
        simp only [view, marks_numbers] at this ⊢
        exact this.sublist (hsub.map _)
      have hnew : ∀ e, (room.joinBorrower (provisionalEntry n c)).borrower n = some e → e.sessionStation = none := by
        intro e he
        obtain ⟨hmem, hnum⟩ := find_number he
        obtain rfl | hold := (mem_insertBy _ _ _ _).mp hmem
        · rfl
        · exact absurd (List.mem_map.mpr ⟨e, hold, hnum⟩) hfresh
      have hsome : ∃ e, (room.joinBorrower (provisionalEntry n c)).borrower n = some e := by
        refine Option.isSome_iff_exists.mp (List.find?_isSome.mpr ?_)
        exact ⟨_, (mem_insertBy _ _ _ _).mpr (.inl rfl), by simp [provisionalEntry]⟩
      obtain ⟨e, he⟩ := hsome
      have hl : Linked { s with active := room.joinBorrower (provisionalEntry n c) } :=
        ⟨linksSound_of_sameLinks hs.1 (fun _ => rfl)
          ((sameLinks_joinBorrower room rfl).trans (hlinks hs.2)) rfl rfl, nodup_joinBorrower hnodup hfresh⟩
      exact linksSound_openSession hl hopen hfree he (.inl (hnew e he))

theorem borrower_closeSession (s : State) (st : Station) (m : Mode) :
    ((closeSession st m s).1.session st).borrower = none := by
  unfold closeSession
  simp only
  split
  · next h => simp [h]
  · simp [Session.empty]

theorem day_closeSession (s : State) (st : Station) (m : Mode) : (closeSession st m s).1.day = s.day := by
  have days : ∀ (mk : ListEntry → Record) (l : List ListEntry) (x : State),
      (l.foldl (fun s e => appendClaimed (mk e) s) x).day = x.day := by
    intro mk l
    induction l with
    | nil => intro x; rfl
    | cons e l ih => intro x; rw [List.foldl_cons, ih]; rfl
  unfold closeSession
  simp only
  split
  · rfl
  · simp only [setSession_day]
    have slip : ∀ (st : Station) (n : Number) (l : List ListEntry) (x : State),
        (slipForClose st n l x).1.day = x.day := by
      intro st n l x
      unfold slipForClose
      split
      · rfl
      · unfold queueSlip
        split
        · rfl
        · simp [raiseBoth, raise]
    exact (slip _ _ _ _).trans (days _ _ _)

theorem linksSound_borrowerDecision {s : State} (hs : Linked s) (st : Station) (n : Number) (c : Fin 16) (w : Bool) :
    LinksSound (borrowerDecision st n c w s) := by
  unfold borrowerDecision
  split
  · exact linksSound_of_view (view_refuse _ _ _ _ _ _) hs.1
  · next hopen =>
    have hday : s.day.state ≠ .closed := by
      simp only [ne_eq, Decidable.not_not] at hopen
      simp [hopen]
    split
    · exact linksSound_of_view (by simp) hs.1
    · split
      · refine linksSound_of_view (view_showIfLost _ _ _) ?_
        exact linksSound_admitBorrower (linked_closeSession hs st .normal) n c (by rw [day_closeSession]; exact hday)
          (borrower_closeSession s st .normal)
      · next hnot => exact linksSound_admitBorrower hs n c hday (by simpa using hnot)

end Sys2Proof.Links
end

