-- ==== Sys2Proof/Proofs/EventOutcomes.lean ====
section
/-! SUPPORT. What an event of each shape can leave, said once: the state as it was, or the settled work of its body. -/

namespace Sys2Proof.Outcomes

open Sys2Proof.Machine

variable {s t : State}

theorem partEvent_next {f : State → State} (h : partEvent f s = .next t) : t = s ∨ t = settle s (f s) := by
  unfold partEvent at h
  split at h
  · exact .inr (Host.Outcome.next.inj h).symm
  · exact .inl (Host.Outcome.next.inj h).symm

theorem guardedEvent_next {g : State → Bool} {f : State → State} (h : guardedEvent g f s = .next t) :
    t = s ∨ t = settle s s ∨ g s = true ∧ t = settle s (f s) := by
  obtain h | h := partEvent_next h
  · exact .inl h
  · by_cases hg : g s = true
    · rw [if_pos hg] at h
      exact .inr (.inr ⟨hg, h⟩)
    · rw [if_neg hg] at h
      exact .inr (.inl h)

theorem decision_next {takes : State → Input → Bool} {body : Station → Input → Bool → State → State}
    (h : decision takes body s = .next t) :
    t = s ∨ t = settle s s ∨ ∃ st i, s.arbiterPick = some (st, i) ∧ takes s i = true ∧
      t = settle s (body st i (s.console st).wiped (takeInput st s)) := by
  obtain h | h := partEvent_next h
  · exact .inl h
  · split at h
    · exact .inr (.inl h)
    · next st i hp =>
      split at h
      · next ht => exact .inr (.inr ⟨st, i, hp, ht, h⟩)
      · exact .inr (.inl h)

theorem lineEvent_next {l : Line} {f : State → State} (h : lineEvent l f s = .next t) :
    t = s ∨ t = settle s s ∨ t = settle s (f (goodLineFrame l s)) := by
  obtain h | h | ⟨-, h⟩ := guardedEvent_next h
  · exact .inl h
  · exact .inr (.inl h)
  · exact .inr (.inr h)

theorem requestEvent_next {α : Type} {q : Req} {name : ReqName} {owner : α → Bool} {c : Content α}
    {rule : α → State → State} (h : requestEvent q name owner c rule s = .next t) :
    t = s ∨ t = settle s s ∨ (∃ r, t = answered q name r s (received q name s)) ∨
      ∃ p, c = .shaped p ∧ t = settle s (rule p (received q name s)) := by
  have hrec : (if name.isBasic then goodLineFrame q.line s else clearLastError q.line (goodLineFrame q.line s)) =
      received q name s := rfl
  obtain h | h | h := lineEvent_next h
  · exact .inl h
  · exact .inr (.inl h)
  · simp only [hrec] at h
    cases c with
    | malformed => exact .inr (.inr (.inl ⟨_, h⟩))
    | shaped p =>
      simp only at h
      split at h
      · exact .inr (.inr (.inl ⟨_, h⟩))
      · exact .inr (.inr (.inr ⟨p, rfl, h⟩))

theorem request_next {α : Type} {q : Req} {name : ReqName} {owner : Bool} {c : Content α}
    {rule : α → State → State × Reply} (h : request q name owner c rule s = .next t) :
    t = s ∨ t = settle s s ∨ (∃ r, t = answered q name r s (received q name s)) ∨
      ∃ p, c = .shaped p ∧
        t = answered q name (rule p (received q name s)).2 s (rule p (received q name s)).1 :=
  requestEvent_next h

/-- The work of a table write: nothing, or its rule's bank with the record. -/
theorem writeTable_cases (q : Req) (name : ReqName) (bank : BankName) (borrower item : Option Number)
    (rule : Bank → WriteResult) (s : State) :
    (writeTable q name bank borrower item rule s).1 = s ∨
      ∃ b r, s.slot = none ∧ rule (s.bank bank) = .ok (b, r) ∧
        writeTable q name bank borrower item rule s =
          (recordWrite q bank name borrower item (s.setBank bank b), r) := by
  unfold writeTable
  split
  · exact .inl rfl
  · next hbar =>
    split
    · exact .inl rfl
    · next b r hr =>
      refine .inr ⟨b, r, ?_, hr, rfl⟩
      unfold writeBar at hbar
      split at hbar
      · cases hbar
      · next hs => simpa using hs

end Sys2Proof.Outcomes
end

