-- ==== Sys2Proof/Proofs/LinksAtEvents.lean ====
section
/-! SUPPORT. The session links through an event of each shape (R2). -/

namespace Sys2Proof.Links

open Sys2Proof.Machine Sys2Proof.Outcomes

variable {s t : State}

theorem linksSound_partEvent {f : State → State} (hs : LinksSound s) (hf : LinksSound (f s))
    (h : partEvent f s = .next t) : LinksSound t := by
  obtain rfl | rfl := partEvent_next h
  · exact hs
  · exact hf

theorem linksSound_guardedEvent {g : State → Bool} {f : State → State} (hs : LinksSound s)
    (hf : g s = true → LinksSound (f s)) (h : guardedEvent g f s = .next t) : LinksSound t := by
  obtain rfl | rfl | ⟨hg, rfl⟩ := guardedEvent_next h
  · exact hs
  · exact hs
  · exact hf hg

theorem linksSound_decision {takes : State → Input → Bool} {body : Station → Input → Bool → State → State}
    (hs : Linked s) (hb : ∀ x st i w, Linked x → LinksSound (body st i w x)) (h : decision takes body s = .next t) :
    LinksSound t := by
  obtain rfl | rfl | ⟨st, i, -, -, rfl⟩ := decision_next h
  · exact hs.1
  · exact hs.1
  · exact hb _ st i _ (linked_of_view (view_takeInput s st) hs)

theorem linksSound_stationEvent {st : Station} {f : State → State} (hs : LinksSound s)
    (hf : ∀ x, view (f x) = view x) (h : stationEvent st f s = .next t) : LinksSound t := by
  refine linksSound_partEvent hs (linksSound_of_view ?_ hs) h
  simp only
  split
  · exact hf _
  · rfl

theorem linksSound_lineEvent {l : Line} {f : State → State} (hs : Linked s)
    (hf : ∀ x, Linked x → LinksSound (f x)) (h : lineEvent l f s = .next t) : LinksSound t := by
  obtain rfl | rfl | rfl := lineEvent_next h
  · exact hs.1
  · exact hs.1
  · exact hf _ (linked_of_view (view_goodLineFrame s l) hs)

theorem linksSound_requestEvent {α : Type} {q : Req} {name : ReqName} {owner : α → Bool} {c : Content α}
    {rule : α → State → State} (hs : Linked s) (hr : ∀ p x, Linked x → LinksSound (rule p x))
    (h : requestEvent q name owner c rule s = .next t) : LinksSound t := by
  have received := linked_of_view (view_received s q name) hs
  obtain rfl | rfl | ⟨r, rfl⟩ | ⟨p, -, rfl⟩ := requestEvent_next h
  · exact hs.1
  · exact hs.1
  · exact linksSound_of_view (by simp [answered]) received.1
  · exact hr p _ received

theorem linksSound_request {α : Type} {q : Req} {name : ReqName} {owner : Bool} {c : Content α}
    {rule : α → State → State × Reply} (hs : Linked s) (hr : ∀ p x, Linked x → LinksSound (rule p x).1)
    (h : request q name owner c rule s = .next t) : LinksSound t :=
  linksSound_requestEvent hs (fun p x hx => linksSound_of_view (view_answer q name _) (hr p x hx)) h

/-- A request whose rule leaves the links alone. -/
theorem linksSound_quietRequest {α : Type} {q : Req} {name : ReqName} {owner : Bool} {c : Content α}
    {rule : α → State → State × Reply} (hs : Linked s) (hr : ∀ p x, view (rule p x).1 = view x)
    (h : request q name owner c rule s = .next t) : LinksSound t :=
  linksSound_request hs (fun p x hx => linksSound_of_view (hr p x) hx.1) h

theorem linksSound_readRequest {α : Type} {q : Req} {name : ReqName} {c : Content α} {reply : α → State → Reply}
    (hs : Linked s) (h : readRequest q name c reply s = .next t) : LinksSound t :=
  linksSound_quietRequest hs (fun _ _ => rfl) h

/-! ### Table writes -/

/-- A write's rule keeps the links of the bank that it is given. -/
def KeepsLinks (rule : Bank → WriteResult) : Prop :=
  ∀ b b' r, ((marks b).map Prod.fst).Nodup ∨ Unmarked b → rule b = .ok (b', r) → SameLinks b' b

/-- A rule that does not touch the borrowers keeps the links. -/
theorem keepsLinks_of_borrowers {rule : Bank → WriteResult}
    (h : ∀ b b' r, rule b = .ok (b', r) → b'.borrowers = b.borrowers) : KeepsLinks rule :=
  fun b b' r _ hr => sameLinks_of_borrowers (h b b' r hr)

theorem view_recordWrite (q : Req) (bank : BankName) (name : ReqName) (borrower item : Option Number) (s : State) :
    view (recordWrite q bank name borrower item s) = view s := by
  unfold recordWrite; split <;> simp

theorem linksSound_setBank {bank : BankName} {b : Bank} (hs : LinksSound s) (hk : s.slot = none)
    (hl : SameLinks b (s.bank bank)) : LinksSound (s.setBank bank b) := by
  cases bank with
  | active => exact linksSound_of_sameLinks hs (fun _ => rfl) hl rfl rfl
  | staged =>
    rw [linksSound_iff] at *
    obtain ⟨linked, closed, staged⟩ := hs
    refine ⟨linked, closed, fun x hx => ?_⟩
    have hb : (s.setBank .staged b).stagedBanks = [b] := by simp [State.stagedBanks, State.setBank, hk]
    have hold : s.stagedBanks = [s.staged] := by simp [State.stagedBanks, hk]
    obtain rfl : x = b := by simpa [view, hb] using hx
    exact unmarked_of_sameLinks hl (staged s.staged (by simp [view, hold]))

theorem linksSound_writeTable {q : Req} {name : ReqName} {bank : BankName} {borrower item : Option Number}
    {rule : Bank → WriteResult} (hr : KeepsLinks rule) (hs : Linked s) :
    LinksSound (writeTable q name bank borrower item rule s).1 := by
  obtain h | ⟨b, r, hk, hb, h⟩ := writeTable_cases q name bank borrower item rule s
  · rw [h]
    exact hs.1
  · rw [h]
    refine linksSound_of_view (view_recordWrite _ _ _ _ _ _) (linksSound_setBank hs.1 hk (hr _ b r ?_ hb))
    cases bank with
    | active => exact .inl hs.2
    | staged =>
      obtain ⟨-, -, staged⟩ := (linksSound_iff s).mp hs.1
      exact .inr (staged s.staged (by simp [view, State.stagedBanks, hk]))

theorem linksSound_tableRequest {α : Type} {q : Req} {name : ReqName} {c : Content α} {bank : α → BankName}
    {borrower item : α → Option Number} {rule : α → Bank → WriteResult} (hr : ∀ p, KeepsLinks (rule p)) (hs : Linked s)
    (h : tableRequest q name c bank borrower item rule s = .next t) : LinksSound t :=
  linksSound_request hs (fun p _ hx => linksSound_writeTable (hr p) hx) h

theorem linksSound_calendarWrite {α : Type} {q : Req} {name : ReqName} {c : Content α} {bank : α → BankName}
    {rule : α → Bank → WriteResult} (hr : ∀ p, KeepsLinks (rule p)) (hs : Linked s)
    (h : calendarWrite q name c bank rule s = .next t) : LinksSound t := by
  refine linksSound_request hs (fun p x hx => ?_) h
  have hw := linksSound_writeTable (q := q) (name := name) (bank := bank p) (borrower := none) (item := none) (hr p) hx
  simp only
  split
  · exact linksSound_autoOpenTest (linksSound_autoCloseTest hw)
  · exact hw

/-! ### The rules of the table writes -/

theorem writeElement_ok {size index : Nat} {write : Fin size → WriteResult} {x : Bank × Reply}
    (h : writeElement size index write = .ok x) : ∃ i, write i = .ok x := by
  unfold writeElement at h
  split at h
  · exact ⟨_, h⟩
  · cases h

theorem taken_ok {b b' : Bank} {st : Status} {res : Results} {r : Reply} (h : taken b st res = .ok (b', r)) : b' = b :=
  (Prod.mk.inj (Except.ok.inj h)).1.symm

theorem keepsLinks_putBorrower (p : PutBorrowerParams) : KeepsLinks (putBorrowerRule p) := by
  intro b b' r hd h
  unfold putBorrowerRule at h
  split at h
  · cases h
  split at h
  · split at h
    · cases h
    simp only at h
    split at h
    · rw [taken_ok h]
      exact sameLinks_of_marks (marks_mapBorrower b _ fun _ => ⟨rfl, rfl⟩)
    · split at h
      · cases h
      next room hroom =>
      rw [taken_ok h]
      refine (sameLinks_joinBorrower room rfl).trans ?_
      obtain ⟨hsub, hlinks⟩ := makeRoom_spec hroom
      obtain hd | hd := hd
      · exact hlinks hd
      · intro n st
        have none : ∀ l : List Borrower, l.Sublist b.borrowers →
            (n, some st) ∉ l.map fun e => (e.number, e.sessionStation) := by
          intro l hl hm
          exact absurd (hd _ ((hl.map _).subset hm)) (by simp)
        exact ⟨fun hm => absurd hm (none _ hsub), fun hm => absurd hm (none _ (List.Sublist.refl _))⟩
  · cases h

theorem keepsLinks_delBorrower (p : BankNumber) : KeepsLinks (delBorrowerRule p) := by
  intro b b' r hd h
  unfold delBorrowerRule at h
  split at h
  · cases h
  split at h
  · cases h
  next e he =>
  obtain ⟨hmem, hnum⟩ := find_number he
  simp only at h
  split at h
  · next hfree =>
    rw [taken_ok h]
    obtain hd | hd := hd
    · rw [← hnum]
      exact sameLinks_dropBorrower hd hmem hfree.2.2
    · refine sameLinks_filter rfl fun x hx hst => absurd (hd _ (List.mem_map.mpr ⟨x, hx, rfl⟩)) hst
  · rw [taken_ok h]
    exact sameLinks_of_marks (marks_mapBorrower b _ fun _ => ⟨rfl, rfl⟩)

theorem keepsLinks_adjustBorrower (p : AdjustBorrowerParams) : KeepsLinks (adjustBorrowerRule p) := by
  intro b b' r _ h
  unfold adjustBorrowerRule at h
  split at h
  · cases h
  split at h
  · cases h
  · rw [taken_ok h]
    exact sameLinks_of_marks (marks_mapBorrower b _ fun _ => ⟨rfl, rfl⟩)

theorem borrowers_putItem {p : PutItemParams} {b b' : Bank} {r : Reply} (h : putItemRule p b = .ok (b', r)) :
    b'.borrowers = b.borrowers := by
  unfold putItemRule at h
  split at h
  · cases h
  split at h
  · simp only at h
    split at h
    · rw [taken_ok h]; rfl
    · split at h
      · rw [taken_ok h]; rfl
      · cases h
  · cases h

theorem borrowers_delItem {p : BankNumber} {b b' : Bank} {r : Reply} (h : delItemRule p b = .ok (b', r)) :
    b'.borrowers = b.borrowers := by
  unfold delItemRule at h
  split at h
  · cases h
  split at h
  · cases h
  split at h
  · cases h
  simp only at h
  split at h <;> rw [taken_ok h] <;> rfl

theorem borrowers_joinHold (b : Bank) (n : Number) (h : Hold) : (b.joinHold n h).borrowers = b.borrowers := by
  unfold Bank.joinHold; split <;> rfl

theorem borrowers_addHold {p : AddHoldParams} {b b' : Bank} {r : Reply} (h : addHoldRule p b = .ok (b', r)) :
    b'.borrowers = b.borrowers := by
  unfold addHoldRule at h
  split at h
  · cases h
  split at h
  · split at h
    · split at h
      · cases h
      · rw [taken_ok h]
        exact borrowers_joinHold _ _ _
    · cases h
  · cases h

theorem borrowers_cancelHold {p : CancelHoldParams} {b b' : Bank} {r : Reply} (h : cancelHoldRule p b = .ok (b', r)) :
    b'.borrowers = b.borrowers := by
  unfold cancelHoldRule at h
  split at h
  · cases h
  simp only at h
  split at h
  · rw [taken_ok h]; rfl
  · cases h

theorem borrowers_putPrefix {p : PutPrefixParams} {b b' : Bank} {r : Reply} (h : putPrefixRule p b = .ok (b', r)) :
    b'.borrowers = b.borrowers := by
  obtain ⟨i, h⟩ := writeElement_ok h
  split at h
  · simp only at h
    split at h
    · cases h
    · split at h
      · cases h
      · rw [taken_ok h]
  · cases h

theorem borrowers_delPrefix {p : BankIndex} {b b' : Bank} {r : Reply} (h : delPrefixRule p b = .ok (b', r)) :
    b'.borrowers = b.borrowers := by
  obtain ⟨i, h⟩ := writeElement_ok h
  split at h
  · rw [taken_ok h]
  · cases h

theorem borrowers_putStaff {p : PutStaffParams} {b b' : Bank} {r : Reply} (h : putStaffRule p b = .ok (b', r)) :
    b'.borrowers = b.borrowers := by
  unfold putStaffRule at h
  split at h
  · cases h
  split at h
  · rw [taken_ok h]
  split at h
  · rw [taken_ok h]
  · cases h

theorem borrowers_delStaff {p : BankNumber} {b b' : Bank} {r : Reply} (h : delStaffRule p b = .ok (b', r)) :
    b'.borrowers = b.borrowers := by
  unfold delStaffRule at h
  split at h
  · rw [taken_ok h]
  · cases h

theorem borrowers_putCategory {p : PutCategoryParams} {b b' : Bank} {r : Reply}
    (h : putCategoryRule p b = .ok (b', r)) : b'.borrowers = b.borrowers := by
  obtain ⟨i, h⟩ := writeElement_ok h
  rw [taken_ok h]

theorem borrowers_delCategory {p : BankIndex} {b b' : Bank} {r : Reply} (h : delCategoryRule p b = .ok (b', r)) :
    b'.borrowers = b.borrowers := by
  obtain ⟨i, h⟩ := writeElement_ok h
  rw [taken_ok h]

theorem borrowers_putClass {p : PutClassParams} {b b' : Bank} {r : Reply} (h : putClassRule p b = .ok (b', r)) :
    b'.borrowers = b.borrowers := by
  obtain ⟨i, h⟩ := writeElement_ok h
  split at h
  · split at h
    · rw [taken_ok h]
    · cases h
  · cases h

theorem borrowers_delClass {p : BankIndex} {b b' : Bank} {r : Reply} (h : delClassRule p b = .ok (b', r)) :
    b'.borrowers = b.borrowers := by
  obtain ⟨i, h⟩ := writeElement_ok h
  rw [taken_ok h]

theorem borrowers_putRule {p : PutRuleParams} {b b' : Bank} {r : Reply} (h : putRuleRule p b = .ok (b', r)) :
    b'.borrowers = b.borrowers := by
  obtain ⟨i, h⟩ := writeElement_ok h
  obtain ⟨j, h⟩ := writeElement_ok h
  simp only at h
  split at h
  · cases h
  · rw [taken_ok h]

theorem borrowers_delRule {p : DelRuleParams} {b b' : Bank} {r : Reply} (h : delRuleRule p b = .ok (b', r)) :
    b'.borrowers = b.borrowers := by
  obtain ⟨i, h⟩ := writeElement_ok h
  obtain ⟨j, h⟩ := writeElement_ok h
  rw [taken_ok h]

theorem borrowers_writeProfile {n : Nat} {p : Profile} {b b' : Bank} {r : Reply}
    (h : writeProfile n p b = .ok (b', r)) : b'.borrowers = b.borrowers := by
  unfold writeProfile at h
  split at h
  · cases h
  · obtain ⟨i, h⟩ := writeElement_ok h
    rw [taken_ok h]

theorem borrowers_putProfile {p : PutProfileParams} {b b' : Bank} {r : Reply} (h : putProfileRule p b = .ok (b', r)) :
    b'.borrowers = b.borrowers := by
  unfold putProfileRule at h
  split at h
  · cases h
  · exact borrowers_writeProfile h

theorem borrowers_putWeekday {p : PutDayParams} {b b' : Bank} {r : Reply} (h : putWeekdayRule p b = .ok (b', r)) :
    b'.borrowers = b.borrowers := by
  obtain ⟨i, h⟩ := writeElement_ok h
  obtain ⟨j, h⟩ := writeElement_ok h
  rw [taken_ok h]

theorem borrowers_delWeekday {p : BankIndex} {b b' : Bank} {r : Reply} (h : delWeekdayRule p b = .ok (b', r)) :
    b'.borrowers = b.borrowers := by
  obtain ⟨i, h⟩ := writeElement_ok h
  rw [taken_ok h]

theorem borrowers_putException {p : PutDayParams} {b b' : Bank} {r : Reply} (h : putExceptionRule p b = .ok (b', r)) :
    b'.borrowers = b.borrowers := by
  obtain ⟨i, h⟩ := writeElement_ok h
  split at h
  · rw [taken_ok h]
  split at h
  · rw [taken_ok h]
  · cases h

theorem borrowers_delException {p : BankIndex} {b b' : Bank} {r : Reply} (h : delExceptionRule p b = .ok (b', r)) :
    b'.borrowers = b.borrowers := by
  unfold delExceptionRule at h
  split at h
  · rw [taken_ok h]
  · cases h

theorem borrowers_putTemplate {p : PutTemplateParams} {b b' : Bank} {r : Reply}
    (h : putTemplateRule p b = .ok (b', r)) : b'.borrowers = b.borrowers := by
  obtain ⟨i, h⟩ := writeElement_ok h
  split at h
  · cases h
  · rw [taken_ok h]

theorem borrowers_delTemplate {p : BankIndex} {b b' : Bank} {r : Reply} (h : delTemplateRule p b = .ok (b', r)) :
    b'.borrowers = b.borrowers := by
  obtain ⟨i, h⟩ := writeElement_ok h
  rw [taken_ok h]

theorem borrowers_putText {p : PutTextParams} {b b' : Bank} {r : Reply} (h : putTextRule p b = .ok (b', r)) :
    b'.borrowers = b.borrowers := by
  obtain ⟨i, h⟩ := writeElement_ok h
  split at h
  · rw [taken_ok h]
  · cases h

theorem borrowers_delText {p : BankIndex} {b b' : Bank} {r : Reply} (h : delTextRule p b = .ok (b', r)) :
    b'.borrowers = b.borrowers := by
  obtain ⟨i, h⟩ := writeElement_ok h
  rw [taken_ok h]

end Sys2Proof.Links
end

