-- ==== Sys2Proof/Proofs/LinksOfCommands.lean ====
section
/-! SUPPORT. The session links through every command (R2, R168, R172). -/

namespace Sys2Proof.Links

open Sys2Proof.Machine Sys2Proof.Outcomes

variable {s t : State}

/-! ### States without sessions -/

/-- Where no session is open and no entry names a station, the links are sound. -/
theorem linksSound_of_empty (hh : ∀ st : Station, (s.session st).borrower = none) (ha : Unmarked s.active)
    (hb : ∀ b ∈ s.stagedBanks, Unmarked b) : LinksSound s := by
  refine (linksSound_iff s).mpr ⟨fun n st => ⟨fun h => ?_, fun h => ?_⟩, fun _ => hh, hb⟩
  · exact absurd (ha _ h) (by simp)
  · exact absurd ((hh st).symm.trans h) (by simp)

theorem unmarked_cleared : Unmarked Bank.cleared := fun p hp => absurd hp (by simp [marks, Bank.cleared])

theorem session_emptied {x : State} (h : x.sessions = Vector.replicate 8 Session.empty) (st : Station) :
    (x.session st).borrower = none := by
  simp [State.session, h, Session.empty]

theorem unmarked_staged (hs : LinksSound s) : Unmarked s.staged := by
  obtain ⟨-, -, staged⟩ := (linksSound_iff s).mp hs
  refine staged s.staged ?_
  simp only [view, State.stagedBanks]
  split <;> simp

/-- The slot is released. -/
theorem linksSound_slotFree (hs : LinksSound s) : LinksSound { s with slot := none } := by
  have hu := unmarked_staged hs
  rw [linksSound_iff] at *
  obtain ⟨linked, closed, -⟩ := hs
  refine ⟨linked, closed, fun b hb => ?_⟩
  obtain rfl : b = s.staged := by simpa [view, State.stagedBanks] using hb
  exact hu

theorem linksSound_releaseSlot (hs : LinksSound s) : LinksSound (releaseSlot s) :=
  linksSound_autoOpenTest (linksSound_slotFree hs)

/-! ### Starts -/

theorem dropSome_sublist {α : Type} (cut : Nat → Bool) (l : List α) : ∀ i, (dropSome cut i l).Sublist l := by
  induction l with
  | nil => intro i; exact List.Sublist.refl _
  | cons x xs ih =>
    intro i
    unfold dropSome
    split
    · exact (ih _).cons x
    · exact (ih _).cons_cons x

/-- Step 1 of a warm start leaves the slot free and the staged bank whole or partly cleared. -/
theorem linksSound_startVolatile (hs : LinksSound s) : LinksSound (finishScrub (startVolatile (cutStaging s))) := by
  have hu := unmarked_staged hs
  obtain ⟨linked, closed, staged⟩ := (linksSound_iff s).mp hs
  unfold cutStaging
  split
  · next replaced q hk =>
    refine (linksSound_iff _).mpr ⟨linked, closed, fun b hb => ?_⟩
    obtain rfl := List.mem_singleton.mp hb
    have hr : Unmarked replaced := staged replaced (by simp [view, State.stagedBanks, hk])
    intro p hp
    exact hr p (((dropSome_sublist _ _ _).map _).subset hp)
  · refine (linksSound_iff _).mpr ⟨linked, closed, fun b hb => ?_⟩
    obtain rfl := List.mem_singleton.mp hb
    exact hu

/-- What the conversion of one session leaves of the view: the marks of other borrowers. -/
theorem convertSession_spec (x : State) (st : Station) :
    (convertSession x st).sessions = x.sessions ∧ (convertSession x st).stagedBanks = x.stagedBanks ∧
      ∀ p ∈ marks (convertSession x st).active,
        p ∈ marks x.active ∧ some p.1 ≠ (x.session st).borrower ∨ p.2 = none := by
  unfold convertSession
  simp only
  split
  · next h => exact ⟨rfl, rfl, fun p hp => .inl ⟨hp, by simp [h]⟩⟩
  · next n hn =>
    have hv := view_bookItems x (convertDraft st n (x.session st).overrideStaff) n (x.session st).items
    have sessions : ∀ (mk : ListEntry → Record) (l : List ListEntry) (y : State),
        (l.foldl (fun s e => appendClaimed (mk e) s) y).sessions = y.sessions := by
      intro mk l
      induction l with
      | nil => intro y; rfl
      | cons e l ih => intro y; rw [List.foldl_cons, ih]; rfl
    refine ⟨sessions _ _ x, congrArg View.staged hv, fun p hp => ?_⟩
    obtain ⟨hpn, hp⟩ | ⟨-, hp⟩ := mem_marks_unlink _ n p hp
    · have hm : marks (bookItems _ n _ x).active = marks x.active := congrArg View.marks hv
      exact .inl ⟨hm ▸ hp, by simpa [hn] using hpn⟩
    · exact .inr hp

/-- The conversion of a run of stations leaves no mark of theirs. -/
theorem convertFold_spec (l : List Station) : ∀ x : State,
    (l.foldl convertSession x).sessions = x.sessions ∧ (l.foldl convertSession x).stagedBanks = x.stagedBanks ∧
      ∀ p ∈ marks (l.foldl convertSession x).active,
        p ∈ marks x.active ∧ (∀ st ∈ l, some p.1 ≠ (x.session st).borrower) ∨ p.2 = none := by
  induction l with
  | nil => exact fun x => ⟨rfl, rfl, fun p hp => .inl ⟨hp, by simp⟩⟩
  | cons a l ih =>
    intro x
    obtain ⟨hs, hb, hm⟩ := ih (convertSession x a)
    obtain ⟨hs1, hb1, hm1⟩ := convertSession_spec x a
    refine ⟨hs.trans hs1, hb.trans hb1, fun p hp => ?_⟩
    obtain ⟨hp, hl⟩ | hp := hm p hp
    · obtain ⟨hp, ha⟩ | hp := hm1 p hp
      · refine .inl ⟨hp, fun st hst => ?_⟩
        obtain rfl | hst := List.mem_cons.mp hst
        · exact ha
        · have := hl st hst
          simp only [State.session, hs1] at this
          exact this
      · exact .inr hp
    · exact .inr hp

theorem linksSound_convertSessions (hs : LinksSound s) : LinksSound (convertSessions s) := by
  obtain ⟨-, hb, hm⟩ := convertFold_spec stations s
  obtain ⟨linked, -, staged⟩ := (linksSound_iff s).mp hs
  unfold convertSessions
  generalize stations.foldl convertSession s = y at hb hm
  refine linksSound_of_empty (session_emptied rfl) (fun p hp => ?_) fun b h => staged b ?_
  · obtain ⟨hp, hst⟩ | hp := hm p hp
    · obtain ⟨n, st⟩ := p
      cases st with
      | none => rfl
      | some st => exact absurd ((linked n st).mp hp).symm (hst st (List.mem_finRange st))
    · exact hp
  · show b ∈ s.stagedBanks
    rw [← hb]
    exact h

theorem session_convertSessions (x : State) (st : Station) : ((convertSessions x).session st).borrower = none := by
  unfold convertSessions
  exact session_emptied rfl st

theorem view_testLevels (x : State) : view (testLevels x) = view x := rfl

theorem linksSound_closeInterrupted (hs : LinksSound s) (hn : ∀ st : Station, (s.session st).borrower = none) :
    LinksSound (closeInterrupted s) := by
  unfold closeInterrupted
  split
  · exact hs
  · exact linksSound_enterClosed hs hn

theorem linksSound_warmStart (hs : LinksSound s) : LinksSound (warmStart s) := by
  unfold warmStart
  refine linksSound_autoOpenTest (linksSound_of_view ((view_testLevels _).trans (view_rewind _)) ?_)
  exact linksSound_closeInterrupted (linksSound_convertSessions (linksSound_startVolatile hs))
    (session_convertSessions _)

theorem linksSound_coldStart (s : State) : LinksSound (coldStart s) := by
  refine linksSound_of_empty (session_emptied rfl) unmarked_cleared fun b hb => ?_
  obtain rfl := List.mem_singleton.mp hb
  exact unmarked_cleared

theorem linksSound_start (hs : LinksSound s) : LinksSound (start s) := by
  unfold start
  split
  · exact linksSound_warmStart hs
  · exact linksSound_coldStart s

/-! ### Station lines -/

theorem linksSound_heartbeat {st : Station} {content : List Byte} (hs : LinksSound s)
    (h : execHeartbeat st content s = .next t) : LinksSound t := by
  refine linksSound_stationEvent hs (fun x => ?_) h
  have before : view (if (x.port st).bridged = true then passUp st (heartbeatKind :: content) x else x) = view x := by
    split <;> simp
  simp only
  generalize (if (x.port st).bridged = true then passUp st (heartbeatKind :: content) x else x) = y at before ⊢
  rw [← before]
  split
  · rfl
  · split <;> simp

theorem linksSound_scanFrame {st : Station} {content : List Byte} (hs : LinksSound s)
    (h : execScanFrame st content s = .next t) : LinksSound t := by
  refine linksSound_stationEvent hs (fun x => ?_) h
  split
  · simp
  · split <;> simp

theorem linksSound_keyFrame {st : Station} {content : List Byte} (hs : LinksSound s)
    (h : execKeyFrame st content s = .next t) : LinksSound t := by
  refine linksSound_stationEvent hs (fun x => ?_) h
  split
  · simp
  · split <;> simp

theorem linksSound_unknownKind {st : Station} {kind : Byte} {content : List Byte} (hs : LinksSound s)
    (h : execUnknownKindStationFrame st kind content s = .next t) : LinksSound t := by
  refine linksSound_stationEvent hs (fun x => ?_) h
  split <;> simp

theorem linksSound_watchExpiry {st : Station} (hs : Linked s) (h : execHeartbeatWatchExpiry st s = .next t) :
    LinksSound t := by
  refine linksSound_guardedEvent hs.1 (fun _ => ?_) h
  split
  · exact hs.1
  · exact linksSound_closeIfDone (linked_loseStation hs st).1

/-! ### Decisions -/

theorem view_creditReturn (st : Station) (item : Number) (x : State) : view (creditReturn st item x) = view x := by
  unfold creditReturn
  simp only
  split
  · simp
  · rw [view_appendAboveReserve]
    exact view_of_marks _ rfl (marks_mapBorrower _ _ fun _ => ⟨rfl, rfl⟩) rfl rfl

theorem view_routeHead (st : Station) (item : Number) (x : State) : view (routeHead st item x) = view x := by
  unfold routeHead
  split
  · simp only
    split
    · rfl
    · rw [view_appendAboveReserve]; rfl
  · rfl

theorem view_takeReturn (st : Station) (item : Number) (c : Fin 32) (x : State) :
    view (takeReturn st item c x) = view x := by
  unfold takeReturn
  simp only
  split <;> simp [view_routeHead, view_creditReturn]

theorem view_refuseInSession (st : Station) (r : Reason) (item : Option Number) (x : State) :
    view (refuseInSession st r item x) = view x := view_refuse _ _ _ _ _ _

theorem view_acceptItem (st : Station) (e : ListEntry) (x : State) : view (acceptItem st e x) = view x := by
  unfold acceptItem
  simp only [view_sound, view_showLines]
  exact (view_setSession _ st (by rfl)).trans rfl

theorem view_itemDecision (st : Station) (item : Number) (c : Fin 32) (w : Bool) (x : State) :
    view (itemDecision st item c w x) = view x := by
  unfold itemDecision
  split
  · unfold lendDecision
    simp only
    split
    · exact view_refuseInSession _ _ _ _
    · split
      · simp
      · split
        · exact view_refuseInSession _ _ _ _
        · split
          · exact view_refuseInSession _ _ _ _
          · exact view_acceptItem _ _ _
  · split
    · unfold returnDecision
      split
      · exact view_refuseInSession _ _ _ _
      · exact view_takeReturn _ _ _ _
    · exact view_refuseInSession _ _ _ _

theorem view_staffDecision (st : Station) (n : Number) (x : State) : view (staffDecision st n x) = view x := by
  unfold staffDecision
  split
  · unfold acceptStaff
    simp only [view_sound, view_showLines]
    refine view_setSession _ st ?_
    split <;> rfl
  · exact view_refuse _ _ _ _ _ _

theorem linksSound_scanDecision (st : Station) (i : Input) (w : Bool) (hs : Linked s) :
    LinksSound (scanDecision st i w s) := by
  unfold scanDecision
  split
  · exact linksSound_borrowerDecision hs st _ _ w
  · exact linksSound_of_view (view_itemDecision _ _ _ _ _) hs.1
  · exact linksSound_of_view (view_staffDecision _ _ _) hs.1
  · exact linksSound_of_view (view_showUnwiped _ _ _) hs.1
  · exact linksSound_of_view (view_refuseInSession _ _ _ _) hs.1
  · exact hs.1

theorem linksSound_scan {takes : State → Input → Bool} (hs : Linked s) (h : decision takes scanDecision s = .next t) :
    LinksSound t :=
  linksSound_decision hs (fun _ st i w hx => linksSound_scanDecision st i w hx) h

theorem linksSound_key {k : KeyCode} {body : Station → Bool → State → State} (hs : Linked s)
    (hb : ∀ x st w, Linked x → LinksSound (body st w x)) (h : keyDecision k body s = .next t) : LinksSound t :=
  linksSound_decision hs (fun x st _ w hx => hb x st w hx) h

theorem linksSound_endKey (hs : Linked s) (h : execEndKey s = .next t) : LinksSound t := by
  refine linksSound_key hs (fun x st w hx => ?_) h
  split
  · refine linksSound_closeIfDone (linksSound_of_view ?_ (linked_closeSession hx st .normal).1)
    simp only [view_sound, view_showIfLost]
    split <;> simp
  · exact linksSound_of_view (by simp) hx.1

theorem linksSound_cancelKey (hs : Linked s) (h : execCancelKey s = .next t) : LinksSound t := by
  refine linksSound_key hs (fun x st w hx => ?_) h
  split
  · exact linksSound_closeIfDone (linksSound_of_view (by simp) (linked_cancelSession hx st).1)
  · exact linksSound_of_view (by simp) hx.1

theorem linksSound_returnKey (hs : Linked s) (h : execReturnKey s = .next t) : LinksSound t := by
  refine linksSound_key hs (fun x st w hx => ?_) h
  split
  · exact linksSound_of_view (by simp) hx.1
  · exact linksSound_closeIfDone (linksSound_of_view (by simp) (linked_closeSession hx st .returns).1)

theorem linksSound_checkoutKey (hs : Linked s) (h : execCheckoutKey s = .next t) : LinksSound t := by
  refine linksSound_key hs (fun x st w hx => ?_) h
  split <;> exact linksSound_of_view (by simp) hx.1

theorem linksSound_reprintKey (hs : Linked s) (h : execReprintKey s = .next t) : LinksSound t := by
  refine linksSound_key hs (fun x st w hx => ?_) h
  simp only
  split <;> exact linksSound_of_view (by simp) hx.1

/-! ### Timed events -/

theorem linksSound_clockTick (hs : LinksSound s) (h : execClockTick s = .next t) : LinksSound t := by
  unfold execClockTick at h
  split at h
  · refine linksSound_partEvent hs ?_ h
    have ticked : LinksSound (autoCloseTest s (tickTimers (tickClock s))) :=
      linksSound_autoCloseTest (linksSound_of_view ((view_tickTimers _).trans (view_tickClock s)) hs)
    unfold tickEvent
    simp only
    split
    · exact linksSound_autoOpenTest ticked
    · exact ticked
  · obtain rfl := Host.Outcome.next.inj h
    exact linksSound_of_view (view_tickClock s) hs

theorem linksSound_autoOpen (hs : LinksSound s) (h : execAutoOpen s = .next t) : LinksSound t := by
  refine linksSound_guardedEvent hs (fun hg => ?_) h
  have := linksSound_autoOpenTest hs
  rwa [autoOpenTest, if_pos hg] at this

theorem view_sweepEntry (day : Nat) (e : Item) (x : State) : view (sweepEntry day e x) = view x := by
  unfold sweepEntry
  split
  · rfl
  · split
    · simp only
      split
      · exact (show view _ = view (appendSystem _ x) from rfl).trans (view_appendSystem _ _)
      · rw [view_appendSystem]
        exact (show view _ = view (appendSystem _ x) from rfl).trans (view_appendSystem _ _)
    · rfl

theorem staged_appendSystem (d : Record) (x : State) : (appendSystem d x).staged = x.staged := by
  unfold appendSystem; split <;> rfl

theorem linksSound_sweepStep (hs : LinksSound s) (h : execSweepStep s = .next t) : LinksSound t := by
  refine linksSound_partEvent hs ?_ h
  unfold sweepOne
  split
  · exact hs
  · next q day visited _ =>
    split
    · exact hs
    · next e _ _ =>
      have swept := linksSound_slotFree (linksSound_of_view (view_sweepEntry day e s) hs)
      exact linksSound_of_view rfl swept

theorem linksSound_openEnd (hs : LinksSound s) (h : execOpenEnd s = .next t) : LinksSound t := by
  refine linksSound_partEvent hs ?_ h
  split
  · exact hs
  · next q day visited hk =>
    split
    · unfold endOpening
      simp only
      refine linksSound_of_view ((view_showStandingAll _).trans (view_finalReply _ _ _ _)) ?_
      have opened : LinksSound
          { appendSystem (draft .dayOpen) s with
            day := { (appendSystem (draft .dayOpen) s).day with state := .opened, openDay := some day }
            slot := none } :=
        linksSound_of_open (linksSound_slotFree (linksSound_of_view (view_appendSystem s _) hs)) (by simp) rfl
      split
      · exact linksSound_of_view (view_raiseBoth _ _) opened
      · exact opened
    · exact hs

theorem linksSound_stageBeginEnd (hs : LinksSound s) (h : execStageBeginEnd s = .next t) : LinksSound t := by
  refine linksSound_partEvent hs ?_ h
  split
  · refine linksSound_releaseSlot (linksSound_of_view (view_finalReply _ _ _ _) ?_)
    exact linksSound_of_view rfl hs
  · exact hs

/-- R172: the staged bank, which names no station, takes the place of the ACTIVE one while no session is open. -/
theorem linksSound_changeOver (hs : LinksSound s) (hd : s.day.state = .closed) (hk : s.stagedBanks = [s.staged]) :
    LinksSound (changeOver s) := by
  have hu := unmarked_staged hs
  obtain ⟨-, closed, -⟩ := (linksSound_iff s).mp hs
  unfold changeOver
  simp only
  refine linksSound_of_view (s := { s with
      active := s.staged, staged := Bank.cleared, stagedState := .empty, cache := []
      generation := nextGeneration s.generation }) ?_ ?_
  · exact (show view _ = view (appendSystem _ _) from rfl).trans (view_appendSystem _ _)
  · refine linksSound_of_empty (closed hd) hu fun b hb => ?_
    have : ({ s with
      active := s.staged, staged := Bank.cleared, stagedState := .empty, cache := []
      generation := nextGeneration s.generation } : State).stagedBanks = [Bank.cleared] := by
      simp only [State.stagedBanks] at hk ⊢
      split
      · next h => simp [h] at hk
      · rfl
    rw [this] at hb
    obtain rfl := List.mem_singleton.mp hb
    exact unmarked_cleared

theorem linksSound_commitChangeover (hs : LinksSound s) (h : execCommitChangeover s = .next t) : LinksSound t := by
  refine linksSound_partEvent hs ?_ h
  split
  · next q hk =>
    split
    · next hd =>
      refine linksSound_releaseSlot (linksSound_of_view (view_finalReply _ _ _ _) ?_)
      exact linksSound_changeOver hs hd.1 (by simp [State.stagedBanks, hk])
    · exact linksSound_releaseSlot (linksSound_of_view (view_finalReply _ _ _ _) hs)
  · exact hs

theorem linksSound_scrubBlock (hs : LinksSound s) (h : execScrubBlock s = .next t) : LinksSound t := by
  refine linksSound_partEvent hs ?_ h
  split
  · split
    · simp only
      split
      · refine linksSound_releaseSlot (linksSound_of_view (view_finalReply _ _ _ _) ?_)
        exact linksSound_of_view rfl hs
      · exact linksSound_of_view rfl hs
    · exact hs
  · exact hs

/-! ### Management lines -/

theorem linksSound_lineTransmit {l : Line} (hs : LinksSound s) (h : execLineTransmit l s = .next t) : LinksSound t := by
  refine linksSound_partEvent hs ?_ h
  simp only
  split
  · exact linksSound_warmStart hs
  · exact linksSound_of_view (view_setLine _ _ _) hs

theorem linksSound_livenessExpiry {l : Line} (hs : LinksSound s) (h : execLivenessExpiry l s = .next t) :
    LinksSound t := by
  refine linksSound_guardedEvent hs (fun _ => ?_) h
  have down := linksSound_of_view (view_enterInactive s l .down none) hs
  simp only
  split
  · exact linksSound_warmStart down
  · exact down

theorem view_joinPass (st : Station) (body : List Byte) (x : State) : view (joinPass st body x) = view x := by
  unfold joinPass
  simp only
  split <;> simp

theorem linksSound_passDown {n : Nat} {body : List Byte} (hs : Linked s) (h : execPassDown n body s = .next t) :
    LinksSound t := by
  refine linksSound_lineEvent hs (fun x hx => linksSound_of_view ?_ hx.1) h
  split
  · split
    · exact view_joinPass _ _ _
    · rfl
  · rfl

theorem linksSound_droppedFrame {l : Line} {kind : DroppedKind} (hs : LinksSound s)
    (h : execDroppedGoodLineFrame l kind s = .next t) : LinksSound t :=
  linksSound_guardedEvent hs (fun _ => linksSound_of_view (view_goodLineFrame s l) hs) h

theorem linksSound_unknownRequest {q : Req} {code : Option Byte} (hs : Linked s)
    (h : execUnknownRequestName q code s = .next t) : LinksSound t := by
  unfold execUnknownRequestName at h
  simp only at h
  refine linksSound_lineEvent hs (fun x hx => linksSound_of_view ?_ hx.1) h
  simp only [view_answer, view_clearLastError]
  split <;> simp

theorem view_acceptHello (q : Req) (w : FeatureSet) (x : State) : view (acceptHello q w x) = view x := by
  unfold acceptHello
  simp only [view_answer, view_setLine]
  split <;> simp

theorem linksSound_hello {q : Req} {c : Content HelloParams} (hs : Linked s) (h : execHello q c s = .next t) :
    LinksSound t := by
  refine linksSound_lineEvent hs (fun x hx => linksSound_of_view ?_ hx.1) h
  split
  · simp
  · split
    · exact view_acceptHello _ _ _
    · simp

theorem linksSound_unlock {q : Req} {c : Content Key} (hs : Linked s) (h : execUnlock q c s = .next t) :
    LinksSound t := by
  refine linksSound_quietRequest hs (fun k x => ?_) h
  split
  · rfl
  · split <;> simp [setMark]

theorem linksSound_setKey {q : Req} {c : Content Key} (hs : Linked s) (h : execSetKey q c s = .next t) :
    LinksSound t := by
  refine linksSound_quietRequest hs (fun k x => ?_) h
  simp only [setMark, view_setLine]
  rfl

theorem linksSound_ackAttention {q : Req} {c : Content (Named CauseSet)} (hs : Linked s)
    (h : execAckAttention q c s = .next t) : LinksSound t := by
  refine linksSound_quietRequest hs (fun p x => ?_) h
  split <;> simp

theorem linksSound_setAttentionMask {q : Req} {c : Content (Named CauseSet)} (hs : Linked s)
    (h : execSetAttentionMask q c s = .next t) : LinksSound t := by
  refine linksSound_quietRequest hs (fun p x => ?_) h
  split <;> simp

theorem view_setNoteTo (l : Line) (n : NoteSlot) (x : State) : view (x.setNoteTo l n) = view x := by cases l <;> rfl

theorem linksSound_readNote {q : Req} {c : Content ReadNoteTarget} (hs : Linked s) (h : execReadNote q c s = .next t) :
    LinksSound t := by
  refine linksSound_quietRequest hs (fun p x => ?_) h
  cases p
  · exact view_setNoteTo _ _ _
  · rfl
  · rfl

theorem view_postTo (l : Line) (text : Text) (x : State) : view (postTo l text x) = view x := by
  unfold postTo
  simp only
  split <;> simp [view_setNoteTo]

theorem view_postNoteRule (l : Line) (p : PostNoteParams) (x : State) : view (postNoteRule l p x).1 = view x := by
  unfold postNoteRule
  split
  · rfl
  · split
    · rfl
    · rfl
    · split
      · rfl
      · split
        · rfl
        · exact view_postTo _ _ _
    · split
      · rfl
      · split
        · rfl
        · exact view_postTo _ _ _

theorem linksSound_postNote {q : Req} {c : Content PostNoteParams} (hs : Linked s)
    (h : execPostNote q c s = .next t) : LinksSound t :=
  linksSound_requestEvent hs
    (fun p x hx => linksSound_of_view ((view_answer _ _ _).trans (view_postNoteRule _ p x)) hx.1) h

theorem linksSound_bridge {q : Req} {c : Content Nat} (hs : Linked s) (h : execBridge q c s = .next t) :
    LinksSound t := by
  refine linksSound_quietRequest hs (fun n x => ?_) h
  split
  · rfl
  · split
    · split <;> simp
    · rfl

theorem linksSound_unbridge {q : Req} {c : Content Nat} (hs : Linked s) (h : execUnbridge q c s = .next t) :
    LinksSound t := by
  refine linksSound_quietRequest hs (fun n x => ?_) h
  split
  · rfl
  · split
    · split <;> simp
    · rfl

/-! ### The journal's requests -/

theorem view_uploadRule (q : Req) (n : Nat) (x : State) : view (uploadRule q n x) = view x := by
  unfold uploadRule
  split
  · simp
  · split
    · simp
    · split
      · simp
      · simp only
        split
        · exact view_endUpload _
        · rfl

theorem sameLinks_releaseRecords (l : List Record) : ∀ b, SameLinks (l.foldl releaseRecord b) b := by
  induction l with
  | nil => exact fun b => sameLinks_of_borrowers rfl
  | cons r l ih =>
    intro b
    refine (ih _).trans ?_
    unfold releaseRecord
    split
    · exact (sameLinks_dropIfRetired _ _).trans (sameLinks_of_marks (marks_mapBorrower _ _ fun _ => ⟨rfl, rfl⟩))
    · exact sameLinks_of_borrowers rfl

theorem linksSound_release {q : Req} {c : Content Nat} (hs : Linked s) (h : execRelease q c s = .next t) :
    LinksSound t := by
  refine linksSound_request hs (fun seq x hx => ?_) h
  split
  · exact hx.1
  · unfold releaseRule
    simp only
    split
    · exact hx.1
    · generalize (if decide (x.journal.sendMark ≤ seq) = true then x.journal.sendMark - 1 else seq) = limit
      split
      · exact hx.1
      · exact linksSound_of_sameLinks hx.1 (fun _ => rfl) (sameLinks_releaseRecords _ _) rfl rfl

theorem linksSound_recordSend (hs : LinksSound s) (h : execRecordSend s = .next t) : LinksSound t := by
  refine linksSound_guardedEvent hs (fun _ => linksSound_of_view ?_ hs) h
  split
  · rfl
  · next u _ =>
    have sent : view (sendRecord u s) = view s := by
      unfold sendRecord
      simp only
      split
      · exact (show view _ = view (sendFrame _ _ s) from rfl).trans (view_sendFrame _ _ _)
      · rfl
    simp only
    split
    · exact (view_endUpload _).trans sent
    · exact sent

/-! ### The desk's requests -/

theorem linksSound_openDesk {q : Req} {c : Content Unit} (hs : Linked s) (h : execOpenDesk q c s = .next t) :
    LinksSound t := by
  refine linksSound_quietRequest hs (fun _ x => ?_) h
  split
  · rfl
  · next hk =>
    split
    · rfl
    · exact view_beginOpening x _ (by simpa using hk)

theorem linksSound_closeDesk {q : Req} {c : Content Unit} (hs : Linked s) (h : execCloseDesk q c s = .next t) :
    LinksSound t := by
  refine linksSound_request hs (fun _ x hx => ?_) h
  split
  · exact hx.1
  · split
    · exact linksSound_enterClosing hx.1
    · exact hx.1
    · exact hx.1

theorem linksSound_takeTime (i : Instant) (hs : LinksSound s) : LinksSound (takeTime i s).1 := by
  have stepped : ∀ {x : State}, view x = view s → LinksSound (afterStep s x) := fun hv =>
    linksSound_autoOpenTest (linksSound_autoCloseTest (linksSound_of_view hv hs))
  unfold takeTime
  split
  · refine stepped ?_
    split
    · rfl
    · exact (show view _ = view (disarmAll s) from rfl).trans (view_disarmAll s)
  · split
    · exact hs
    · split
      · exact stepped (by simp)
      · exact hs

theorem linksSound_timeRule (p : TimeParams) (hs : LinksSound s) : LinksSound (timeRule p s).1 := by
  unfold timeRule
  split
  · exact hs
  · exact linksSound_takeTime _ hs

theorem linksSound_time {q : Req} {c : Content TimeParams} (hs : Linked s) (h : execTime q c s = .next t) :
    LinksSound t := by
  refine linksSound_request hs (fun p x hx => ?_) h
  split
  · exact hx.1
  · exact linksSound_timeRule p hx.1

theorem linksSound_setTime {q : Req} {c : Content TimeParams} (hs : Linked s) (h : execSetTime q c s = .next t) :
    LinksSound t := by
  refine linksSound_request hs (fun p x hx => ?_) h
  split
  · exact hx.1
  · split
    · exact hx.1
    · exact linksSound_timeRule p hx.1

/-- R170: the bank being cleared stands beside the cleared one. -/
theorem linksSound_stageBegin {q : Req} {c : Content Unit} (hs : Linked s) (h : execStageBegin q c s = .next t) :
    LinksSound t := by
  refine linksSound_request hs (fun _ x hx => ?_) h
  split
  · exact hx.1
  · have hu := unmarked_staged hx.1
    obtain ⟨linked, closed, -⟩ := (linksSound_iff x).mp hx.1
    refine (linksSound_iff _).mpr ⟨linked, closed, fun b hb => ?_⟩
    obtain rfl | hb := List.mem_cons.mp hb
    · exact unmarked_cleared
    · obtain rfl := List.mem_singleton.mp hb
      exact hu

theorem linksSound_commit {q : Req} {c : Content CommitParams} (hs : Linked s) (h : execCommit q c s = .next t) :
    LinksSound t := by
  refine linksSound_request hs (fun _ x hx => ?_) h
  simp only
  split
  · exact hx.1
  · split
    · exact hx.1
    · split
      · exact hx.1
      · split
        · exact linksSound_of_view rfl (linksSound_slotFree hx.1)
        · exact hx.1

theorem linked_disableStations (hs : Linked s) : Linked (disableStations s) := by
  have run : ∀ (l : List Station) (x : State), Linked x →
      Linked (l.foldl (fun s st =>
        if (s.port st).present && !(s.port st).bridged && !s.settings.enableMask[st] then loseStation st s
        else s) x) := by
    intro l
    induction l with
    | nil => exact fun x hx => hx
    | cons a l ih =>
      intro x hx
      rw [List.foldl_cons]
      refine ih _ ?_
      split
      · exact linked_loseStation hx a
      · exact hx
  exact run stations s hs

theorem linksSound_setSettings {q : Req} {c : Content SettingsParams} (hs : Linked s)
    (h : execSetSettings q c s = .next t) : LinksSound t := by
  refine linksSound_request hs (fun p x hx => ?_) h
  unfold settingsRule
  split
  · exact hx.1
  · next record _ =>
    have stored : Linked { x with settings := record } := linked_of_view rfl hx
    have closed := linksSound_closeIfDone (linked_disableStations stored).1
    generalize closeIfDone (disableStations { x with settings := record }) = y at closed
    exact linksSound_autoOpenTest closed

theorem linksSound_wipeTables (x : State) : LinksSound { wipeTables x with slot := none } := by
  refine linksSound_of_empty (session_emptied rfl) unmarked_cleared fun b hb => ?_
  obtain rfl := List.mem_singleton.mp hb
  exact unmarked_cleared

theorem staged_showStandingAll (x : State) : (showStandingAll x).staged = x.staged := by rw [showStandingAll_frame]

/-- Two states that differ in what the links are not read from, neither clearing a bank. -/
theorem view_slot {x y : State} {k : Slot} (hv : view x = view y) (hb : x.staged = y.staged)
    (hk : ∀ replaced, k.op ≠ .stageBegin replaced) :
    view { x with slot := some k } = view { y with slot := none } := by
  have holder : (view x).holder = (view y).holder := congrArg View.holder hv
  have marks : (view x).marks = (view y).marks := congrArg View.marks hv
  have day : (view x).day = (view y).day := congrArg View.day hv
  have staged : ({ x with slot := some k } : State).stagedBanks = [x.staged] := by
    simp only [State.stagedBanks]
    split
    · next replaced _ h =>
      cases h
      exact absurd rfl (hk replaced)
    · rfl
  have free : ({ y with slot := none } : State).stagedBanks = [y.staged] := rfl
  simp only [view] at holder marks day ⊢
  rw [staged, free, hb]
  exact congr (congr (congr (congrArg View.mk holder) marks) day) rfl

theorem linksSound_wipeEvent (q : Req) (x : State) : LinksSound (wipeEvent q x) := by
  unfold wipeEvent
  simp only
  generalize endUpload x = y
  refine linksSound_of_view (s := { wipeTables y with slot := none }) ?_ (linksSound_wipeTables y)
  have hv := (view_appendSystem (showStandingAll (wipeTables y)) (draft .wiped)).trans
    (view_showStandingAll (wipeTables y))
  have hb := (staged_appendSystem (draft .wiped) (showStandingAll (wipeTables y))).trans (staged_showStandingAll _)
  generalize appendSystem (draft .wiped) (showStandingAll (wipeTables y)) = z at hv hb ⊢
  generalize wipeTables y = w at hv hb ⊢
  exact view_slot (y := w) (x := { z with store := { z.store with scrubMark := true, scrubPos := 0 } })
    (k := { op := .wipe, requester := some q }) hv hb (fun _ h => by cases h)

theorem linksSound_wipe {q : Req} {c : Content Unit} (hs : Linked s) (h : execWipe q c s = .next t) :
    LinksSound t := by
  refine linksSound_request hs (fun _ x hx => ?_) h
  split
  · exact hx.1
  · exact linksSound_wipeEvent q x

/-! ### The supplies and the pin -/

theorem linksSound_powerUp (hs : LinksSound s) (h : execPowerUp s = .next t) : LinksSound t := by
  unfold execPowerUp at h
  split at h
  · obtain rfl := Host.Outcome.next.inj h
    exact hs
  · obtain rfl := Host.Outcome.next.inj h
    split
    · exact hs
    · exact linksSound_start (s := { s with powered := true }) hs

theorem linksSound_backupFail (hs : LinksSound s) (h : execBackupFail s = .next t) : LinksSound t := by
  obtain rfl := Host.Outcome.next.inj h
  split
  · exact hs
  · exact hs

theorem linksSound_resetRelease (hs : LinksSound s) (h : execResetRelease s = .next t) : LinksSound t := by
  unfold execResetRelease at h
  split at h
  · obtain rfl := Host.Outcome.next.inj h
    split
    · exact linksSound_start (s := { s with resetAsserted := false }) hs
    · exact hs
  · obtain rfl := Host.Outcome.next.inj h
    exact hs

/-! ### Every command -/

theorem linksSound_exec (i : Instr) (hs : Linked s) (h : exec i s = .next t) : LinksSound t := by
  cases i with
  | heartbeat st content => exact linksSound_heartbeat hs.1 h
  | scanFrame st content => exact linksSound_scanFrame hs.1 h
  | keyFrame st content => exact linksSound_keyFrame hs.1 h
  | stationFrameGap st next =>
    refine linksSound_partEvent hs.1 ?_ (show execStationFrameGap st next s = .next t from h)
    exact linksSound_of_view (view_setPort _ _ _) hs.1
  | stationTransmit st =>
    refine linksSound_partEvent hs.1 ?_ (show execStationTransmit st s = .next t from h)
    exact linksSound_of_view (view_setPort _ _ _) hs.1
  | borrowerScan => exact linksSound_scan hs h
  | itemScan => exact linksSound_scan hs h
  | staffScan => exact linksSound_scan hs h
  | endKey => exact linksSound_endKey hs h
  | cancelKey => exact linksSound_cancelKey hs h
  | returnKey => exact linksSound_returnKey hs h
  | checkoutKey => exact linksSound_checkoutKey hs h
  | reprintKey => exact linksSound_reprintKey hs h
  | idleTimeout st =>
    refine linksSound_guardedEvent hs.1 (fun _ => ?_) (show execIdleTimeout st s = .next t from h)
    exact linksSound_closeSilently hs st
  | armLapse st =>
    refine linksSound_guardedEvent hs.1 (fun _ => ?_) (show execArmLapse st s = .next t from h)
    exact linksSound_of_view (view_setSession _ _ (borrower_disarm _)) hs.1
  | heartbeatWatchExpiry st => exact linksSound_watchExpiry hs h
  | slipSend st =>
    refine linksSound_guardedEvent hs.1 (fun _ => ?_) (show execSlipSend st s = .next t from h)
    exact linksSound_of_view (view_printOne s st) hs.1
  | graceExpiry =>
    refine linksSound_guardedEvent hs.1 (fun _ => ?_) (show execGraceExpiry s = .next t from h)
    exact linksSound_closeIfDone (linksSound_of_view rfl hs.1)
  | graceSessionClose st =>
    refine linksSound_guardedEvent hs.1 (fun _ => ?_) (show execGraceSessionClose st s = .next t from h)
    exact linksSound_closeSilently hs st
  | clockTick => exact linksSound_clockTick hs.1 h
  | autoOpen => exact linksSound_autoOpen hs.1 h
  | sweepStep => exact linksSound_sweepStep hs.1 h
  | openEnd => exact linksSound_openEnd hs.1 h
  | stageBeginEnd => exact linksSound_stageBeginEnd hs.1 h
  | commitChangeover => exact linksSound_commitChangeover hs.1 h
  | scrubBlock => exact linksSound_scrubBlock hs.1 h
  | recordSend => exact linksSound_recordSend hs.1 h
  | lineFrameGap l next =>
    refine linksSound_guardedEvent hs.1 (fun _ => ?_) (show execLineFrameGap l next s = .next t from h)
    exact linksSound_of_view (view_setLine _ _ _) hs.1
  | lineTransmit l => exact linksSound_lineTransmit hs.1 h
  | livenessExpiry l => exact linksSound_livenessExpiry hs.1 h
  | passDown station body => exact linksSound_passDown hs h
  | hello q c => exact linksSound_hello hs h
  | nop q c =>
    exact linksSound_readRequest hs (show execNop q c s = .next t from h)
  | status q c =>
    exact linksSound_readRequest hs (show execStatus q c s = .next t from h)
  | unlock q c => exact linksSound_unlock hs h
  | wipe q c => exact linksSound_wipe hs h
  | ackAttention q c => exact linksSound_ackAttention hs h
  | setAttentionMask q c => exact linksSound_setAttentionMask hs h
  | readNote q c => exact linksSound_readNote hs h
  | readBorrower q c => exact linksSound_readRequest hs h
  | readItem q c => exact linksSound_readRequest hs h
  | readOlc q c => exact linksSound_readRequest hs h
  | readRules q c => exact linksSound_readRequest hs h
  | readCalendar q c => exact linksSound_readRequest hs h
  | readTemplate q c => exact linksSound_readRequest hs h
  | readSettings q c =>
    exact linksSound_readRequest hs (show execReadSettings q c s = .next t from h)
  | putBorrower q c => exact linksSound_tableRequest keepsLinks_putBorrower hs h
  | delBorrower q c => exact linksSound_tableRequest keepsLinks_delBorrower hs h
  | adjustBorrower q c => exact linksSound_tableRequest keepsLinks_adjustBorrower hs h
  | putItem q c =>
    exact linksSound_tableRequest (fun _ => keepsLinks_of_borrowers fun _ _ _ => borrowers_putItem) hs h
  | delItem q c =>
    exact linksSound_tableRequest (fun _ => keepsLinks_of_borrowers fun _ _ _ => borrowers_delItem) hs h
  | addHold q c =>
    exact linksSound_tableRequest (fun _ => keepsLinks_of_borrowers fun _ _ _ => borrowers_addHold) hs h
  | cancelHold q c =>
    exact linksSound_tableRequest (fun _ => keepsLinks_of_borrowers fun _ _ _ => borrowers_cancelHold) hs h
  | putPrefix q c =>
    exact linksSound_tableRequest (fun _ => keepsLinks_of_borrowers fun _ _ _ => borrowers_putPrefix) hs h
  | delPrefix q c =>
    exact linksSound_tableRequest (fun _ => keepsLinks_of_borrowers fun _ _ _ => borrowers_delPrefix) hs h
  | putStaff q c =>
    exact linksSound_tableRequest (fun _ => keepsLinks_of_borrowers fun _ _ _ => borrowers_putStaff) hs h
  | delStaff q c =>
    exact linksSound_tableRequest (fun _ => keepsLinks_of_borrowers fun _ _ _ => borrowers_delStaff) hs h
  | putCategory q c =>
    exact linksSound_tableRequest (fun _ => keepsLinks_of_borrowers fun _ _ _ => borrowers_putCategory) hs h
  | delCategory q c =>
    exact linksSound_tableRequest (fun _ => keepsLinks_of_borrowers fun _ _ _ => borrowers_delCategory) hs h
  | putClass q c =>
    exact linksSound_tableRequest (fun _ => keepsLinks_of_borrowers fun _ _ _ => borrowers_putClass) hs h
  | delClass q c =>
    exact linksSound_tableRequest (fun _ => keepsLinks_of_borrowers fun _ _ _ => borrowers_delClass) hs h
  | putRule q c =>
    exact linksSound_tableRequest (fun _ => keepsLinks_of_borrowers fun _ _ _ => borrowers_putRule) hs h
  | delRule q c =>
    exact linksSound_tableRequest (fun _ => keepsLinks_of_borrowers fun _ _ _ => borrowers_delRule) hs h
  | putProfile q c =>
    exact linksSound_calendarWrite (fun _ => keepsLinks_of_borrowers fun _ _ _ => borrowers_putProfile) hs h
  | delProfile q c =>
    exact linksSound_calendarWrite (fun _ => keepsLinks_of_borrowers fun _ _ _ => borrowers_writeProfile) hs h
  | putWeekday q c =>
    exact linksSound_calendarWrite (fun _ => keepsLinks_of_borrowers fun _ _ _ => borrowers_putWeekday) hs h
  | delWeekday q c =>
    exact linksSound_calendarWrite (fun _ => keepsLinks_of_borrowers fun _ _ _ => borrowers_delWeekday) hs h
  | putException q c =>
    exact linksSound_calendarWrite (fun _ => keepsLinks_of_borrowers fun _ _ _ => borrowers_putException) hs h
  | delException q c =>
    exact linksSound_calendarWrite (fun _ => keepsLinks_of_borrowers fun _ _ _ => borrowers_delException) hs h
  | putTemplate q c =>
    exact linksSound_tableRequest (fun _ => keepsLinks_of_borrowers fun _ _ _ => borrowers_putTemplate) hs h
  | delTemplate q c =>
    exact linksSound_tableRequest (fun _ => keepsLinks_of_borrowers fun _ _ _ => borrowers_delTemplate) hs h
  | putText q c =>
    exact linksSound_tableRequest (fun _ => keepsLinks_of_borrowers fun _ _ _ => borrowers_putText) hs h
  | delText q c =>
    exact linksSound_tableRequest (fun _ => keepsLinks_of_borrowers fun _ _ _ => borrowers_delText) hs h
  | upload q c =>
    exact linksSound_requestEvent hs (fun n x hx => linksSound_of_view (view_uploadRule q n x) hx.1) h
  | release q c => exact linksSound_release hs h
  | readJournal q c => exact linksSound_readRequest hs h
  | openDesk q c => exact linksSound_openDesk hs h
  | closeDesk q c => exact linksSound_closeDesk hs h
  | time q c => exact linksSound_time hs h
  | setTime q c => exact linksSound_setTime hs h
  | stageBegin q c => exact linksSound_stageBegin hs h
  | commit q c => exact linksSound_commit hs h
  | setSettings q c => exact linksSound_setSettings hs h
  | setKey q c => exact linksSound_setKey hs h
  | bridge q c => exact linksSound_bridge hs h
  | unbridge q c => exact linksSound_unbridge hs h
  | restart q c =>
    refine linksSound_quietRequest hs (fun _ x => ?_) (show execRestart q c s = .next t from h)
    rfl
  | restartWarmStart =>
    refine linksSound_guardedEvent hs.1 (fun _ => ?_) (show execRestartWarmStart s = .next t from h)
    exact linksSound_warmStart hs.1
  | postNote q c => exact linksSound_postNote hs h
  | powerUp => exact linksSound_powerUp hs.1 h
  | powerFail => cases h; exact hs.1
  | backupFail => exact linksSound_backupFail hs.1 h
  | resetAssert => cases h; exact hs.1
  | resetRelease => exact linksSound_resetRelease hs.1 h
  | ignoreOrCcRefusedScan => exact linksSound_scan hs h
  | unknownKindStationFrame st kind content => exact linksSound_unknownKind hs.1 h
  | droppedGoodLineFrame l kind => exact linksSound_droppedFrame hs.1 h
  | unknownRequestName q code => exact linksSound_unknownRequest hs h

end Sys2Proof.Links

open Sys2Proof Sys2Proof.Machine Sys2Proof.Links

/-- Settles O7: a case per command; the links are read from the open sessions, the entries' marks, the desk-day and the
staged banks, and an operation either leaves these alone or is the end or the opening of a session, the entry into
CLOSED, or a start. -/
theorem everyStepKeepsTheSessionLinks : Obligations.EveryStepKeepsTheSessionLinks := by
  unfold Obligations.EveryStepKeepsTheSessionLinks
  refine ⟨fun s t _ ht _ hl h => ?_, fun s ht hl a b n => station_unique (linked_of_sound ht hl)⟩
  unfold step at h
  split at h
  · cases h
    exact hl
  · exact linksSound_exec _ (linked_of_view (view_withPending s _) (linked_of_sound ht hl)) h
end

