-- ==== Sys2Proof/Proofs/Arbiter.lean ====
section
/-! SUPPORT. A step and the queue (R4); the arbiter's order (R3). -/

namespace Sys2Proof.Arbiter

open Sys2Proof.Machine

/-- An event that changes nothing ends where it began. -/
theorem settle_self (s : State) : settle s s = s := settle_quiet rfl rfl rfl rfl rfl rfl rfl

/-- The first hit of a search over the numbers below `n`, in order. -/
theorem findSome_finRange {α : Type} {n : Nat} {f : Fin n → Option α} {a : α} :
    (List.finRange n).findSome? f = some a ↔ ∃ k, f k = some a ∧ ∀ j < k, f j = none := by
  have sorted : (List.finRange n).Pairwise (· < ·) := List.pairwise_lt_finRange n
  rw [List.findSome?_eq_some_iff]
  constructor
  · rintro ⟨l, k, r, hl, hk, hnone⟩
    refine ⟨k, hk, fun j hj => hnone j ?_⟩
    rw [hl] at sorted
    have after : ∀ x ∈ r, k < x := fun x hx => List.rel_of_pairwise_cons (List.pairwise_append.mp sorted).2.1 hx
    have hmem : j ∈ l ++ k :: r := hl ▸ List.mem_finRange j
    obtain h | h := List.mem_append.mp hmem
    · exact h
    · obtain rfl | h := List.mem_cons.mp h
      · exact absurd hj (lt_irrefl _)
      · exact absurd (hj.trans (after j h)) (lt_irrefl _)
  · rintro ⟨k, hk, hnone⟩
    obtain ⟨l, r, hl⟩ := List.append_of_mem (List.mem_finRange k)
    refine ⟨l, k, r, hl, hk, fun x hx => hnone x ?_⟩
    rw [hl] at sorted
    exact (List.pairwise_append.mp sorted).2.2 x hx k (by simp)

theorem oldestInput_some {s : State} {o st : Station} {i : Input} :
    s.oldestInput o = some (st, i) ↔ o = st ∧ (s.port o).slots.head? = some i := by
  unfold State.oldestInput
  cases (s.port o).slots <;> simp

theorem oldestInput_none {s : State} {o : Station} : s.oldestInput o = none ↔ (s.port o).slots = [] := by
  unfold State.oldestInput
  cases (s.port o).slots <;> simp

theorem arbiterPick_none_of_wiping {s : State} (h : s.wiping = true) : s.arbiterPick = none := by
  simp [State.arbiterPick, h]

/-- A decision for which the arbiter has no input changes nothing. -/
theorem decision_idle {takes : State → Input → Bool} {body : Station → Input → Bool → State → State} {s : State}
    (h : s.arbiterPick = none) : decision takes body s = .next s := by
  unfold decision partEvent
  split
  · simp only [h, settle_self]
  · rfl

theorem keyDecision_idle {k : KeyCode} {body : Station → Bool → State → State} {s : State} (h : s.arbiterPick = none) :
    keyDecision k body s = .next s := decision_idle h

end Sys2Proof.Arbiter

open Sys2Proof Sys2Proof.Machine Sys2Proof.Arbiter

/-- Settles O1: `step` takes the queue apart, and `withPending` puts the rest in its place. -/
theorem stepRunsTheFrontCommand : Obligations.StepRunsTheFrontCommand := by
  unfold Obligations.StepRunsTheFrontCommand
  exact fun s c rest => ⟨rfl, rfl⟩

/-- Settles O17: the pick is the first hit of a search in the order that begins behind the last station served. -/
theorem theArbiterGoesRound : Obligations.TheArbiterGoesRound := by
  unfold Obligations.TheArbiterGoesRound
  refine ⟨fun s st i hw hr => ?_, fun s c hw hc => ?_⟩
  · have pick : s.arbiterPick = (List.finRange 8).findSome? fun k => s.oldestInput (s.lastServed + 1 + k) := by
      simp [State.arbiterPick, hw, hr, roundRobin, stations, List.findSome?_map, Function.comp_def]
    rw [pick, findSome_finRange]
    simp only [oldestInput_some, oldestInput_none]
    constructor
    · rintro ⟨k, ⟨rfl, hi⟩, hbefore⟩
      exact ⟨hi, k, rfl, hbefore⟩
    · rintro ⟨hi, k, rfl, hbefore⟩
      exact ⟨k, ⟨rfl, hi⟩, hbefore⟩
  · have idle := arbiterPick_none_of_wiping hw
    simp only [List.mem_cons, List.not_mem_nil, or_false] at hc
    obtain rfl | rfl | rfl | rfl | rfl | rfl | rfl | rfl | rfl := hc
    · exact decision_idle idle
    · exact decision_idle idle
    · exact decision_idle idle
    · exact decision_idle idle
    · exact (show execEndKey s = .next s from keyDecision_idle idle)
    · exact (show execCancelKey s = .next s from keyDecision_idle idle)
    · exact (show execReturnKey s = .next s from keyDecision_idle idle)
    · exact (show execCheckoutKey s = .next s from keyDecision_idle idle)
    · exact (show execReprintKey s = .next s from keyDecision_idle idle)
end

