-- ==== Sys2Proof/Proofs/DeskFrames.lean ====
section
/-! SUPPORT. What a decision at one station leaves as it was, and what a change of its display does: said once for the
displays and sounders, the arbiter's taking of an input, and the end of the event (R3, R124, R136). -/

namespace Sys2Proof.Desk

open Sys2Proof.Machine

variable {s t u x y : State} {st : Station}

/-! ### Frames of one station's event -/

/-- Nothing but one station, the sessions' tables and the lines has changed. -/
def DeskFrame (st : Station) (s t : State) : Prop := othersKept st s t ∧ deskOnly s t

theorem DeskFrame.refl (st : Station) (s : State) : DeskFrame st s s := by
  simp [DeskFrame, othersKept, deskOnly]

theorem DeskFrame.trans (h : DeskFrame st s t) (h' : DeskFrame st t u) : DeskFrame st s u := by
  refine ⟨fun o ho => ?_, ?_⟩
  · obtain ⟨hp, hc, hs⟩ := h.1 o ho
    obtain ⟨hp', hc', hs'⟩ := h'.1 o ho
    exact ⟨hp'.trans hp, hc'.trans hc, hs'.trans hs⟩
  · have h2 := h.2
    have h2' := h'.2
    simp only [deskOnly] at h2 h2' ⊢
    simp only [h2', h2, and_self]

theorem deskFrame_setPort (p : Port) : DeskFrame st s (s.setPort st p) := by
  refine ⟨fun o ho => ?_, ?_⟩
  · simp [ho]
  · simp [deskOnly]

theorem deskFrame_setConsole (c : Console) : DeskFrame st s (s.setConsole st c) := by
  refine ⟨fun o ho => ?_, ?_⟩
  · simp [ho]
  · simp [deskOnly]

theorem deskFrame_setSession (r : Session) : DeskFrame st s (s.setSession st r) := by
  refine ⟨fun o ho => ?_, ?_⟩
  · simp [ho]
  · simp [deskOnly]

theorem deskFrame_setLine (l : Line) (c : LineCtl) : DeskFrame st s (s.setLine l c) := by
  cases l <;> exact DeskFrame.refl st s

theorem deskFrame_raiseBoth (c : Cause) : DeskFrame st s (raiseBoth c s) :=
  (deskFrame_setLine .uplink _).trans (deskFrame_setLine .supervisor _)

theorem DeskFrame.settle {z : State} (h : DeskFrame st s t) : DeskFrame st s (settle z t) := h

/-! ### The management lines -/

theorem linesKept_of_eq (hu : t.uplink = s.uplink) (hs : t.supervisor = s.supervisor) : linesKept s t := by
  constructor
  · rw [hu]
  · rw [hs]

theorem linesKept_trans (h : linesKept s t) (h' : linesKept t u) : linesKept s u := by
  obtain ⟨hu, hs⟩ := h
  obtain ⟨hu', hs'⟩ := h'
  constructor
  · rw [hu', hu]
  · rw [hs', hs]

theorem linesKept_settle {z : State} (h : linesKept s t) : linesKept s (settle z t) :=
  linesKept_trans h ⟨rfl, rfl⟩

theorem linesKept_raiseBoth (c : Cause) : linesKept s (raiseBoth c s) := ⟨rfl, rfl⟩

/-- An edge cause that is pending before the end of an event is pending after it (R187). -/
theorem has_settle {l : Line} {c : Cause} (hc : c ≠ .clockHeld ∧ c ≠ .journalFull ∧ c ≠ .journalHigh)
    (h : (y.line l).pendingSet.has c = true) : ((settle x y).line l).pendingSet.has c = true := by
  have follow : ∀ (before after : Bool) (k : Cause) (p : CauseSet), c ≠ k → p.has c = true →
      (followLevel before after k p).has c = true := by
    intro before after k p hk hp
    unfold followLevel
    split
    · exact hp
    · rw [has_put_of_ne _ _ hk]
      exact hp
  have kept : ∀ p : CauseSet, p.has c = true → (followLevels x y p).has c = true := fun p hp =>
    follow _ _ _ _ hc.1 (follow _ _ _ _ hc.2.1 (follow _ _ _ _ hc.2.2 hp))
  cases l with
  | uplink => exact kept _ h
  | supervisor => exact kept _ h

theorem has_raiseBoth (c : Cause) (l : Line) : ((raiseBoth c s).line l).pendingSet.has c = true := by
  cases l with
  | uplink => exact has_put _ true c
  | supervisor => exact has_put _ true c

/-! ### Displays and sounders -/

theorem attended_iff : s.atDesk st = true ↔ s.attended st := by
  unfold State.atDesk State.stationState State.attended
  by_cases hb : (s.port st).bridged = true
  · simp [hb]
  · by_cases hp : (s.port st).present = true
    · by_cases hn : (s.session st).borrower.isSome = true
      · simp [hb, hp, hn]
      · by_cases hm : (s.session st).mode = .returns <;> simp [hb, hp, hn, hm]
    · simp [hb, hp]

/-- The station's port with other slots is attended as before. -/
theorem attended_of_port {slots : List Input} (ha : s.attended st)
    (hp : x.port st = { s.port st with slots := slots }) : x.attended st := by
  simpa only [State.attended, hp] using ha

theorem sound_attended (ha : s.attended st) (g : Signal) :
    sound st g s = s.setPort st { s.port st with down := joinSignal g (s.port st).down } := by
  rw [sound, if_pos (attended_iff.mpr ha)]

theorem showLines_attended (ha : s.attended st) (a b : Text) :
    showLines st a b s =
      (s.setConsole st { s.console st with line1 := fit20 a, line2 := fit20 b }).setPort st
        { s.port st with down := joinDisplay (.display (fit20 a) (fit20 b)) (s.port st).down } := by
  have hd := attended_iff.mpr ha
  simp only [State.atDesk] at hd
  unfold showLines
  split at hd
  · next h => simp only [h]
  · next h => simp only [h]
  · next h => simp only [h]
  · cases hd
  · cases hd

/-- The state differs in displays and in frames that wait for stations alone. -/
structure Repainted (s t : State) : Prop where
  rest : ∃ p c, t = { s with ports := p, consoles := c }
  port : ∀ o, ∃ d, t.port o = { s.port o with down := d }
  console : ∀ o, ∃ a b, t.console o = { s.console o with line1 := a, line2 := b }

/-- It does so at one station. -/
def Redrawn (st : Station) (s t : State) : Prop :=
  Repainted s t ∧ ∀ o, o ≠ st → t.port o = s.port o ∧ t.console o = s.console o

theorem Repainted.refl (s : State) : Repainted s s := ⟨⟨_, _, rfl⟩, fun _ => ⟨_, rfl⟩, fun _ => ⟨_, _, rfl⟩⟩

theorem Repainted.trans (h : Repainted s t) (h' : Repainted t u) : Repainted s u := by
  refine ⟨?_, fun o => ?_, fun o => ?_⟩
  · obtain ⟨p, c, hr⟩ := h.rest
    obtain ⟨p', c', hr'⟩ := h'.rest
    exact ⟨p', c', by rw [hr', hr]⟩
  · obtain ⟨d, hd⟩ := h.port o
    obtain ⟨d', hd'⟩ := h'.port o
    exact ⟨d', by rw [hd', hd]⟩
  · obtain ⟨a, b, hc⟩ := h.console o
    obtain ⟨a', b', hc'⟩ := h'.console o
    exact ⟨a', b', by rw [hc', hc]⟩

theorem Redrawn.refl (st : Station) (s : State) : Redrawn st s s := ⟨Repainted.refl s, fun _ _ => ⟨rfl, rfl⟩⟩

theorem Redrawn.trans (h : Redrawn st s t) (h' : Redrawn st t u) : Redrawn st s u :=
  ⟨h.1.trans h'.1, fun o ho => ⟨(h'.2 o ho).1.trans (h.2 o ho).1, (h'.2 o ho).2.trans (h.2 o ho).2⟩⟩

theorem redrawn_setPort (d : List DownFrame) : Redrawn st s (s.setPort st { s.port st with down := d }) := by
  refine ⟨⟨⟨_, _, rfl⟩, fun o => ?_, fun o => ⟨_, _, rfl⟩⟩, fun o ho => by simp [ho]⟩
  by_cases ho : o = st
  · subst ho
    exact ⟨d, by simp⟩
  · exact ⟨_, by simp [ho]; rfl⟩

theorem redrawn_setConsole (a b : Text) :
    Redrawn st s (s.setConsole st { s.console st with line1 := a, line2 := b }) := by
  refine ⟨⟨⟨_, _, rfl⟩, fun o => ⟨_, rfl⟩, fun o => ?_⟩, fun o ho => by simp [ho]⟩
  by_cases ho : o = st
  · subst ho
    exact ⟨a, b, by simp⟩
  · exact ⟨_, _, by simp [ho]; rfl⟩

theorem redrawn_sound (st : Station) (g : Signal) (s : State) : Redrawn st s (sound st g s) := by
  unfold sound
  split
  · exact redrawn_setPort _
  · exact Redrawn.refl st s

theorem redrawn_showLines (st : Station) (a b : Text) (s : State) : Redrawn st s (showLines st a b s) := by
  have drawn := redrawn_setConsole (s := s) (st := st) (fit20 a) (fit20 b)
  unfold showLines
  simp only
  split
  · exact Redrawn.refl st s
  · exact drawn
  · exact drawn.trans (redrawn_setPort _)
  · exact drawn.trans (redrawn_setPort _)
  · exact drawn.trans (redrawn_setPort _)

theorem redrawn_showText (st : Station) (i : Fin 32) (s : State) : Redrawn st s (showText st i s) :=
  redrawn_showLines st _ _ s

theorem redrawn_showStanding (st : Station) (s : State) : Redrawn st s (showStanding st s) := by
  unfold showStanding
  split
  · exact redrawn_showText st _ s
  · exact Redrawn.refl st s

theorem redrawn_showUnwiped (st : Station) (w : Bool) (s : State) : Redrawn st s (showUnwiped st w s) := by
  unfold showUnwiped
  split
  · exact redrawn_showStanding st s
  · exact Redrawn.refl st s

theorem redrawn_showIfLost (st : Station) (w : Bool) (s : State) : Redrawn st s (showIfLost st w s) := by
  unfold showIfLost
  split
  · exact redrawn_showLines st _ _ s
  · exact Redrawn.refl st s

theorem repainted_showStandingAll (s : State) : Repainted s (showStandingAll s) := by
  have run : ∀ (l : List Station) (x : State), Repainted x (l.foldl (fun s st => showStanding st s) x) := by
    intro l
    induction l with
    | nil => exact Repainted.refl
    | cons a l ih => exact fun x => (redrawn_showStanding a x).1.trans (ih _)
  exact run stations s

theorem Repainted.session (h : Repainted s t) (o : Station) : t.session o = s.session o := by
  obtain ⟨p, c, rfl⟩ := h.rest
  rfl

theorem Repainted.journal (h : Repainted s t) : t.journal = s.journal := by
  obtain ⟨p, c, rfl⟩ := h.rest
  rfl
theorem Repainted.active (h : Repainted s t) : t.active = s.active := by
  obtain ⟨p, c, rfl⟩ := h.rest
  rfl
theorem Repainted.cache (h : Repainted s t) : t.cache = s.cache := by
  obtain ⟨p, c, rfl⟩ := h.rest
  rfl
theorem Repainted.day (h : Repainted s t) : t.day = s.day := by
  obtain ⟨p, c, rfl⟩ := h.rest
  rfl
theorem Repainted.clock (h : Repainted s t) : t.clock = s.clock := by
  obtain ⟨p, c, rfl⟩ := h.rest
  rfl
theorem Repainted.settings (h : Repainted s t) : t.settings = s.settings := by
  obtain ⟨p, c, rfl⟩ := h.rest
  rfl
theorem Repainted.notice (h : Repainted s t) : t.notice = s.notice := by
  obtain ⟨p, c, rfl⟩ := h.rest
  rfl
theorem Repainted.uplink (h : Repainted s t) : t.uplink = s.uplink := by
  obtain ⟨p, c, rfl⟩ := h.rest
  rfl
theorem Repainted.supervisor (h : Repainted s t) : t.supervisor = s.supervisor := by
  obtain ⟨p, c, rfl⟩ := h.rest
  rfl
theorem Repainted.line (h : Repainted s t) (l : Line) : t.line l = s.line l := by
  cases l
  · exact h.uplink
  · exact h.supervisor
theorem Repainted.lastServed (h : Repainted s t) : t.lastServed = s.lastServed := by
  obtain ⟨p, c, rfl⟩ := h.rest
  rfl

theorem Repainted.lines (h : Repainted s t) : linesKept s t := linesKept_of_eq h.uplink h.supervisor

theorem Repainted.slips (h : Repainted s t) (o : Station) : slipsKept s o t := by
  obtain ⟨a, b, hc⟩ := h.console o
  simp [slipsKept, hc]

theorem Repainted.wiped (h : Repainted s t) (o : Station) : (t.console o).wiped = (s.console o).wiped := by
  obtain ⟨a, b, hc⟩ := h.console o
  rw [hc]

theorem Repainted.deskOnly (h : Repainted s t) : deskOnly s t := by
  obtain ⟨p, c, rfl⟩ := h.rest
  exact (DeskFrame.refl 0 s).2

theorem Redrawn.frame (h : Redrawn st s t) : DeskFrame st s t :=
  ⟨fun o ho => ⟨(h.2 o ho).1, (h.2 o ho).2, h.1.session o⟩, h.1.deskOnly⟩

theorem Repainted.stationState (h : Repainted s t) (o : Station) : t.stationState o = s.stationState o := by
  obtain ⟨d, hd⟩ := h.port o
  simp only [State.stationState, hd, h.session o]

/-! ### What stands on a display -/

theorem fit20_fit20 (a : Text) : fit20 (fit20 a) = fit20 a := by
  have : (fit20 a).length = 20 := by simp [fit20, blankLine]
  rw [fit20, List.take_append_of_le_length (by omega), List.take_of_length_le (by omega)]

theorem isDisplay_display (a b : Text) : (DownFrame.display a b).isDisplay = true := rfl

theorem joinDisplay_waiting {f : DownFrame} {down : List DownFrame} (h : down.any DownFrame.isDisplay = true) :
    joinDisplay f down = down.map fun g => if g.isDisplay then f else g := if_pos h

theorem joinDisplay_none {f : DownFrame} {down : List DownFrame} (h : ¬down.any DownFrame.isDisplay = true) :
    joinDisplay f down = down ++ [f] := if_neg h

/-- A second SHOW of an event takes the place of the first (R136). -/
theorem joinDisplay_joinDisplay (a b a' b' : Text) (down : List DownFrame) :
    joinDisplay (.display a' b') (joinDisplay (.display a b) down) = joinDisplay (.display a' b') down := by
  by_cases hd : down.any DownFrame.isDisplay = true
  · have still :
        (down.map fun g => if g.isDisplay then DownFrame.display a b else g).any DownFrame.isDisplay = true := by
      obtain ⟨g, hg, hgd⟩ := List.any_eq_true.mp hd
      exact List.any_eq_true.mpr ⟨_, List.mem_map.mpr ⟨g, hg, rfl⟩, by rw [if_pos hgd]; rfl⟩
    rw [joinDisplay_waiting hd, joinDisplay_waiting still, joinDisplay_waiting hd, List.map_map]
    refine List.map_congr_left fun g _ => ?_
    cases h : g.isDisplay <;> simp [h, isDisplay_display]
  · have none : ∀ g ∈ down, g.isDisplay = false := by simpa using hd
    have kept : (down.map fun g => if g.isDisplay then DownFrame.display a' b' else g) = down := by
      refine (List.map_congr_left fun g hg => ?_).trans (List.map_id down)
      simp [none g hg]
    rw [joinDisplay_none hd, joinDisplay_waiting (by simp [isDisplay_display]), joinDisplay_none hd,
      List.map_append, kept]
    rfl

theorem displayed_showLines {slots : List Input} (ha : s.attended st)
    (hp : x.port st = { s.port st with slots := slots }) (hl : linesKept s x) (a b : Text) :
    displayed s st a b none slots (showLines st a b x) := by
  refine ⟨?_, ?_, ?_, linesKept_trans hl (redrawn_showLines st a b x).1.lines⟩ <;>
    rw [showLines_attended (attended_of_port ha hp)] <;> simp [hp]

theorem displayed_attended {slots : List Input} {a b : Text} {g : Option Signal} (ha : s.attended st)
    (h : displayed s st a b g slots x) : x.attended st := by
  simpa only [State.attended, h.1] using ha

/-- A display change after another of the same event. -/
theorem displayed_showLines_again {slots : List Input} {a b : Text} (ha : s.attended st)
    (h : displayed s st a b none slots x) (a' b' : Text) :
    displayed s st a' b' none slots (showLines st a' b' x) := by
  have hx := displayed_attended ha h
  obtain ⟨hp, -, -, hl⟩ := h
  refine ⟨?_, ?_, ?_, linesKept_trans hl (redrawn_showLines st a' b' x).1.lines⟩ <;> rw [showLines_attended hx]
  · simp [hp, joinDisplay_joinDisplay]
  · simp
  · simp

theorem displayed_sound {slots : List Input} {a b : Text} (ha : s.attended st)
    (h : displayed s st a b none slots x) (g : Signal) : displayed s st a b (some g) slots (sound st g x) := by
  have hx := displayed_attended ha h
  obtain ⟨hp, h1, h2, hl⟩ := h
  refine ⟨?_, ?_, ?_, linesKept_trans hl (redrawn_sound st g x).1.lines⟩ <;> rw [sound_attended hx]
  · simp [hp]
  · simpa using h1
  · simpa using h2

theorem displayed_showIfLost {slots : List Input} {a b : Text} (ha : s.attended st)
    (h : displayed s st a b none slots x) (lost : Bool) :
    displayed s st (if lost then (x.shownText 28).line1 else a) b none slots (showIfLost st lost x) := by
  cases lost with
  | false => exact h
  | true =>
    have again := displayed_showLines_again ha h (x.shownText 28).line1 (x.console st).line2
    have hb : (x.console st).line2 = fit20 b := h.2.2.1
    simpa only [showIfLost, if_true, displayed, hb, fit20_fit20] using again

theorem displayed_settle {z : State} {slots : List Input} {a b : Text} {g : Option Signal}
    (h : displayed s st a b g slots x) : displayed s st a b g slots (settle z x) := by
  obtain ⟨hp, h1, h2, hl⟩ := h
  exact ⟨hp, h1, h2, linesKept_settle hl⟩

/-- The texts shown are read from the ACTIVE texts alone. -/
theorem shownText_congr (h : x.active.texts = s.active.texts) (i : Fin 32) : x.shownText i = s.shownText i := by
  simp only [State.shownText, h]

/-! ### An input taken -/

/-- The state in which a decision acts: the input's slot is freed, the WIPED mark cleared, the station served last, and
the session's record as given (R3, R5, R125). -/
def served (st : Station) (r : Session) (s : State) : State :=
  { s with
    ports := s.ports.set st { s.port st with slots := (s.port st).slots.tail }
    consoles := s.consoles.set st { s.console st with wiped := false }, sessions := s.sessions.set st r
    lastServed := st }

theorem served_eq (st : Station) (r : Session) (s : State) :
    served st r s =
      { ((s.setPort st { s.port st with slots := (s.port st).slots.tail }).setConsole st
          { s.console st with wiped := false }).setSession st r with lastServed := st } := rfl

theorem served_session (st : Station) (s : State) :
    served st (s.session st) s =
      { (s.setPort st { s.port st with slots := (s.port st).slots.tail }).setConsole st
          { s.console st with wiped := false } with lastServed := st } := by
  have : s.sessions.set st (s.session st) = s.sessions := by simp [State.session]
  simp only [served, this]
  rfl

/-- The session record in which a decision acts: its idle timer is reloaded when a session is open (R5). -/
def current (s : State) (st : Station) : Session :=
  if (s.session st).borrower = none then s.session st else reloaded s st

theorem takeInput_served (ha : s.attended st) : takeInput st s = served st (current s st) s := by
  obtain ⟨hp, hb⟩ := ha
  unfold takeInput current
  by_cases hn : (s.session st).borrower = none
  · have : s.stationState st ≠ .checkout := by
      simp only [State.stationState, hp, hb, hn]
      simp
      split <;> simp
    rw [if_neg this, if_pos hn]
    simp only [List.drop_one, served_session]
    rfl
  · have : s.stationState st = .checkout := by
      simp [State.stationState, hp, hb, Option.isSome_iff_ne_none, hn]
    rw [if_pos this, if_neg hn, served_eq]
    simp only [List.drop_one]
    rfl

@[simp] theorem session_served (r : Session) : (served st r s).session st = r := by simp [served, State.session]
@[simp] theorem port_served (r : Session) :
    (served st r s).port st = { s.port st with slots := (s.port st).slots.tail } := by simp [served, State.port]
@[simp] theorem console_served (r : Session) : (served st r s).console st = { s.console st with wiped := false } := by
  simp [served, State.console]
@[simp] theorem journal_served (r : Session) : (served st r s).journal = s.journal := rfl
@[simp] theorem active_served (r : Session) : (served st r s).active = s.active := rfl
@[simp] theorem cache_served (r : Session) : (served st r s).cache = s.cache := rfl
@[simp] theorem clock_served (r : Session) : (served st r s).clock = s.clock := rfl
@[simp] theorem settings_served (r : Session) : (served st r s).settings = s.settings := rfl
@[simp] theorem day_served (r : Session) : (served st r s).day = s.day := rfl
@[simp] theorem generation_served (r : Session) : (served st r s).generation = s.generation := rfl
@[simp] theorem notice_served (r : Session) : (served st r s).notice = s.notice := rfl
@[simp] theorem uplink_served (r : Session) : (served st r s).uplink = s.uplink := rfl
@[simp] theorem supervisor_served (r : Session) : (served st r s).supervisor = s.supervisor := rfl
@[simp] theorem lastServed_served (r : Session) : (served st r s).lastServed = st := rfl

theorem session_served_of_ne {o : Station} (r : Session) (h : o ≠ st) : (served st r s).session o = s.session o :=
  session_setSession_of_ne s st o h

theorem setSession_served (r r' : Session) : (served st r s).setSession st r' = served st r' s := by
  simp [served, State.setSession]

theorem frame_served (r : Session) : DeskFrame st s (served st r s) := by
  refine ⟨fun o ho => ⟨?_, ?_, session_served_of_ne r ho⟩, (DeskFrame.refl st s).2⟩
  · exact port_setPort_of_ne s st o ho
  · exact console_setConsole_of_ne s st o ho

theorem attended_served (r : Session) (ha : s.attended st) : (served st r s).attended st :=
  attended_of_port ha (port_served r)

theorem linesKept_served (r : Session) : linesKept s (served st r s) := linesKept_of_eq rfl rfl

/-- What a decision that touches neither tables nor journal leaves, its session record being given. -/
structure Decided (s : State) (st : Station) (r : Session) (t : State) : Prop where
  session : t.session st = r
  unrecorded : unrecorded s t
  cache : t.cache = s.cache
  slips : slipsKept s st t
  wiped : (t.console st).wiped = false
  last : t.lastServed = st
  frame : DeskFrame st s t

theorem decided_of_redrawn {z : State} {r : Session} (h : Redrawn st (served st r s) y) :
    Decided s st r (settle z y) where
  session := (h.1.session st).trans (session_served r)
  unrecorded := ⟨h.1.journal, h.1.active⟩
  cache := h.1.cache
  slips := by
    obtain ⟨hq, hh, hc⟩ := h.1.slips st
    rw [console_served] at hq hh hc
    exact ⟨hq, hh, hc⟩
  wiped := (h.1.wiped st).trans (by simp)
  last := h.1.lastServed
  frame := ((frame_served r).trans h.frame).settle

/-- A decision that sounds a signal and shows nothing. -/
theorem signalled_sound (ha : s.attended st) (r : Session) (g : Signal) :
    signalled s st (some g) (settle s (sound st g (served st r s))) := by
  have hl : linesKept s (settle s (sound st g (served st r s))) :=
    linesKept_settle (linesKept_trans (linesKept_served r) (redrawn_sound st g _).1.lines)
  rw [sound_attended (attended_served r ha)] at hl ⊢
  exact ⟨by simp, by simp, by simp, rfl, hl⟩

/-- A decision that neither sounds nor shows anything. -/
theorem signalled_none (r : Session) : signalled s st none (settle s (served st r s)) :=
  ⟨by simp, by simp, by simp, rfl, linesKept_settle (linesKept_served r)⟩

/-- The display of a decision, its slot freed and its WIPED mark cleared. -/
theorem shown_of_displayed {r : Session} {a b : Text} {g : Option Signal}
    {z : State} (h : displayed s st a b g (s.port st).slots.tail y) (hx : Redrawn st (served st r x) y) :
    shown s st a b g (settle z y) :=
  ⟨displayed_settle h, (decided_of_redrawn (z := z) hx).wiped, (decided_of_redrawn (z := z) hx).last⟩

/-! ### Records and refusals -/

theorem fillRecord_stamped (s : State) (d : Record) : s.fillRecord d = stamped s d := by
  have counted : s.counts d =
      (d.borrower.map fun n => s.active.borrowers.any fun e => decide (e.number = n)).getD false := by
    unfold State.counts
    split
    · next h => simp [h]
    · next n h =>
      rw [h, Bool.eq_iff_iff]
      simp [Bank.borrower]
  simp only [State.fillRecord, stamped, counted, State.today, State.minute, minuteOf]

theorem appended_append (s : State) (d : Record) : appended s d (append d s) := by
  refine ⟨by rw [append_journal, fillRecord_stamped], ?_⟩
  rw [append_frame]
  unfold raisePending
  cases h : d.borrower with
  | none => simp
  | some n => simp [Bank.mapBorrower, eq_comm]

/-- The append above the reserve, by what is free (R147). -/
theorem appendAboveReserve_spec (s : State) (d : Record) :
    if 32 < s.journal.free then appended s d (appendAboveReserve d s) else unrecorded s (appendAboveReserve d s) := by
  split
  · next h =>
    rw [appendAboveReserve_room s h]
    exact appended_append s d
  · next h =>
    rw [appendAboveReserve_none s (Nat.not_lt.mp h)]
    exact ⟨rfl, rfl⟩

/-- An append touches the journal and the ACTIVE borrowers. -/
theorem append_tables (d : Record) (s : State) :
    ∃ j b, append d s = { s with journal := j, active := { s.active with borrowers := b } } := by
  unfold append raisePending
  split
  · exact ⟨_, _, rfl⟩
  · exact ⟨_, _, rfl⟩

theorem appendAboveReserve_tables (s : State) (d : Record) :
    ∃ j b, appendAboveReserve d s = { s with journal := j, active := { s.active with borrowers := b } } := by
  unfold appendAboveReserve
  split
  · exact append_tables d s
  · exact ⟨_, _, rfl⟩

theorem appendSystem_tables (d : Record) (s : State) :
    ∃ j b, appendSystem d s = { s with journal := j, active := { s.active with borrowers := b } } := by
  unfold appendSystem
  split
  · exact append_tables d s
  · exact ⟨_, _, rfl⟩

/-- R4, R8, R17, R25: a refusal at a station whose input has been taken. -/
theorem refuse_served (ha : s.attended st) (r : Session) (reason : Reason) (b i staff : Option Number) :
    refusedAt s st reason b i staff (settle s (refuse st reason b i staff (served st r s))) ∧
      (settle s (refuse st reason b i staff (served st r s))).session st = r ∧
      DeskFrame st s (settle s (refuse st reason b i staff (served st r s))) := by
  unfold refuse
  have recorded := appendAboveReserve_spec (served st r s) (refusalDraft st reason b i staff)
  obtain ⟨j, l, hx⟩ := appendAboveReserve_tables (served st r s) (refusalDraft st reason b i staff)
  generalize appendAboveReserve (refusalDraft st reason b i staff) (served st r s) = x at hx recorded
  have hport : x.port st = { s.port st with slots := (s.port st).slots.tail } := by rw [hx]; exact port_served r
  have hconsole : x.console st = { s.console st with wiped := false } := by rw [hx]; exact console_served r
  have hsession : x.session st = r := by rw [hx]; exact session_served r
  have hlast : x.lastServed = st := by rw [hx]; rfl
  have hlines : linesKept s x := linesKept_of_eq (by rw [hx]; rfl) (by rw [hx]; rfl)
  have hframe : DeskFrame st s x := by rw [hx]; exact frame_served r
  have htext : x.shownText reason.textNumber = s.shownText reason.textNumber :=
    shownText_congr (by rw [hx]; rfl) _
  have hcache : x.cache = s.cache := by rw [hx]; rfl
  have drawn : Redrawn st x (sound st .refuse (showText st reason.textNumber x)) :=
    (redrawn_showText st _ x).trans (redrawn_sound st _ _)
  have display : displayed s st _ _ _ _ (sound st .refuse (showText st reason.textNumber x)) :=
    displayed_sound ha (displayed_showLines ha hport hlines (x.shownText reason.textNumber).line1
      (x.shownText reason.textNumber).line2) .refuse
  generalize sound st .refuse (showText st reason.textNumber x) = y at drawn display ⊢
  refine ⟨⟨⟨?_, ?_, ?_⟩, ?_, ?_, ?_⟩, (drawn.1.session st).trans hsession, (hframe.trans drawn.frame).settle⟩
  · rw [← htext]
    exact displayed_settle display
  · exact (drawn.1.wiped st).trans (by rw [hconsole])
  · exact drawn.1.lastServed.trans hlast
  · obtain ⟨hq, hh, hc⟩ := drawn.1.slips st
    rw [hconsole] at hq hh hc
    exact ⟨hq, hh, hc⟩
  · have hj := drawn.1.journal
    have hact := drawn.1.active
    rw [journal_served] at recorded
    by_cases h : 32 < s.journal.free
    · rw [if_pos h] at recorded ⊢
      exact ⟨hj.trans recorded.1, hact.trans recorded.2⟩
    · rw [if_neg h] at recorded ⊢
      exact ⟨hj.trans recorded.1, hact.trans recorded.2⟩
  · exact drawn.1.cache.trans hcache

end Sys2Proof.Desk
end

