-- ==== Sys2Proof/Proofs/ItemChecks.lean ====
section
/-! SUPPORT. The item checks (R13 to R16) against the list of checks in their order. -/

namespace Sys2Proof.Desk

open Sys2Proof.Machine

variable {s x : State} {st : Station} {b : Borrower} {n item : Number} {default : Fin 32}

theorem borrower_found {a : Bank} {e : Borrower} (h : a.borrower n = some e) : e ∈ a.borrowers ∧ e.number = n :=
  Links.find_number h

theorem entryOf_found (h : s.active.borrower n = some b) : s.entryOf n = b := by
  simp [State.entryOf, h]

theorem covers_eq (s : State) (staff : Option Number) (r : Reason) : s.covers staff r = coveredBy s staff r := by
  unfold State.covers coveredBy
  cases staff with
  | none => simp [List.find?_eq_none.mpr]
  | some m =>
    have same : (fun e : StaffEntry => decide (some m = some e.number)) = fun e => decide (e.number = m) := by
      funext e
      simp [eq_comm]
    simp only [Option.bind_some, State.overridesOf, same]
    cases (s.active.staff.find? fun e => decide (e.number = m)) <;> rfl

/-! ### One check -/

/-- A check that does not fail uncovered passes, and tells whether it was covered. -/
theorem coverable_passes {fails covered : Bool} (h : (fails && !covered) = false) (r : Reason) :
    coverable fails covered r = .ok fails := by
  cases fails <;> cases covered <;> simp_all [coverable]

theorem coverable_fails {fails covered : Bool} (h : (fails && !covered) = true) (r : Reason) :
    coverable fails covered r = .error r := by
  cases fails <;> cases covered <;> simp_all [coverable]

/-- What the cache holds of an item. -/
def lentOf (s : State) (item : Number) : Option CacheEntry := s.cache.find? fun c => c.item = item

theorem cacheCheck_passes {r : Session} {cell : Cell}
    (own : ((lentOf s item).any fun c => decide (c.borrower ≠ n)) = false)
    (most : (((lentOf s item).any fun c => decide (cell.renewLimit ≤ c.renewals)) &&
      !coveredBy s r.overrideStaff .renewLimit) = false) :
    cacheCheck s r n item cell =
      .ok ((lentOf s item).map CacheEntry.due, (lentOf s item).any fun c => decide (cell.renewLimit ≤ c.renewals)) := by
  unfold cacheCheck
  change (match lentOf s item with | none => _ | some c => _) = _
  cases h : lentOf s item with
  | none => rfl
  | some c =>
    rw [h] at own most
    have own : c.borrower = n := by simpa using own
    simp only [Option.any_some] at most
    simp only [covers_eq, own, ne_eq, not_true_eq_false, if_false, coverable_passes most]
    rfl

theorem cacheCheck_onLoanOther {r : Session} {cell : Cell}
    (other : ((lentOf s item).any fun c => decide (c.borrower ≠ n)) = true) :
    cacheCheck s r n item cell = .error .onLoanOther := by
  unfold cacheCheck
  change (match lentOf s item with | none => _ | some c => _) = _
  cases h : lentOf s item with
  | none => simp [h] at other
  | some c =>
    rw [h] at other
    have other : c.borrower ≠ n := by simpa using other
    simp only [other, ne_eq, not_false_eq_true, if_true]

theorem cacheCheck_renewLimit {r : Session} {cell : Cell}
    (own : ((lentOf s item).any fun c => decide (c.borrower ≠ n)) = false)
    (most : (((lentOf s item).any fun c => decide (cell.renewLimit ≤ c.renewals)) &&
      !coveredBy s r.overrideStaff .renewLimit) = true) :
    cacheCheck s r n item cell = .error .renewLimit := by
  unfold cacheCheck
  change (match lentOf s item with | none => _ | some c => _) = _
  cases h : lentOf s item with
  | none => simp [h] at most
  | some c =>
    rw [h] at own most
    have own : c.borrower = n := by simpa using own
    simp only [Option.any_some] at most
    simp only [covers_eq, own, ne_eq, not_true_eq_false, if_false, coverable_fails most]
    rfl

theorem holdCheck_passes {r : Session}
    (h : (((s.active.queueOf item).head?.any fun h => decide (h.borrower ≠ n)) &&
      !coveredBy s r.overrideStaff .held) = false) :
    holdCheck s r n item =
      .ok ((s.active.queueOf item).head?.any fun h => decide (h.borrower = n),
        (s.active.queueOf item).head?.any fun h => decide (h.borrower ≠ n)) := by
  unfold holdCheck
  cases hq : s.active.queueOf item with
  | nil => rfl
  | cons d ds =>
    rw [hq] at h
    by_cases hd : d.borrower = n
    · simp [hd]
    · have hc : (true && !coveredBy s r.overrideStaff .held) = false := by simpa [hd] using h
      simp only [hd, if_false, covers_eq, coverable_passes hc]
      simp [hd]
      rfl

theorem holdCheck_held {r : Session}
    (h : (((s.active.queueOf item).head?.any fun h => decide (h.borrower ≠ n)) &&
      !coveredBy s r.overrideStaff .held) = true) : holdCheck s r n item = .error .held := by
  unfold holdCheck
  cases hq : s.active.queueOf item with
  | nil => simp [hq] at h
  | cons d ds =>
    rw [hq] at h
    have hd : d.borrower ≠ n := by
      rintro rfl
      simp at h
    have hc : (true && !coveredBy s r.overrideStaff .held) = true := by simpa [hd] using h
    simp only [hd, if_false, covers_eq, coverable_fails hc]
    rfl

/-! ### The checks in order -/

/-- Steps 4 to 7 of the item checks (R15): the kind of the cell and the class, the cache, the hold queue, the limit. -/
def laterChecks (s : State) (st : Station) (b : Borrower) (item : Number) (default : Fin 32) : List (Reason × Bool) :=
  (itemChecksInOrder s st b item default).drop 2

/-- A loan limit is met by new loans alone. -/
theorem limit_new (l : Option CacheEntry) (p : Prop) [Decidable p] :
    ((l.map CacheEntry.due).isNone && decide p) = decide (l = none ∧ p) := by
  cases l <;> simp

theorem limit_fails (l : Option CacheEntry) (p : Prop) [Decidable p] (covered : Bool) :
    (((l.map CacheEntry.due).isNone && decide p) && !covered) = (decide (l = none ∧ p) && !covered) := by
  rw [limit_new]

/-- The first failing check decides. -/
theorem itemChecks_refused {r : Reason} (hb : s.active.borrower n = some b)
    (h : (laterChecks s st b item default).find? Prod.snd = some (r, true)) :
    itemChecks s (s.session st) n item default = .error r := by
  have hn : b.number = n := (borrower_found hb).2
  subst hn
  simp only [laterChecks, itemChecksInOrder, List.drop, List.find?_cons] at h
  change (match _ with | true => _ | false => _) = _ at h
  unfold itemChecks
  simp only [entryOf_found hb, covers_eq]
  generalize s.active.rules[b.category][s.active.classOf item default] = cell at h ⊢
  generalize s.active.classes[s.active.classOf item default] = cls at h ⊢
  split at h
  · next fails =>
    obtain rfl := congrArg Prod.fst (Option.some.inj h)
    by_cases hk : cell.kind = .none
    · simp [required, hk, bind, Except.bind]
    · have hl : (!cls.loanable && !coveredBy s (s.session st).overrideStaff .notLoanable) = true := by
        simpa [hk] using fails
      simp [required, hk, bind, Except.bind, coverable_fails hl]
  next passes =>
  obtain ⟨hk, hl⟩ := Bool.or_eq_false_iff.mp passes
  have hk : cell.kind ≠ .none := by simpa using hk
  simp only [required, hk, ne_eq, not_false_eq_true, decide_true, if_true, coverable_passes hl, bind, Except.bind]
  split at h
  · next fails =>
    obtain rfl := congrArg Prod.fst (Option.some.inj h)
    rw [cacheCheck_onLoanOther fails]
  next own =>
  split at h
  · next fails =>
    obtain rfl := congrArg Prod.fst (Option.some.inj h)
    rw [cacheCheck_renewLimit own fails]
  next most =>
  rw [cacheCheck_passes own most]
  split at h
  · next fails =>
    obtain rfl := congrArg Prod.fst (Option.some.inj h)
    simp only [holdCheck_held fails]
  next held =>
  simp only [holdCheck_passes held]
  split at h
  · next fails =>
    obtain rfl := congrArg Prod.fst (Option.some.inj h)
    rw [coverable_fails]
    exact (limit_fails _ _ _).trans fails
  · cases h

/-- With no check failing, the due decides, and then the room in the journal. -/
theorem itemChecks_passed (hb : s.active.borrower n = some b)
    (h : ∀ p ∈ laterChecks s st b item default, p.2 = false) :
    itemChecks s (s.session st) n item default =
      (itemDue s b item default).bind fun due =>
        if 32 < s.journal.free then .ok (entryOf s st b item default due) else .error .journalFull := by
  have hn : b.number = n := (borrower_found hb).2
  subst hn
  simp only [laterChecks, itemChecksInOrder, List.drop, List.forall_mem_cons] at h
  obtain ⟨loanable, own, most, held, limit, -⟩ := h
  obtain ⟨hk, hl⟩ := Bool.or_eq_false_iff.mp loanable
  have hk : (s.active.rules[b.category][s.active.classOf item default]).kind ≠ .none := by simpa using hk
  unfold itemChecks
  simp only [entryOf_found hb, covers_eq]
  simp only [required, hk, ne_eq, not_false_eq_true, decide_true, if_true, coverable_passes hl, bind, Except.bind]
  rw [cacheCheck_passes own most]
  have limit : (decide (lentOf s item = none ∧ (s.active.categories[b.category]).loanLimit <
      b.loansHeld + checkouts (s.session st).items + 1) && !coveredBy s (s.session st).overrideStaff .limit) = false :=
    limit
  simp only [holdCheck_passes held]
  rw [coverable_passes ((limit_fails _ _ _).trans limit)]
  simp only [itemDue, lentOf]
  cases dueFor _ _ with
  | error r => rfl
  | ok due =>
    by_cases hf : 32 < s.journal.free
    · simp only [reserveSlots, hf, decide_true, if_true]
      refine congrArg Except.ok ?_
      simp only [entryOf, ListEntry.mk.injEq, EntryFlags.mk.injEq, Option.isSome_map, true_and, and_true]
      refine ⟨?_, ?_⟩
      · cases s.cache.find? (fun c => decide (c.item = item)) <;> rfl
      · exact congrArg₂ or rfl (limit_new _ _)
    · simp only [reserveSlots, hf]
      rfl

end Sys2Proof.Desk
end

