-- ==== Sys2Proof/Proofs/ScansTaken.lean ====
section
/-! SUPPORT. The decision a scan or a key comes to (R4), and the staff scan (R11, R12). -/

namespace Sys2Proof.Desk

open Sys2Proof.Machine

variable {s : State} {st : Station} {digits : List Nat} {n item : Number}

theorem current_idle (h : (s.session st).borrower = none) : current s st = s.session st := if_pos h

theorem current_open (h : (s.session st).borrower ≠ none) : current s st = reloaded s st := if_neg h

/-- Only the idle timer of the record in which a decision acts can differ. -/
theorem current_eq (s : State) (st : Station) : ∃ idle, current s st = { s.session st with idle := idle } := by
  unfold current
  split
  · exact ⟨_, rfl⟩
  · exact ⟨_, rfl⟩

@[simp] theorem current_borrower : (current s st).borrower = (s.session st).borrower := by
  obtain ⟨idle, h⟩ := current_eq s st
  rw [h]

@[simp] theorem current_overrideStaff : (current s st).overrideStaff = (s.session st).overrideStaff := by
  obtain ⟨idle, h⟩ := current_eq s st
  rw [h]

@[simp] theorem current_mode : (current s st).mode = (s.session st).mode := by
  obtain ⟨idle, h⟩ := current_eq s st
  rw [h]

@[simp] theorem current_items : (current s st).items = (s.session st).items := by
  obtain ⟨idle, h⟩ := current_eq s st
  rw [h]

/-! ### Scans and keys -/

theorem scan_taken {takes : State → Input → Bool} (h : s.takesNext st (.scan digits))
    (ht : takes s (.scan digits) = true) (ha : s.attended st) :
    decision takes scanDecision s =
      .next (settle s (scanDecision st (.scan digits) (s.console st).wiped (served st (current s st) s))) := by
  rw [decision_taken h ht, takeInput_served ha]

theorem borrowerScan_taken {c : Fin 16} (h : s.takesNext st (.scan digits))
    (hc : classify s.active.prefixTable digits = .borrower n c) (ha : s.attended st) :
    exec .borrowerScan s =
      .next (settle s (borrowerDecision st n c (s.console st).wiped (served st (current s st) s))) := by
  refine (scan_taken (takes := isBorrowerScan) h ?_ ha).trans ?_
  · simp [isBorrowerScan, State.scanOf, hc]
  · simp [scanDecision, State.scanOf, hc]

theorem itemScan_taken {c : Fin 32} (h : s.takesNext st (.scan digits))
    (hc : classify s.active.prefixTable digits = .item item c) (ha : s.attended st) :
    exec .itemScan s =
      .next (settle s (itemDecision st item c (s.console st).wiped (served st (current s st) s))) := by
  refine (scan_taken (takes := isItemScan) h ?_ ha).trans ?_
  · simp [isItemScan, State.scanOf, hc]
  · simp [scanDecision, State.scanOf, hc]

theorem staffScan_taken (h : s.takesNext st (.scan digits)) (hc : classify s.active.prefixTable digits = .staff n)
    (ha : s.attended st) :
    exec .staffScan s = .next (settle s (staffDecision st n (served st (current s st) s))) := by
  refine (scan_taken (takes := isStaffScan) h ?_ ha).trans ?_
  · simp [isStaffScan, State.scanOf, hc]
  · simp [scanDecision, State.scanOf, hc]

theorem key_taken {k : KeyCode} {body : Station → Bool → State → State} (h : s.takesNext st (.key k))
    (ha : s.attended st) :
    keyDecision k body s = .next (settle s (body st (s.console st).wiped (served st (current s st) s))) := by
  rw [keyDecision_taken h, takeInput_served ha]

/-! ### Staff -/

/-- The session's record after an accepted staff scan (R11, R12). -/
def staffed (s : State) (st : Station) (n : Number) : Session :=
  if (s.session st).borrower = none then
    { s.session st with overrideStaff := some n, armedUntil := some ((s.clock.now.second + 60) % 86400) }
  else { reloaded s st with overrideStaff := some n }

theorem acceptStaff_served (s : State) (st : Station) (n : Number) :
    acceptStaff st n (served st (current s st) s) =
      sound st .accept (showLines st (s.console st).line1 (printNumber n) (served st (staffed s st n) s)) := by
  unfold acceptStaff
  simp only [setSession_served, session_served, console_served, clock_served]
  congr 3
  by_cases h : (s.session st).borrower = none
  · simp [staffed, h, current_idle h, armSeconds]
  · simp [staffed, h, current_open h, reloaded, Option.isSome_iff_ne_none.mpr h]

theorem overridesOf_isSome (s : State) (n : Number) :
    (s.overridesOf n).isSome = s.active.staff.any fun e => decide (e.number = n) := by
  rw [Bool.eq_iff_iff]
  simp [State.overridesOf]

theorem staffDecision_listed (h : (s.active.staff.any fun e => decide (e.number = n)) = true) :
    staffDecision st n s = acceptStaff st n s := by
  obtain ⟨o, ho⟩ := Option.isSome_iff_exists.mp ((overridesOf_isSome s n).trans h)
  simp [staffDecision, ho]

theorem staffDecision_unlisted (h : (s.active.staff.any fun e => decide (e.number = n)) = false) :
    staffDecision st n s = refuse st .unknownStaff (s.session st).borrower none (some n) s := by
  have ho : s.overridesOf n = none := by
    simpa using (overridesOf_isSome s n).trans h
  simp [staffDecision, ho]

end Sys2Proof.Desk

open Sys2Proof Sys2Proof.Machine Sys2Proof.Desk

/-- Settles O23: a listed staff member is armed or set as the session's override, any other is refused. -/
theorem staffScansSetOverrides : Obligations.StaffScansSetOverrides := by
  unfold Obligations.StaffScansSetOverrides
  intro s st digits n htakes hclass ha
  have taken := staffScan_taken htakes hclass ha
  refine ⟨fun listed => ?_, fun unlisted => ?_⟩
  · rw [staffDecision_listed (s := served st (current s st) s) listed, acceptStaff_served] at taken
    have display := displayed_sound ha (displayed_showLines ha (port_served (staffed s st n))
      (linesKept_served (staffed s st n)) (s.console st).line1 (printNumber n)) .accept
    have drawn := (redrawn_showLines st (s.console st).line1 (printNumber n) (served st (staffed s st n) s)).trans
      (redrawn_sound st .accept _)
    have decided := decided_of_redrawn (z := s) drawn
    exact ⟨_, taken, shown_of_displayed display drawn, decided.session, decided.slips, decided.unrecorded,
      decided.cache, decided.frame.1, decided.frame.2⟩
  · rw [staffDecision_unlisted (s := served st (current s st) s) unlisted, session_served, current_borrower] at taken
    obtain ⟨refused, session, frame⟩ :=
      refuse_served ha (current s st) .unknownStaff (s.session st).borrower none (some n)
    exact ⟨_, taken, refused, session, frame.1, frame.2⟩
end

