-- ==== Sys2Proof/Proofs/ItemScans.lean ====
section
/-! SUPPORT. The item scan in CHECKOUT (R14 to R17), and the scan with neither a session nor return mode (R4). -/

namespace Sys2Proof.Desk

open Sys2Proof.Machine

variable {s t x y : State} {st o : Station} {n item : Number} {b : Borrower} {default : Fin 32}

/-! ### Checks seen from a state in which an input has been taken -/

theorem itemChecks_served : itemChecks (served st (current s st) s) (current s st) n item default =
    itemChecks s (s.session st) n item default := by
  obtain ⟨idle, h⟩ := current_eq s st
  rw [h]
  rfl

theorem listedElsewhere_served (r : Session) :
    (served st r s).listedElsewhere st item =
      stations.any fun o => decide (o ≠ st) && (s.session o).items.any fun e => decide (e.item = item) := by
  unfold State.listedElsewhere
  congr 1
  funext o
  by_cases ho : o = st
  · simp [ho]
  · rw [session_served_of_ne r ho]
    rfl

theorem sessionStaff_served (r : Session) :
    (served st r s).sessionStaff st = if r.borrower = none then none else r.overrideStaff := by
  rw [State.sessionStaff, session_served]
  cases r.borrower <;> rfl

theorem refuseInSession_served (ha : s.attended st) (reason : Reason) (item : Option Number) :
    refusedAt s st reason (s.session st).borrower item
        (if (s.session st).borrower = none then none else (s.session st).overrideStaff)
        (settle s (refuseInSession st reason item (served st (current s st) s))) ∧
      (settle s (refuseInSession st reason item (served st (current s st) s))).session st = current s st ∧
      DeskFrame st s (settle s (refuseInSession st reason item (served st (current s st) s))) := by
  unfold refuseInSession
  rw [sessionStaff_served, session_served, current_borrower, current_overrideStaff]
  exact refuse_served ha _ _ _ _ _

theorem stationState_open {r : Session} (ha : s.attended st) (h : r.borrower ≠ none) :
    (served st r s).stationState st = .checkout := by
  obtain ⟨hp, hb⟩ := ha
  simp [State.stationState, hp, hb, Option.isSome_iff_ne_none.mpr h]

theorem showStanding_checkout (h : s.stationState st = .checkout) : showStanding st s = s := by
  simp [showStanding, State.standingText, h]

/-- In CHECKOUT a cleared WIPED mark brings no text back. -/
theorem showUnwiped_checkout (w : Bool) (h : s.stationState st = .checkout) : showUnwiped st w s = s := by
  unfold showUnwiped
  split
  · exact showStanding_checkout h
  · rfl

/-! ### The decision -/

/-- The list and the other stations' lists come before the other checks (R14). -/
theorem itemChecksInOrder_eq (s : State) (st : Station) (b : Borrower) (item : Number) (default : Fin 32) :
    itemChecksInOrder s st b item default =
      (.listFull, decide (12 ≤ (s.session st).items.length)) ::
        (.inOtherSession,
          stations.any fun o => decide (o ≠ st) && (s.session o).items.any fun e => decide (e.item = item)) ::
        laterChecks s st b item default := rfl

theorem itemDecision_open (h : (s.session st).borrower = some n) (w : Bool) :
    itemDecision st item default w s = lendDecision st n item default w s := by
  simp [itemDecision, h]

variable {w : Bool}

theorem lendDecision_full (h : 12 ≤ (s.session st).items.length) :
    lendDecision st n item default w s = refuseInSession st .listFull (some item) s := if_pos h

theorem lendDecision_duplicate (h : (s.session st).items.length < 12) (own : (s.session st).lists item = true) :
    lendDecision st n item default w s = showUnwiped st w (sound st .duplicate s) :=
  (if_neg (Nat.not_le.mpr h)).trans (if_pos own)

theorem lendDecision_elsewhere (h : (s.session st).items.length < 12) (own : (s.session st).lists item = false)
    (other : s.listedElsewhere st item = true) :
    lendDecision st n item default w s = refuseInSession st .inOtherSession (some item) s :=
  (if_neg (Nat.not_le.mpr h)).trans ((if_neg (Bool.eq_false_iff.mp own)).trans (if_pos other))

theorem lendDecision_checked (h : (s.session st).items.length < 12) (own : (s.session st).lists item = false)
    (other : s.listedElsewhere st item = false) :
    lendDecision st n item default w s =
      match itemChecks s (s.session st) n item default with
      | .error reason => refuseInSession st reason (some item) s
      | .ok e => acceptItem st e s :=
  (if_neg (Nat.not_le.mpr h)).trans ((if_neg (Bool.eq_false_iff.mp own)).trans (if_neg (Bool.eq_false_iff.mp other)))

/-- What is known of a scan that neither its own list nor a full list settles. -/
structure Checked (s : State) (st : Station) (item : Number) : Prop where
  short : (s.session st).items.length < 12
  own : ((s.session st).items.any fun e => decide (e.item = item)) = false
  elsewhere : (stations.any fun o => decide (o ≠ st) && (s.session o).items.any fun e => decide (e.item = item)) = false

theorem checked_of_passed (own : ((s.session st).items.any fun e => decide (e.item = item)) = false)
    (h : ∀ p ∈ itemChecksInOrder s st b item default, p.2 = false) :
    Checked s st item ∧ ∀ p ∈ laterChecks s st b item default, p.2 = false := by
  rw [itemChecksInOrder_eq] at h
  simp only [List.forall_mem_cons, decide_eq_false_iff_not, Nat.not_le] at h
  obtain ⟨short, elsewhere, later⟩ := h
  exact ⟨⟨short, own, elsewhere⟩, later⟩

/-- The decision of a checked item is that of the later checks. -/
theorem lendDecision_served (h : Checked s st item) :
    lendDecision st n item default w (served st (current s st) s) =
      match itemChecks s (s.session st) n item default with
      | .error reason => refuseInSession st reason (some item) (served st (current s st) s)
      | .ok e => acceptItem st e (served st (current s st) s) := by
  rw [lendDecision_checked, session_served, itemChecks_served]
  · simpa using h.short
  · simpa [Session.lists] using h.own
  · rw [listedElsewhere_served]
    exact h.elsewhere

/-- The first check that fails is the refusal's reason (R14, R17). -/
theorem lendDecision_refused {r : Reason} (hb : s.active.borrower n = some b)
    (own : ((s.session st).items.any fun e => decide (e.item = item)) = false)
    (h : (itemChecksInOrder s st b item default).find? Prod.snd = some (r, true)) :
    lendDecision st n item default w (served st (current s st) s) =
      refuseInSession st r (some item) (served st (current s st) s) := by
  rw [itemChecksInOrder_eq, List.find?_cons] at h
  split at h
  · next full =>
    obtain rfl := congrArg Prod.fst (Option.some.inj h)
    exact lendDecision_full (by simpa using full)
  next short =>
  have short : (s.session st).items.length < 12 := by simpa using short
  rw [List.find?_cons] at h
  split at h
  · next other =>
    obtain rfl := congrArg Prod.fst (Option.some.inj h)
    exact lendDecision_elsewhere (by simpa using short) (by simpa [Session.lists] using own)
      ((listedElsewhere_served _).trans other)
  next other =>
  rw [lendDecision_served ⟨short, own, other⟩, itemChecks_refused hb h]

/-- What follows the checks when none fails: the due, then the room in the journal (R16). -/
theorem lendDecision_passed (hb : s.active.borrower n = some b)
    (own : ((s.session st).items.any fun e => decide (e.item = item)) = false)
    (h : ∀ p ∈ itemChecksInOrder s st b item default, p.2 = false) :
    lendDecision st n item default w (served st (current s st) s) =
      match (itemDue s b item default).bind fun due =>
        if 32 < s.journal.free then .ok (entryOf s st b item default due) else .error .journalFull with
      | .error reason => refuseInSession st reason (some item) (served st (current s st) s)
      | .ok e => acceptItem st e (served st (current s st) s) := by
  obtain ⟨checked, later⟩ := checked_of_passed own h
  rw [lendDecision_served checked, itemChecks_passed hb later]

/-! ### An accepted item -/

/-- A state whose journal holds one claim more (R146). -/
def claimed (s : State) : State := { s with journal := { s.journal with claims := s.journal.claims + 1 } }

/-- What the display shows of an accepted item (R16). -/
def itemLine (s : State) (e : ListEntry) : Text :=
  if e.isCheckout then printNumber e.item else spaced (printNumber e.item) (s.shownText 30).line1

theorem itemLine_eq (s : State) (e : ListEntry) :
    itemLine s e =
      if e.action = .renew then spaced (printNumber e.item) (s.shownText 30).line1 else printNumber e.item := by
  unfold itemLine ListEntry.isCheckout
  cases e.action <;> rfl

def dueLine (s : State) (e : ListEntry) : Text :=
  spaced (printDate s.settings.dateFormat e.due.day) (printMinute e.due.minute)

theorem acceptItem_eq (e : ListEntry) (s : State) :
    acceptItem st e s =
      sound st .accept (showLines st (itemLine s e) (dueLine s e)
        ((claimed s).setSession st { s.session st with items := (s.session st).items ++ [e] })) := rfl

theorem acceptItem_served (r : Session) (e : ListEntry) :
    acceptItem st e (served st r s) =
      sound st .accept (showLines st (itemLine s e) (dueLine s e)
        (served st { r with items := r.items ++ [e] } (claimed s))) := by
  rw [acceptItem_eq, session_served, show claimed (served st r s) = served st r (claimed s) from rfl,
    setSession_served]
  rfl

/-- An accepted item: its lines and ACCEPT, its place in the list, and its claim (R16). -/
theorem acceptItem_spec (ha : s.attended st) (r : Session) (e : ListEntry) (t : State)
    (ht : t = settle s (acceptItem st e (served st r s))) :
    shown s st (itemLine s e) (dueLine s e) (some .accept) t ∧
      Decided (claimed s) st { r with items := r.items ++ [e] } t := by
  rw [acceptItem_served] at ht
  have display : displayed s st (itemLine s e) (dueLine s e) (some .accept) (s.port st).slots.tail _ :=
    displayed_sound ha (displayed_showLines ha
      (port_served (s := claimed s) { r with items := r.items ++ [e] })
      (linesKept_served (s := claimed s) { r with items := r.items ++ [e] }) (itemLine s e) (dueLine s e)) .accept
  have drawn := (redrawn_showLines st (itemLine s e) (dueLine s e)
    (served st { r with items := r.items ++ [e] } (claimed s))).trans (redrawn_sound st .accept _)
  rw [ht]
  exact ⟨shown_of_displayed display drawn, decided_of_redrawn drawn⟩

end Sys2Proof.Desk

open Sys2Proof Sys2Proof.Machine Sys2Proof.Desk

/-- Settles O21: each refusal of an item scan, by the first check that fails, the due, or the journal's room. -/
theorem itemScansAreRefused : Obligations.ItemScansAreRefused := by
  unfold Obligations.ItemScansAreRefused
  intro s st digits item default htakes hclass ha
  have taken := itemScan_taken htakes hclass ha
  refine ⟨fun idle normal => ?_, fun n b hn hb => ?_⟩
  · have here : itemDecision st item default (s.console st).wiped (served st (current s st) s) =
        refuseInSession st .noBorrower (some item) (served st (current s st) s) := by
      simp [itemDecision, idle, normal]
    obtain ⟨refused, session, frame⟩ := refuseInSession_served ha .noBorrower (some item)
    rw [here] at taken
    simp only [idle, if_true, current_idle idle] at refused session frame taken
    exact ⟨_, taken, refused, session, frame.1, frame.2⟩
  · have hopen : (s.session st).borrower ≠ none := by simp [hn]
    rw [itemDecision_open (by simpa using hn)] at taken
    have refused : ∀ r, lendDecision st n item default (s.console st).wiped (served st (current s st) s) =
        refuseInSession st r (some item) (served st (current s st) s) →
        ∃ t, exec .itemScan s = .next t ∧
          refusedAt s st r (some n) (some item) (s.session st).overrideStaff t ∧ t.session st = reloaded s st ∧
          othersKept st s t ∧ deskOnly s t := by
      intro r hr
      obtain ⟨refused, session, frame⟩ := refuseInSession_served ha r (some item)
      rw [hr] at taken
      rw [hn, if_neg (by simp)] at refused
      exact ⟨_, taken, refused, session.trans (current_open hopen), frame.1, frame.2⟩
    refine ⟨fun full => refused _ (lendDecision_full (by simpa using full)), fun short own => ?_,
      fun r own hr => refused r (lendDecision_refused hb own hr),
      fun own passed => ⟨fun r due => ?_, fun due hd free => ?_⟩⟩
    · have state := stationState_open ha (r := current s st) (by simpa using hopen)
      have drawn := redrawn_sound st .duplicate (served st (current s st) s)
      have decided := decided_of_redrawn (z := s) drawn
      rw [lendDecision_duplicate (by simpa using short) (by simpa [Session.lists] using own),
        showUnwiped_checkout _ ((drawn.1.stationState st).trans state)] at taken
      exact ⟨_, taken, signalled_sound ha _ _, decided.slips, decided.session.trans (current_open hopen),
        decided.unrecorded, decided.cache, decided.frame.1, decided.frame.2⟩
    · refine refused r ((lendDecision_passed hb own passed).trans ?_)
      rw [due]
      rfl
    · refine refused .journalFull ((lendDecision_passed hb own passed).trans ?_)
      rw [hd]
      simp only [Except.bind, if_neg (Nat.not_lt.mpr free)]

/-- Settles O20: an item that passes every check joins the list, with its claim. -/
theorem itemScansJoinTheList : Obligations.ItemScansJoinTheList := by
  unfold Obligations.ItemScansJoinTheList
  intro s st digits item n default b due htakes hclass ha hn hb own passed hd free
  have hopen : (s.session st).borrower ≠ none := by simp [hn]
  have taken := itemScan_taken htakes hclass ha
  have accepted : lendDecision st n item default (s.console st).wiped (served st (current s st) s) =
      acceptItem st (entryOf s st b item default due) (served st (current s st) s) := by
    rw [lendDecision_passed hb own passed, hd]
    simp only [Except.bind, if_pos free]
  rw [itemDecision_open (by simpa using hn), accepted, current_open hopen] at taken
  obtain ⟨shown, decided⟩ := acceptItem_spec ha (reloaded s st) (entryOf s st b item default due) _ rfl
  rw [itemLine_eq] at shown
  exact ⟨_, taken, shown, decided.session, decided.unrecorded.1, decided.unrecorded.2, decided.cache, decided.slips,
    decided.frame.1, decided.frame.2⟩
end

