-- ==== Sys2Proof/Proofs/LoanLimit.lean ====
section
/-! SUPPORT. An item scan adds no checkout above the category's loan limit (R15 step 7). -/

namespace Sys2Proof.Desk

open Sys2Proof.Machine

variable {s t x y : State} {st o : Station} {n item : Number} {b : Borrower} {default : Fin 32} {w : Bool}

/-! ### What an item scan does to the sessions' records -/

theorem session_appendAboveReserve (d : Record) (s : State) (o : Station) :
    (appendAboveReserve d s).session o = s.session o := by
  obtain ⟨j, b, h⟩ := appendAboveReserve_tables s d
  rw [h]
  rfl

theorem session_refuseInSession (r : Reason) (i : Option Number) :
    (refuseInSession st r i s).session o = s.session o :=
  (((redrawn_showText st _ _).trans (redrawn_sound st _ _)).1.session o).trans (session_appendAboveReserve _ s o)

theorem session_creditReturn : (creditReturn st item s).session o = s.session o := by
  unfold creditReturn
  simp only
  split
  · exact session_appendAboveReserve _ s o
  · exact session_appendAboveReserve _ _ o

theorem session_routeHead : (routeHead st item s).session o = s.session o := by
  unfold routeHead
  split
  · simp only
    split
    · rfl
    · exact session_appendAboveReserve _ _ o
  · rfl

theorem session_queueSlip (p : Slip) : (queueSlip st p s).1.session o = s.session o := by
  unfold queueSlip
  split <;> rfl

theorem session_takeReturn : (takeReturn st item default s).session o = s.session o := by
  have before : (routeHead st item (creditReturn st item s)).session o = s.session o :=
    session_routeHead.trans session_creditReturn
  unfold takeReturn
  simp only
  split
  · exact (((redrawn_showLines st _ _ _).trans (redrawn_sound st _ _)).1.session o).trans before
  · exact ((((redrawn_showLines st _ _ _).trans (redrawn_showIfLost st _ _)).trans (redrawn_sound st _ _)).1.session
      o).trans ((session_queueSlip _).trans before)

/-- At another station nothing joins the list. -/
theorem session_acceptItem_of_ne (ho : o ≠ st) (e : ListEntry) : (acceptItem st e s).session o = s.session o := by
  rw [acceptItem_eq]
  refine (((redrawn_showLines st _ _ _).trans (redrawn_sound st _ _)).1.session o).trans ?_
  exact session_setSession_of_ne (claimed s) st o ho

theorem items_acceptItem (e : ListEntry) : ((acceptItem st e s).session st).items = (s.session st).items ++ [e] := by
  rw [acceptItem_eq, ((redrawn_showLines st _ _ _).trans (redrawn_sound st _ _)).1.session st]
  simp

/-- A lending decision leaves the lists alone or takes an item that passed the checks. -/
theorem lendDecision_cases (s : State) (st : Station) (n item : Number) (default : Fin 32) (w : Bool) :
    (∀ o, (lendDecision st n item default w s).session o = s.session o) ∨
      ∃ e, itemChecks s (s.session st) n item default = .ok e ∧
        lendDecision st n item default w s = acceptItem st e s := by
  unfold lendDecision
  simp only
  split
  · exact .inl fun o => session_refuseInSession _ _
  · split
    · exact .inl fun o => ((redrawn_sound st _ _).trans (redrawn_showUnwiped st _ _)).1.session o
    · split
      · exact .inl fun o => session_refuseInSession _ _
      · split
        · exact .inl fun o => session_refuseInSession _ _
        · next e he => exact .inr ⟨e, he, rfl⟩

theorem session_itemDecision_of_ne (ho : o ≠ st) : (itemDecision st item default w s).session o = s.session o := by
  unfold itemDecision
  split
  · next n _ =>
    obtain h | ⟨e, -, h⟩ := lendDecision_cases s st n item default w
    · exact h o
    · rw [h]
      exact session_acceptItem_of_ne ho e
  · split
    · unfold returnDecision
      split
      · exact session_refuseInSession _ _
      · exact session_takeReturn
    · exact session_refuseInSession _ _

/-! ### The limit -/

/-- The loans and the list's checkouts do not exceed the category's limit. -/
def withinLimit (s : State) (b : Borrower) (items : List ListEntry) : Prop :=
  b.loansHeld + items.countP ListEntry.isCheckout ≤ (s.active.categories[b.category]).loanLimit

theorem find?_failing {l : List (Reason × Bool)} (h : ¬∀ p ∈ l, p.2 = false) :
    ∃ r, l.find? Prod.snd = some (r, true) := by
  cases hf : l.find? Prod.snd with
  | none => exact absurd (fun p hp => by simpa using List.find?_eq_none.mp hf p hp) h
  | some p => exact ⟨p.1, congrArg some (Prod.ext rfl (List.find?_some hf))⟩

/-- A checkout that passed the checks with no override of the limit stays within it. -/
theorem withinLimit_of_passed {e : ListEntry} (hb : s.active.borrower n = some b)
    (open_ : coveredBy s (s.session st).overrideStaff .limit = false)
    (h : itemChecks s (s.session st) n item default = .ok e) (he : e.isCheckout = true) :
    withinLimit s b ((s.session st).items ++ [e]) := by
  by_cases passed : ∀ p ∈ laterChecks s st b item default, p.2 = false
  · have limit := passed (.limit, decide (lentOf s item = none ∧ (s.active.categories[b.category]).loanLimit <
      b.loansHeld + (s.session st).items.countP ListEntry.isCheckout + 1) &&
        !coveredBy s (s.session st).overrideStaff .limit) (by simp [laterChecks, itemChecksInOrder, lentOf])
    have new : lentOf s item = none := by
      rw [itemChecks_passed hb passed] at h
      cases hd : itemDue s b item default with
      | error r => simp [hd, Except.bind] at h
      | ok due =>
        rw [hd] at h
        simp only [Except.bind] at h
        split at h
        · rw [← Except.ok.inj h] at he
          simp only [ListEntry.isCheckout, entryOf] at he
          by_contra hn
          simp [show (s.cache.find? fun c => decide (c.item = item)) ≠ none from hn] at he
        · cases h
    simp only [open_, new, true_and, Bool.not_false, Bool.and_true, decide_eq_false_iff_not, Nat.not_lt] at limit
    simpa [withinLimit, he, Nat.add_assoc] using limit
  · obtain ⟨r, hr⟩ := find?_failing passed
    rw [itemChecks_refused hb hr] at h
    cases h

theorem withinLimit_append {e : ListEntry} {items : List ListEntry} (he : ¬e.isCheckout = true)
    (h : withinLimit s b items) : withinLimit s b (items ++ [e]) := by
  simpa [withinLimit, he] using h

theorem withinLimit_itemDecision (hn : (s.session st).borrower = some n) (hb : s.active.borrower n = some b)
    (open_ : coveredBy s (s.session st).overrideStaff .limit = false)
    (within : withinLimit s b (s.session st).items) :
    withinLimit s b ((itemDecision o item default w s).session st).items := by
  by_cases ho : st = o
  · subst ho
    rw [itemDecision_open hn]
    obtain h | ⟨e, he, h⟩ := lendDecision_cases s st n item default w
    · rw [h st]
      exact within
    · rw [h, items_acceptItem]
      by_cases new : e.isCheckout = true
      · exact withinLimit_of_passed hb open_ he new
      · exact withinLimit_append new within
  · rw [session_itemDecision_of_ne ho]
    exact within

theorem session_takeInput (s : State) (o st : Station) :
    ∃ idle, (takeInput o s).session st = { s.session st with idle := idle } := by
  unfold takeInput
  simp only
  split
  · by_cases h : st = o
    · subst h
      exact ⟨_, by rw [session_setSession]; rfl⟩
    · exact ⟨_, session_setSession_of_ne _ o st h⟩
  · exact ⟨_, rfl⟩

theorem active_takeInput (s : State) (o : Station) : (takeInput o s).active = s.active := by
  rw [takeInput_frame]

end Sys2Proof.Desk

open Sys2Proof Sys2Proof.Machine Sys2Proof.Desk

/-- Settles O22: only an accepted checkout lengthens the count, and the check lets it pass only below the limit. -/
theorem theLoanLimitHolds : Obligations.TheLoanLimitHolds := by
  unfold Obligations.TheLoanLimitHolds
  intro s t st n b h hn hb open_ within
  change withinLimit s b (s.session st).items at within
  change withinLimit s b (t.session st).items
  obtain rfl | rfl | ⟨o, i, -, hi, rfl⟩ :=
    Outcomes.decision_next (show decision isItemScan scanDecision s = .next t from h)
  · exact within
  · exact within
  obtain ⟨item, default, hscan⟩ : ∃ item default, s.scanOf i = some (.item item default) := by
    unfold isItemScan at hi
    split at hi
    · next item default hs => exact ⟨item, default, hs⟩
    · cases hi
  obtain ⟨idle, hsession⟩ := session_takeInput s o st
  have hactive := active_takeInput s o
  generalize takeInput o s = x at hsession hactive ⊢
  have decided : scanDecision o i (s.console o).wiped x = itemDecision o item default (s.console o).wiped x := by
    have : x.scanOf i = s.scanOf i := by
      cases i <;> simp [State.scanOf, hactive]
    simp [scanDecision, this, hscan]
  have kept : withinLimit x b ((itemDecision o item default (s.console o).wiped x).session st).items := by
    refine withinLimit_itemDecision (n := n) (by rw [hsession]; exact hn) (by rw [hactive]; exact hb) ?_ ?_
    · rw [hsession, coveredBy, hactive]
      exact open_
    · rw [hsession, withinLimit, hactive]
      exact within
  rw [← decided, withinLimit, hactive] at kept
  exact kept
end

