-- ==== Sys2Proof/Proofs/SessionCloses.lean ====
section
/-! SUPPORT. A session's close (R18): its records, the loans, the cache, the filled holds, the slip and the link, as one
equation each. -/

namespace Sys2Proof.Desk

open Sys2Proof.Machine

variable {s t x y : State} {st o : Station} {n : Number} {b : Borrower} {d : Record} {mode : Mode}

/-! ### Claimed appends in a row -/

/-- The record that the append of a draft leaves when `i` others have gone before it in the same run. -/
def filledAt (s : State) (i : Nat) (d : Record) : Record :=
  { s.fillRecord d with
    seq := s.journal.nextSeq + i
    flags := { (s.fillRecord d).flags with overflowBefore := s.journal.overflow && decide (i = 0) } }

/-- `pending` raised by some records of one borrower. -/
def withPendingRaised (n : Number) (k : Nat) (l : List Borrower) : List Borrower :=
  l.map fun e => if e.number = n then { e with pending := e.pending + k } else e

theorem withPendingRaised_zero (n : Number) (l : List Borrower) : withPendingRaised n 0 l = l := by
  simp [withPendingRaised]

theorem withPendingRaised_add (n : Number) (k m : Nat) (l : List Borrower) :
    withPendingRaised n k (withPendingRaised n m l) = withPendingRaised n (m + k) l := by
  simp only [withPendingRaised, List.map_map]
  refine List.map_congr_left fun e _ => ?_
  by_cases h : e.number = n <;> simp [h, Nat.add_assoc]

/-- The state after claimed appends of one borrower's drafts (R145, R146, R148). -/
def appendedAll (s : State) (n : Number) (ds : List Record) : State :=
  { s with
    journal :=
      { s.journal with
        records := s.journal.records ++ ds.mapIdx (filledAt s), nextSeq := s.journal.nextSeq + ds.length
        claims := s.journal.claims - ds.length, overflow := s.journal.overflow && ds.isEmpty }
    active := { s.active with borrowers := withPendingRaised n ds.length s.active.borrowers } }

theorem appendedAll_nil (s : State) (n : Number) : appendedAll s n [] = s := by
  simp [appendedAll, withPendingRaised_zero]

theorem appendClaimed_eq (s : State) (hd : d.borrower = some n) :
    appendClaimed d s =
      { s with
        journal :=
          { s.journal with
            records := s.journal.records ++ [s.fillRecord d], nextSeq := s.journal.nextSeq + 1
            claims := s.journal.claims - 1, overflow := false }
        active := { s.active with borrowers := withPendingRaised n 1 s.active.borrowers } } := by
  simp only [appendClaimed, append, raisePending, hd]
  rfl

theorem filledAt_zero (s : State) (d : Record) : filledAt s 0 d = s.fillRecord d := by
  simp [filledAt, State.fillRecord]

/-- A claimed append leaves the later ones of its run as they would have been. -/
theorem filledAt_appendClaimed (s : State) (hd : d.borrower = some n) (i : Nat) {d' : Record}
    (hd' : d'.borrower = some n) : filledAt (appendClaimed d s) i d' = filledAt s (i + 1) d' := by
  have counted : (appendClaimed d s).counts d' = s.counts d' := by
    rw [appendClaimed_eq s hd, Bool.eq_iff_iff]
    simp [State.counts, hd', Bank.borrower, withPendingRaised, apply_ite]
  rw [filledAt, filledAt, State.fillRecord, State.fillRecord, counted, appendClaimed_eq s hd]
  simp only [State.today, State.minute, Bool.false_and, Nat.succ_ne_zero, decide_false, Bool.and_false, Nat.add_assoc,
    Nat.add_comm 1]

theorem appendedAll_cons (s : State) (hd : d.borrower = some n) {ds : List Record}
    (h : ∀ d ∈ ds, d.borrower = some n) : appendedAll (appendClaimed d s) n ds = appendedAll s n (d :: ds) := by
  have later : ds.mapIdx (filledAt (appendClaimed d s)) = ds.mapIdx fun i => filledAt s (i + 1) := by
    refine List.mapIdx_eq_mapIdx_iff.mpr fun i hi => ?_
    exact filledAt_appendClaimed s hd i (h _ (List.getElem_mem hi))
  unfold appendedAll
  rw [later, appendClaimed_eq s hd]
  simp only [List.mapIdx_cons, filledAt_zero, List.append_assoc, List.singleton_append, List.length_cons,
    withPendingRaised_add, Bool.false_and, List.isEmpty_cons, Bool.and_false, Nat.add_comm 1, Nat.sub_sub]
  rw [Nat.add_assoc, Nat.add_comm 1]

theorem foldl_appendClaimed {ds : List Record} (h : ∀ d ∈ ds, d.borrower = some n) :
    ∀ s : State, ds.foldl (fun s d => appendClaimed d s) s = appendedAll s n ds := by
  induction ds with
  | nil => exact fun s => (appendedAll_nil s n).symm
  | cons d ds ih =>
    obtain ⟨hd, hds⟩ := List.forall_mem_cons.mp h
    intro s
    rw [List.foldl_cons, ih hds, appendedAll_cons s hd hds]

/-! ### The filled holds -/

theorem foldl_fillHold (n : Number) (l : List ListEntry) (bs : List Borrower) :
    ∀ a : Bank, l.foldl (fillHold n) { a with borrowers := bs } =
      { a with items := (l.foldl (fillHold n) a).items, borrowers := bs } := by
  induction l with
  | nil => exact fun a => rfl
  | cons e l ih =>
    intro a
    rw [List.foldl_cons, List.foldl_cons]
    unfold fillHold
    split
    · exact (ih (a.mapQueue e.item (fillQueue n))).trans rfl
    · exact ih a

/-! ### The booking -/

/-- The borrowers once a list's records and checkouts are booked (R18 steps 1 and 2). -/
def withLoans (n : Number) (items : List ListEntry) (l : List Borrower) : List Borrower :=
  l.map fun x =>
    if x.number = n then
      { x with
        loansHeld := min 255 (x.loansHeld + items.countP ListEntry.isCheckout), pending := x.pending + items.length }
    else x

theorem bookItems_eq (mk : ListEntry → Record) (items : List ListEntry) (h : ∀ e, (mk e).borrower = some n)
    (s : State) :
    bookItems mk n items s =
      { s with
        journal := (appendedAll s n (items.map mk)).journal
        active :=
          { s.active with
            items := (items.foldl (fillHold n) s.active).items
            borrowers := withLoans n items s.active.borrowers }
        cache := items.foldl (cacheTake n s.clock.now.day) s.cache } := by
  have records : items.foldl (fun s e => appendClaimed (mk e) s) s = appendedAll s n (items.map mk) := by
    rw [← foldl_appendClaimed (by simp [h]), List.foldl_map]
  have borrowers : ((appendedAll s n (items.map mk)).active.mapBorrower n fun b =>
      { b with loansHeld := min loansMax (b.loansHeld + checkouts items) }) =
      { s.active with borrowers := withLoans n items s.active.borrowers } := by
    simp only [appendedAll, Bank.mapBorrower, withPendingRaised, withLoans, List.map_map, List.length_map]
    refine congrArg (fun l => { s.active with borrowers := l }) (List.map_congr_left fun e _ => ?_)
    by_cases he : e.number = n <;> simp [he, loansMax, checkouts]
  unfold bookItems
  simp only [records, borrowers, foldl_fillHold]
  rfl

/-- The record of a close as the Journal fills it (R19, R143). -/
theorem filledAt_closeDraft (hb : s.active.borrower n = some b) (i : Nat) (e : ListEntry) :
    filledAt s i (closeDraft st n (s.session st).overrideStaff b.provisional e) = closeRecord s st n b i e := by
  have counted : s.counts (closeDraft st n (s.session st).overrideStaff b.provisional e) = true := by
    simp [State.counts, closeDraft, hb]
  unfold filledAt State.fillRecord
  rw [counted]
  cases ha : e.action <;>
    simp [closeDraft, closeRecord, draft, recordFlagsOf, noRecordFlags, State.today, State.minute, minuteOf,
      ListEntry.isCheckout, ha]

/-! ### The link -/

theorem unlinked_borrowers (n : Number) (a : Bank) :
    ((a.mapBorrower n fun b => { b with sessionStation := none }).dropIfRetired n) =
      { a with
        borrowers :=
          withoutRetired n
            (a.borrowers.map fun x => if x.number = n then { x with sessionStation := none } else x) } := by
  simp only [Bank.dropIfRetired, Bank.mapBorrower, withoutRetired]
  refine congrArg (fun l => { a with borrowers := l }) (List.filter_congr fun e he => ?_)
  obtain ⟨x, -, rfl⟩ := List.mem_map.mp he
  by_cases hx : x.number = n
  · by_cases hp : x.pending = 0 <;> simp [hx, Borrower.leaves, hp]
  · simp [hx]

/-- Steps 1 to 4 and 6 of a close together. -/
def bookedState (s : State) (st : Station) (n : Number) (b : Borrower) : State :=
  let items := (s.session st).items
  { s with
    journal :=
      { s.journal with
        records := s.journal.records ++ items.mapIdx (closeRecord s st n b)
        nextSeq := s.journal.nextSeq + items.length, claims := s.journal.claims - items.length
        overflow := s.journal.overflow && items.isEmpty }
    active :=
      { s.active with
        items := (items.foldl (fillHold n) s.active).items
        borrowers :=
          withoutRetired n
            (s.active.borrowers.map fun x =>
              if x.number = n then
                { x with
                  loansHeld := min 255 (x.loansHeld + items.countP ListEntry.isCheckout)
                  pending := x.pending + items.length, sessionStation := none }
              else x) }
    cache := items.foldl (cacheTake n s.clock.now.day) s.cache }

theorem booked_bookedState (s : State) (st : Station) (n : Number) (b : Borrower) :
    booked s st n b (bookedState s st n b) := ⟨rfl, rfl, rfl⟩

theorem mapIdx_closeDraft (hb : s.active.borrower n = some b) (items : List ListEntry) :
    (items.map (closeDraft st n (s.session st).overrideStaff b.provisional)).mapIdx (filledAt s) =
      items.mapIdx (closeRecord s st n b) := by
  refine List.ext_getElem (by simp) fun i h _ => ?_
  simp [filledAt_closeDraft hb]

theorem unlinked_withLoans (n : Number) (items : List ListEntry) (l : List Borrower) :
    ((withLoans n items l).map fun x => if x.number = n then { x with sessionStation := none } else x) =
      l.map fun x =>
        if x.number = n then
          { x with
            loansHeld := min 255 (x.loansHeld + items.countP ListEntry.isCheckout)
            pending := x.pending + items.length, sessionStation := none }
        else x := by
  rw [withLoans, List.map_map]
  refine List.map_congr_left fun x _ => ?_
  by_cases hx : x.number = n <;> simp [hx]

theorem unlink_bookItems (hb : s.active.borrower n = some b) :
    unlinkBorrower n
        (bookItems (closeDraft st n (s.session st).overrideStaff b.provisional) n (s.session st).items s) =
      bookedState s st n b := by
  rw [bookItems_eq _ _ fun e => rfl]
  unfold unlinkBorrower bookedState appendedAll
  simp only [unlinked_borrowers, unlinked_withLoans, mapIdx_closeDraft hb, List.length_map, List.isEmpty_map]

end Sys2Proof.Desk
end

