-- ==== Sys2Proof/Proofs/SessionSlips.lean ====
section
/-! SUPPORT. The slip of a closing session (R18 step 5, R118), and what a close leaves, as one structure. -/

namespace Sys2Proof.Desk

open Sys2Proof.Machine

variable {s t x y z : State} {st o : Station} {n : Number} {b : Borrower} {mode : Mode}

/-! ### The slip -/

theorem fieldText_congr (hset : x.settings = s.settings) (hclock : x.clock = s.clock) (hnotice : x.notice = s.notice)
    (j : SlipJob) (i : Option SlipItem) : fieldText x st j i = fieldText s st j i := by
  funext f
  cases f <;> simp [fieldText, State.today, State.minute, hset, hclock, hnotice]

theorem compose_congr (hset : x.settings = s.settings) (hclock : x.clock = s.clock) (hnotice : x.notice = s.notice)
    (htemplates : x.active.templates = s.active.templates) (k : Fin 8) (j : SlipJob) :
    compose x st k j = compose s st k j := by
  unfold compose
  rw [hset, htemplates]
  simp only [fieldText_congr hset hclock hnotice]

theorem borrower_map {f : Borrower → Borrower} (h : ∀ e, (f e).number = e.number) (l : List Borrower) (n : Number) :
    ((l.map f).find? fun e => e.number = n) = (l.find? fun e => e.number = n).map f := by
  rw [List.find?_map]
  simp only [Function.comp_def, h]

/-- A change of the borrower entries that keeps their numbers and categories keeps the masking. -/
theorem maskBorrower_map {f : Borrower → Borrower} (h : ∀ e, (f e).number = e.number ∧ (f e).category = e.category)
    (hb : x.active.borrowers = s.active.borrowers.map f) (hc : x.active.categories = s.active.categories) :
    x.maskBorrower n = s.maskBorrower n := by
  unfold State.maskBorrower Bank.borrower
  rw [hb, borrower_map (fun e => (h e).1), hc]
  cases s.active.borrowers.find? fun e => decide (e.number = n) with
  | none => rfl
  | some e => simp [(h e).2]

/-- The slip of a session's list is the same before and after its booking. -/
theorem dueSlip_bookItems (mk : ListEntry → Record) (items : List ListEntry) (h : ∀ e, (mk e).borrower = some n)
    (s : State) (first : ListEntry) (l : List ListEntry) :
    dueSlip (bookItems mk n items s) st n first l = dueSlip s st n first l := by
  have heq := bookItems_eq mk items h s
  generalize bookItems mk n items s = z at heq ⊢
  have mask : z.maskBorrower n = s.maskBorrower n := by
    refine maskBorrower_map (f := fun x => if x.number = n then
      { x with
        loansHeld := min 255 (x.loansHeld + items.countP ListEntry.isCheckout), pending := x.pending + items.length }
      else x) (fun e => ?_) (by rw [heq]; rfl) (by rw [heq])
    by_cases he : e.number = n <;> simp [he]
  unfold dueSlip
  rw [mask, compose_congr (s := s) (by rw [heq]) (by rw [heq]) (by rw [heq]) (by rw [heq]), heq]

/-- The queue after a slip has come to it (R118). -/
def queueWith (c : Console) (p : Slip) : List Slip := if c.queue.length < 2 then c.queue ++ [p] else c.queue

/-- What the coming of a slip leaves: the queue, and PRINTER when the slip was dropped. -/
structure SlipCame (st : Station) (z : State) (queue : List Slip) (lost : Bool) (x : State) : Prop where
  rest : x = { z with consoles := x.consoles, uplink := x.uplink, supervisor := x.supervisor }
  other : ∀ o, o ≠ st → x.console o = z.console o
  console : x.console st = { z.console st with queue := queue }
  lines : linesKept z x
  printer : lost = true → ∀ l : Line, (x.line l).pendingSet.has .printer = true

theorem queueSlip_came (st : Station) (p : Slip) (z : State) :
    SlipCame st z (queueWith (z.console st) p) (decide (2 ≤ (z.console st).queue.length)) (queueSlip st p z).1 ∧
      (queueSlip st p z).2 = decide (2 ≤ (z.console st).queue.length) := by
  unfold queueSlip queueWith slipCapacity
  by_cases h : (z.console st).queue.length < 2
  · simp only [if_pos h]
    have kept : ¬2 ≤ (z.console st).queue.length := Nat.not_le.mpr h
    exact ⟨⟨rfl, fun o ho => by simp [ho], by simp, ⟨rfl, rfl⟩, fun lost => by simp [kept] at lost⟩, by simp [kept]⟩
  · simp only [if_neg h]
    have lost : 2 ≤ (z.console st).queue.length := Nat.not_lt.mp h
    exact ⟨⟨rfl, fun o _ => rfl, rfl, linesKept_raiseBoth _, fun _ l => has_raiseBoth _ l⟩, by simp [lost]⟩

/-- The queue after a session's close (R18 step 5). -/
def queueAfter (s : State) (st : Station) (n : Number) (c : Console) : List ListEntry → List Slip
  | [] => c.queue
  | first :: rest => queueWith c (dueSlip s st n first (first :: rest))

theorem slipForClose_came (st : Station) (n : Number) (items : List ListEntry) (z : State) :
    SlipCame st z (queueAfter z st n (z.console st) items)
        (decide (items ≠ [] ∧ 2 ≤ (z.console st).queue.length)) (slipForClose st n items z).1 ∧
      (slipForClose st n items z).2 = decide (items ≠ [] ∧ 2 ≤ (z.console st).queue.length) := by
  cases items with
  | nil => exact ⟨⟨rfl, fun o _ => rfl, rfl, ⟨rfl, rfl⟩, fun lost => by simp at lost⟩, by simp [slipForClose]⟩
  | cons first rest =>
    have came := queueSlip_came st (dueSlip z st n first (first :: rest)) z
    simpa [slipForClose, queueAfter] using came

/-! ### The close -/

/-- What the close of a session leaves. -/
structure Closed (s : State) (st : Station) (n : Number) (mode : Mode) (y : State) : Prop where
  books : ∀ b, s.active.borrower n = some b → booked s st n b y
  slip : slipQueued s st n y
  session : y.session st = { Session.empty with mode := mode }
  frame : DeskFrame st s y
  lines : linesKept s y
  port : y.port st = s.port st
  console : ∃ q, y.console st = { s.console st with queue := q }
  last : y.lastServed = s.lastServed
  texts : y.active.texts = s.active.texts
  room : y.journal.oldest = s.journal.oldest ∧ y.journal.nextSeq = s.journal.nextSeq + (s.session st).items.length ∧
    y.journal.claims = s.journal.claims - (s.session st).items.length

/-- The record a close writes of a list entry; an entry that is missing counts as not provisional. -/
def closeWriter (s : State) (st : Station) (n : Number) : ListEntry → Record :=
  closeDraft st n (s.session st).overrideStaff (((s.active.borrower n).map Borrower.provisional).getD false)

theorem closeWriter_found (hb : s.active.borrower n = some b) :
    closeWriter s st n = closeDraft st n (s.session st).overrideStaff b.provisional := by
  simp only [closeWriter, hb, Option.map_some, Option.getD_some]

theorem closeSession_eq (hn : (s.session st).borrower = some n) :
    closeSession st mode s =
      let items := (s.session st).items
      let booked := bookItems (closeWriter s st n) n items s
      ((unlinkBorrower n (slipForClose st n items booked).1).setSession st { Session.empty with mode := mode },
        (slipForClose st n items booked).2) := by
  simp only [closeSession, hn]
  rfl

theorem closeSession_lost (hn : (s.session st).borrower = some n) : (closeSession st mode s).2 = slipLost s st := by
  rw [closeSession_eq hn, (slipForClose_came st n _ _).2, bookItems_eq _ _ fun e => rfl]
  rfl

theorem closeSession_closed (hn : (s.session st).borrower = some n) :
    Closed s st n mode (closeSession st mode s).1 := by
  have hbooked : ∀ b, s.active.borrower n = some b →
      unlinkBorrower n (bookItems (closeWriter s st n) n (s.session st).items s) = bookedState s st n b := by
    intro b hb
    rw [closeWriter_found hb, unlink_bookItems hb]
  have hslip := fun first l => dueSlip_bookItems (n := n) (st := st) (closeWriter s st n) (s.session st).items
    (fun e => rfl) s first l
  have heq := bookItems_eq (n := n) (closeWriter s st n) (s.session st).items (fun e => rfl) s
  obtain ⟨came, -⟩ := slipForClose_came st n (s.session st).items
    (bookItems (closeWriter s st n) n (s.session st).items s)
  rw [closeSession_eq hn]
  simp only
  generalize bookItems (closeWriter s st n) n (s.session st).items s = z at hbooked hslip heq came ⊢
  generalize (slipForClose st n (s.session st).items z).1 = x at came ⊢
  have hunlink : unlinkBorrower n x =
      { s with
        journal := z.journal, active := (unlinkBorrower n z).active, cache := z.cache
        consoles := x.consoles, uplink := x.uplink, supervisor := x.supervisor } := by
    rw [came.rest, heq]
    rfl
  have hconsole : ∀ o, z.console o = s.console o := fun o => by rw [heq]; rfl
  have hlines : linesKept s x := linesKept_trans (linesKept_of_eq (by rw [heq]) (by rw [heq])) came.lines
  have hqueue : queueAfter z st n (z.console st) (s.session st).items =
      queueAfter s st n (s.console st) (s.session st).items := by
    rw [hconsole]
    cases (s.session st).items with
    | nil => rfl
    | cons first rest => simp only [queueAfter, hslip]
  have hcame : x.console st = { s.console st with queue := queueAfter s st n (s.console st) (s.session st).items } := by
    rw [came.console, hqueue, hconsole]
  have htexts : (unlinkBorrower n z).active.texts = s.active.texts := by rw [heq]; rfl
  have hroom : z.journal.oldest = s.journal.oldest ∧
      z.journal.nextSeq = s.journal.nextSeq + (s.session st).items.length ∧
      z.journal.claims = s.journal.claims - (s.session st).items.length := by
    rw [heq]
    simp [appendedAll]
  rw [hunlink]
  refine ⟨fun b hb => ?_, ⟨?_, ?_, ?_, fun lost l => ?_⟩, session_setSession _ _ _, ⟨fun o ho => ⟨rfl, ?_, ?_⟩, ?_⟩,
    ?_, rfl, ⟨_, hcame⟩, rfl, htexts, hroom⟩
  · have books := booked_bookedState s st n b
    rw [← hbooked b hb] at books
    exact books
  · have kept := congrArg Console.headSent hcame
    exact kept
  · have kept := congrArg Console.copy hcame
    exact kept
  · have queue := congrArg Console.queue hcame
    refine Eq.trans queue ?_
    cases (s.session st).items <;> rfl
  · have := came.printer (by simpa [slipLost, hconsole] using lost) l
    cases l <;> exact this
  · exact (came.other o ho).trans (hconsole o)
  · exact session_setSession_of_ne _ st o ho
  · exact (DeskFrame.refl st s).2
  · exact hlines

/-- A slip's queue, its loss told on the lines, is seen again once the displays have changed and the event has ended. -/
theorem slipQueued_of (h : slipQueued s st n x) (hs : slipsKept x st y) (hl : ∀ l : Line, y.line l = x.line l) :
    slipQueued s st n (settle z y) := by
  obtain ⟨hh, hcopy, hq, hp⟩ := h
  obtain ⟨kq, kh, kc⟩ := hs
  refine ⟨kh.trans hh, kc.trans hcopy, kq.trans hq, fun lost l => has_settle (by decide) ?_⟩
  rw [hl]
  exact hp lost l

/-- What the displays and the end of the event leave of a close. -/
theorem Closed.finished (h : Closed s st n mode x) (hr : Redrawn st x y) :
    (∀ b, s.active.borrower n = some b → booked s st n b (settle z y)) ∧ slipQueued s st n (settle z y) ∧
      (settle z y).session st = { Session.empty with mode := mode } ∧ DeskFrame st s (settle z y) := by
  refine ⟨fun b hb => ?_, slipQueued_of h.slip (hr.1.slips st) hr.1.line, (hr.1.session st).trans h.session,
    (h.frame.trans hr.frame).settle⟩
  obtain ⟨hj, ha, hc⟩ := h.books b hb
  exact ⟨hr.1.journal.trans hj, hr.1.active.trans ha, hr.1.cache.trans hc⟩

/-- A close whose claims stand for its list leaves as many free slots. -/
theorem Closed.free (h : Closed s st n mode y) (hs : (s.session st).items.length ≤ s.journal.claims) :
    s.journal.free ≤ y.journal.free := by
  obtain ⟨ho, hn, hc⟩ := h.room
  simp only [Journal.free, Journal.unreleased, ho, hn, hc]
  omega

/-! ### A close after the input has been taken -/

theorem closeRecord_served (n : Number) (b : Borrower) :
    closeRecord (served st (current s st) s) st n b = closeRecord s st n b := by
  funext i e
  simp only [closeRecord, session_served, current_overrideStaff, journal_served, clock_served, uplink_served,
    generation_served]
  rfl

theorem booked_served (h : booked (served st (current s st) s) st n b t) : booked s st n b t := by
  simpa only [booked, session_served, current_items, closeRecord_served, journal_served, active_served, clock_served,
    cache_served] using h

theorem slipLost_served : slipLost (served st (current s st) s) st = slipLost s st := by
  simp only [slipLost, session_served, current_items, console_served]

theorem slipQueued_served (h : slipQueued (served st (current s st) s) st n t) : slipQueued s st n t := by
  have hslip : ∀ first l, dueSlip (served st (current s st) s) st n first l = dueSlip s st n first l := fun _ _ => rfl
  simpa only [slipQueued, session_served, current_items, console_served, slipLost_served, hslip] using h

end Sys2Proof.Desk
end

