-- ==== Sys2Proof/Proofs/DeskDayEnds.lean ====
section
/-! SUPPORT. The entry into CLOSED at the end of the last session (R168), and what it leaves of a station. -/

namespace Sys2Proof.Desk

open Sys2Proof.Machine

variable {s t x y z : State} {st o : Station} {n : Number} {mode : Mode}

/-! ### When it comes -/

/-- Another open session, or a desk-day that is not CLOSING, keeps the desk-day as it is. -/
theorem closeIfDone_stays (h : staysOpen s st) (hd : y.day = s.day) (hs : ∀ o, o ≠ st → y.session o = s.session o) :
    closeIfDone y = y := by
  unfold closeIfDone
  rw [if_neg]
  rintro ⟨hclosing, hnone⟩
  obtain h | ⟨o, ho, hopen⟩ := h
  · exact h (hd ▸ hclosing)
  · exact hopen ((hs o ho) ▸ Links.anySession_false.mp hnone o)

theorem closeIfDone_done (h : ¬staysOpen s st) (hd : y.day = s.day) (hs : ∀ o, o ≠ st → y.session o = s.session o)
    (here : (y.session st).borrower = none) : closeIfDone y = closeDeskDay y := by
  obtain ⟨hclosing, hnone⟩ := not_or.mp h
  refine if_pos ⟨by rw [hd]; exact not_not.mp hclosing, Links.anySession_false.mpr fun o => ?_⟩
  by_cases ho : o = st
  · rw [ho, here]
  · rw [hs o ho]
    by_contra hopen
    exact hnone ⟨o, ho, hopen⟩

/-! ### What it leaves -/

/-- What the entry into CLOSED leaves: the ended day, and the rest of the desk. -/
structure DayEnded (s y : State) : Prop where
  day : y.day = { s.day with state := .closed, fresh := false, grace := none, graceExpired := false }
  notice : y.notice = none
  held : y.clock.held = none
  record : s.clock.held = none → 1 ≤ s.journal.free →
    y.journal.overflow = false ∧ y.journal.records.getLast?.map Record.kind = some .dayClose
  session : ∀ o, (s.session o).armedUntil = none → y.session o = s.session o
  slips : ∀ o, slipsKept s o y
  present : ∀ o, (y.port o).present = (s.port o).present ∧ (y.port o).bridged = (s.port o).bridged
  uplink : y.uplink = s.uplink
  supervisor : y.supervisor = s.supervisor
  cache : y.cache = s.cache
  last : y.lastServed = s.lastServed

theorem session_disarmAll (s : State) (h : (s.session o).armedUntil = none) :
    (disarmAll s).session o = s.session o := by
  simp [disarmAll, State.session, Session.disarm] at h ⊢
  simp [h]

/-- A held time applied, or none: the clock, the armed overrides and the journal apart, the state is as it was. -/
theorem applyHeld_spec (s : State) :
    ∃ c r j b, applyHeld s =
        { s with clock := c, sessions := r, journal := j, active := { s.active with borrowers := b } } ∧
      c.held = none ∧ (s.clock.held = none → j = s.journal) ∧
      ∀ o, (s.session o).armedUntil = none → (applyHeld s).session o = s.session o := by
  unfold applyHeld
  split
  · next h => exact ⟨s.clock, s.sessions, s.journal, s.active.borrowers, rfl, h, fun _ => rfl, fun _ _ => rfl⟩
  · next t h =>
    unfold recordedStep
    obtain ⟨j, b, hx⟩ := appendSystem_tables (clockStepDraft (dropHeld s).clock.now) (stepClock t (dropHeld s))
    rw [hx]
    exact ⟨{ s.clock with now := t, held := none }, _, j, b, rfl, rfl, fun hn => by simp [hn] at h,
      fun o ho => session_disarmAll s ho⟩

/-- The desk-day marked CLOSED, its record appended. -/
def dayClosing (s : State) : State :=
  { appendSystem (draft .dayClose) s with
    day := { s.day with state := .closed, fresh := false, grace := none, graceExpired := false }, notice := none }

theorem dayClosing_spec (s : State) :
    ∃ j b, dayClosing s =
        { s with
          journal := j, active := { s.active with borrowers := b }
          day := { s.day with state := .closed, fresh := false, grace := none, graceExpired := false }
          notice := none } ∧
      (1 ≤ s.journal.free → j.overflow = false ∧ j.records.getLast?.map Record.kind = some .dayClose) := by
  obtain ⟨j, b, h⟩ := appendSystem_tables (draft .dayClose) s
  refine ⟨j, b, by rw [dayClosing, h], fun room => ?_⟩
  rw [appendSystem_room s room] at h
  have hj : j = (append (draft .dayClose) s).journal := by rw [h]
  rw [hj, append_journal]
  refine ⟨rfl, ?_⟩
  rw [List.getLast?_append]
  rfl

theorem enterClosed_eq (s : State) : enterClosed s = showStandingAll (applyHeld (dayClosing s)) := by
  obtain ⟨j, b, h⟩ := appendSystem_tables (draft .dayClose) s
  unfold enterClosed dayClosing
  rw [h]

theorem dayEnded_enterClosed (s : State) : DayEnded s (enterClosed s) := by
  rw [enterClosed_eq]
  have repainted := repainted_showStandingAll (applyHeld (dayClosing s))
  generalize showStandingAll (applyHeld (dayClosing s)) = y at repainted ⊢
  obtain ⟨j, b, hclosing, hrecord⟩ := dayClosing_spec s
  obtain ⟨c, r, j', b', happlied, hheld, hjournal, hsession⟩ := applyHeld_spec (dayClosing s)
  generalize applyHeld (dayClosing s) = x at repainted happlied hsession
  rw [hclosing] at happlied hjournal hsession
  exact {
    day := repainted.day.trans (by rw [happlied])
    notice := repainted.notice.trans (by rw [happlied])
    held := by rw [repainted.clock, happlied]; exact hheld
    record := fun hn room => by
      have hj : y.journal = j := repainted.journal.trans ((by rw [happlied] : x.journal = j').trans (hjournal hn))
      rw [hj]
      exact hrecord room
    session := fun o ho => (repainted.session o).trans (hsession o ho)
    slips := fun o => by
      obtain ⟨hq, hh, hc⟩ := repainted.slips o
      rw [happlied] at hq hh hc
      exact ⟨hq, hh, hc⟩
    present := fun o => by
      obtain ⟨d, hd⟩ := repainted.port o
      rw [hd, happlied]
      exact ⟨rfl, rfl⟩
    uplink := repainted.uplink.trans (by rw [happlied])
    supervisor := repainted.supervisor.trans (by rw [happlied])
    cache := repainted.cache.trans (by rw [happlied])
    last := repainted.lastServed.trans (by rw [happlied]) }

theorem DayEnded.line (h : DayEnded s y) (l : Line) : y.line l = s.line l := by
  cases l
  · exact h.uplink
  · exact h.supervisor

theorem dayEnded_closeDeskDay (s : State) : DayEnded s (closeDeskDay s) := by
  have ended := dayEnded_enterClosed s
  unfold closeDeskDay
  rw [autoOpenTest_frame]
  generalize enterClosed s = y at ended ⊢
  exact ⟨ended.day, ended.notice, ended.held, ended.record, ended.session, ended.slips, ended.present, ended.uplink,
    ended.supervisor, ended.cache, ended.last⟩

/-- The desk-day has entered CLOSED, seen from a state with the same day and clock and no more free slots. -/
theorem DayEnded.deskClosed (h : DayEnded x y) (hd : x.day = s.day) (hc : x.clock = s.clock)
    (hf : s.journal.free ≤ x.journal.free) : deskClosed s (settle z y) := by
  refine ⟨h.day.trans (by rw [hd]), h.notice, h.held, fun hn room => ?_⟩
  exact h.record (by rw [hc]; exact hn) (room.trans hf)

theorem claims_of_sound (h : JournalSound s) (st : Station) : (s.session st).items.length ≤ s.journal.claims := by
  obtain ⟨-, -, -, -, -, hclaims, -⟩ := h
  rw [hclaims]
  exact List.le_sum_of_mem (List.mem_map.mpr ⟨st, List.mem_finRange st, rfl⟩)

end Sys2Proof.Desk
end

