-- ==== Sys2Proof/Proofs/SessionKeys.lean ====
section
/-! SUPPORT. The standing texts, and what a close leaves once the station shows them and the desk-day may have ended
(R18, R20, R125, R168). -/

namespace Sys2Proof.Desk

open Sys2Proof.Machine

variable {s t x y z c : State} {st o : Station} {n : Number} {b : Borrower} {mode : Mode}

/-! ### Standing texts -/

theorem stationState_idle (ha : y.attended st) (hb : (y.session st).borrower = none)
    (hm : (y.session st).mode = .normal) : y.stationState st = .idle := by
  obtain ⟨hp, hbr⟩ := ha
  simp [State.stationState, hp, hbr, hb, hm]

theorem stationState_returns (ha : y.attended st) (hb : (y.session st).borrower = none)
    (hm : (y.session st).mode = .returns) : y.stationState st = .returns := by
  obtain ⟨hp, hbr⟩ := ha
  simp [State.stationState, hp, hbr, hb, hm]

/-- What the standing text of a station at the desk depends on. -/
structure StandsAs (s : State) (st : Station) (y : State) : Prop where
  attended : y.attended st
  paper : (y.port st).paperOut = (s.port st).paperOut
  wiped : (y.console st).wiped = false
  day : y.day = s.day
  texts : y.active.texts = s.active.texts
  free : (y.session st).borrower = none

theorem showStanding_idle (h : StandsAs s st y) (hm : (y.session st).mode = .normal) :
    showStanding st y = showLines st (idleText s st).line1 (idleText s st).line2 y := by
  have text : y.standingText st =
      some (if (s.port st).paperOut then 27 else if s.day.state = .closed then 24 else 23) := by
    simp only [State.standingText, stationState_idle h.attended h.free hm, h.wiped, h.paper, h.day]
    split
    · contradiction
    · split
      · rfl
      · split <;> rfl
  simp only [showStanding, text, showText, shownText_congr h.texts, idleText]

theorem showStanding_returns (h : StandsAs s st y) (hm : (y.session st).mode = .returns) :
    showStanding st y = showLines st (returnsText s st).line1 (returnsText s st).line2 y := by
  have text : y.standingText st = some (if (s.port st).paperOut then 27 else 25) := by
    simp only [State.standingText, stationState_returns h.attended h.free hm, h.wiped, h.paper]
    split
    · contradiction
    · split <;> rfl
  simp only [showStanding, text, showText, shownText_congr h.texts, returnsText]

/-! ### Frames -/

theorem DeskFrame.day (h : DeskFrame st s y) : y.day = s.day := by
  obtain ⟨-, -, -, -, -, -, -, -, hd, -⟩ := h
  exact hd

theorem DeskFrame.clock (h : DeskFrame st s y) : y.clock = s.clock := by
  obtain ⟨-, -, -, -, hc, -⟩ := h
  exact hc

theorem DeskFrame.session (h : DeskFrame st s y) (ho : o ≠ st) : y.session o = s.session o := (h.1 o ho).2.2

/-- Where another session stays, nothing follows at the event's end. -/
theorem DeskFrame.stays (h : DeskFrame st s y) (hs : staysOpen s st) : closeIfDone y = y :=
  closeIfDone_stays hs h.day fun _ ho => h.session ho

/-- Where the last session ends, the desk-day does (R168). -/
theorem DeskFrame.ends (h : DeskFrame st s y) (hs : ¬staysOpen s st) (here : (y.session st).borrower = none)
    (free : s.journal.free ≤ y.journal.free) :
    DayEnded y (closeIfDone y) ∧ deskClosed s (Machine.settle z (closeIfDone y)) := by
  rw [closeIfDone_done hs h.day (fun _ ho => h.session ho) here]
  have ended := dayEnded_closeDeskDay y
  exact ⟨ended, ended.deskClosed h.day h.clock free⟩

/-! ### A close and its displays -/

/-- The last session's close: the day has ended, the slip stands in its queue. -/
theorem Closed.ends (h : Closed x st n mode c) (hr : Redrawn st c y) (hx : DeskFrame st s x)
    (hs : ¬staysOpen s st) (hclaims : (x.session st).items.length ≤ x.journal.claims)
    (hjournal : x.journal = s.journal) :
    deskClosed s (settle z (closeIfDone y)) ∧ slipQueued x st n (settle z (closeIfDone y)) ∧
      (settle z (closeIfDone y)).session st = { Session.empty with mode := mode } := by
  have session : y.session st = { Session.empty with mode := mode } := (hr.1.session st).trans h.session
  have free : s.journal.free ≤ y.journal.free := by
    rw [← hjournal, hr.1.journal]
    exact h.free hclaims
  obtain ⟨ended, closed⟩ := ((hx.trans h.frame).trans hr.frame).ends (z := z) hs (by rw [session]; rfl) free
  refine ⟨closed, ?_, (ended.session st (by rw [session]; rfl)).trans session⟩
  refine slipQueued_of h.slip ?_ fun l => (ended.line l).trans (hr.1.line l)
  obtain ⟨kq, kh, kc⟩ := ended.slips st
  obtain ⟨kq', kh', kc'⟩ := hr.1.slips st
  exact ⟨kq.trans kq', kh.trans kh', kc.trans kc'⟩

theorem Closed.wiped (h : Closed x st n mode c) : (c.console st).wiped = (x.console st).wiped := by
  obtain ⟨q, hq⟩ := h.console
  rw [hq]

theorem Closed.standsAs (h : Closed x st n mode c) (ha : x.attended st) (hw : (x.console st).wiped = false) :
    StandsAs x st c where
  attended := by simpa only [State.attended, h.port] using ha
  paper := by rw [h.port]
  wiped := h.wiped.trans hw
  day := h.frame.day
  texts := h.texts
  free := by rw [h.session]; rfl

/-- The display of a close: some lines, the first of them giving way to SLIP LOST. -/
theorem Closed.displayed {slots : List Input} (h : Closed x st n mode c) (ha : s.attended st)
    (hp : x.port st = { s.port st with slots := slots }) (hl : linesKept s x) (ht : x.active.texts = s.active.texts)
    (hlost : slipLost x st = slipLost s st) (a b : Text) :
    displayed s st (lostOr s st a) b none slots (showIfLost st (slipLost x st) (showLines st a b c)) := by
  have shown := displayed_showIfLost ha
    (displayed_showLines ha (h.port.trans hp) (linesKept_trans hl h.lines) a b) (slipLost x st)
  have text : (showLines st a b c).shownText 28 = s.shownText 28 := by
    refine shownText_congr ?_ 28
    rw [(redrawn_showLines st a b c).1.active, h.texts, ht]
  rw [text, hlost] at shown
  rw [hlost]
  exact shown

/-- A close that follows the taking of an input. -/
abbrev ClosedHere (s : State) (st : Station) (n : Number) (mode : Mode) (c : State) : Prop :=
  Closed (served st (current s st) s) st n mode c

theorem closeSession_here (hn : (s.session st).borrower = some n) :
    ClosedHere s st n mode (closeSession st mode (served st (current s st) s)).1 ∧
      (closeSession st mode (served st (current s st) s)).2 = slipLost (served st (current s st) s) st :=
  ⟨closeSession_closed (by simpa using hn), closeSession_lost (by simpa using hn)⟩

theorem ClosedHere.standsAs (h : ClosedHere s st n mode c) (ha : s.attended st) : StandsAs s st c := by
  obtain ⟨attended, paper, wiped, day, texts, free⟩ := Closed.standsAs h (attended_served _ ha) (by simp)
  exact ⟨attended, paper.trans (by simp), wiped, day, texts, free⟩

theorem ClosedHere.displayed (h : ClosedHere s st n mode c) (ha : s.attended st) (a b : Text) :
    Machine.displayed s st (lostOr s st a) b none (s.port st).slots.tail
      (showIfLost st (slipLost (served st (current s st) s) st) (showLines st a b c)) :=
  Closed.displayed h ha (port_served _) (linesKept_served _) rfl slipLost_served a b

theorem ClosedHere.shown {a b : Text} {g : Option Signal} (h : ClosedHere s st n mode c) (hr : Redrawn st c y)
    (hd : Machine.displayed s st a b g (s.port st).slots.tail y) : Machine.shown s st a b g (settle z y) := by
  refine ⟨displayed_settle hd, ?_, hr.1.lastServed.trans h.last⟩
  refine (hr.1.wiped st).trans (h.wiped.trans ?_)
  simp

/-- A close here with its displays, another session staying open. -/
theorem ClosedHere.finished (h : ClosedHere s st n mode c) (hr : Redrawn st c y) (hb : s.active.borrower n = some b) :
    booked s st n b (settle z y) ∧ slipQueued s st n (settle z y) ∧
      (settle z y).session st = { Session.empty with mode := mode } ∧ othersKept st s (settle z y) ∧
      deskOnly s (settle z y) := by
  obtain ⟨books, slip, session, frame⟩ := Closed.finished (z := z) h hr
  have whole := (frame_served (st := st) (s := s) (current s st)).trans frame
  exact ⟨booked_served (books b hb), slipQueued_served slip, session, whole.1, whole.2⟩

theorem ClosedHere.stays (h : ClosedHere s st n mode c) (hr : Redrawn st c y) (hs : staysOpen s st) :
    closeIfDone y = y :=
  (((frame_served _).trans h.frame).trans hr.frame).stays hs

theorem ClosedHere.ends (h : ClosedHere s st n mode c) (hr : Redrawn st c y) (hs : ¬staysOpen s st)
    (hj : JournalSound s) :
    deskClosed s (settle z (closeIfDone y)) ∧ slipQueued s st n (settle z (closeIfDone y)) ∧
      (settle z (closeIfDone y)).session st = { Session.empty with mode := mode } := by
  obtain ⟨closed, slip, session⟩ := Closed.ends (z := z) h hr (frame_served _) hs
    (by simpa using claims_of_sound hj st) rfl
  exact ⟨closed, slipQueued_served slip, session⟩

theorem lostOr_nil (h : (s.session st).items = []) (a : Text) : lostOr s st a = a := by simp [lostOr, slipLost, h]

/-- What END shows: the standing text, or the count of the slip's items (R20). -/
def endText (s : State) (st : Station) : StationText :=
  if (s.session st).items = [] then idleText s st
  else
    { line1 := (s.shownText 31).line1, line2 := spaced (decimal (s.session st).items.length) (s.shownText 31).line2 }

theorem endKey_closes (htakes : s.takesNext st (.key .endKey)) (ha : s.attended st)
    (hn : (s.session st).borrower = some n) :
    ∃ c, ClosedHere s st n .normal c ∧
      exec .endKey s = .next (settle s (closeIfDone (sound st .accept
        (showIfLost st (slipLost (served st (current s st) s) st)
          (showLines st (endText s st).line1 (endText s st).line2 c))))) := by
  obtain ⟨closed, lost⟩ := closeSession_here (mode := .normal) hn
  refine ⟨_, closed, (show execEndKey s = _ from (key_taken htakes ha).trans ?_)⟩
  have hopen : (s.session st).borrower.isSome = true := by simp [hn]
  have text : (closeSession st .normal (served st (current s st) s)).1.shownText 31 = s.shownText 31 :=
    shownText_congr closed.texts 31
  have standing := showStanding_idle (closed.standsAs ha) (by rw [closed.session])
  simp only [session_served, current_borrower, current_items, hopen, if_true, lost, text]
  congr 5
  by_cases hi : (s.session st).items = []
  · rw [if_pos (by simp [hi]), standing, endText, if_pos hi]
  · rw [if_neg (by simp [hi]), endText, if_neg hi]

end Sys2Proof.Desk

open Sys2Proof Sys2Proof.Machine Sys2Proof.Desk

/-- Settles O25: END closes an open session, with the desk-day when it was the last, and does nothing elsewhere. -/
theorem endClosesTheSession : Obligations.EndClosesTheSession := by
  unfold Obligations.EndClosesTheSession
  intro s st htakes ha
  refine ⟨fun n b hn hb => ?_, fun hn hw => ?_⟩
  · obtain ⟨c, closed, taken⟩ := endKey_closes htakes ha hn
    have display := displayed_sound ha (closed.displayed ha (endText s st).line1 (endText s st).line2) .accept
    have drawn := ((redrawn_showLines st (endText s st).line1 (endText s st).line2 c).trans
      (redrawn_showIfLost st (slipLost (served st (current s st) s) st) _)).trans (redrawn_sound st .accept _)
    refine ⟨fun hs => ?_, fun hj hs => ?_⟩
    · rw [closed.stays drawn hs] at taken
      obtain ⟨books, slip, session, others, desk⟩ := closed.finished (z := s) drawn hb
      have shown := closed.shown (z := s) drawn display
      refine ⟨_, taken, books, slip, session, ?_, others, desk⟩
      by_cases hi : (s.session st).items = []
      · rw [if_pos hi]
        simpa only [endText, if_pos hi, lostOr_nil hi] using shown
      · rw [if_neg hi]
        simpa only [endText, if_neg hi] using shown
    · obtain ⟨ended, slip, session⟩ := closed.ends (z := s) drawn hs hj
      exact ⟨_, taken, ended, session, slip⟩
  · have taken : exec .endKey s = .next (settle s (served st (s.session st) s)) := by
      refine (show execEndKey s = _ from (key_taken htakes ha).trans ?_)
      simp [hn, hw, showUnwiped, current_idle hn]
    have decided := decided_of_redrawn (z := s) (Redrawn.refl st (served st (s.session st) s))
    exact ⟨_, taken, signalled_none _, decided.slips, decided.session, decided.unrecorded, decided.cache,
      decided.frame.1, decided.frame.2⟩
end

