-- ==== Sys2Proof/Proofs/OtherKeys.lean ====
section
/-! SUPPORT. The keys besides END: RETURN and CHECKOUT (R20, R24), REPRINT (R121), CANCEL (R21). -/

namespace Sys2Proof.Desk

open Sys2Proof.Machine

variable {s t x y z c : State} {st o : Station} {n : Number} {b : Borrower} {mode : Mode} {r : Session}

/-! ### Decisions that leave the tables and the journal alone -/

/-- What such a decision leaves, its session record being given. -/
theorem Decided.rest (h : Decided s st r t) :
    slipsKept s st t ∧ Machine.unrecorded s t ∧ t.cache = s.cache ∧ othersKept st s t ∧ deskOnly s t :=
  ⟨h.slips, h.unrecorded, h.cache, h.frame.1, h.frame.2⟩

/-- The taking of an input alone. -/
theorem decided_served : Decided s st r (settle z (served st r s)) :=
  decided_of_redrawn (Redrawn.refl st (served st r s))

theorem standsAs_served (ha : s.attended st) (hr : r.borrower = none) : StandsAs s st (served st r s) where
  attended := attended_served r ha
  paper := by rw [port_served]
  wiped := by rw [console_served]
  day := rfl
  texts := rfl
  free := by rw [session_served, hr]

/-- A decision that changes the record and shows two lines. -/
theorem shown_served (ha : s.attended st) (a b : Text) :
    shown s st a b none (settle z (showLines st a b (served st r s))) ∧
      Decided s st r (settle z (showLines st a b (served st r s))) := by
  have drawn := redrawn_showLines st a b (served st r s)
  exact ⟨shown_of_displayed (displayed_showLines ha (port_served r) (linesKept_served r) a b) drawn,
    decided_of_redrawn drawn⟩

/-- The same, with a signal. -/
theorem sounded_served (ha : s.attended st) (a b : Text) (g : Signal) :
    shown s st a b (some g) (settle z (sound st g (showLines st a b (served st r s)))) ∧
      Decided s st r (settle z (sound st g (showLines st a b (served st r s)))) := by
  have drawn := (redrawn_showLines st a b (served st r s)).trans (redrawn_sound st g _)
  exact ⟨shown_of_displayed
    (displayed_sound ha (displayed_showLines ha (port_served r) (linesKept_served r) a b) g) drawn,
    decided_of_redrawn drawn⟩

/-! ### RETURN and CHECKOUT -/

theorem returnKey_closes (htakes : s.takesNext st (.key .returnKey)) (ha : s.attended st)
    (hn : (s.session st).borrower = some n) :
    ∃ c, ClosedHere s st n .returns c ∧
      exec .returnKey s = .next (settle s (closeIfDone (sound st .accept
        (showIfLost st (slipLost (served st (current s st) s) st)
          (showLines st (returnsText s st).line1 (returnsText s st).line2 c))))) := by
  obtain ⟨closed, lost⟩ := closeSession_here (mode := .returns) hn
  refine ⟨_, closed, (show execReturnKey s = _ from (key_taken htakes ha).trans ?_)⟩
  have standing := showStanding_returns (closed.standsAs ha) (by rw [closed.session])
  simp only [session_served, current_borrower, hn, Option.isNone_some, Bool.false_and, Bool.false_eq_true, if_false,
    lost, standing]

/-- A station's record with another mode flag. -/
def withMode (s : State) (st : Station) (mode : Mode) : Session := { s.session st with mode := mode }

theorem closeSession_none (h : (s.session st).borrower = none) :
    closeSession st mode (served st (s.session st) s) = (served st (withMode s st mode) s, false) := by
  unfold closeSession
  simp only
  split
  · rw [session_served, setSession_served]
    rfl
  · next m hm => simp [h] at hm

theorem returnKey_enters (htakes : s.takesNext st (.key .returnKey)) (ha : s.attended st)
    (hn : (s.session st).borrower = none) (hm : (s.session st).mode = .normal) (hs : staysOpen s st) :
    exec .returnKey s = .next (settle s (sound st .accept (showLines st (returnsText s st).line1
      (returnsText s st).line2 (served st (withMode s st .returns) s)))) := by
  refine (show execReturnKey s = _ from (key_taken htakes ha).trans ?_)
  have standing := showStanding_returns (s := s) (st := st) (y := served st (withMode s st .returns) s)
    (standsAs_served ha hn) (by simp [withMode])
  have drawn := (redrawn_showLines st (returnsText s st).line1 (returnsText s st).line2
    (served st (withMode s st .returns) s)).trans (redrawn_sound st .accept _)
  have idle : ((s.session st).borrower.isNone && decide ((s.session st).mode = .returns)) = false := by simp [hm]
  simp only [current_idle hn, session_served, idle, Bool.false_eq_true, if_false, closeSession_none hn, standing,
    showIfLost, ((frame_served _).trans drawn.frame).stays hs]

theorem checkoutKey_leaves (htakes : s.takesNext st (.key .checkout)) (ha : s.attended st)
    (hn : (s.session st).borrower = none) (hm : (s.session st).mode = .returns) :
    exec .checkoutKey s = .next (settle s (showLines st (idleText s st).line1 (idleText s st).line2
      (served st (withMode s st .normal) s))) := by
  refine (show execCheckoutKey s = _ from (key_taken htakes ha).trans ?_)
  have standing := showStanding_idle (s := s) (st := st) (y := served st (withMode s st .normal) s)
    (standsAs_served ha hn) (by simp [withMode])
  have returns : ((s.session st).borrower.isNone && decide ((s.session st).mode = .returns)) = true := by simp [hn, hm]
  simp only [current_idle hn, session_served, returns, if_true, setSession_served]
  rw [← standing]
  rfl

/-! ### REPRINT -/

theorem reprintKey_bare (htakes : s.takesNext st (.key .reprint)) (ha : s.attended st)
    (hw : (s.console st).wiped = false) (hc : (s.console st).copy = none) :
    exec .reprintKey s = .next (settle s (sound st .refuse (served st (current s st) s))) := by
  refine (show execReprintKey s = _ from (key_taken htakes ha).trans ?_)
  simp only [hw, showUnwiped, Bool.false_eq_true, if_false, console_served, hc]

theorem reprintKey_copied {slip : Slip} (htakes : s.takesNext st (.key .reprint)) (ha : s.attended st)
    (hw : (s.console st).wiped = false) (hc : (s.console st).copy = some slip) :
    exec .reprintKey s = .next (settle s (sound st .accept
      (showIfLost st (queueSlip st slip (served st (current s st) s)).2
        (queueSlip st slip (served st (current s st) s)).1))) := by
  refine (show execReprintKey s = _ from (key_taken htakes ha).trans ?_)
  simp only [hw, showUnwiped, Bool.false_eq_true, if_false, console_served, hc]

/-- What the coming of a slip leaves besides the consoles and the lines. -/
theorem SlipCame.frame {q : List Slip} {lost : Bool} (h : SlipCame st y q lost x) : DeskFrame st y x := by
  have hrest := h.rest
  refine ⟨fun o ho => ⟨by rw [hrest]; rfl, h.other o ho, by rw [hrest]; rfl⟩, ?_⟩
  rw [hrest]
  exact (DeskFrame.refl st y).2

/-- What a reprint leaves besides the queue and the displays. -/
structure Reprinted (s : State) (st : Station) (t : State) : Prop where
  session : t.session st = current s st
  unrecorded : unrecorded s t
  cache : t.cache = s.cache
  others : othersKept st s t
  desk : deskOnly s t

theorem reprinted_of_came {q : List Slip} {lost : Bool} (h : SlipCame st (served st (current s st) s) q lost x)
    (hr : Redrawn st x y) : Reprinted s st (settle z y) := by
  have frame := (((frame_served (current s st)).trans h.frame).trans hr.frame).settle (z := z)
  have hrest := h.rest
  exact {
    session := (hr.1.session st).trans (by rw [hrest]; exact session_served _)
    unrecorded := ⟨hr.1.journal.trans (by rw [hrest]; rfl), hr.1.active.trans (by rw [hrest]; rfl)⟩
    cache := hr.1.cache.trans (by rw [hrest]; rfl)
    others := frame.1
    desk := frame.2 }

/-- A slip that comes in leaves the port as the input's taking did. -/
theorem SlipCame.port {q : List Slip} {lost : Bool} (h : SlipCame st (served st r s) q lost x) :
    x.port st = { s.port st with slots := (s.port st).slots.tail } := by
  have hrest := h.rest
  rw [hrest]
  exact port_served r

theorem SlipCame.served_lines {q : List Slip} {lost : Bool} (h : SlipCame st (served st r s) q lost x) :
    linesKept s x := linesKept_trans (linesKept_served r) h.lines

theorem SlipCame.last {q : List Slip} {lost : Bool} (h : SlipCame st (served st r s) q lost x) :
    x.lastServed = st := by
  have hrest := h.rest
  rw [hrest]
  rfl

theorem signalled_of_came {q : List Slip} {lost : Bool} (ha : s.attended st)
    (h : SlipCame st (served st r s) q lost x) (g : Signal) :
    signalled s st (some g) (settle z (sound st g x)) ∧
      ((settle z (sound st g x)).console st) = { s.console st with queue := q, wiped := false } := by
  have hlines : linesKept s (settle z (sound st g x)) :=
    linesKept_settle (linesKept_trans h.served_lines (redrawn_sound st g x).1.lines)
  have hconsole : x.console st = { s.console st with queue := q, wiped := false } := by
    rw [h.console, console_served]
  have hlast := h.last
  rw [sound_attended (attended_of_port ha h.port)] at hlines ⊢
  rw [h.port] at hlines ⊢
  refine ⟨⟨by simp, ?_, ?_, hlast, hlines⟩, hconsole⟩
  · have kept := congrArg Console.line1 hconsole
    exact kept
  · have kept := congrArg Console.line2 hconsole
    exact kept

/-- A copy that finds room joins the queue, with ACCEPT (R121). -/
theorem reprint_joins (htakes : s.takesNext st (.key .reprint)) (ha : s.attended st)
    (hw : (s.console st).wiped = false) {slip : Slip} (hc : (s.console st).copy = some slip)
    (room : (s.console st).queue.length < 2) :
    ∃ x, exec .reprintKey s = .next (settle s (sound st .accept x)) ∧
      SlipCame st (served st (current s st) s) ((s.console st).queue ++ [slip]) false x := by
  obtain ⟨came, lost⟩ := queueSlip_came st slip (served st (current s st) s)
  have taken := reprintKey_copied htakes ha hw hc
  simp only [console_served, queueWith, room, if_true, decide_eq_false (Nat.not_le.mpr room)] at came lost
  rw [lost, showIfLost, if_neg (by simp)] at taken
  exact ⟨_, taken, came⟩

theorem shownText_came {q : List Slip} {lost : Bool} (h : SlipCame st (served st r s) q lost x) (i : Fin 32) :
    x.shownText i = s.shownText i := by
  refine shownText_congr ?_ i
  have hrest := h.rest
  rw [hrest]
  rfl

/-- A copy that finds none is lost, with SLIP LOST on the display (R118, R121). -/
theorem reprint_drops (htakes : s.takesNext st (.key .reprint)) (ha : s.attended st)
    (hw : (s.console st).wiped = false) {slip : Slip} (hc : (s.console st).copy = some slip)
    (full : 2 ≤ (s.console st).queue.length) :
    ∃ x, exec .reprintKey s =
        .next (settle s (sound st .accept (showLines st (s.shownText 28).line1 (s.console st).line2 x))) ∧
      SlipCame st (served st (current s st) s) (s.console st).queue true x := by
  obtain ⟨came, lost⟩ := queueSlip_came st slip (served st (current s st) s)
  have taken := reprintKey_copied htakes ha hw hc
  simp only [console_served, queueWith, Nat.not_lt.mpr full, if_false, decide_eq_true full] at came lost
  rw [lost, showIfLost, if_pos rfl, shownText_came came, came.console, console_served] at taken
  exact ⟨_, taken, came⟩

/-- What a lost slip leaves, once its line stands and a signal has sounded. -/
theorem shown_of_lost (ha : s.attended st) (came : SlipCame st (served st r s) (s.console st).queue true x)
    (a b : Text) (g : Signal) :
    shown s st a b (some g) (settle z (sound st g (showLines st a b x))) ∧
      slipsKept s st (settle z (sound st g (showLines st a b x))) ∧
      ∀ l : Line, ((settle z (sound st g (showLines st a b x))).line l).pendingSet.has .printer = true := by
  have drawn := (redrawn_showLines st a b x).trans (redrawn_sound st g _)
  have display := displayed_sound ha (displayed_showLines ha came.port came.served_lines a b) g
  have hconsole : x.console st = { s.console st with wiped := false } := by
    rw [came.console, console_served]
  generalize sound st g (showLines st a b x) = y at drawn display ⊢
  refine ⟨⟨displayed_settle display, ?_, drawn.1.lastServed.trans came.last⟩, ?_, fun l => has_settle (by decide) ?_⟩
  · exact (drawn.1.wiped st).trans (by rw [hconsole])
  · obtain ⟨kq, kh, kc⟩ := drawn.1.slips st
    rw [hconsole] at kq kh kc
    exact ⟨kq, kh, kc⟩
  · rw [drawn.1.line]
    exact came.printer rfl l

end Sys2Proof.Desk

open Sys2Proof Sys2Proof.Machine Sys2Proof.Desk

/-- Settles O27: RETURN closes a session or enters return mode, CHECKOUT leaves it, REPRINT queues the last copy. -/
theorem keysSetTheModeAndReprint : Obligations.KeysSetTheModeAndReprint := by
  unfold Obligations.KeysSetTheModeAndReprint
  refine ⟨fun s st ha => ⟨fun htakes => ⟨fun n b hn hb hs => ?_, fun n hj hn hs => ?_, fun hn hm hs => ?_,
    fun hn hm hw => ?_⟩, fun htakes => ⟨fun hn hm => ?_, fun hm hw => ?_⟩⟩, fun s st htakes ha hw => ⟨fun hc => ?_,
    fun slip hc => ⟨fun room => ?_, fun full => ?_⟩⟩⟩
  · obtain ⟨c, closed, taken⟩ := returnKey_closes htakes ha hn
    have display := displayed_sound ha (closed.displayed ha (returnsText s st).line1 (returnsText s st).line2) .accept
    have drawn := ((redrawn_showLines st (returnsText s st).line1 (returnsText s st).line2 c).trans
      (redrawn_showIfLost st (slipLost (served st (current s st) s) st) _)).trans (redrawn_sound st .accept _)
    rw [closed.stays drawn hs] at taken
    obtain ⟨books, slip, session, others, desk⟩ := closed.finished (z := s) drawn hb
    exact ⟨_, taken, books, slip, session, closed.shown drawn display, others, desk⟩
  · obtain ⟨c, closed, taken⟩ := returnKey_closes htakes ha hn
    have drawn := ((redrawn_showLines st (returnsText s st).line1 (returnsText s st).line2 c).trans
      (redrawn_showIfLost st (slipLost (served st (current s st) s) st) _)).trans (redrawn_sound st .accept _)
    obtain ⟨ended, slip, session⟩ := closed.ends (z := s) drawn hs hj
    exact ⟨_, taken, ended, slip, session⟩
  · obtain ⟨shown, decided⟩ := sounded_served (z := s) (r := withMode s st .returns) ha (returnsText s st).line1
      (returnsText s st).line2 .accept
    exact ⟨_, returnKey_enters htakes ha hn hm hs, decided.session, shown, decided.rest⟩
  · have taken : exec .returnKey s = .next (settle s (served st (s.session st) s)) := by
      refine (show execReturnKey s = _ from (key_taken htakes ha).trans ?_)
      simp [hn, hm, hw, showUnwiped, current_idle hn]
    exact ⟨_, taken, decided_served.session, signalled_none _, decided_served.rest⟩
  · obtain ⟨shown, decided⟩ := shown_served (z := s) (r := withMode s st .normal) ha (idleText s st).line1
      (idleText s st).line2
    exact ⟨_, checkoutKey_leaves htakes ha hn hm, decided.session, shown, decided.rest⟩
  · have other : ((s.session st).borrower.isNone && decide ((s.session st).mode = .returns)) = false := by
      obtain h | h := hm
      · simp [h]
      · simp [h]
    have taken : exec .checkoutKey s = .next (settle s (served st (current s st) s)) := by
      refine (show execCheckoutKey s = _ from (key_taken htakes ha).trans ?_)
      simp only [session_served, current_borrower, current_mode, other, Bool.false_eq_true, if_false, hw, showUnwiped]
    exact ⟨_, taken, signalled_none _, decided_served.session, decided_served.rest⟩
  · have drawn := redrawn_sound st .refuse (served st (current s st) s)
    have decided := decided_of_redrawn (z := s) drawn
    obtain ⟨slips, rest⟩ := decided.rest
    exact ⟨_, reprintKey_bare htakes ha hw hc, signalled_sound ha _ _, slips, decided.session, rest⟩
  · obtain ⟨x, taken, came⟩ := reprint_joins htakes ha hw hc room
    obtain ⟨signal, console⟩ := signalled_of_came (z := s) ha came .accept
    obtain ⟨session, unrecorded, cache, others, desk⟩ :=
      reprinted_of_came (z := s) came (redrawn_sound st .accept x)
    exact ⟨_, taken, signal, ⟨session, unrecorded, cache, others, desk⟩, console.trans (by rw [← hw])⟩
  · obtain ⟨x, taken, came⟩ := reprint_drops htakes ha hw hc full
    obtain ⟨shown, slips, printer⟩ :=
      shown_of_lost (z := s) ha came (s.shownText 28).line1 (s.console st).line2 .accept
    obtain ⟨session, unrecorded, cache, others, desk⟩ := reprinted_of_came (z := s) came
      ((redrawn_showLines st (s.shownText 28).line1 (s.console st).line2 x).trans (redrawn_sound st .accept _))
    exact ⟨_, taken, shown, slips, ⟨session, unrecorded, cache, others, desk⟩, printer⟩
end

