-- ==== Sys2Proof/Proofs/SessionTimers.lean ====
section
/-! SUPPORT. CANCEL (R21), and the timers that end a session or an arm (R5, R11, R168). -/

namespace Sys2Proof.Desk

open Sys2Proof.Machine

variable {s t x y z c : State} {st o : Station} {n : Number} {b : Borrower}

/-! ### CANCEL -/

/-- The claims given back and the borrower's link taken away (R21). -/
def cancelled (s : State) (st : Station) (n : Number) : State :=
  { s with
    journal := { s.journal with claims := s.journal.claims - (s.session st).items.length }
    active :=
      { s.active with
        borrowers :=
          withoutRetired n
            (s.active.borrowers.map fun x => if x.number = n then { x with sessionStation := none } else x) } }

theorem cancelSession_served (hn : (s.session st).borrower = some n) :
    cancelSession st (served st (current s st) s) = served st Session.empty (cancelled s st n) := by
  have unlinked : unlinkBorrower n (releaseClaims (s.session st).items.length (served st (current s st) s)) =
      served st (current s st) (cancelled s st n) := by
    unfold unlinkBorrower
    rw [unlinked_borrowers]
    rfl
  unfold cancelSession
  simp only [session_served, current_borrower, hn, current_items]
  rw [unlinked, setSession_served]

theorem cancelKey_drops (htakes : s.takesNext st (.key .cancel)) (ha : s.attended st)
    (hn : (s.session st).borrower = some n) :
    exec .cancelKey s = .next (settle s (closeIfDone (showLines st (idleText s st).line1 (idleText s st).line2
      (served st Session.empty (cancelled s st n))))) := by
  have standing := showStanding_idle (s := cancelled s st n) (st := st)
    (y := served st Session.empty (cancelled s st n)) (standsAs_served ha rfl) (by rw [session_served]; rfl)
  refine (show execCancelKey s = _ from (key_taken htakes ha).trans ?_)
  have hopen : (s.session st).borrower.isSome = true := by simp [hn]
  simp only [session_served, current_borrower, hopen, if_true, cancelSession_served hn, standing]
  rfl

theorem cancelKey_idle (htakes : s.takesNext st (.key .cancel)) (ha : s.attended st)
    (hn : (s.session st).borrower = none) (hw : (s.console st).wiped = false) :
    exec .cancelKey s = .next (settle s (served st
      (if (s.session st).armedUntil = none then s.session st
        else { s.session st with armedUntil := none, overrideStaff := none }) s)) := by
  refine (show execCancelKey s = _ from (key_taken htakes ha).trans ?_)
  have disarmed : (s.session st).disarm = if (s.session st).armedUntil = none then s.session st
      else { s.session st with armedUntil := none, overrideStaff := none } := by
    unfold Session.disarm
    cases (s.session st).armedUntil <;> simp [hn]
  simp only [current_idle hn, session_served, hn, Option.isSome_none, Bool.false_eq_true, if_false, hw, showUnwiped,
    disarmed, setSession_served]

/-! ### The timers -/

theorem stationState_checkout (ha : s.attended st) (hn : (s.session st).borrower = some n) :
    s.stationState st = .checkout := by
  obtain ⟨hp, hb⟩ := ha
  simp [State.stationState, hp, hb, hn]

theorem idleTimeout_taken (hr : s.running = true) (ha : s.attended st) (hn : (s.session st).borrower = some n)
    (hi : (s.session st).idle = 0) : exec (.idleTimeout st) s = .next (settle s (closeSilently st s)) :=
  (show execIdleTimeout st s = _ from guardedEvent_taken hr (by simp [stationState_checkout ha hn, hi]))

theorem graceSessionClose_taken (hr : s.running = true) (ha : s.attended st)
    (hn : (s.session st).borrower = some n) (hg : s.day.graceExpired = true) :
    exec (.graceSessionClose st) s = .next (settle s (closeSilently st s)) :=
  (show execGraceSessionClose st s = _ from guardedEvent_taken hr (by simp [stationState_checkout ha hn, hg]))

/-- A silent close shows the standing text alone. -/
theorem closeSilently_closes (ha : s.attended st) (hn : (s.session st).borrower = some n)
    (hw : (s.console st).wiped = false) :
    ∃ c, Closed s st n .normal c ∧
      closeSilently st s = closeIfDone (showIfLost st (slipLost s st)
        (showLines st (idleText s st).line1 (idleText s st).line2 c)) := by
  have closed := closeSession_closed (mode := .normal) hn
  refine ⟨_, closed, ?_⟩
  unfold closeSilently
  simp only [closeSession_lost hn]
  rw [showStanding_idle (closed.standsAs ha hw) (by rw [closed.session])]

/-- A silent close of the last session, whatever the station shows. -/
theorem closeSilently_ends (hj : JournalSound s) (hn : (s.session st).borrower = some n) (hs : ¬staysOpen s st) :
    deskClosed s (settle s (closeSilently st s)) ∧ (settle s (closeSilently st s)).session st = Session.empty := by
  have closed := closeSession_closed (mode := .normal) hn
  have drawn := (redrawn_showStanding st (closeSession st .normal s).1).trans
    (redrawn_showIfLost st (closeSession st .normal s).2 _)
  obtain ⟨ended, -, session⟩ := closed.ends (z := s) drawn (DeskFrame.refl st s) hs (claims_of_sound hj st) rfl
  exact ⟨ended, session⟩

theorem armLapse_taken (hr : s.running = true) (ha : (s.session st).armedUntil = some s.clock.now.second)
    (hn : (s.session st).borrower = none) :
    exec (.armLapse st) s =
      .next (s.setSession st { s.session st with armedUntil := none, overrideStaff := none }) := by
  have lapsed : (s.session st).armedUntil.any (armLapsed s.clock.now.second) = true := by
    simp [ha, armLapsed]
  have disarmed : (s.session st).disarm = { s.session st with armedUntil := none, overrideStaff := none } := by
    simp [Session.disarm, ha, hn]
  refine (show execArmLapse st s = _ from guardedEvent_taken hr lapsed).trans ?_
  rw [disarmed]
  exact congrArg _ (settle_quiet rfl rfl rfl rfl rfl rfl rfl)

theorem graceOver_of (hd : s.day.state = .closing) (hg : s.day.grace = some 0) (he : s.day.graceExpired = false) :
    s.day.graceOver = true := by simp [Day.graceOver, hd, hg, he]

theorem graceExpiry_taken (hr : s.running = true) (hd : s.day.state = .closing) (hg : s.day.grace = some 0)
    (he : s.day.graceExpired = false) :
    exec .graceExpiry s = .next (settle s (closeIfDone { s with day := { s.day with graceExpired := true } })) :=
  (show execGraceExpiry s = _ from guardedEvent_taken hr (graceOver_of hd hg he))

theorem graceExpiry_closes (hr : s.running = true) (hd : s.day.state = .closing) (hg : s.day.grace = some 0)
    (he : s.day.graceExpired = false) (hn : ∀ o : Station, (s.session o).borrower = none) :
    ∃ t, exec .graceExpiry s = .next t ∧ deskClosed s t := by
  have done : closeIfDone { s with day := { s.day with graceExpired := true } } =
      closeDeskDay { s with day := { s.day with graceExpired := true } } :=
    if_pos ⟨hd, Links.anySession_false.mpr hn⟩
  have ended := dayEnded_closeDeskDay { s with day := { s.day with graceExpired := true } }
  refine ⟨_, graceExpiry_taken hr hd hg he, ?_⟩
  rw [done]
  generalize closeDeskDay { s with day := { s.day with graceExpired := true } } = y at ended
  exact ⟨ended.day, ended.notice, ended.held, ended.record⟩

theorem graceExpiry_waits (hr : s.running = true) (hd : s.day.state = .closing) (hg : s.day.grace = some 0)
    (he : s.day.graceExpired = false) (hn : ∃ o : Station, (s.session o).borrower ≠ none) :
    exec .graceExpiry s = .next { s with day := { s.day with graceExpired := true } } := by
  obtain ⟨o, ho⟩ := hn
  have waits : closeIfDone { s with day := { s.day with graceExpired := true } } =
      { s with day := { s.day with graceExpired := true } } :=
    if_neg fun ⟨_, hnone⟩ => ho (Links.anySession_false.mp hnone o)
  refine (graceExpiry_taken hr hd hg he).trans ?_
  rw [waits]
  exact congrArg _ (settle_quiet rfl rfl rfl rfl rfl rfl rfl)

end Sys2Proof.Desk

open Sys2Proof Sys2Proof.Machine Sys2Proof.Desk

/-- Settles O26: CANCEL gives the claims back and drops the session; where none is open it removes an arm. -/
theorem cancelDropsTheSession : Obligations.CancelDropsTheSession := by
  unfold Obligations.CancelDropsTheSession
  intro s st htakes ha
  refine ⟨fun n hn hs => ?_, fun n hn hs => ?_, fun hn hw => ?_⟩
  · have taken := cancelKey_drops htakes ha hn
    obtain ⟨-, decided⟩ := shown_served (s := cancelled s st n) (z := s) (r := Session.empty) ha
      (idleText s st).line1 (idleText s st).line2
    have drawn := redrawn_showLines st (idleText s st).line1 (idleText s st).line2
      (served st Session.empty (cancelled s st n))
    generalize showLines st (idleText s st).line1 (idleText s st).line2
      (served st Session.empty (cancelled s st n)) = y at taken decided drawn
    have frame : DeskFrame st s y :=
      DeskFrame.trans (frame_served (s := cancelled s st n) Session.empty) drawn.frame
    have session : y.session st = Session.empty := decided.session
    have free : s.journal.free ≤ y.journal.free := by
      rw [show y.journal = (cancelled s st n).journal from decided.unrecorded.1]
      simp only [Journal.free, Journal.unreleased, cancelled]
      omega
    obtain ⟨ended, closed⟩ := frame.ends (z := s) hs (by rw [session]; rfl) free
    exact ⟨_, taken, closed, (ended.session st (by rw [session]; rfl)).trans session, ended.cache.trans decided.cache,
      ended.last.trans decided.last⟩
  · have taken := cancelKey_drops htakes ha hn
    obtain ⟨shown, decided⟩ := shown_served (s := cancelled s st n) (z := s) (r := Session.empty) ha
      (idleText s st).line1 (idleText s st).line2
    have drawn := redrawn_showLines st (idleText s st).line1 (idleText s st).line2
      (served st Session.empty (cancelled s st n))
    generalize showLines st (idleText s st).line1 (idleText s st).line2
      (served st Session.empty (cancelled s st n)) = y at taken shown decided drawn
    have frame : DeskFrame st s y :=
      DeskFrame.trans (frame_served (s := cancelled s st n) Session.empty) drawn.frame
    rw [frame.stays hs] at taken
    exact ⟨_, taken, decided.session, decided.unrecorded.1, decided.unrecorded.2, decided.cache, shown, decided.slips,
      frame.1, frame.2⟩
  · obtain ⟨slips, rest⟩ := (decided_served (s := s) (st := st) (z := s)
      (r := if (s.session st).armedUntil = none then s.session st
        else { s.session st with armedUntil := none, overrideStaff := none })).rest
    exact ⟨_, cancelKey_idle htakes ha hn hw, signalled_none _, slips, decided_served.session, rest⟩

/-- Settles O28: idle timeout and grace close silently, an arm lapses, grace expiry ends the day or waits. -/
theorem timersRunOut : Obligations.TimersRunOut := by
  unfold Obligations.TimersRunOut
  intro s st hr
  refine ⟨fun ha hsession hw hs => ?_, fun hj ha hopen hs => ?_, armLapse_taken hr, graceExpiry_closes hr,
    graceExpiry_waits hr⟩
  · obtain ⟨n, b, hn, hb⟩ := hsession
    obtain ⟨c, closed, silent⟩ := closeSilently_closes ha hn hw
    have display := closed.displayed ha rfl ⟨rfl, rfl⟩ rfl rfl (idleText s st).line1 (idleText s st).line2
    have drawn := (redrawn_showLines st (idleText s st).line1 (idleText s st).line2 c).trans
      (redrawn_showIfLost st (slipLost s st) _)
    rw [(closed.frame.trans drawn.frame).stays hs] at silent
    generalize showIfLost st (slipLost s st) (showLines st (idleText s st).line1 (idleText s st).line2 c) = y
      at display drawn silent
    obtain ⟨books, slip, session, frame⟩ := closed.finished (z := s) drawn
    have silently : ∀ c, exec c s = .next (settle s (closeSilently st s)) → ∃ t, exec c s = .next t ∧
        (∀ n b, (s.session st).borrower = some n → s.active.borrower n = some b →
          booked s st n b t ∧ slipQueued s st n t) ∧
        t.session st = Session.empty ∧
        displayed s st (lostOr s st (idleText s st).line1) (idleText s st).line2 none (s.port st).slots t ∧
        t.lastServed = s.lastServed ∧ othersKept st s t ∧ deskOnly s t := by
      intro c taken
      rw [silent] at taken
      refine ⟨_, taken, fun n' b' hn' hb' => ?_, session, displayed_settle display,
        drawn.1.lastServed.trans closed.last, frame.1, frame.2⟩
      obtain rfl : n = n' := Option.some.inj (hn.symm.trans hn')
      exact ⟨books b' hb', slip⟩
    exact ⟨fun hi => silently _ (idleTimeout_taken hr ha hn hi),
      fun hg => silently _ (graceSessionClose_taken hr ha hn hg)⟩
  · obtain ⟨n, hn⟩ := Option.ne_none_iff_exists'.mp hopen
    obtain ⟨ended, session⟩ := closeSilently_ends hj hn hs
    exact ⟨fun hi => ⟨_, idleTimeout_taken hr ha hn hi, ended, session⟩,
      fun hg => ⟨_, graceSessionClose_taken hr ha hn hg, ended, session⟩⟩
end

