-- ==== Sys2Proof/Proofs/StationLoss.lean ====
section
/-! SUPPORT. A station whose heartbeats stop (R22, R133, R140). -/

namespace Sys2Proof.Desk

open Sys2Proof.Machine

variable {s t x y z : State} {st o : Station} {n : Number}

/-! ### An abandoned session -/

/-- The record of an abandoned session has been appended to a journal (R22, R144). -/
def recordsAbandoned (s : State) (st : Station) (n : Number) (j : Journal) : Prop :=
  ∃ r, j.records = s.journal.records ++ [r] ∧ r.seq = s.journal.nextSeq ∧ r.kind = .sessionAbandoned ∧
    r.station = some st ∧ r.borrower = some n ∧ r.reason = some (.count (s.session st).items.length) ∧
    r.staff = (s.session st).overrideStaff

theorem abandoned_fillRecord (hn : (s.session st).borrower = some n) (hr : x.journal.records = s.journal.records)
    (hq : x.journal.nextSeq = s.journal.nextSeq) :
    recordsAbandoned s st n (append (abandonDraft st (s.session st)) x).journal := by
  refine ⟨x.fillRecord (abandonDraft st (s.session st)), ?_, hq, rfl, rfl, hn, rfl, rfl⟩
  rw [append_journal, hr]

theorem abandonSession_spec (hn : (s.session st).borrower = some n) :
    ∃ j a, abandonSession st s =
        { s with journal := j, active := a, sessions := s.sessions.set st Session.empty } ∧
      ((s.session st).items ≠ [] → j.claims = s.journal.claims - (s.session st).items.length) ∧
      ((s.session st).items ≠ [] ∨ 1 ≤ s.journal.free → recordsAbandoned s st n j) := by
  have ended : ∀ j b,
      (unlinkBorrower n { s with journal := j, active := { s.active with borrowers := b } }).setSession st
        Session.empty = { s with
        journal := j
        active := (unlinkBorrower n { s with active := { s.active with borrowers := b } }).active
        sessions := s.sessions.set st Session.empty } := fun _ _ => rfl
  unfold abandonSession
  simp only [hn]
  cases hi : (s.session st).items with
  | nil =>
    obtain ⟨j, b, happend⟩ := appendSystem_tables (abandonDraft st (s.session st)) s
    simp only [happend]
    refine ⟨j, _, ended j b, fun h => absurd rfl h, fun h => ?_⟩
    have room : 1 ≤ s.journal.free := by
      obtain h | h := h
      · exact absurd rfl h
      · exact h
    rw [appendSystem_room s room] at happend
    have hj := congrArg State.journal happend
    rw [← show _ = j from hj]
    exact abandoned_fillRecord hn rfl rfl
  | cons first rest =>
    obtain ⟨j, b, happend⟩ :=
      append_tables (abandonDraft st (s.session st)) (releaseClaims 1 (releaseClaims rest.length s))
    have hj := congrArg State.journal happend
    have hj : _ = j := hj
    simp only [appendClaimed, happend]
    refine ⟨j, _, ended j b, fun _ => ?_, fun _ => ?_⟩
    · rw [← hj, append_journal]
      simp only [releaseClaims, List.length_cons]
      omega
    · rw [← hj]
      exact abandoned_fillRecord hn rfl rfl

theorem abandonSession_none (hn : (s.session st).borrower = none) : abandonSession st s = s := by
  simp only [abandonSession, hn]

/-! ### The loss -/

/-- What the entry into ABSENT leaves of a station and its session (R1, R122, R124, R133). -/
structure WentAbsent (s : State) (st : Station) (y : State) : Prop where
  port : y.port st = (s.port st).leave
  console : y.console st = (s.console st).leave
  session : y.session st = (s.session st).leaveDesk
  frame : DeskFrame st s y
  tables : y.journal = s.journal ∧ y.active = s.active ∧ y.cache = s.cache
  lost : ∀ l : Line, (y.line l).pendingSet.has .stationLost = true

@[simp] theorem port_raiseBoth (c : Cause) : (raiseBoth c s).port o = s.port o := rfl
@[simp] theorem console_raiseBoth (c : Cause) : (raiseBoth c s).console o = s.console o := rfl
@[simp] theorem session_raiseBoth (c : Cause) : (raiseBoth c s).session o = s.session o := rfl

@[simp] theorem journal_raiseBoth (c : Cause) : (raiseBoth c s).journal = s.journal := rfl
@[simp] theorem active_raiseBoth (c : Cause) : (raiseBoth c s).active = s.active := rfl
@[simp] theorem cache_raiseBoth (c : Cause) : (raiseBoth c s).cache = s.cache := rfl

theorem wentAbsent_goAbsent (s : State) (st : Station) : WentAbsent s st (goAbsent st s) where
  port := by simp [goAbsent]
  console := by simp [goAbsent]
  session := by simp [goAbsent]
  frame := (((deskFrame_setSession _).trans (deskFrame_setPort _)).trans (deskFrame_setConsole _)).trans
    (deskFrame_raiseBoth _)
  tables := by simp [goAbsent]
  lost := has_raiseBoth _

theorem leaveDesk_borrower (r : Session) : r.leaveDesk.borrower = r.borrower := by
  unfold Session.leaveDesk Session.disarm
  split <;> rfl

theorem leaveDesk_armedUntil (r : Session) : r.leaveDesk.armedUntil = none := by
  unfold Session.leaveDesk Session.disarm
  split
  · rfl
  · next h => simpa using h

/-- What an abandoned session leaves besides the journal and the ACTIVE bank; nothing when none was open. -/
structure Abandoned (s : State) (st : Station) (x : State) : Prop where
  frame : DeskFrame st s x
  port : x.port st = s.port st
  console : x.console st = s.console st
  cache : x.cache = s.cache
  free : (x.session st).borrower = none

theorem abandoned_abandonSession (s : State) (st : Station) : Abandoned s st (abandonSession st s) := by
  cases hn : (s.session st).borrower with
  | none =>
    rw [abandonSession_none hn]
    exact ⟨DeskFrame.refl st s, rfl, rfl, rfl, hn⟩
  | some n =>
    obtain ⟨j, a, h, -⟩ := abandonSession_spec hn
    rw [h]
    refine ⟨⟨fun o ho => ⟨rfl, rfl, session_setSession_of_ne s st o ho⟩, (DeskFrame.refl st s).2⟩, rfl, rfl, rfl, ?_⟩
    have ended := session_setSession s st Session.empty
    exact congrArg Session.borrower ended

/-- A station that is lost is as an absent one, and has no session. -/
structure Lost (s : State) (st : Station) (y : State) : Prop where
  port : y.port st = (s.port st).leave
  console : y.console st = (s.console st).leave
  frame : DeskFrame st s y
  cache : y.cache = s.cache
  causes : ∀ l : Line, (y.line l).pendingSet.has .stationLost = true
  session : y.session st = ((abandonSession st s).session st).leaveDesk
  free : (y.session st).borrower = none
  tables : y.journal = (abandonSession st s).journal ∧ y.active = (abandonSession st s).active

theorem lost_loseStation (s : State) (st : Station) : Lost s st (loseStation st s) := by
  obtain ⟨frame, port, console, cache, free⟩ := abandoned_abandonSession s st
  obtain ⟨port', console', session', frame', ⟨journal', active', cache'⟩, lost'⟩ :=
    wentAbsent_goAbsent (abandonSession st s) st
  exact {
    port := port'.trans (by rw [port])
    console := console'.trans (by rw [console])
    frame := frame.trans frame'
    cache := cache'.trans cache
    causes := lost'
    session := session'
    free := by
      rw [loseStation, session', leaveDesk_borrower]
      exact free
    tables := ⟨journal', active'⟩ }

theorem watchExpiry_taken (hr : s.running = true) (hw : (s.port st).watch = some 10) :
    exec (.heartbeatWatchExpiry st) s =
      .next (settle s (if (s.port st).bridged then s.setPort st { s.port st with watch := none }
        else closeIfDone (loseStation st s))) :=
  (show execHeartbeatWatchExpiry st s = _ from
    guardedEvent_taken hr (by simp [Port.watchExpired, hw, watchSeconds]))

theorem stationState_absent (hp : (y.port st).present = false) (hb : (y.port st).bridged = false) :
    y.stationState st = .absent := by
  simp [State.stationState, hp, hb]

end Sys2Proof.Desk

open Sys2Proof Sys2Proof.Machine Sys2Proof.Desk

/-- Settles O14: the watch of a bridged station stops; any other station is lost, and may end the desk-day. -/
theorem theWatchLosesTheStation : Obligations.TheWatchLosesTheStation := by
  unfold Obligations.TheWatchLosesTheStation
  intro s st hr hw
  have taken := watchExpiry_taken hr hw
  have lost := lost_loseStation s st
  refine ⟨fun hb => ?_, fun hb hs => ?_, fun hb hs => ?_⟩
  · rw [if_pos hb] at taken
    exact taken.trans (congrArg _ (settle_quiet rfl rfl rfl rfl rfl rfl rfl))
  · rw [if_neg (by simp [hb]),
      closeIfDone_done hs lost.frame.day (fun _ ho => lost.frame.session ho) lost.free] at taken
    have ended := dayEnded_closeDeskDay (loseStation st s)
    generalize closeDeskDay (loseStation st s) = y at taken ended
    obtain ⟨present, bridged⟩ := ended.present st
    rw [lost.port] at present bridged
    have unarmed : ((loseStation st s).session st).armedUntil = none := by
      rw [lost.session]
      exact leaveDesk_armedUntil _
    have session := ended.session st unarmed
    exact ⟨_, taken, stationState_absent (y := settle s y) present bridged,
      (congrArg Session.borrower session).trans lost.free, ended.notice, ended.held,
      ended.day.trans (by rw [lost.frame.day])⟩
  · rw [if_neg (by simp [hb]), lost.frame.stays hs] at taken
    generalize loseStation st s = y at taken lost
    refine ⟨_, taken, lost.port.trans ?_, lost.console, fun l => has_settle (by decide) (lost.causes l), lost.cache,
      stationState_absent (y := settle s y) (congrArg Port.present lost.port) (congrArg Port.bridged lost.port),
      lost.frame.1, lost.frame.2, fun hn => ?_, fun n hn => ?_⟩
    · simp only [Port.leave, hb]
    · obtain ⟨journal, active⟩ := lost.tables
      have session := lost.session
      rw [abandonSession_none hn] at journal active session
      refine ⟨journal, active, lost.free, ?_, ?_⟩
      · exact (congrArg Session.armedUntil session).trans (leaveDesk_armedUntil _)
      · exact congrArg Session.mode session
    · obtain ⟨j, a, habandon, hclaims, hrecord⟩ := abandonSession_spec hn
      obtain ⟨journal, -⟩ := lost.tables
      have session := lost.session
      rw [habandon] at journal session
      have empty : y.session st = Session.empty :=
        session.trans (congrArg Session.leaveDesk (session_setSession s st Session.empty))
      have hj : (settle s y).journal = j := journal
      rw [hj]
      exact ⟨empty, hclaims, hrecord⟩
end

