-- ==== Sys2Proof/Proofs/BorrowerChecks.lean ====
section
/-! SUPPORT. The borrower checks of R7 against the list of checks in order, and the opening of a session (R8, R9,
R47). -/

namespace Sys2Proof.Desk

open Sys2Proof.Machine

variable {s t x y z c : State} {st o : Station} {n m : Number} {e : Borrower} {r : Session}

/-! ### The checks -/

theorem failing_eq (fails : Bool) (r : Reason) :
    failing fails r = (([(r, fails)] : List (Reason × Bool)).filter Prod.snd).map Prod.fst := by
  cases fails <;> rfl

theorem borrowerFailures_eq (s : State) (st : Station) (e : Borrower) :
    borrowerFailures s st e = ((borrowerChecks s st e).filter Prod.snd).map Prod.fst := by
  have elsewhere : e.sessionStation.any (fun o => decide (o ≠ st)) =
      decide (e.sessionStation ≠ none ∧ e.sessionStation ≠ some st) := by
    cases e.sessionStation <;> simp
  unfold borrowerFailures
  simp only [failing_eq, elsewhere, ← List.map_append, ← List.filter_append]
  rfl

/-- The first failing check that no override covers. -/
theorem find?_failures (s : State) (st : Station) (e : Borrower) (staff : Option Number) :
    (borrowerFailures s st e).find? (fun r => !(s.covers staff r)) =
      ((borrowerChecks s st e).find? fun p => p.2 && !coveredBy s staff p.1).map Prod.fst := by
  rw [borrowerFailures_eq, List.find?_map, List.find?_filter]
  simp only [Function.comp_def, covers_eq]
  congr 2
  funext p
  cases p.2 <;> simp

theorem isEmpty_failures (s : State) (st : Station) (e : Borrower) :
    (!(borrowerFailures s st e).isEmpty) = (borrowerChecks s st e).any Prod.snd := by
  rw [borrowerFailures_eq, Bool.eq_iff_iff]
  simp

theorem admitBorrower_admits {category : Fin 16} (hb : s.active.borrower n = some e)
    (h : ∀ p ∈ borrowerChecks s st e, p.2 = true → coveredBy s (s.session st).armedStaff p.1 = true) :
    admitBorrower st n category s = openSession st n ((borrowerChecks s st e).any Prod.snd) s := by
  have none_left :
      ((borrowerChecks s st e).find? fun p => p.2 && !coveredBy s (s.session st).armedStaff p.1) = none := by
    refine List.find?_eq_none.mpr fun p hp => ?_
    cases hf : p.2 with
    | false => simp
    | true => simp [h p hp hf]
  simp only [admitBorrower, hb, find?_failures, none_left, Option.map_none, isEmpty_failures]

theorem admitBorrower_refuses {category : Fin 16} {r : Reason} (hb : s.active.borrower n = some e)
    (h : ((borrowerChecks s st e).find? fun p => p.2 && !coveredBy s (s.session st).armedStaff p.1) = some (r, true)) :
    admitBorrower st n category s = refuseBorrower st n r s := by
  simp only [admitBorrower, hb, find?_failures, h, Option.map_some]

theorem admitBorrower_full {category : Fin 16} (hb : s.active.borrower n = none) (h : s.active.makeRoom = none) :
    admitBorrower st n category s = refuseBorrower st n .tableFull s := by
  simp only [admitBorrower, hb, h]

theorem admitBorrower_new {category : Fin 16} {room : Bank} (hb : s.active.borrower n = none)
    (h : s.active.makeRoom = some room) :
    admitBorrower st n category s =
      openSession st n false { s with active := room.joinBorrower (provisionalEntry n category) } := by
  simp only [admitBorrower, hb, h]

/-! ### An opening -/

/-- The record of a session that opens (R9). -/
def opened (s : State) (n : Number) (staff : Option Number) (admitted : Bool) : Session :=
  { borrower := some n, items := [], overrideStaff := staff, armedUntil := none, admittedByOverride := admitted
    idle := s.settings.idleTimeout, mode := .normal }

/-- The entries with a borrower's link set. -/
def linkedList (n : Number) (st : Station) (l : List Borrower) : List Borrower :=
  l.map fun x => if x.number = n then { x with sessionStation := some st } else x

/-- The state with a borrower's link set. -/
def linked (s : State) (st : Station) (n : Number) : State :=
  { s with active := { s.active with borrowers := linkedList n st s.active.borrowers } }

theorem borrower_linked (hb : s.active.borrower n = some e) :
    (linked s st n).active.borrower n = some { e with sessionStation := some st } := by
  have he : e.number = n := (borrower_found hb).2
  unfold Bank.borrower linked linkedList
  rw [borrower_map (fun x => by by_cases hx : x.number = n <;> simp [hx])]
  rw [show (s.active.borrowers.find? fun x => decide (x.number = n)) = some e from hb]
  simp [he]

theorem openSession_eq (hb : s.active.borrower n = some e) (admitted : Bool) :
    openSession st n admitted s =
      sound st .accept (showLines st (maskNumber (s.active.categories[e.category]).shownDigits n)
        (decimal e.loansHeld)
        ((linked s st n).setSession st (opened s n (s.session st).armedStaff admitted))) := by
  obtain ⟨y, hy⟩ : ∃ y, y = (linked s st n).setSession st (opened s n (s.session st).armedStaff admitted) := ⟨_, rfl⟩
  have spelled : openSession st n admitted s = sound st .accept (showLines st (y.maskBorrower n)
      (decimal ((y.active.borrower n).map Borrower.loansHeld |>.getD 0)) y) := by
    rw [hy]
    rfl
  have found : y.active.borrower n = some { e with sessionStation := some st } := by
    rw [hy]
    exact borrower_linked hb
  have categories : y.active.categories = s.active.categories := by
    rw [hy]
    rfl
  rw [spelled, State.maskBorrower, found, ← hy]
  simp only [categories, Option.map_some, Option.getD_some]

theorem armedStaff_current : (current s st).armedStaff = armedAt s st := by
  obtain ⟨idle, h⟩ := current_eq s st
  rw [h, armedAt, Session.armedStaff]
  cases (s.session st).armedUntil <;> rfl

theorem openSession_served (hb : s.active.borrower n = some e) (r : Session) (admitted : Bool) :
    openSession st n admitted (served st r s) =
      sound st .accept (showLines st (maskNumber (s.active.categories[e.category]).shownDigits n)
        (decimal e.loansHeld) (served st (opened s n r.armedStaff admitted) (linked s st n))) := by
  rw [openSession_eq (s := served st r s) hb, session_served,
    show linked (served st r s) st n = served st r (linked s st n) from rfl, setSession_served]
  rfl

/-! ### A new entry -/

theorem map_insertBy {α : Type} {lt : α → α → Bool} {f : α → α} {a : α} {l : List α} (h : ∀ x ∈ l, f x = x)
    (hlt : ∀ x, lt (f a) x = lt a x) : (insertBy lt a l).map f = insertBy lt (f a) l := by
  induction l with
  | nil => rfl
  | cons x l ih =>
    obtain ⟨hx, hl⟩ := List.forall_mem_cons.mp h
    unfold insertBy
    rw [hlt]
    split
    · rw [List.map_cons, List.map_cons, hx, List.map_congr_left hl, List.map_id']
    · rw [List.map_cons, hx, ih hl]

theorem find?_insertBy {α : Type} {lt : α → α → Bool} {p : α → Bool} {a : α} {l : List α} (h : ∀ x ∈ l, p x = false)
    (ha : p a = true) : (insertBy lt a l).find? p = some a := by
  induction l with
  | nil => simp [insertBy, ha]
  | cons x l ih =>
    obtain ⟨hx, hl⟩ := List.forall_mem_cons.mp h
    unfold insertBy
    split
    · simp [ha]
    · rw [List.find?_cons, hx, ih hl]

/-- The room for a new entry holds none of its number, and the other tables as they were (R48, R57). -/
theorem makeRoom_keeps {b room : Bank} (h : b.makeRoom = some room) (hn : b.borrower n = none) :
    (∀ x ∈ room.borrowers, x.number ≠ n) ∧ room.categories = b.categories ∧ room.texts = b.texts := by
  have absent : ∀ x ∈ b.borrowers, x.number ≠ n := by simpa [Bank.borrower] using hn
  unfold Bank.makeRoom at h
  split at h
  · obtain rfl := Option.some.inj h
    exact ⟨absent, rfl, rfl⟩
  · split at h
    · cases h
    · obtain rfl := Option.some.inj h
      exact ⟨fun x hx => absent x (List.mem_filter.mp hx).1, rfl, rfl⟩

/-- The entry made for an unknown borrower, its session open (R47). -/
def newcomer (n : Number) (category : Fin 16) (st : Station) (seq : Nat) : Borrower :=
  { number := n, category := category, expiryDay := 65535, blocks := { admin := false, lostCard := false },
    finesOwed := 0, overdueItems := 0, loansHeld := 0, pending := 0, sessionStation := some st,
    provisional := true, retiring := false, createdSeq := seq }

theorem borrower_joined {room : Bank} (h : ∀ x ∈ room.borrowers, x.number ≠ n) (category : Fin 16) :
    (room.joinBorrower (provisionalEntry n category)).borrower n =
      some { provisionalEntry n category with createdSeq := room.nextCreated } :=
  find?_insertBy (fun x hx => by simp [h x hx]) (by simp [provisionalEntry])

theorem linked_joined {room : Bank} (h : ∀ x ∈ room.borrowers, x.number ≠ n) (category : Fin 16) (s : State) :
    (linked { s with active := room.joinBorrower (provisionalEntry n category) } st n).active =
      { room with
        nextCreated := room.nextCreated + 1
        borrowers := insertBy (fun x y => x.number.lt y.number) (newcomer n category st room.nextCreated)
          room.borrowers } := by
  have marked : ∀ x ∈ room.borrowers, (if x.number = n then { x with sessionStation := some st } else x) = x :=
    fun x hx => if_neg (h x hx)
  have moved := map_insertBy (lt := fun x y : Borrower => x.number.lt y.number)
    (a := { provisionalEntry n category with createdSeq := room.nextCreated }) marked
    (fun x => by simp [provisionalEntry])
  have entry : (if (provisionalEntry n category).number = n then
      { { provisionalEntry n category with createdSeq := room.nextCreated } with sessionStation := some st }
      else { provisionalEntry n category with createdSeq := room.nextCreated }) =
      newcomer n category st room.nextCreated := if_pos rfl
  unfold linked linkedList Bank.joinBorrower
  simp only
  rw [moved, entry]

end Sys2Proof.Desk
end

