-- ==== Sys2Proof/Proofs/BorrowerScans.lean ====
section
/-! SUPPORT. The borrower scan with no session and with another's (R6 to R9). -/

namespace Sys2Proof.Desk

open Sys2Proof.Machine

variable {s t x y z c : State} {st o : Station} {n m : Number} {b e : Borrower} {r : Session} {category : Fin 16}
  {w : Bool}

/-! ### The cases of the decision -/

theorem borrowerDecision_closed (h : s.day.state ≠ .opened) :
    borrowerDecision st n category w s = refuse st .deskClosed (some n) none (s.sessionStaff st) s := if_pos h

theorem borrowerDecision_own (h : s.day.state = .opened) (hn : (s.session st).borrower = some n) :
    borrowerDecision st n category w s = showUnwiped st w (sound st .duplicate s) := by
  simp [borrowerDecision, h, hn]

theorem borrowerDecision_other (h : s.day.state = .opened) (hm : (s.session st).borrower = some m) (hne : m ≠ n) :
    borrowerDecision st n category w s =
      showIfLost st (closeSession st .normal s).2 (admitBorrower st n category (closeSession st .normal s).1) := by
  simp [borrowerDecision, h, hm, hne]

theorem borrowerDecision_free (h : s.day.state = .opened) (hn : (s.session st).borrower = none) :
    borrowerDecision st n category w s = admitBorrower st n category s := by
  simp [borrowerDecision, h, hn]

/-! ### With no session open -/

/-- An event that moves neither the journal nor the clock nor the lines ends as it stands. -/
theorem settle_still (hj : y.journal = s.journal) (hc : y.clock = s.clock) (hset : y.settings = s.settings)
    (hu : y.uplink = s.uplink) (hv : y.supervisor = s.supervisor) : settle s y = y :=
  settle_quiet (by simp only [State.clockHeld, hc]) (by simp only [State.journalFull, hj])
    (by simp only [State.journalHigh, hj, hset]) (by rw [hu]) (by rw [hu]) (by rw [hv]) (by rw [hv])

/-- A session that has opened here, on an entry of the bank given (R9, R47). -/
theorem openSession_here {a : Bank} (ha : s.attended st) (he : a.borrower n = some e) (r : Session)
    (admitted : Bool) :
    let t := settle s (openSession st n admitted (served st r { s with active := a }))
    (shown s st (maskNumber (a.categories[e.category]).shownDigits n) (decimal e.loansHeld) (some .accept) t ∧
      t.stationState st = .checkout ∧ slipsKept s st t ∧ t.journal = s.journal ∧ t.cache = s.cache ∧
      t.uplink = s.uplink ∧ t.supervisor = s.supervisor ∧ othersKept st s t ∧ deskOnly s t) ∧
    t.session st = opened s n r.armedStaff admitted ∧
    t.active = (linked { s with active := a } st n).active := by
  intro t
  obtain ⟨shown, decided⟩ := sounded_served (s := linked { s with active := a } st n) (z := s)
    (r := opened s n r.armedStaff admitted) ha (maskNumber (a.categories[e.category]).shownDigits n)
    (decimal e.loansHeld) .accept
  have drawn := (redrawn_showLines st (maskNumber (a.categories[e.category]).shownDigits n) (decimal e.loansHeld)
    (served st (opened s n r.armedStaff admitted) (linked { s with active := a } st n))).trans
    (redrawn_sound st .accept _)
  have ht : t = settle s (sound st .accept (showLines st (maskNumber (a.categories[e.category]).shownDigits n)
      (decimal e.loansHeld)
      (served st (opened s n r.armedStaff admitted) (linked { s with active := a } st n)))) :=
    congrArg (settle s) (openSession_served (s := { s with active := a }) he r admitted)
  clear_value t
  generalize sound st .accept (showLines st (maskNumber (a.categories[e.category]).shownDigits n)
    (decimal e.loansHeld)
    (served st (opened s n r.armedStaff admitted) (linked { s with active := a } st n))) = y at ht drawn shown decided
  have still : settle s y = y := settle_still drawn.1.journal drawn.1.clock drawn.1.settings drawn.1.uplink
    drawn.1.supervisor
  have state := (drawn.1.stationState st).trans
    (stationState_open (s := linked { s with active := a } st n) (r := opened s n r.armedStaff admitted) ha
      (by simp [opened]))
  subst ht
  refine ⟨⟨shown, state, decided.slips, decided.unrecorded.1, decided.cache, ?_, ?_, decided.frame.1,
    decided.frame.2⟩, decided.session, decided.unrecorded.2⟩
  · rw [still]
    exact drawn.1.uplink
  · rw [still]
    exact drawn.1.supervisor

theorem refuseBorrower_served (ha : s.attended st) (reason : Reason) :
    let t := settle s (refuseBorrower st n reason (served st (s.session st) s))
    refusedAt s st reason (some n) none (armedAt s st) t ∧ t.session st = (s.session st).leaveDesk ∧
      DeskFrame st s t := by
  have armed : (s.session st).armedStaff = armedAt s st := by
    unfold Session.armedStaff armedAt
    cases (s.session st).armedUntil <;> rfl
  unfold refuseBorrower
  simp only [session_served, setSession_served, armed]
  exact refuse_served ha (s.session st).leaveDesk reason (some n) none (armedAt s st)

theorem leaveDesk_free (hn : (s.session st).borrower = none) :
    (s.session st).leaveDesk =
      { s.session st with
        mode := .normal, armedUntil := none
        overrideStaff := if (s.session st).armedUntil = none then (s.session st).overrideStaff else none } := by
  unfold Session.leaveDesk Session.disarm
  cases h : (s.session st).armedUntil with
  | none => simp [h]
  | some u => simp [hn]

/-! ### Two displays and a signal -/

theorem countP_joinDisplay (a b : Text) (down : List DownFrame) :
    (joinDisplay (.display a b) down).countP DownFrame.isSignal = down.countP DownFrame.isSignal := by
  unfold joinDisplay
  split
  · rw [List.countP_map]
    refine List.countP_congr fun f _ => ?_
    cases f <;> simp [DownFrame.isDisplay, DownFrame.isSignal]
  · simp [DownFrame.isSignal]

theorem mem_joinDisplay {g : Signal} {down : List DownFrame} (a b : Text) (h : .signal g ∈ down) :
    .signal g ∈ joinDisplay (.display a b) down := by
  unfold joinDisplay
  split
  · exact List.mem_map.mpr ⟨.signal g, h, rfl⟩
  · exact List.mem_append_left _ h

theorem mem_joinSignal {g : Signal} {down : List DownFrame} (h : down.countP DownFrame.isSignal < 3) :
    .signal g ∈ joinSignal g down := by
  unfold joinSignal
  rw [if_pos h]
  simp

/-- Lines shown, a signal, and SLIP LOST in the place of the first line when a slip was dropped. -/
structure Answered (s : State) (st : Station) (a b : Text) (g : Signal) (y : State) : Prop where
  line1 : (y.console st).line1 = fit20 a
  line2 : (y.console st).line2 = fit20 b
  signal : (s.port st).down.countP DownFrame.isSignal < 3 → .signal g ∈ (y.port st).down
  slots : (y.port st).slots = (s.port st).slots.tail

theorem answered_showIfLost (ha : s.attended st) (hp : x.port st = { s.port st with slots := (s.port st).slots.tail })
    (hl : linesKept s x) (ht : x.active.texts = s.active.texts) (lost : Bool) (a b : Text) (g : Signal) :
    Answered s st (if lost then (s.shownText 28).line1 else a) b g
      (showIfLost st lost (sound st g (showLines st a b x))) := by
  have drawn := (redrawn_showLines st a b x).trans (redrawn_sound st g _)
  have text : (sound st g (showLines st a b x)).shownText 28 = s.shownText 28 := by
    refine shownText_congr ?_ 28
    rw [drawn.1.active, ht]
  obtain ⟨port, line1, line2, -⟩ := displayed_sound ha (displayed_showLines ha hp hl a b) g
  generalize sound st g (showLines st a b x) = y at text port line1 line2 ⊢
  have hy : y.attended st := by simpa only [State.attended, port] using ha
  have sounded : (s.port st).down.countP DownFrame.isSignal < 3 → .signal g ∈ (y.port st).down := by
    intro few
    rw [port]
    exact mem_joinSignal (by rw [countP_joinDisplay]; exact few)
  have slots : (y.port st).slots = (s.port st).slots.tail := by rw [port]
  cases lost with
  | false => exact ⟨line1, line2, sounded, slots⟩
  | true =>
    simp only [showIfLost, if_true, showLines_attended hy, text]
    refine ⟨by simp, by simp [line2, fit20_fit20], fun few => ?_, by simpa using slots⟩
    rw [port_setPort]
    exact mem_joinDisplay _ _ (sounded few)

end Sys2Proof.Desk
end

