-- ==== Sys2Proof/Proofs/SecondBorrower.lean ====
section
/-! SUPPORT. A borrower scan in another's session: the close, then the opening or the refusal (R6). -/

namespace Sys2Proof.Desk

open Sys2Proof.Machine

variable {s t x y z c : State} {st o : Station} {n m : Number} {b e : Borrower} {category : Fin 16} {w : Bool}
  {mode : Mode} {digits : List Nat}

/-! ### What a close leaves of the others -/

/-- A change of one borrower's entries, a retired one leaving, keeps the entry of another. -/
theorem find?_withoutRetired {f : Borrower → Borrower} (hne : m ≠ n) (hf : ∀ x, (f x).number = x.number)
    (hother : ∀ x, x.number ≠ m → f x = x) (l : List Borrower) :
    ((withoutRetired m (l.map f)).find? fun x => decide (x.number = n)) = l.find? fun x => decide (x.number = n) := by
  have same : ((fun x : Borrower => decide ((!decide (x.number = m ∧ x.retiring = true ∧ x.pending = 0)) = true ∧
      decide (x.number = n) = true)) ∘ f) = fun x => decide (x.number = n) := by
    funext x
    by_cases hx : x.number = n
    · simp [Function.comp, hf, hx, Ne.symm hne]
    · simp [Function.comp, hf, hx]
  rw [withoutRetired, List.find?_filter, List.find?_map, same]
  cases h : l.find? fun x => decide (x.number = n) with
  | none => rfl
  | some x =>
    have hx : x.number = n := by simpa using List.find?_some h
    rw [Option.map_some, hother x (by rw [hx]; exact Ne.symm hne)]

theorem borrower_booked (h : booked s st m e y) (hne : m ≠ n) : y.active.borrower n = s.active.borrower n := by
  obtain ⟨-, hactive, -⟩ := h
  unfold Bank.borrower
  rw [hactive]
  refine find?_withoutRetired hne (fun x => ?_) (fun x hx => if_neg hx) _
  by_cases hx : x.number = m <;> simp [hx]

theorem categories_booked (h : booked s st m e y) : y.active.categories = s.active.categories := by
  obtain ⟨-, hactive, -⟩ := h
  rw [hactive]

theorem borrowerChecks_congr (hc : y.active.categories = s.active.categories) (hclock : y.clock = s.clock)
    (x : Borrower) : borrowerChecks y st x = borrowerChecks s st x := by
  simp only [borrowerChecks, hc, hclock]

theorem coveredBy_none (s : State) (r : Reason) : coveredBy s none r = false := by
  simp [coveredBy, List.find?_eq_none.mpr]

theorem DeskFrame.settings (h : DeskFrame st s y) : y.settings = s.settings := by
  obtain ⟨-, -, -, -, -, hs, -⟩ := h
  exact hs

theorem ClosedHere.frame (h : ClosedHere s st m mode c) : DeskFrame st s c :=
  (frame_served _).trans (Closed.frame h)

theorem ClosedHere.port (h : ClosedHere s st m mode c) :
    c.port st = { s.port st with slots := (s.port st).slots.tail } := (Closed.port h).trans (port_served _)

theorem ClosedHere.lines (h : ClosedHere s st m mode c) : linesKept s c :=
  linesKept_trans (linesKept_served _) (Closed.lines h)

/-- The close of a session that another borrower's scan ends, and what follows it there. -/
theorem borrowerScan_closes (htakes : s.takesNext st (.scan digits))
    (hclass : classify s.active.prefixTable digits = .borrower n category) (ha : s.attended st)
    (hd : s.day.state = .opened) (hm : (s.session st).borrower = some m) (hne : m ≠ n)
    (hb : s.active.borrower m = some b) :
    ∃ c, ClosedHere s st m .normal c ∧ booked s st m b c ∧ c.active.borrower n = s.active.borrower n ∧
      (∀ x, borrowerChecks c st x = borrowerChecks s st x) ∧
      exec .borrowerScan s = .next (settle s (showIfLost st (slipLost s st) (admitBorrower st n category c))) := by
  obtain ⟨closed, lost⟩ := closeSession_here (mode := .normal) hm
  have taken := borrowerScan_taken htakes hclass ha
  rw [borrowerDecision_other (s := served st (current s st) s) hd (by simpa using hm) hne, lost,
    slipLost_served] at taken
  have books := booked_served (closed.books b hb)
  exact ⟨_, closed, books, borrower_booked books hne,
    borrowerChecks_congr (categories_booked books) (ClosedHere.frame closed).clock, taken⟩

/-- A state that differs from another in the tables, the journal and a station's session alone. -/
structure Beside (st : Station) (c x : State) : Prop where
  frame : DeskFrame st c x
  port : x.port st = c.port st
  slips : slipsKept c st x
  uplink : x.uplink = c.uplink
  supervisor : x.supervisor = c.supervisor
  texts : x.active.texts = c.active.texts
  last : x.lastServed = c.lastServed

theorem Beside.line (h : Beside st c x) (l : Line) : x.line l = c.line l := by
  cases l
  · exact h.uplink
  · exact h.supervisor

/-- What follows a close: lines and a signal, SLIP LOST before them when the slip was dropped. -/
structure AfterClose (s : State) (st : Station) (m : Number) (a b : Text) (g : Signal) (x t : State) : Prop where
  drawn : ∃ y, Redrawn st x y ∧ t = settle s y
  answered : Answered s st (lostOr s st a) b g t
  slip : slipQueued s st m t
  last : t.lastServed = st
  lines : linesKept s t
  others : othersKept st s t
  desk : deskOnly s t

theorem afterClose (ha : s.attended st) (closed : ClosedHere s st m .normal c) (h : Beside st c x) (a b : Text)
    (g : Signal) :
    AfterClose s st m a b g x (settle s (showIfLost st (slipLost s st) (sound st g (showLines st a b x)))) := by
  have drawn := ((redrawn_showLines st a b x).trans (redrawn_sound st g _)).trans
    (redrawn_showIfLost st (slipLost s st) _)
  have lines : linesKept s x := linesKept_trans closed.lines (linesKept_of_eq h.uplink h.supervisor)
  have answered := answered_showIfLost ha (h.port.trans closed.port) lines (h.texts.trans closed.texts)
    (slipLost s st) a b g
  generalize showIfLost st (slipLost s st) (sound st g (showLines st a b x)) = y at drawn answered ⊢
  have frame := ((closed.frame.trans h.frame).trans drawn.frame).settle (z := s)
  have slips : slipsKept c st y := by
    obtain ⟨kq, kh, kc⟩ := h.slips
    obtain ⟨kq', kh', kc'⟩ := drawn.1.slips st
    exact ⟨kq'.trans kq, kh'.trans kh, kc'.trans kc⟩
  exact {
    drawn := ⟨y, drawn, rfl⟩
    answered := ⟨answered.line1, answered.line2, answered.signal, answered.slots⟩
    slip := slipQueued_of (slipQueued_served closed.slip) slips fun l =>
      (drawn.1.line l).trans (h.line l)
    last := drawn.1.lastServed.trans (h.last.trans closed.last)
    lines := linesKept_settle (linesKept_trans lines drawn.1.lines)
    others := frame.1
    desk := frame.2 }

/-- The state in which a session opens after a close. -/
theorem beside_opened (r : Session) : Beside st c ((linked c st n).setSession st r) where
  frame := ⟨fun o ho => ⟨rfl, rfl, session_setSession_of_ne (linked c st n) st o ho⟩, (DeskFrame.refl st c).2⟩
  port := rfl
  slips := ⟨rfl, rfl, rfl⟩
  uplink := rfl
  supervisor := rfl
  texts := rfl
  last := rfl

/-- The state in which a refusal's record is written after a close. -/
theorem beside_refused (r : Session) (d : Record) : Beside st c (appendAboveReserve d (c.setSession st r)) := by
  obtain ⟨j, b, h⟩ := appendAboveReserve_tables (c.setSession st r) d
  rw [h]
  exact {
    frame := ⟨fun o ho => ⟨rfl, rfl, session_setSession_of_ne c st o ho⟩, (DeskFrame.refl st c).2⟩
    port := rfl
    slips := ⟨rfl, rfl, rfl⟩
    uplink := rfl
    supervisor := rfl
    texts := rfl
    last := rfl }

/-- After a close the record of the next borrower's refusal is what it would be in the state before it, with the
tables and the journal of the close. -/
theorem stamped_closed (closed : ClosedHere s st m .normal c) (r : Session) (d : Record) :
    stamped (c.setSession st r) d = stamped { s with journal := c.journal, active := c.active } d := by
  obtain ⟨huplink, -⟩ := closed.lines
  have hstate := congrArg LineCtl.state huplink
  have state : (c.setSession st r).uplink.state = s.uplink.state := hstate
  obtain ⟨-, -, hgeneration, hclock, -⟩ := closed.frame.2
  simp only [stamped, state, show (c.setSession st r).clock = s.clock from hclock,
    show (c.setSession st r).generation = s.generation from hgeneration]
  rfl

end Sys2Proof.Desk

open Sys2Proof Sys2Proof.Machine Sys2Proof.Desk

/-- Settles O18: a borrower admitted, a newcomer entered, a second borrower after the first one's close. -/
theorem borrowerScansOpenSessions : Obligations.BorrowerScansOpenSessions := by
  unfold Obligations.BorrowerScansOpenSessions
  intro s st digits n category htakes hclass hd ha opened' linked' common
  have taken := borrowerScan_taken htakes hclass ha
  refine ⟨fun e hn he passed => ?_, fun room hn he hroom => ?_, fun m b x hm hne hb hx passed => ?_⟩
  · rw [borrowerDecision_free (s := served st (current s st) s) hd (by simpa using hn), admitBorrower_admits
      (s := served st (current s st) s) he (by rw [session_served, armedStaff_current]; exact passed)] at taken
    obtain ⟨shown, session, active⟩ := openSession_here (a := s.active) ha he (current s st)
      ((borrowerChecks s st e).any Prod.snd)
    rw [armedStaff_current] at session
    exact ⟨_, taken, shown, session, active⟩
  · rw [borrowerDecision_free (s := served st (current s st) s) hd (by simpa using hn), admitBorrower_new
      (s := served st (current s st) s) he hroom] at taken
    obtain ⟨absent, hcategories, -⟩ := makeRoom_keeps hroom he
    obtain ⟨shown, session, active⟩ := openSession_here (a := room.joinBorrower (provisionalEntry n category)) ha
      (borrower_joined absent category) (current s st) false
    rw [armedStaff_current] at session
    rw [linked_joined absent] at active
    rw [show (room.joinBorrower (provisionalEntry n category)).categories = s.active.categories
      from hcategories] at shown
    exact ⟨_, taken, shown, session, active⟩
  · obtain ⟨c, closed, books, found, checks, taken⟩ := borrowerScan_closes htakes hclass ha hd hm hne hb
    rw [hx] at found
    have none_fails : (borrowerChecks c st x).any Prod.snd = false := by
      rw [checks, List.any_eq_false]
      exact fun p hp => by simp [passed p hp]
    rw [admitBorrower_admits found (fun p hp hf => by rw [checks] at hp; simp [passed p hp] at hf), none_fails,
      openSession_eq found, categories_booked books] at taken
    have session : c.session st = Session.empty := closed.session
    rw [session] at taken
    have after := afterClose ha closed (beside_opened (n := n) (opened c n Session.empty.armedStaff false))
      (maskNumber (s.active.categories[x.category]).shownDigits n) (decimal x.loansHeld) .accept
    obtain ⟨y, drawn, ht⟩ := after.drawn
    have record : (settle s y).session st = opened c n none false :=
      (drawn.1.session st).trans (session_setSession _ _ _)
    refine ⟨_, c, taken, books, ?_, ?_, ?_, after.slip, ?_, after.answered.line1, after.answered.line2,
      after.answered.signal, after.answered.slots, after.last, after.lines, after.others, after.desk⟩
    · rw [ht]
      exact drawn.1.journal
    · rw [ht]
      exact drawn.1.cache
    · rw [ht]
      exact drawn.1.active
    · rw [ht, record, opened, closed.frame.settings]

/-- Settles O19: a borrower scan refused while the desk is not open, by a check, for want of room, or after a close. -/
theorem borrowerScansAreRefused : Obligations.BorrowerScansAreRefused := by
  unfold Obligations.BorrowerScansAreRefused
  intro s st digits n category htakes hclass ha
  have taken := borrowerScan_taken htakes hclass ha
  refine ⟨fun hd => ?_, fun hd hn => ?_, fun r hd hn hr => ?_, fun m b x r hd hm hne hb hx hr => ?_⟩
  · rw [borrowerDecision_closed (s := served st (current s st) s) hd, sessionStaff_served, current_borrower,
      current_overrideStaff] at taken
    obtain ⟨refused, session, frame⟩ := refuse_served ha (current s st) .deskClosed (some n) none
      (if (s.session st).borrower = none then none else (s.session st).overrideStaff)
    exact ⟨_, taken, refused, session, frame.1, frame.2⟩
  · have hopen : (s.session st).borrower ≠ none := by simp [hn]
    have drawn := redrawn_sound st .duplicate (served st (current s st) s)
    have decided := decided_of_redrawn (z := s) drawn
    have state := (drawn.1.stationState st).trans
      (stationState_open ha (r := current s st) (by simpa using hopen))
    rw [borrowerDecision_own (s := served st (current s st) s) hd (by simpa using hn),
      showUnwiped_checkout _ state] at taken
    obtain ⟨slips, rest⟩ := decided.rest
    exact ⟨_, taken, signalled_sound ha _ _, slips, decided.session.trans (current_open hopen), rest⟩
  · rw [borrowerDecision_free (s := served st (current s st) s) hd (by simpa using hn)] at taken
    have refuses : admitBorrower st n category (served st (current s st) s) =
        refuseBorrower st n r (served st (current s st) s) := by
      obtain ⟨e, he, hfirst⟩ | ⟨rfl, he, hroom⟩ := hr
      · refine admitBorrower_refuses (s := served st (current s st) s) he ?_
        rw [session_served, armedStaff_current]
        exact hfirst
      · exact admitBorrower_full (s := served st (current s st) s) he hroom
    rw [refuses, current_idle hn] at taken
    obtain ⟨refused, session, frame⟩ := refuseBorrower_served (n := n) ha r
    exact ⟨_, taken, refused, session.trans (leaveDesk_free hn), frame.1, frame.2⟩
  · obtain ⟨c, closed, books, found, checks, taken⟩ := borrowerScan_closes htakes hclass ha hd hm hne hb
    rw [hx] at found
    have session : c.session st = Session.empty := closed.session
    have first : ((borrowerChecks c st x).find? fun p => p.2 && !coveredBy c (c.session st).armedStaff p.1) =
        some (r, true) := by
      rw [session, checks]
      simpa only [show Session.empty.armedStaff = none from rfl, coveredBy_none, Bool.not_false, Bool.and_true]
        using hr
    have refuses : refuseBorrower st n r c = sound st .refuse (showText st r.textNumber
        (appendAboveReserve (refusalDraft st r (some n) none none) (c.setSession st Session.empty))) := by
      unfold refuseBorrower
      rw [session]
      rfl
    rw [admitBorrower_refuses found first, refuses] at taken
    have beside := beside_refused (st := st) (c := c) Session.empty (refusalDraft st r (some n) none none)
    have text : (appendAboveReserve (refusalDraft st r (some n) none none)
        (c.setSession st Session.empty)).shownText r.textNumber = s.shownText r.textNumber :=
      shownText_congr (beside.texts.trans closed.texts) _
    have recorded := appendAboveReserve_spec (c.setSession st Session.empty) (refusalDraft st r (some n) none none)
    have record := session_appendAboveReserve (refusalDraft st r (some n) none none) (c.setSession st Session.empty) st
    have cache : (appendAboveReserve (refusalDraft st r (some n) none none) (c.setSession st Session.empty)).cache =
        c.cache := by
      obtain ⟨j, l, h⟩ := appendAboveReserve_tables (c.setSession st Session.empty)
        (refusalDraft st r (some n) none none)
      rw [h]
      rfl
    have after := afterClose ha closed beside (s.shownText r.textNumber).line1 (s.shownText r.textNumber).line2
      .refuse
    simp only [showText, text] at taken
    generalize appendAboveReserve (refusalDraft st r (some n) none none) (c.setSession st Session.empty) = x
      at taken beside recorded record cache after
    obtain ⟨y, drawn, ht⟩ := after.drawn
    refine ⟨_, c, taken, books, after.slip, ?_, ?_, ?_, after.answered.line1, after.answered.signal, after.last,
      after.lines, after.others, after.desk⟩
    · rw [ht]
      exact drawn.1.cache.trans cache
    · rw [ht]
      have hj : (settle s y).journal = x.journal := drawn.1.journal
      have hactive : (settle s y).active = x.active := drawn.1.active
      simp only [appended, unrecorded, hj, hactive]
      simp only [appended, unrecorded, stamped_closed closed] at recorded
      exact recorded
    · rw [ht]
      exact (drawn.1.session st).trans (record.trans (session_setSession _ _ _))
end

