-- ==== Sys2Proof/Proofs/ReturnedItems.lean ====
section
/-! SUPPORT. A return's effects on the tables and the journal (R25, R26, R69, R83), each as one equation. -/

namespace Sys2Proof.Desk

open Sys2Proof.Machine

variable {s t x y z : State} {st o : Station} {item n : Number} {h : Hold} {hs : List Hold} {r : Session}

/-! ### The calendar -/

theorem searchForward_borrowers (a : Bank) (l : List Borrower) (n : Nat) :
    ∀ day, searchForward { a with borrowers := l } day n = searchForward a day n := by
  induction n with
  | zero => exact fun day => rfl
  | succ n ih =>
    intro day
    unfold searchForward
    rw [ih]
    rfl

/-- A pickup day is read from the calendar alone. -/
theorem pickupDay_borrowers (a : Bank) (l : List Borrower) (day k : Nat) :
    pickupDay { a with borrowers := l } day k = pickupDay a day k := by
  simp only [pickupDay, searchForward_borrowers]

/-! ### The hold queue -/

/-- The first hit of a search is that of a narrower one it passes. -/
theorem find?_of_imp {α : Type} {p q : α → Bool} {l : List α} {a : α} (h : l.find? p = some a)
    (hpq : ∀ x, q x = true → p x = true) (ha : q a = true) : l.find? q = some a := by
  induction l with
  | nil => cases h
  | cons x l ih =>
    rw [List.find?_cons] at h ⊢
    cases hq : q x with
    | true =>
      rw [hpq x hq] at h
      exact h
    | false =>
      cases hp : p x with
      | true =>
        rw [hp] at h
        obtain rfl := Option.some.inj h
        rw [ha] at hq
        cases hq
      | false =>
        rw [hp] at h
        exact ih h

/-- An item's entry after its queue has changed to one that is not empty. -/
theorem item_mapQueue {b : Bank} {e : Item} {f : List Hold → List Hold} (he : b.item n = some e)
    (hf : f e.queue ≠ []) : (b.mapQueue n f).item n = some { e with queue := f e.queue } := by
  have hn : e.number = n := by simpa using List.find?_some he
  unfold Bank.item Bank.mapQueue Bank.tidyItem Bank.mapItem
  rw [List.find?_filter, List.find?_map]
  rw [find?_of_imp he (fun x hx => ?_) ?_]
  · simp [hn]
  · simp [hn, Item.spent, hf]
  · by_cases hx' : x.number = n
    · simp [hx']
    · simp [hx'] at hx

theorem item_of_queue {b : Bank} (hq : b.queueOf n = h :: hs) : ∃ e, b.item n = some e ∧ e.queue = h :: hs := by
  unfold Bank.queueOf at hq
  split at hq
  · cases hq
  · next e he => exact ⟨e, he, hq⟩

theorem queueOf_mapQueue {b : Bank} {f : List Hold → List Hold} (hq : b.queueOf n = h :: hs)
    (hf : f (h :: hs) ≠ []) : (b.mapQueue n f).queueOf n = f (h :: hs) := by
  obtain ⟨e, he, hqueue⟩ := item_of_queue hq
  have found := item_mapQueue (f := f) he (by rw [hqueue]; exact hf)
  simp only [Bank.queueOf, found, hqueue]

theorem classOf_mapQueue {b : Bank} {f : List Hold → List Hold} (hq : b.queueOf n = h :: hs)
    (hf : f (h :: hs) ≠ []) (default : Fin 32) : (b.mapQueue n f).classOf n default = b.classOf n default := by
  obtain ⟨e, he, hqueue⟩ := item_of_queue hq
  have found := item_mapQueue (f := f) he (by rw [hqueue]; exact hf)
  simp only [Bank.classOf, found, he]

/-! ### The RETURN record -/

/-- The borrower the cache names for an item. -/
def lentTo (s : State) (item : Number) : Option Number :=
  (s.cache.find? fun c => c.item = item).map CacheEntry.borrower

def returnDraft (s : State) (st : Station) (item : Number) : Record :=
  { draft .returned with
    station := some st, item := some item, borrower := lentTo s item
    flags := { noRecordFlags with creditedLocally := (lentTo s item).isSome } }

/-- The state once a return is credited and recorded (R25, R83). -/
def credited (s : State) (st : Station) (item : Number) : State :=
  { s with
    cache := s.cache.filter fun c => c.item ≠ item
    journal :=
      { s.journal with
        records := s.journal.records ++ [stamped s (returnDraft s st item)], nextSeq := s.journal.nextSeq + 1
        overflow := false }
    active :=
      { s.active with
        borrowers := s.active.borrowers.map fun x =>
          if lentTo s item = some x.number then { x with loansHeld := x.loansHeld - 1, pending := x.pending + 1 }
          else x } }

/-- An append above the reserve that finds room, as one literal. -/
theorem appendAboveReserve_eq (d : Record) (s : State) (room : 32 < s.journal.free) :
    appendAboveReserve d s =
      { s with
        journal :=
          { s.journal with
            records := s.journal.records ++ [stamped s d], nextSeq := s.journal.nextSeq + 1, overflow := false }
        active :=
          { s.active with
            borrowers := s.active.borrowers.map fun e =>
              if d.borrower = some e.number then { e with pending := e.pending + 1 } else e } } := by
  have spec := appendAboveReserve_spec s d
  rw [if_pos room] at spec
  obtain ⟨j, l, heq⟩ := appendAboveReserve_tables s d
  obtain ⟨hj, hl⟩ := spec
  rw [heq] at hj hl ⊢
  have hj : j = _ := hj
  have hl : { s.active with borrowers := l } = _ := hl
  rw [hl, hj]

theorem creditReturn_eq (s : State) (room : 32 < s.journal.free) : creditReturn st item s = credited s st item := by
  unfold creditReturn
  cases hc : cacheFind s.cache item with
  | none =>
    have none_lent : lentTo s item = none := by
      rw [lentTo, show (s.cache.find? fun c => decide (c.item = item)) = none from hc]
      rfl
    have kept : s.cache.filter (fun c => decide (c.item ≠ item)) = s.cache := by
      refine List.filter_eq_self.mpr fun c hmem => ?_
      simpa using List.find?_eq_none.mp hc c hmem
    simp only
    rw [appendAboveReserve_eq _ _ room]
    unfold credited returnDraft
    rw [none_lent, kept]
    rfl
  | some c =>
    have lent : lentTo s item = some c.borrower := by
      rw [lentTo, show (s.cache.find? fun c => decide (c.item = item)) = some c from hc]
      rfl
    simp only
    rw [appendAboveReserve_eq _ _ (by exact room)]
    have entries : ((s.active.mapBorrower c.borrower fun b => { b with loansHeld := b.loansHeld - 1 }).borrowers.map
        fun e => if some c.borrower = some e.number then { e with pending := e.pending + 1 } else e) =
        s.active.borrowers.map fun x =>
          if lentTo s item = some x.number then { x with loansHeld := x.loansHeld - 1, pending := x.pending + 1 }
          else x := by
      rw [lent]
      simp only [Bank.mapBorrower, List.map_map]
      refine List.map_congr_left fun x _ => ?_
      by_cases hx : x.number = c.borrower
      · simp [hx]
      · simp [hx, Ne.symm hx]
    have record : stamped
        { s with
          cache := cacheRemove s.cache item
          active := s.active.mapBorrower c.borrower fun b => { b with loansHeld := b.loansHeld - 1 } }
        { draft .returned with
          station := some st, item := some item, borrower := some c.borrower
          flags := { noRecordFlags with creditedLocally := true } } = stamped s (returnDraft s st item) := by
      have numbers : ((s.active.mapBorrower c.borrower fun b => { b with loansHeld := b.loansHeld - 1 }).borrowers.any
          fun e => decide (e.number = c.borrower)) =
          s.active.borrowers.any fun e => decide (e.number = c.borrower) := by
        simp only [Bank.mapBorrower, List.any_map, Function.comp_def, apply_ite Borrower.number, ite_self]
      unfold returnDraft
      rw [lent]
      simp only [stamped, Option.map_some, numbers, Option.isSome_some]
    rw [record, entries]
    rfl

/-- What a return leaves once its item's head, QUEUED before, has become WAITING until a day (R26, R69). -/
def routed (s : State) (st : Station) (item : Number) (h : Hold) (p : Nat) : State :=
  { s with
    journal :=
      { s.journal with
        records := s.journal.records ++
          [stamped s { sweepDraft .holdRouted item { h with pickupBy := some p } with station := some st }]
        nextSeq := s.journal.nextSeq + 1, overflow := false }
    active :=
      { s.active.mapQueue item (waitHead s.active s.today) with
        borrowers := s.active.borrowers.map fun e =>
          if e.number = h.borrower then { e with pending := e.pending + 1 } else e } }

theorem headQueued_cons (hq : s.active.queueOf item = h :: hs) : s.headQueued item = h.pickupBy.isNone := by
  simp [State.headQueued, hq, Hold.queued]

theorem headQueued_nil (hq : s.active.queueOf item = []) : s.headQueued item = false := by
  simp [State.headQueued, hq]

theorem routeHead_still (hq : s.headQueued item = false) : routeHead st item s = s := by
  simp [routeHead, hq]

theorem routeHead_eq (hq : s.active.queueOf item = h :: hs) (hp : h.pickupBy = none) (room : 32 < s.journal.free) :
    routeHead st item s =
      routed s st item h (pickupDay s.active s.today (s.active.categories[h.category]).pickupDays) := by
  have queued : s.headQueued item = true := by rw [headQueued_cons hq, hp]; rfl
  have waiting : (s.active.mapQueue item (waitHead s.active s.today)).queueOf item =
      { h with pickupBy := some (pickupDay s.active s.today (s.active.categories[h.category]).pickupDays) } :: hs :=
    queueOf_mapQueue hq (by simp [waitHead])
  unfold routeHead
  simp only [queued, if_true, waiting]
  rw [appendAboveReserve_eq _ _ (by exact room)]
  simp only [sweepDraft, Option.some.injEq, eq_comm (b := Borrower.number _)]
  unfold routed
  rfl

end Sys2Proof.Desk
end

