-- ==== Sys2Proof/Proofs/Returns.lean ====
section
/-! SUPPORT. An item scan in return mode (R25, R26): the refusals, and the displays and slips of a return taken. -/

namespace Sys2Proof.Desk

open Sys2Proof.Machine

variable {s t x y z : State} {st o : Station} {item n : Number} {h : Hold} {hs : List Hold} {r : Session}
  {default : Fin 32}

/-! ### The decision -/

theorem itemDecision_returns {w : Bool} (hn : (s.session st).borrower = none) (hm : (s.session st).mode = .returns) :
    itemDecision st item default w s = returnDecision st item default s := by
  simp [itemDecision, hn, hm]

theorem itemScan_returns {digits : List Nat} (htakes : s.takesNext st (.scan digits))
    (hclass : classify s.active.prefixTable digits = .item item default) (ha : s.attended st)
    (hn : (s.session st).borrower = none) (hm : (s.session st).mode = .returns) :
    exec .itemScan s = .next (settle s (returnDecision st item default (served st (s.session st) s))) := by
  have taken := itemScan_taken htakes hclass ha
  rw [current_idle hn] at taken
  rw [itemDecision_returns (by simpa using hn) (by simpa using hm)] at taken
  exact taken

theorem listedAnywhere_served :
    (served st (s.session st) s).listedAnywhere item =
      stations.any fun o => (s.session o).items.any fun e => decide (e.item = item) := by
  unfold State.listedAnywhere
  congr 1
  funext o
  by_cases ho : o = st
  · rw [ho, session_served]
    rfl
  · rw [session_served_of_ne _ ho]
    rfl

theorem listed_iff : (stations.any fun o => (s.session o).items.any fun e => decide (e.item = item)) = true ↔
    ∃ o : Station, ((s.session o).items.any fun e => decide (e.item = item)) = true := by
  simp [stations]

/-- A refused return names neither borrower nor staff (R25). -/
theorem return_refused (ha : s.attended st) (hn : (s.session st).borrower = none) (reason : Reason)
    (hr : returnRefusal (served st (s.session st) s) item = some reason) :
    let t := settle s (returnDecision st item default (served st (s.session st) s))
    refusedAt s st reason none (some item) none t ∧ t.session st = s.session st ∧ othersKept st s t ∧ deskOnly s t := by
  obtain ⟨refused, session, frame⟩ := refuseInSession_served ha reason (some item)
  simp only [hn, if_true, current_idle hn] at refused session frame
  unfold returnDecision
  simp only [hr]
  exact ⟨refused, session, frame.1, frame.2⟩

/-! ### The slip and the display -/

/-- A slip that comes, the lines of its event, and a signal: what they leave of a station. -/
theorem slip_answered (ha : s.attended st) (p : Slip) (a b : Text) (g : Signal)
    (hy : y = sound st g (showIfLost st (queueSlip st p (served st r s)).2
      (showLines st a b (queueSlip st p (served st r s)).1))) :
    shown s st (if (s.console st).queue.length < 2 then a else (s.shownText 28).line1) b (some g) (settle z y) ∧
      ((settle z y).console st).queue =
        (if (s.console st).queue.length < 2 then (s.console st).queue ++ [p] else (s.console st).queue) ∧
      (settle z y).session st = r ∧ (settle z y).journal = s.journal ∧ (settle z y).active = s.active ∧
      (settle z y).cache = s.cache ∧ DeskFrame st s (settle z y) := by
  obtain ⟨came, lost⟩ := queueSlip_came st p (served st r s)
  have dropped : (if decide (2 ≤ (s.console st).queue.length) = true then (s.shownText 28).line1 else a) =
      if (s.console st).queue.length < 2 then a else (s.shownText 28).line1 := by
    by_cases room : (s.console st).queue.length < 2
    · simp [room]
    · simp [room, Nat.not_lt.mp room]
  rw [lost] at hy
  simp only [console_served] at came hy
  generalize (queueSlip st p (served st r s)).1 = x at came hy
  have display := displayed_sound ha (displayed_showIfLost ha (displayed_showLines ha came.port came.served_lines a b)
    (decide (2 ≤ (s.console st).queue.length))) g
  have drawn := ((redrawn_showLines st a b x).trans
    (redrawn_showIfLost st (decide (2 ≤ (s.console st).queue.length)) _)).trans (redrawn_sound st g _)
  have text : (showLines st a b x).shownText 28 = s.shownText 28 := by
    exact (shownText_congr (congrArg Bank.texts (redrawn_showLines st a b x).1.active) 28).trans
      (shownText_came came 28)
  rw [text, dropped] at display
  rw [← hy] at display drawn
  have hrest := came.rest
  have frame := (((frame_served r).trans came.frame).trans drawn.frame).settle (z := z)
  refine ⟨⟨displayed_settle display, ?_, drawn.1.lastServed.trans came.last⟩, ?_, ?_, ?_, ?_, ?_, frame⟩
  · exact (drawn.1.wiped st).trans (by rw [came.console, console_served])
  · obtain ⟨hq, -⟩ := drawn.1.slips st
    rw [came.console] at hq
    exact hq
  · exact (drawn.1.session st).trans (by rw [hrest]; exact session_served r)
  · exact drawn.1.journal.trans (by rw [hrest]; rfl)
  · exact drawn.1.active.trans (by rw [hrest]; rfl)
  · exact drawn.1.cache.trans (by rw [hrest]; rfl)

/-! ### A return taken -/

/-- The first line of a return's display (R25). -/
def returnLine (s : State) (item : Number) : Text := spaced (printNumber item) (s.shownText 29).line1

/-- The second line, for a head that waits until a day (R26). -/
def waitLine (s : State) (h : Hold) (p : Nat) : Text :=
  spaced (printDate s.settings.dateFormat p) (maskNumber (s.active.categories[h.category]).shownDigits h.borrower)

theorem takeReturn_free (h : routeHead st item (creditReturn st item x) = served st r s)
    (hq : s.active.queueOf item = []) :
    takeReturn st item default x = sound st .accept (showLines st (returnLine s item) [] (served st r s)) := by
  unfold takeReturn
  simp only [h, active_served, hq]
  rfl

theorem takeReturn_waiting {p : Nat} (hx : routeHead st item (creditReturn st item x) = served st r s)
    (hq : s.active.queueOf item = h :: hs) (hp : h.pickupBy = some p) :
    takeReturn st item default x =
      sound st .attention (showIfLost st
        (queueSlip st (routingSlip s st item (s.active.classOf item default) h) (served st r s)).2
        (showLines st (returnLine s item) (waitLine s h p)
          (queueSlip st (routingSlip s st item (s.active.classOf item default) h) (served st r s)).1)) := by
  have slip : routingSlip (served st r s) st item (s.active.classOf item default) h =
      routingSlip s st item (s.active.classOf item default) h := rfl
  unfold takeReturn
  simp only [hx, active_served, hq, slip, hp, Option.map_some, Option.getD_some]
  rfl

theorem creditReturn_served (room : 33 ≤ s.journal.free) :
    creditReturn st item (served st r s) = served st r (credited s st item) :=
  (creditReturn_eq (served st r s) room).trans rfl

/-- A return with nothing to route. -/
theorem routed_still (room : 33 ≤ s.journal.free) (hq : s.headQueued item = false) :
    routeHead st item (creditReturn st item (served st r s)) = served st r (credited s st item) := by
  rw [creditReturn_served room]
  exact routeHead_still hq

/-- A return whose head was QUEUED. -/
theorem routed_now (room : 34 ≤ s.journal.free) (hq : s.active.queueOf item = h :: hs) (hp : h.pickupBy = none) :
    routeHead st item (creditReturn st item (served st r s)) =
      served st r (routed (credited s st item) st item h
        (pickupDay s.active s.clock.now.day (s.active.categories[h.category]).pickupDays)) := by
  have left : 32 < (credited s st item).journal.free := by
    simp only [credited, Journal.free, Journal.unreleased] at room ⊢
    omega
  have day : pickupDay (credited s st item).active (credited s st item).today
      ((credited s st item).active.categories[h.category]).pickupDays =
      pickupDay s.active s.clock.now.day (s.active.categories[h.category]).pickupDays :=
    pickupDay_borrowers s.active _ _ _
  rw [creditReturn_served (by omega), ← day]
  exact (routeHead_eq (s := served st r (credited s st item)) hq hp left).trans rfl

/-- What a return needs of the journal (R25). -/
def returnNeeds (s : State) (item : Number) : Nat := 32 + if s.headQueued item then 2 else 1

theorem returnRefusal_closed (hd : s.day.state = .closed) : returnRefusal s item = some .deskClosed := if_pos hd

theorem returnRefusal_listed (hd : s.day.state ≠ .closed) (hl : s.listedAnywhere item = true) :
    returnRefusal s item = some .inOtherSession := (if_neg hd).trans (if_pos hl)

theorem returnRefusal_full (hd : s.day.state ≠ .closed) (hl : ¬s.listedAnywhere item = true)
    (full : s.journal.free < returnNeeds s item) : returnRefusal s item = some .journalFull :=
  (if_neg hd).trans ((if_neg hl).trans (if_pos full))

theorem returnRefusal_passes (hd : s.day.state ≠ .closed) (hl : ¬s.listedAnywhere item = true)
    (room : returnNeeds s item ≤ s.journal.free) : returnRefusal s item = none :=
  (if_neg hd).trans ((if_neg hl).trans (if_neg (Nat.not_lt.mpr room)))

theorem listedAnywhere_iff : (served st (s.session st) s).listedAnywhere item = true ↔
    ∃ o : Station, ((s.session o).items.any fun e => decide (e.item = item)) = true := by
  rw [listedAnywhere_served, listed_iff]

theorem returnDecision_taken (hd : s.day.state ≠ .closed)
    (hlist : ∀ o : Station, ((s.session o).items.any fun e => decide (e.item = item)) = false)
    (room : returnNeeds s item ≤ s.journal.free) :
    returnDecision st item default (served st (s.session st) s) =
      takeReturn st item default (served st (s.session st) s) := by
  have unlisted : ¬(served st (s.session st) s).listedAnywhere item = true := by
    rw [listedAnywhere_iff]
    rintro ⟨o, ho⟩
    rw [hlist o] at ho
    cases ho
  simp only [returnDecision, returnRefusal_passes (s := served st (s.session st) s) hd unlisted room]

theorem returnNeeds_eq (s : State) (item : Number) :
    returnNeeds s item =
      if ((s.active.queueOf item).head?.any fun h => h.pickupBy.isNone) = true then 34 else 33 := by
  unfold returnNeeds State.headQueued
  change 32 + (if ((s.active.queueOf item).head?.any fun h => h.pickupBy.isNone) = true then 2 else 1) = _
  split <;> rfl

/-- The records of a return that routes a hold: the RETURN, then the HOLD_ROUTED (R26). -/
theorem routed_records (s : State) (st : Station) (item : Number) (h : Hold) (p : Nat) :
    (routed s st item h p).journal.records =
      s.journal.records ++
        [stamped s { sweepDraft .holdRouted item { h with pickupBy := some p } with station := some st }] := rfl

theorem queueOf_routed {p : Nat} (hq : s.active.queueOf item = h :: hs)
    (hp : pickupDay s.active s.today (s.active.categories[h.category]).pickupDays = p) :
    (routed s st item h p).active.queueOf item = { h with pickupBy := some p } :: hs := by
  subst hp
  exact queueOf_mapQueue (f := waitHead s.active s.today) hq (by simp [waitHead])

theorem classOf_routed (hq : s.active.queueOf item = h :: hs) (p : Nat) :
    (routed s st item h p).active.classOf item default = s.active.classOf item default :=
  classOf_mapQueue (f := waitHead s.active s.today) hq (by simp [waitHead]) default

theorem routingSlip_congr (hset : x.settings = s.settings) (hclock : x.clock = s.clock) (hnotice : x.notice = s.notice)
    (htemplates : x.active.templates = s.active.templates) (hclasses : x.active.classes = s.active.classes)
    (hcategories : x.active.categories = s.active.categories) (k : Fin 32) (h : Hold) :
    routingSlip x st item k h = routingSlip s st item k h := by
  have mask : x.maskHold h = s.maskHold h := by simp only [State.maskHold, hcategories]
  unfold routingSlip
  rw [compose_congr hset hclock hnotice htemplates, mask, hclasses, hset]

/-- The slip of a hold routed by its return is composed as before the return. -/
theorem routingSlip_routed (hq : s.active.queueOf item = h :: hs) (p : Nat) (h' : Hold) :
    routingSlip (routed (credited s st item) st item h p) st item
        ((routed (credited s st item) st item h p).active.classOf item default) h' =
      routingSlip s st item (s.active.classOf item default) h' := by
  rw [classOf_routed (s := credited s st item) hq p]
  exact routingSlip_congr rfl rfl rfl rfl rfl rfl _ _

/-- A display is judged by the port and the lines alone. -/
theorem shown_base {u : State} {a b : Text} {g : Option Signal} (hp : u.port st = s.port st)
    (hu : u.uplink = s.uplink) (hv : u.supervisor = s.supervisor) (h : shown u st a b g t) : shown s st a b g t := by
  simpa only [shown, displayed, linesKept, hp, hu, hv] using h

/-- A state with the same desk: the stations, the lines, what the displays read of the ACTIVE bank and the settings. -/
structure SameDesk (st : Station) (s u : State) : Prop where
  port : u.port st = s.port st
  console : u.console st = s.console st
  uplink : u.uplink = s.uplink
  supervisor : u.supervisor = s.supervisor
  texts : u.active.texts = s.active.texts
  categories : u.active.categories = s.active.categories
  settings : u.settings = s.settings
  frame : DeskFrame st s u

theorem SameDesk.trans (h : SameDesk st s x) (h' : SameDesk st x y) : SameDesk st s y :=
  ⟨h'.port.trans h.port, h'.console.trans h.console, h'.uplink.trans h.uplink, h'.supervisor.trans h.supervisor,
    h'.texts.trans h.texts, h'.categories.trans h.categories, h'.settings.trans h.settings, h.frame.trans h'.frame⟩

theorem sameDesk_credited (s : State) (st : Station) (item : Number) : SameDesk st s (credited s st item) :=
  ⟨rfl, rfl, rfl, rfl, rfl, rfl, rfl, DeskFrame.refl st s⟩

theorem sameDesk_routed (s : State) (st : Station) (item : Number) (h : Hold) (p : Nat) :
    SameDesk st s (routed s st item h p) :=
  ⟨rfl, rfl, rfl, rfl, rfl, rfl, rfl, DeskFrame.refl st s⟩

theorem SameDesk.returnLine (h : SameDesk st s x) (item : Number) : returnLine x item = returnLine s item := by
  rw [Desk.returnLine, shownText_congr h.texts]
  rfl

theorem SameDesk.waitLine (hx : SameDesk st s x) (p : Nat) (q : Option Nat) :
    waitLine x { h with pickupBy := q } p = waitLine s h p := by
  simp only [Desk.waitLine, hx.settings, hx.categories]

/-- The tables and the journal after a return whose head was QUEUED (R26). -/
structure Routed (s : State) (st : Station) (item : Number) (h : Hold) (hs : List Hold) (p : Nat) (t : State) :
    Prop where
  records : t.journal.records = (credited s st item).journal.records ++
    [stamped (credited s st item)
      { sweepDraft .holdRouted item { h with pickupBy := some p } with station := some st }]
  queue : t.active.queueOf item = { h with pickupBy := some p } :: hs
  borrowers : t.active.borrowers = (credited s st item).active.borrowers.map fun e =>
    if e.number = h.borrower then { e with pending := e.pending + 1 } else e

theorem return_routes {p : Nat} (ha : s.attended st) (room : 34 ≤ s.journal.free)
    (hq : s.active.queueOf item = h :: hs) (hp : h.pickupBy = none)
    (hpick : pickupDay s.active s.clock.now.day (s.active.categories[h.category]).pickupDays = p)
    (ht : t = settle s (takeReturn st item default (served st r s))) :
    shown s st (if (s.console st).queue.length < 2 then returnLine s item else (s.shownText 28).line1)
        (waitLine s h p) (some .attention) t ∧
      (t.console st).queue =
        (if (s.console st).queue.length < 2 then
          (s.console st).queue ++
            [routingSlip s st item (s.active.classOf item default) { h with pickupBy := some p }]
        else (s.console st).queue) ∧
      t.session st = r ∧ t.cache = (credited s st item).cache ∧ DeskFrame st s t ∧ Routed s st item h hs p t := by
  have waits := queueOf_routed (s := credited s st item) (st := st) (p := p) hq
    ((pickupDay_borrowers s.active _ _ _).trans hpick)
  have moved := routed_now (r := r) (st := st) room hq hp
  have slip := routingSlip_routed (st := st) (default := default) hq p { h with pickupBy := some p }
  have cache : (routed (credited s st item) st item h p).cache = (credited s st item).cache := rfl
  have desk := (sameDesk_credited s st item).trans (sameDesk_routed (credited s st item) st item h p)
  rw [hpick] at moved
  suffices h : ∀ u, u = routed (credited s st item) st item h p → shown s st _ _ _ t ∧ _ = _ ∧ t.session st = r ∧
      t.cache = u.cache ∧ DeskFrame st s t ∧ t.journal = u.journal ∧ t.active = u.active by
    obtain ⟨shown, queue, session, hcache, hframe, journal, active⟩ := h _ rfl
    refine ⟨shown, queue, session, hcache.trans cache, hframe, ?_, by rw [active]; exact waits, ?_⟩
    · rw [journal, routed_records]
    · rw [active]
      rfl
  intro u hu
  rw [← hu] at waits moved slip desk
  rw [takeReturn_waiting moved waits rfl, slip, desk.returnLine, desk.waitLine] at ht
  obtain ⟨hshown, hqueue, session, journal, active, hcache, hframe⟩ :=
    slip_answered (s := u) (z := s) (r := r) (by rw [State.attended, desk.port]; exact ha)
      (routingSlip s st item (s.active.classOf item default) { h with pickupBy := some p })
      (returnLine s item) (waitLine s h p) .attention rfl
  rw [← ht] at hshown hqueue session journal active hcache hframe
  rw [desk.console] at hshown hqueue
  rw [shownText_congr desk.texts] at hshown
  exact ⟨shown_base desk.port desk.uplink desk.supervisor hshown, hqueue, session, hcache, desk.frame.trans hframe,
    journal, active⟩

end Sys2Proof.Desk

open Sys2Proof Sys2Proof.Machine Sys2Proof.Desk

/-- Settles O29: a return credited and recorded, its first hold slipped or routed; and the returns refused. -/
theorem returnsAreTakenOrRefused : Obligations.ReturnsAreTakenOrRefused := by
  unfold Obligations.ReturnsAreTakenOrRefused
  refine ⟨fun s st digits item default htakes hclass ha hn hm hd hlist => ?_,
    fun s st digits item default htakes hclass ha hn hm => ?_⟩
  · intro lent d credits returned label common
    have taken := itemScan_returns htakes hclass ha hn hm
    refine ⟨fun hq room => ?_, fun h hs hq => ?_⟩
    · have unqueued := headQueued_nil hq
      rw [returnDecision_taken hd hlist (by simpa [returnNeeds, unqueued] using room),
        takeReturn_free (routed_still room unqueued) hq] at taken
      obtain ⟨shown, decided⟩ := sounded_served (s := credited s st item) (z := s) (r := s.session st) ha
        (returnLine s item) [] .accept
      exact ⟨_, taken, shown, decided.slips, decided.unrecorded.1, decided.unrecorded.2, decided.session,
        decided.cache, decided.frame.1, decided.frame.2⟩
    · intro slip routed'
      refine ⟨fun p hp room => ?_, fun hp room => ?_⟩
      · have unqueued : s.headQueued item = false := by rw [headQueued_cons hq, hp]; rfl
        have same : { h with pickupBy := some p } = h := by rw [← hp]
        rw [returnDecision_taken hd hlist (by simpa [returnNeeds, unqueued] using room),
          takeReturn_waiting (routed_still room unqueued) hq hp] at taken
        obtain ⟨shown, queue, session, journal, active, cache, frame⟩ :=
          slip_answered (s := credited s st item) (z := s) (r := s.session st) ha
            (routingSlip (credited s st item) st item (s.active.classOf item default) h) (returnLine s item)
            (waitLine s h p) .attention rfl
        refine ⟨_, taken, ⟨⟨session, cache, frame.1, frame.2⟩, shown, ?_⟩, journal, active⟩
        rw [same]
        exact queue
      · have queued : s.headQueued item = true := by rw [headQueued_cons hq, hp]; rfl
        intro p
        rw [returnDecision_taken hd hlist (by simpa [returnNeeds, queued] using room)] at taken
        obtain ⟨shown, queue, session, cache, frame, moved⟩ :=
          return_routes (default := default) (r := s.session st) ha room hq hp (rfl : _ = p) rfl
        have returns : (credited s st item).journal.records = returned.records := rfl
        have count : returned.records.length = s.journal.records.length + 1 := by simp [returned]
        have records := moved.records
        rw [returns] at records
        refine ⟨_, taken, ⟨⟨session, cache, frame.1, frame.2⟩, shown, queue⟩, ?_, ?_, fun r hr => ?_, moved.queue,
          moved.borrowers⟩
        · rw [records, List.length_append, count]
          rfl
        · rw [records, ← count, List.take_left]
        · rw [records, ← count, List.getElem?_concat_length] at hr
          obtain rfl := Option.some.inj hr
          exact ⟨rfl, rfl, rfl, rfl, rfl, rfl⟩
  · have taken := itemScan_returns htakes hclass ha hn hm
    have refused := fun r hr => return_refused (item := item) (default := default) ha hn r hr
    refine ⟨fun hd => ⟨_, taken, refused _ (returnRefusal_closed hd)⟩, fun hd hl => ⟨_, taken, refused _
      (returnRefusal_listed hd (listedAnywhere_iff.mpr hl))⟩, fun hd hl full => ⟨_, taken, refused _
      (returnRefusal_full hd (fun h => hl (listedAnywhere_iff.mp h)) ?_)⟩⟩
    rw [← returnNeeds_eq] at full
    exact full
end

