-- ==== Sys2Proof/Proofs/CheckDigits.lean ====
section
/-! SUPPORT. The check digit of a code (R35, R36): a code is checked by the expected digit of its data alone. -/

namespace Sys2Proof.CheckDigits

open Sys2Proof.Machine

/-- A code ends in its check digit, and the digits before it are its data. -/
theorem checkDigitOk_w31_append (data : List Nat) (d : Nat) :
    checkDigitOk .w31 (data ++ [d]) = true ↔ d = w31Expected data := by
  simp [checkDigitOk]

theorem checkDigitOk_m11_append (data : List Nat) (d : Nat) :
    checkDigitOk .m11 (data ++ [d]) = true ↔ d = m11Expected data := by
  simp [checkDigitOk]

theorem w31Expected_lt (data : List Nat) : w31Expected data < 10 := Nat.mod_lt _ (by decide)

theorem m11Expected_lt (data : List Nat) : m11Expected data < 11 := Nat.mod_lt _ (by decide)

end Sys2Proof.CheckDigits

open Sys2Proof Sys2Proof.Machine Sys2Proof.CheckDigits

/-- Settles O58: the digit is the expected value, which under M11 is a digit unless it is 10. -/
theorem checkDigitsAreUnique : Obligations.CheckDigitsAreUnique := by
  unfold Obligations.CheckDigitsAreUnique
  intro data
  have below := m11Expected_lt data
  refine ⟨⟨w31Expected data, w31Expected_lt data, (checkDigitOk_w31_append data _).mpr rfl,
    fun e _ => (checkDigitOk_w31_append data e).mp⟩, fun ten d hd => ?_, fun digit => ?_⟩
  · rw [← Bool.not_eq_true, checkDigitOk_m11_append]
    omega
  · exact ⟨m11Expected data, by omega, fun e _ => checkDigitOk_m11_append data e⟩
end

