-- ==== Sys2Proof/Proofs/OtherScans.lean ====
section
/-! SUPPORT. The scans that are neither a borrower's, an item's nor a staff member's (R4, R29, R33). -/

namespace Sys2Proof.Desk

open Sys2Proof.Machine

variable {s : State} {st : Station} {digits : List Nat}

theorem ignoredScan_taken (h : s.takesNext st (.scan digits)) (hc : classify s.active.prefixTable digits = .ignore)
    (ha : s.attended st) :
    exec .ignoreOrCcRefusedScan s =
      .next (settle s (showUnwiped st (s.console st).wiped (served st (current s st) s))) := by
  refine (scan_taken (takes := isOtherScan) h ?_ ha).trans ?_
  · simp [isOtherScan, State.scanOf, hc]
  · simp [scanDecision, State.scanOf, hc]

theorem refusedScan_taken {r : Reason} (h : s.takesNext st (.scan digits))
    (hc : classify s.active.prefixTable digits = .refused r) (ha : s.attended st) :
    exec .ignoreOrCcRefusedScan s =
      .next (settle s (refuseInSession st r none (served st (current s st) s))) := by
  refine (scan_taken (takes := isOtherScan) h ?_ ha).trans ?_
  · simp [isOtherScan, State.scanOf, hc]
  · simp [scanDecision, State.scanOf, hc]

/-- With the WIPED mark clear no text comes back. -/
theorem showUnwiped_clear {w : Bool} (h : w = false) : showUnwiped st w s = s := by
  simp [showUnwiped, h]

end Sys2Proof.Desk

open Sys2Proof Sys2Proof.Machine Sys2Proof.Desk

/-- Settles O24: an IGNORE scan leaves what the taking of its input leaves; any other is refused in its session. -/
theorem otherScansAreIgnoredOrRefused : Obligations.OtherScansAreIgnoredOrRefused := by
  unfold Obligations.OtherScansAreIgnoredOrRefused
  intro s st digits htakes ha
  refine ⟨fun hclass clear => ?_, fun r hclass => ?_⟩
  · have taken := ignoredScan_taken htakes hclass ha
    rw [showUnwiped_clear clear] at taken
    have decided := decided_of_redrawn (z := s) (Redrawn.refl st (served st (current s st) s))
    exact ⟨_, taken, signalled_none _, decided.slips, decided.session, decided.unrecorded, decided.cache,
      decided.frame.1, decided.frame.2⟩
  · obtain ⟨refused, session, frame⟩ := refuseInSession_served ha r none
    exact ⟨_, refusedScan_taken htakes hclass ha, refused, session, frame.1, frame.2⟩
end

