-- ==== Sys2Proof/Proofs/TableWrites.lean ====
section
/-! SUPPORT. A table write as its rule decides it (R169, R173, R180, R181), and what the writes to numbered elements and
to ranged values have in common. -/

namespace Sys2Proof.TableWrites

open Sys2Proof.Machine

variable {s : State} {q : Req} {name : ReqName} {b b' : Bank}

/-! ### The answer -/

theorem bank_received (q : Req) (name : ReqName) (s : State) (n : BankName) :
    (received q name s).bank n = s.bank n := by
  unfold received
  split <;> simp [goodLineFrame, clearLastError]

theorem writeBar_received (q : Req) (name : ReqName) (s : State) (n : BankName) :
    writeBar n (received q name s) = writeBar n s := by
  unfold received
  split <;> simp [writeBar, goodLineFrame, clearLastError]

theorem writeBar_admitted {l : Line} {n : BankName} (h : s.admitsWrite l n) : writeBar n s = none := by
  obtain ⟨-, free, staged⟩ := h
  cases n with
  | active => simp [writeBar, free]
  | staged => simp [writeBar, free, staged rfl]

theorem hears_of_admitsWrite {l : Line} {n : BankName} (h : s.admitsWrite l n) : s.hears l := h.1.1.1

/-- A write that its own rule refuses changes no table (R180 step 5, R181). -/
theorem tableRequest_refused {α : Type} {p : α} {bank : α → BankName} {borrower item : α → Option Number}
    {rule : α → Bank → WriteResult} {st : Status} (h : s.admitsWrite q.line (bank p))
    (hb : rule p (s.bank (bank p)) = .error st) :
    tableRequest q name (.shaped p) bank borrower item rule s =
      .next (answered q name (Reply.bare st) s (received q name s)) := by
  have unbarred := writeBar_admitted h
  obtain ⟨⟨⟨⟨running, still, active⟩, unlocked⟩, owner⟩, -⟩ := h
  rw [tableRequest, request_taken running still (gate_open active (.inr unlocked) fun _ => owner)]
  simp only [writeTable, writeBar_received, unbarred, bank_received, hb]

/-- A malformed content is refused before any rule sees it (R180 step 2). -/
theorem tableRequest_malformed {α : Type} {bank : α → BankName} {borrower item : α → Option Number}
    {rule : α → Bank → WriteResult} (h : s.hears q.line) :
    tableRequest q name .malformed bank borrower item rule s =
      .next (answered q name (Reply.bare .badRequest) s (received q name s)) := by
  obtain ⟨running, still, active⟩ := h
  have barred : gate q name false true (received q name s) = some .badRequest := by
    rw [gate_received]
    simp [gate, active]
  rw [tableRequest, request, requestEvent, lineEvent_taken running still]
  change Host.Outcome.next (settle s (answer q name
    (received q name s, Reply.bare ((gate q name false true (received q name s)).getD .badRequest)))) = _
  rw [barred]
  rfl

theorem plainWrite_taken {α : Type} {p : α} {bank : α → BankName} {rule : α → Bank → WriteResult} {st : Status}
    (h : s.admitsWrite q.line (bank p)) (hb : rule p (s.bank (bank p)) = taken b' st .plain) :
    plainWrite q name (.shaped p) bank rule s = .next (written q name (bank p) none none (Reply.bare st) b' s) :=
  tableRequest_taken h hb

theorem plainWrite_refused {α : Type} {p : α} {bank : α → BankName} {rule : α → Bank → WriteResult} {st : Status}
    (h : s.admitsWrite q.line (bank p)) (hb : rule p (s.bank (bank p)) = .error st) :
    plainWrite q name (.shaped p) bank rule s = .next (answered q name (Reply.bare st) s (received q name s)) :=
  tableRequest_refused h hb

/-! ### Numbered elements -/

theorem writeElement_inside {size : Nat} (i : Fin size) (write : Fin size → WriteResult) :
    writeElement size i.val write = write i := by
  simp [writeElement]

theorem writeElement_outside {size index : Nat} (h : size ≤ index) (write : Fin size → WriteResult) :
    writeElement size index write = .error .badValue := by
  simp [writeElement, Nat.not_lt.mpr h]

/-- A rule that refuses the values at every number refuses them at a number out of range as well. -/
theorem writeElement_badValue {size index : Nat} {write : Fin size → WriteResult}
    (h : ∀ i, write i = .error .badValue) : writeElement size index write = .error .badValue := by
  unfold writeElement
  split
  · exact h _
  · rfl

/-! ### Ranged values -/

theorem clamp_eq_max_min {lo hi : Nat} (h : lo ≤ hi) (v : Nat) : clamp lo hi v = max lo (min hi v) := by
  unfold clamp
  split
  · omega
  · split <;> omega

theorem clamp_zero (hi v : Nat) : clamp 0 hi v = min hi v := by
  rw [clamp_eq_max_min (Nat.zero_le hi), Nat.zero_max]

theorem clamps_iff {lo hi v : Nat} : clamps lo hi v = true ↔ v < lo ∨ hi < v := by simp [clamps]

/-- A write is answered OK exactly when it stores the values it was given. -/
theorem okOrPartial_exact {changed : Bool} {p : Prop} [Decidable p] (h : changed = true ↔ ¬p) :
    okOrPartial changed = if decide p then .ok else .partiallyTaken := by
  by_cases hp : p
  · have : changed = false := by simpa [hp] using h
    simp [okOrPartial, this, hp]
  · have : changed = true := h.mpr hp
    simp [okOrPartial, this, hp]

end Sys2Proof.TableWrites
end

