-- ==== Sys2Proof/Proofs/PrefixAndStaff.lean ====
section
/-! SUPPORT. The rules of PUT_PREFIX, DEL_PREFIX, PUT_STAFF and DEL_STAFF (R38, R39, R41), case by case. -/

namespace Sys2Proof.TableWrites

open Sys2Proof.Machine

variable {s : State} {q : Req} {b : Bank}

/-! ### Patterns -/

theorem patternOf_map_some (l : List PatternPos) : patternOf (l.map some) = some l := by
  induction l with
  | nil => rfl
  | cons x xs ih => simp [patternOf, ih]

theorem patternOf_unfit {l : List (Option PatternPos)} (h : none ∈ l) : patternOf l = none := by
  induction l with
  | nil => cases h
  | cons x xs ih =>
    cases x with
    | none => rfl
    | some x => simp [patternOf, ih (by simpa using h)]

theorem execPutPrefix_fits {p : PutPrefixParams} (h : p.pattern.length ≤ 16) :
    exec (.putPrefix q (.shaped p)) s =
      plainWrite q .putPrefix (.shaped p) (fun p => p.bank) putPrefixRule s := by
  change execPutPrefix q (.shaped p) s = _
  simp [execPutPrefix, shapedWhen, patternCapacity, h]

theorem execPutPrefix_tooLong {p : PutPrefixParams} (h : 16 < p.pattern.length) :
    exec (.putPrefix q (.shaped p)) s =
      plainWrite q .putPrefix .malformed (fun p => p.bank) putPrefixRule s := by
  change execPutPrefix q (.shaped p) s = _
  simp [execPutPrefix, shapedWhen, patternCapacity, Nat.not_le.mpr h]

/-! ### Defaults -/

/-- The default an entry of a kind holds: the category or the class, and none for the two kinds that name neither. -/
def heldDefault (kind : CodeKind) (default : Nat) : Nat :=
  match kind with
  | .borrower | .item => default
  | .staff | .ignore => 0

/-- A category above 15 of a BORROWER entry, or a class above 31 of an ITEM entry. -/
def DefaultTooHigh (kind : CodeKind) (default : Nat) : Prop :=
  (kind = .borrower ∧ 15 < default) ∨ (kind = .item ∧ 31 < default)

theorem prefixDefault_held {kind : CodeKind} {default : Nat} (h : ¬DefaultTooHigh kind default) :
    prefixDefault kind default = some (heldDefault kind default) := by
  cases kind with
  | borrower =>
    have : default ≤ 15 := by simpa [DefaultTooHigh] using h
    simp [prefixDefault, heldDefault, this]
  | item =>
    have : default ≤ 31 := by simpa [DefaultTooHigh] using h
    simp [prefixDefault, heldDefault, this]
  | staff => rfl
  | ignore => rfl

theorem prefixDefault_tooHigh {kind : CodeKind} {default : Nat} (h : DefaultTooHigh kind default) :
    prefixDefault kind default = none := by
  obtain ⟨rfl, h⟩ | ⟨rfl, h⟩ := h
  · exact if_neg (Nat.not_le.mpr h)
  · exact if_neg (Nat.not_le.mpr h)

/-! ### Prefix entries -/

/-- A PUT_PREFIX whose position, pattern, check and kind are all meant. -/
def putPrefixOf (bank : BankName) (i : Fin 32) (pattern : List PatternPos) (lo hi strip default : Nat)
    (check : CheckScheme) (kind : CodeKind) : PutPrefixParams :=
  { bank := bank, position := i.val, pattern := pattern.map some, minLength := lo, maxLength := hi
    check := some check, kind := some kind, strip := strip, default := default }

section
variable {bank : BankName} {i : Fin 32} {pattern : List PatternPos} {lo hi strip default : Nat} {check : CheckScheme}
  {kind : CodeKind}

theorem prefixClamps_iff : prefixClamps (putPrefixOf bank i pattern lo hi strip default check kind) = true ↔
    ¬(max 4 (min 16 lo) = lo ∧ max 4 (min 16 hi) = hi ∧ strip ≤ 8) := by
  simp only [prefixClamps, putPrefixOf, Bool.or_eq_true, clamps_iff]
  omega

theorem putPrefixRule_stores (ordered : max 4 (min 16 lo) ≤ max 4 (min 16 hi))
    (fits : pattern.length ≤ max 4 (min 16 hi)) (hd : ¬DefaultTooHigh kind default) :
    putPrefixRule (putPrefixOf bank i pattern lo hi strip default check kind) b =
      taken
        { b with
          prefixTable := b.prefixTable.set i
            { inUse := true, pattern := pattern, minLength := max 4 (min 16 lo), maxLength := max 4 (min 16 hi)
              check := check, kind := kind, strip := min 8 strip, default := heldDefault kind default } }
        (if decide (max 4 (min 16 lo) = lo ∧ max 4 (min 16 hi) = hi ∧ strip ≤ 8) then .ok else .partiallyTaken)
        .plain := by
  rw [← okOrPartial_exact prefixClamps_iff]
  simp only [putPrefixRule, putPrefixOf, writeElement_inside, patternOf_map_some, prefixDefault_held hd, clamp_zero,
    clamp_eq_max_min (show 4 ≤ 16 by decide)]
  rw [if_neg (by omega)]

theorem putPrefixRule_refuses
    (h : max 4 (min 16 hi) < max 4 (min 16 lo) ∨ max 4 (min 16 hi) < pattern.length ∨ DefaultTooHigh kind default) :
    putPrefixRule (putPrefixOf bank i pattern lo hi strip default check kind) b = .error .badValue := by
  simp only [putPrefixRule, putPrefixOf, writeElement_inside, patternOf_map_some,
    clamp_eq_max_min (show 4 ≤ 16 by decide)]
  split
  · rfl
  next sound =>
  obtain short | long | high := h
  · exact absurd (.inl short) sound
  · exact absurd (.inr long) sound
  · rw [prefixDefault_tooHigh high]

end

theorem putPrefixRule_badValue {p : PutPrefixParams}
    (h : 31 < p.position ∨ p.kind = none ∨ p.check = none ∨ none ∈ p.pattern) :
    putPrefixRule p b = .error .badValue := by
  unfold putPrefixRule
  obtain h | h | h | h := h
  · exact writeElement_outside h _
  · exact writeElement_badValue fun i => by simp [h]
  · exact writeElement_badValue fun i => by simp [h]
  · exact writeElement_badValue fun i => by simp [patternOf_unfit h]

theorem delPrefixRule_removes {bank : BankName} {i : Fin 32} (h : b.prefixTable[i].inUse = true) :
    delPrefixRule { bank := bank, index := i.val } b =
      taken { b with prefixTable := b.prefixTable.set i PrefixEntry.unused } .ok .plain := by
  simp only [delPrefixRule, writeElement_inside]
  exact if_pos h

theorem delPrefixRule_notFound {bank : BankName} {i : Fin 32} (h : b.prefixTable[i].inUse = false) :
    delPrefixRule { bank := bank, index := i.val } b = .error .notFound := by
  simp only [delPrefixRule, writeElement_inside]
  exact if_neg (ne_true_of_eq_false h)

theorem delPrefixRule_badValue {p : BankIndex} (h : 31 < p.index) : delPrefixRule p b = .error .badValue :=
  writeElement_outside h _

/-! ### Staff -/

theorem putStaffRule_badValue {p : PutStaffParams}
    (h : (p.number.digits < 4 ∨ 14 < p.number.digits) ∨ p.overrides.outside = true) :
    putStaffRule p b = .error .badValue := by
  have unmeant : (!p.number.countOk || p.overrides.outside) = true := by
    obtain h | h := h
    · have : p.number.countOk = false := by
        simp only [Number.countOk, decide_eq_false_iff_not]
        omega
      simp [this]
    · simp [h]
  rw [putStaffRule, if_pos unmeant]

section
variable {bank : BankName} {n : Number} {set : OverrideSet}

/-- A PUT_STAFF with a number of 4 to 14 digits and a set of known reasons. -/
theorem putStaffRule_meant (four : 4 ≤ n.digits) (fourteen : n.digits ≤ 14) :
    putStaffRule { bank := bank, number := n, overrides := { set := set, outside := false } } b =
      if (b.staff.any fun e => e.number = n) = true then
        taken { b with staff := b.staff.map fun e => if e.number = n then { e with overrides := set } else e } .ok
          .plain
      else if b.staff.length < 64 then
        taken
          { b with
            staff := insertBy (fun x y => x.number.lt y.number) { number := n, overrides := set } b.staff } .ok .plain
      else .error .full := by
  have meant : n.countOk = true := by simp [Number.countOk, four, fourteen]
  simp only [putStaffRule, meant]
  rfl

theorem delStaffRule_removes (h : (b.staff.any fun e => e.number = n) = true) :
    delStaffRule { bank := bank, number := n } b =
      taken { b with staff := b.staff.filter fun e => e.number ≠ n } .ok .plain := if_pos h

theorem delStaffRule_notFound (h : (b.staff.any fun e => e.number = n) = false) :
    delStaffRule { bank := bank, number := n } b = .error .notFound := if_neg (ne_true_of_eq_false h)

end

end Sys2Proof.TableWrites
end

