-- ==== Sys2Proof/Proofs/RecordsAndRules.lean ====
section
/-! SUPPORT. The rules of the writes to category and class records and to rule cells (R87, R88, R89, R107, R108), case by
case. -/

namespace Sys2Proof.TableWrites

open Sys2Proof.Machine

variable {bank : BankName} {b : Bank}

/-! ### Category and class records -/

theorem putCategoryRule_stores (i : Fin 16) (loan fine overdue pickup digits : Nat) (term : Option Nat) :
    putCategoryRule
        { bank := bank, category := i.val, loanLimit := loan, fineLimit := fine, overdueLimit := overdue
          termEndDay := term, pickupDays := pickup, shownDigits := digits } b =
      taken
        { b with
          categories := b.categories.set i
            { loanLimit := min 255 loan, fineLimit := min 9999999 fine, overdueLimit := min 255 overdue
              termEndDay := term, pickupDays := max 1 (min 30 pickup), shownDigits := min 14 digits } }
        (if decide (loan ≤ 255 ∧ fine ≤ 9999999 ∧ overdue ≤ 255 ∧ 1 ≤ pickup ∧ pickup ≤ 30 ∧ digits ≤ 14) then .ok
        else .partiallyTaken)
        .plain := by
  have inexact : (clamps 0 255 loan || clamps 0 9999999 fine || clamps 0 255 overdue || clamps 1 30 pickup ||
      clamps 0 14 digits) = true ↔
      ¬(loan ≤ 255 ∧ fine ≤ 9999999 ∧ overdue ≤ 255 ∧ 1 ≤ pickup ∧ pickup ≤ 30 ∧ digits ≤ 14) := by
    simp only [Bool.or_eq_true, clamps_iff]
    omega
  rw [← okOrPartial_exact inexact]
  simp only [putCategoryRule, writeElement_inside, moneyMax, clamp_zero, clamp_eq_max_min (show 1 ≤ 30 by decide)]

theorem putCategoryRule_badValue {p : PutCategoryParams} (h : 15 < p.category) :
    putCategoryRule p b = .error .badValue := writeElement_outside h _

theorem delCategoryRule_clears (i : Fin 16) :
    delCategoryRule { bank := bank, index := i.val } b =
      taken { b with categories := b.categories.set i CategoryRec.cleared } .ok .plain := writeElement_inside i _

theorem delCategoryRule_badValue {p : BankIndex} (h : 15 < p.index) : delCategoryRule p b = .error .badValue :=
  writeElement_outside h _

theorem putClassRule_stores (i : Fin 32) (loanable holdable : Bool) (fixed : Option Nat) (checkout routing : Fin 8) :
    putClassRule
        { bank := bank, itemClass := i.val, loanable := loanable, fixedDueDay := fixed, holdable := holdable
          checkoutTemplate := checkout.val, routingTemplate := routing.val } b =
      taken
        { b with
          classes := b.classes.set i
            { loanable := loanable, fixedDueDay := fixed, holdable := holdable, checkoutTemplate := checkout
              routingTemplate := routing } } .ok .plain := by
  simp only [putClassRule, writeElement_inside, checkout.isLt, routing.isLt, dite_true]
  rfl

theorem putClassRule_badValue {p : PutClassParams}
    (h : 31 < p.itemClass ∨ 7 < p.checkoutTemplate ∨ 7 < p.routingTemplate) :
    putClassRule p b = .error .badValue := by
  unfold putClassRule
  obtain h | h | h := h
  · exact writeElement_outside h _
  · refine writeElement_badValue fun i => dif_neg (Nat.not_lt.mpr h)
  · refine writeElement_badValue fun i => ?_
    split
    · exact dif_neg (Nat.not_lt.mpr h)
    · rfl

theorem delClassRule_clears (i : Fin 32) :
    delClassRule { bank := bank, index := i.val } b =
      taken { b with classes := b.classes.set i ClassRec.cleared } .ok .plain := writeElement_inside i _

theorem delClassRule_badValue {p : BankIndex} (h : 31 < p.index) : delClassRule p b = .error .badValue :=
  writeElement_outside h _

/-! ### Rule cells -/

/-- The period a cell of a kind stores. -/
def storedPeriod (kind : CellKind) (period : Nat) : Nat :=
  match kind with
  | .days => max 1 (min 180 period)
  | .hours => max 1 (min 72 period)
  | .none => 1

theorem periodFor_stored (kind : CellKind) (period : Nat) : (periodFor kind period).1 = storedPeriod kind period := by
  cases kind with
  | days => exact clamp_eq_max_min (by decide) period
  | hours => exact clamp_eq_max_min (by decide) period
  | none => rfl

/-- A cell of kind NONE keeps no period, so none is clamped (R108). -/
theorem periodFor_clamps (kind : CellKind) (period : Nat) :
    (periodFor kind period).2 = true ↔ ¬(kind = .none ∨ storedPeriod kind period = period) := by
  cases kind with
  | days =>
    simp only [periodFor, storedPeriod, clamps_iff, reduceCtorEq, false_or]
    omega
  | hours =>
    simp only [periodFor, storedPeriod, clamps_iff, reduceCtorEq, false_or]
    omega
  | none => simp [periodFor]

theorem putRuleRule_stores (i : Fin 16) (j : Fin 32) (kind : CellKind) (period renew round : Nat) :
    putRuleRule
        { bank := bank, category := i.val, itemClass := j.val, kind := some kind, period := period
          renewLimit := renew, roundStep := round } b =
      taken
        { b with
          rules := b.rules.set i
            (b.rules[i].set j
              { kind := kind, period := storedPeriod kind period, renewLimit := min 9 renew
                roundStep := roundStepFor round }) }
        (if decide ((kind = .none ∨ storedPeriod kind period = period) ∧ renew ≤ 9 ∧ roundStepFor round = round) then
          .ok
        else .partiallyTaken)
        .plain := by
  have inexact : ((periodFor kind period).2 || clamps 0 9 renew || decide (roundStepFor round ≠ round)) = true ↔
      ¬((kind = .none ∨ storedPeriod kind period = period) ∧ renew ≤ 9 ∧ roundStepFor round = round) := by
    simp only [Bool.or_eq_true, periodFor_clamps, clamps_iff, decide_eq_true_eq, Nat.not_lt_zero, false_or]
    rw [not_and_or, not_and_or, Nat.not_le, or_assoc]
  rw [← okOrPartial_exact inexact]
  simp only [putRuleRule, writeElement_inside, periodFor_stored, clamp_zero]

theorem putRuleRule_badValue {p : PutRuleParams} (h : 15 < p.category ∨ 31 < p.itemClass ∨ p.kind = none) :
    putRuleRule p b = .error .badValue := by
  unfold putRuleRule
  obtain h | h | h := h
  · exact writeElement_outside h _
  · exact writeElement_badValue fun i => writeElement_outside h _
  · exact writeElement_badValue fun i => writeElement_badValue fun j => by simp [h]

theorem delRuleRule_clears (i : Fin 16) (j : Fin 32) :
    delRuleRule { bank := bank, category := i.val, itemClass := j.val } b =
      taken { b with rules := b.rules.set i (b.rules[i].set j Cell.cleared) } .ok .plain :=
  (writeElement_inside i _).trans (writeElement_inside j _)

theorem delRuleRule_badValue {p : DelRuleParams} (h : 15 < p.category ∨ 31 < p.itemClass) :
    delRuleRule p b = .error .badValue := by
  unfold delRuleRule
  obtain h | h := h
  · exact writeElement_outside h _
  · exact writeElement_badValue fun i => writeElement_outside h _

end Sys2Proof.TableWrites

open Sys2Proof Sys2Proof.Machine Sys2Proof.TableWrites

/-- Settles O50: each write is answered as its rule decides, and the rules are taken case by case. -/
theorem prefixStaffRecordAndRuleWrites : Obligations.PrefixStaffRecordAndRuleWrites := by
  unfold Obligations.PrefixStaffRecordAndRuleWrites
  refine ⟨fun s q bank h => ?tables, fun s q bank h => ?records, fun s q => ?badValues⟩
  case tables =>
    refine ⟨fun i pattern lo hi strip default check kind short => ?_,
      fun i => ⟨fun used => plainWrite_taken h (delPrefixRule_removes used),
        fun unused => plainWrite_refused h (delPrefixRule_notFound unused)⟩,
      fun n => ⟨fun set four fourteen => ?_, fun known => plainWrite_taken h (delStaffRule_removes known),
        fun unknown => plainWrite_refused h (delStaffRule_notFound unknown)⟩⟩
    · have fits : (putPrefixOf bank i pattern lo hi strip default check kind).pattern.length ≤ 16 :=
        (List.length_map ..).trans_le short
      exact ⟨fun ordered long high =>
          (execPutPrefix_fits fits).trans (plainWrite_taken h (putPrefixRule_stores ordered long high)),
        fun bad => (execPutPrefix_fits fits).trans (plainWrite_refused h (putPrefixRule_refuses bad))⟩
    · have rule := putStaffRule_meant (bank := bank) (b := s.bank bank) (set := set) four fourteen
      refine ⟨fun known => ?_, fun unknown room => ?_, fun unknown full => ?_⟩
      · rw [if_pos known] at rule
        exact plainWrite_taken h rule
      · rw [if_neg (ne_true_of_eq_false unknown), if_pos room] at rule
        exact plainWrite_taken h rule
      · rw [if_neg (ne_true_of_eq_false unknown), if_neg (Nat.not_lt.mpr full)] at rule
        exact plainWrite_refused h rule
  case records =>
    exact ⟨fun i loan fine overdue pickup digits term =>
        plainWrite_taken h (putCategoryRule_stores i loan fine overdue pickup digits term),
      fun i => plainWrite_taken h (delCategoryRule_clears i),
      fun i loanable holdable fixed checkout routing =>
        plainWrite_taken h (putClassRule_stores i loanable holdable fixed checkout routing),
      fun i => plainWrite_taken h (delClassRule_clears i),
      fun i j kind period renew round => plainWrite_taken h (putRuleRule_stores i j kind period renew round),
      fun i j => plainWrite_taken h (delRuleRule_clears i j)⟩
  case badValues =>
    exact ⟨fun p h long => (execPutPrefix_tooLong long).trans (tableRequest_malformed (hears_of_admitsWrite h)),
      fun p h short bad => (execPutPrefix_fits short).trans (plainWrite_refused h (putPrefixRule_badValue bad)),
      fun p h bad => plainWrite_refused h (putStaffRule_badValue bad),
      fun p h bad => plainWrite_refused h (putCategoryRule_badValue bad),
      fun p h bad => plainWrite_refused h (putClassRule_badValue bad),
      fun p h bad => plainWrite_refused h (putRuleRule_badValue bad),
      fun p h bad => plainWrite_refused h (delRuleRule_badValue bad),
      fun p h => ⟨fun bad => plainWrite_refused h (delCategoryRule_badValue bad),
        fun bad => ⟨plainWrite_refused h (delClassRule_badValue bad),
          plainWrite_refused h (delPrefixRule_badValue bad)⟩⟩⟩
end

