-- ==== Sys2Proof/Proofs/SoundCollections.lean ====
section
/-! SUPPORT. The order and the capacity of a bank's collections (R41, R43, R64, R65, R66, R90), collection by collection:
what a change of values, an entry that leaves and an entry that joins make of them. -/

namespace Sys2Proof.Keeping

open Sys2Proof.Machine
open Sys2Proof.Links (nodup_of_ascending)

/-! ### Order -/

theorem lt_trans_number {a b c : Number} (hab : a.lt b = true) (hbc : b.lt c = true) : a.lt c = true := by
  simp only [Number.lt, Bool.or_eq_true, Bool.and_eq_true, decide_eq_true_eq] at *
  omega

theorem lt_or_lt_of_ne {a b : Number} (h : a ≠ b) : a.lt b = true ∨ b.lt a = true := by
  have parts : ¬(a.value = b.value ∧ a.digits = b.digits) := fun ⟨hv, hd⟩ => h (by cases a; cases b; simp_all)
  simp only [Number.lt, Bool.or_eq_true, Bool.and_eq_true, decide_eq_true_eq]
  omega

/-- An insertion keeps the order where the new element is comparable with each old one. -/
theorem pairwise_insertBy {α : Type} {lt : α → α → Bool}
    (trans : ∀ a b c, lt a b = true → lt b c = true → lt a c = true)
    {e : α} {l : List α} (comparable : ∀ x ∈ l, lt e x = true ∨ lt x e = true)
    (h : l.Pairwise fun a b => lt a b = true) : (insertBy lt e l).Pairwise fun a b => lt a b = true := by
  induction l with
  | nil => simp [insertBy]
  | cons x xs ih =>
    obtain ⟨hx, hxs⟩ := List.pairwise_cons.mp h
    unfold insertBy
    split
    · next first =>
      refine List.pairwise_cons.mpr ⟨fun y hy => ?_, h⟩
      obtain rfl | hy := List.mem_cons.mp hy
      · exact first
      · exact trans _ _ _ first (hx y hy)
    · next later =>
      have behind : lt x e = true := (comparable x (by simp)).resolve_left later
      refine List.pairwise_cons.mpr ⟨fun y hy => ?_, ih (fun y hy => comparable y (by simp [hy])) hxs⟩
      obtain rfl | hy := (mem_insertBy lt e y xs).mp hy
      · exact behind
      · exact hx y hy

/-- An element whose number no other has joins in order. -/
theorem ascending_insertBy {α : Type} {key : α → Number} {e : α} {l : List α} (new : ∀ x ∈ l, key x ≠ key e)
    (h : ascending key l) : ascending key (insertBy (fun x y => (key x).lt (key y)) e l) :=
  pairwise_insertBy (lt := fun x y => (key x).lt (key y)) (fun _ _ _ => lt_trans_number)
    (fun x hx => lt_or_lt_of_ne (new x hx).symm) h

theorem ascending_of_keys {α : Type} {key : α → Number} {l l' : List α} (hk : l'.map key = l.map key)
    (h : ascending key l) : ascending key l' := by
  have keys : (l'.map key).Pairwise fun a b => a.lt b = true := hk ▸ List.pairwise_map.mpr h
  exact List.pairwise_map.mp keys

/-- In an ascending list a number names one element. -/
theorem eq_of_ascending {α : Type} {key : α → Number} {l : List α} (h : ascending key l) {x y : α} (hx : x ∈ l)
    (hy : y ∈ l) (e : key x = key y) : x = y :=
  List.inj_on_of_nodup_map (nodup_of_ascending h) hx hy e

theorem length_of_keys {α β : Type} {key : α → β} {l l' : List α} (hk : l'.map key = l.map key) :
    l'.length = l.length := by
  simpa using congrArg List.length hk

/-! ### The four collections -/

def BorrowersSound (l : List Borrower) : Prop := ascending Borrower.number l ∧ l.length ≤ borrowerCapacity

/-- The number of holds in a list of items. -/
def holdsOf (l : List Item) : Nat := (l.map fun e => e.queue.length).sum

def ItemsSound (l : List Item) : Prop :=
  ascending Item.number l ∧ l.length ≤ itemCapacity ∧ holdsOf l ≤ itemCapacity ∧
    ∀ e ∈ l, e.spent = false ∧ e.queue.length ≤ queueCapacity

def StaffSound (l : List StaffEntry) : Prop := ascending StaffEntry.number l ∧ l.length ≤ staffCapacity

def ExceptionsSound (l : List CalendarException) : Prop :=
  (l.Pairwise fun x y => x.day < y.day) ∧ l.length ≤ exceptionCapacity

theorem bankSound_iff (b : Bank) : BankSound b ↔
    BorrowersSound b.borrowers ∧ ItemsSound b.items ∧ StaffSound b.staff ∧ ExceptionsSound b.exceptions := by
  simp only [BankSound, BorrowersSound, ItemsSound, StaffSound, ExceptionsSound, and_assoc, Bank.holdCount, holdsOf]

/-! ### Borrowers and staff -/

theorem borrowersSound_of_numbers {l l' : List Borrower} (hn : l'.map Borrower.number = l.map Borrower.number)
    (h : BorrowersSound l) : BorrowersSound l' :=
  ⟨ascending_of_keys hn h.1, length_of_keys hn ▸ h.2⟩

theorem borrowersSound_sublist {l l' : List Borrower} (hs : l'.Sublist l) (h : BorrowersSound l) :
    BorrowersSound l' :=
  ⟨h.1.sublist hs, hs.length_le.trans h.2⟩

theorem borrowersSound_insert {l : List Borrower} {e : Borrower} (new : ∀ x ∈ l, x.number ≠ e.number)
    (room : l.length < borrowerCapacity) (h : BorrowersSound l) :
    BorrowersSound (insertBy (fun x y => x.number.lt y.number) e l) :=
  ⟨ascending_insertBy new h.1, (insertBy_length _ _ _).trans_le room⟩

theorem staffSound_of_numbers {l l' : List StaffEntry} (hn : l'.map StaffEntry.number = l.map StaffEntry.number)
    (h : StaffSound l) : StaffSound l' :=
  ⟨ascending_of_keys hn h.1, length_of_keys hn ▸ h.2⟩

theorem staffSound_sublist {l l' : List StaffEntry} (hs : l'.Sublist l) (h : StaffSound l) : StaffSound l' :=
  ⟨h.1.sublist hs, hs.length_le.trans h.2⟩

theorem staffSound_insert {l : List StaffEntry} {e : StaffEntry} (new : ∀ x ∈ l, x.number ≠ e.number)
    (room : l.length < staffCapacity) (h : StaffSound l) :
    StaffSound (insertBy (fun x y => x.number.lt y.number) e l) :=
  ⟨ascending_insertBy new h.1, (insertBy_length _ _ _).trans_le room⟩

/-! ### Exceptions -/

theorem exceptionsSound_of_days {l l' : List CalendarException}
    (hd : l'.map CalendarException.day = l.map CalendarException.day) (h : ExceptionsSound l) : ExceptionsSound l' := by
  have days : (l'.map CalendarException.day).Pairwise (· < ·) := hd ▸ List.pairwise_map.mpr h.1
  exact ⟨List.pairwise_map.mp days, length_of_keys hd ▸ h.2⟩

theorem exceptionsSound_sublist {l l' : List CalendarException} (hs : l'.Sublist l) (h : ExceptionsSound l) :
    ExceptionsSound l' :=
  ⟨h.1.sublist hs, hs.length_le.trans h.2⟩

theorem exceptionsSound_insert {l : List CalendarException} {e : CalendarException} (new : ∀ x ∈ l, x.day ≠ e.day)
    (room : l.length < exceptionCapacity) (h : ExceptionsSound l) :
    ExceptionsSound (insertBy (fun x y => decide (x.day < y.day)) e l) := by
  refine ⟨?_, (insertBy_length _ _ _).trans_le room⟩
  have ordered : l.Pairwise fun x y => decide (x.day < y.day) = true := h.1.imp fun hxy => by simpa using hxy
  have inserted := pairwise_insertBy (lt := fun x y : CalendarException => decide (x.day < y.day)) (e := e)
    (fun a b c hab hbc => by simp only [decide_eq_true_eq] at *; omega)
    (fun x hx => by simpa using lt_or_gt_of_ne (new x hx).symm) ordered
  exact inserted.imp fun hxy => by simpa using hxy

/-! ### Items and their holds -/

theorem holdsOf_sublist {l l' : List Item} (hs : l'.Sublist l) : holdsOf l' ≤ holdsOf l :=
  (hs.map _).sum_le_sum fun _ _ => Nat.zero_le _

theorem holdsOf_map_le {l : List Item} {g : Item → Item} (hg : ∀ e ∈ l, (g e).queue.length ≤ e.queue.length) :
    holdsOf (l.map g) ≤ holdsOf l := by
  unfold holdsOf
  rw [List.map_map]
  exact List.sum_le_sum hg

theorem itemsSound_sublist {l l' : List Item} (hs : l'.Sublist l) (h : ItemsSound l) : ItemsSound l' := by
  obtain ⟨order, count, holds, each⟩ := h
  exact ⟨order.sublist hs, hs.length_le.trans count, (holdsOf_sublist hs).trans holds,
    fun e he => each e (hs.subset he)⟩

/-- Items change, none gaining a hold, and the spent ones leave (R65). -/
theorem itemsSound_change {l : List Item} {g : Item → Item} {p : Item → Bool} (hn : ∀ e, (g e).number = e.number)
    (hq : ∀ e ∈ l, (g e).queue.length ≤ e.queue.length) (hp : ∀ e ∈ l, p (g e) = true → (g e).spent = false)
    (h : ItemsSound l) : ItemsSound ((l.map g).filter p) := by
  obtain ⟨order, count, holds, each⟩ := h
  have numbers : (l.map g).map Item.number = l.map Item.number := by
    rw [List.map_map]
    exact List.map_congr_left fun e _ => hn e
  have fewer : ((l.map g).filter p).length ≤ l.length :=
    (List.length_filter_le _ _).trans (List.length_map _).le
  refine ⟨(ascending_of_keys numbers order).sublist List.filter_sublist, fewer.trans count,
    (holdsOf_sublist List.filter_sublist).trans ((holdsOf_map_le hq).trans holds), fun x hx => ?_⟩
  obtain ⟨hx, kept⟩ := List.mem_filter.mp hx
  obtain ⟨e, he, rfl⟩ := List.mem_map.mp hx
  exact ⟨hp e he kept, (hq e he).trans (each e he).2⟩

/-- R65: a change of one item, which gains no hold and leaves where it is spent. -/
theorem itemsSound_tidyItem {b : Bank} {n : Number} {f : Item → Item} (hn : ∀ e, (f e).number = e.number)
    (hq : ∀ e ∈ b.items, e.number = n → (f e).queue.length ≤ e.queue.length) (h : ItemsSound b.items) :
    ItemsSound ((b.mapItem n f).tidyItem n).items := by
  refine itemsSound_change (fun e => ?_) (fun e he => ?_) (fun e he kept => ?_) h
  · split
    · exact hn e
    · rfl
  · split
    · next hen => exact hq e he hen
    · exact le_refl _
  · by_cases hen : e.number = n
    · simp only [hen, if_true, hn, decide_true, Bool.true_and, Bool.not_eq_true'] at kept ⊢
      exact kept
    · rw [if_neg hen]
      exact (h.2.2.2 e he).1

/-- A change of an item's queue by no more holds than it has. -/
theorem itemsSound_mapQueue {b : Bank} {n : Number} {f : List Hold → List Hold} (h : ItemsSound b.items)
    (hf : ∀ e ∈ b.items, e.number = n → (f e.queue).length ≤ e.queue.length) :
    ItemsSound (b.mapQueue n f).items :=
  itemsSound_tidyItem (fun _ => rfl) hf h

/-- R72: an override keeps its item in the table. -/
theorem itemsSound_override {b : Bank} {n : Number} {c : Fin 32} (h : ItemsSound b.items) :
    ItemsSound (b.mapItem n fun e => { e with classOverride := some c }).items := by
  have changed := itemsSound_change (g := fun e => if e.number = n then { e with classOverride := some c } else e)
    (p := fun _ => true) (fun e => by split <;> rfl) (fun e _ => by split <;> rfl)
    (fun e he _ => by
      split
      · rfl
      · exact (h.2.2.2 e he).1) h
  rwa [List.filter_true] at changed

/-- A new item joins that is not spent and whose holds find room. -/
theorem itemsSound_joinItem {b : Bank} {e : Item} (new : ∀ x ∈ b.items, x.number ≠ e.number)
    (room : b.items.length < itemCapacity) (holds : b.holdCount + e.queue.length ≤ itemCapacity)
    (live : e.spent = false) (short : e.queue.length ≤ queueCapacity) (h : ItemsSound b.items) :
    ItemsSound (b.joinItem e).items := by
  obtain ⟨order, -, -, each⟩ := h
  refine ⟨ascending_insertBy new order, (insertBy_length _ _ _).trans_le room, ?_, fun x hx => ?_⟩
  · have sum : holdsOf (insertBy (fun x y => x.number.lt y.number) e b.items) = e.queue.length + holdsOf b.items := by
      unfold holdsOf
      rw [((Links.insertBy_perm _ e b.items).map _).sum_eq]
      rfl
    have held : b.holdCount = holdsOf b.items := rfl
    exact sum.trans_le (by omega)
  · obtain rfl | hx := (mem_insertBy _ _ _ _).mp hx
    · exact ⟨live, short⟩
    · exact each x hx

/-- One more hold for one number: the hold count rises by one at most. -/
theorem holdsOf_append {l : List Item} {n : Number} {hold : Hold} (h : ascending Item.number l) :
    holdsOf (l.map fun e => if e.number = n then { e with queue := e.queue ++ [hold] } else e) ≤ holdsOf l + 1 := by
  induction l with
  | nil => exact Nat.zero_le _
  | cons x xs ih =>
    obtain ⟨hx, hxs⟩ := List.pairwise_cons.mp h
    have split_sum : ∀ (y : Item) (ys : List Item), holdsOf (y :: ys) = y.queue.length + holdsOf ys := fun _ _ => rfl
    rw [List.map_cons, split_sum, split_sum]
    by_cases hn : x.number = n
    · have others : xs.map (fun e => if e.number = n then { e with queue := e.queue ++ [hold] } else e) = xs := by
        refine (List.map_congr_left fun e he => if_neg fun hen => ?_).trans xs.map_id'
        have := hx e he
        simp [Number.lt, hn, hen] at this
      rw [others, if_pos hn, List.length_append, List.length_singleton]
      omega
    · rw [if_neg hn]
      have := ih hxs
      omega

/-- R74: a hold joins a queue that has room, in a bank that has room. -/
theorem itemsSound_joinHold {b : Bank} {n : Number} {hold : Hold} (short : (b.queueOf n).length < queueCapacity)
    (room : b.holdCount < itemCapacity) (entry : b.item n = none → b.items.length < itemCapacity)
    (h : ItemsSound b.items) : ItemsSound (b.joinHold n hold).items := by
  unfold Bank.joinHold
  split
  · next known =>
    obtain ⟨order, count, -, each⟩ := h
    obtain ⟨e, he⟩ := Option.isSome_iff_exists.mp known
    have hqueue : b.queueOf n = e.queue := by simp [Bank.queueOf, he]
    obtain ⟨hmem, hen⟩ : e ∈ b.items ∧ e.number = n :=
      ⟨List.mem_of_find?_eq_some he, by simpa using List.find?_some he⟩
    have numbers : (b.mapItem n fun e => { e with queue := e.queue ++ [hold] }).items.map Item.number =
        b.items.map Item.number := by
      simp only [Bank.mapItem, List.map_map]
      exact List.map_congr_left fun x _ => by simp only [Function.comp]; split <;> rfl
    refine ⟨ascending_of_keys numbers order, (length_of_keys numbers).trans_le count,
      (holdsOf_append order).trans room, fun x hx => ?_⟩
    obtain ⟨y, hy, rfl⟩ := List.mem_map.mp hx
    split
    · next hyn =>
      obtain rfl : y = e := eq_of_ascending order hy hmem (hyn.trans hen.symm)
      rw [hqueue] at short
      refine ⟨by simp [Item.spent], ?_⟩
      rw [List.length_append, List.length_singleton]
      exact short
    · exact each y hy
  · next unknown =>
    have hnone : b.item n = none := by simpa using unknown
    refine itemsSound_joinItem (fun x hx => ?_) (entry hnone) room rfl (by show 1 ≤ 4; omega) h
    simpa using List.find?_eq_none.mp hnone x hx

end Sys2Proof.Keeping
end

