-- ==== Sys2Proof/Proofs/SoundBanks.lean ====
section
/-! SUPPORT. What a change of one bank keeps: the order and the capacity of its collections, the `pending` counts of an
ACTIVE bank and the bareness of a staged one (R51, R58). -/

namespace Sys2Proof.Keeping

open Sys2Proof.Machine
open Sys2Proof.Links (find_number oldestEvictable_evictable)

variable {a b c : Bank}

/-! ### The invariants of one bank -/

/-- R51: each entry's `pending` is the number of COUNTED records naming it, and each of these names an entry. -/
def Counted (records : List Record) (b : Bank) : Prop :=
  (∀ e ∈ b.borrowers, e.pending = records.countP (Record.countsFor e.number)) ∧
    ∀ r ∈ records, r.flags.counted = true → ∃ e ∈ b.borrowers, r.borrower = some e.number

/-- R58: a staged entry has no `pending`, no session and no mark. -/
def Plain (b : Bank) : Prop :=
  ∀ e ∈ b.borrowers, e.pending = 0 ∧ e.sessionStation = none ∧ e.provisional = false ∧ e.retiring = false

theorem pendingSound_iff (s : State) :
    PendingSound s ↔ Counted s.journal.records s.active ∧ ∀ b ∈ s.stagedBanks, Plain b := and_assoc.symm

/-- A change that may befall the ACTIVE bank while no record comes or goes. -/
structure ActiveKept (a b : Bank) : Prop where
  sound : BankSound a → BankSound b
  counted : ∀ records, Counted records a → Counted records b

/-- A change that may befall a staged bank. -/
structure StagedKept (a b : Bank) : Prop where
  sound : BankSound a → BankSound b
  plain : Plain a → Plain b

/-- A change that may befall either bank. -/
structure BankKept (a b : Bank) : Prop where
  active : ActiveKept a b
  staged : StagedKept a b

theorem ActiveKept.refl (a : Bank) : ActiveKept a a := ⟨id, fun _ => id⟩

theorem ActiveKept.trans (h : ActiveKept a b) (h' : ActiveKept b c) : ActiveKept a c :=
  ⟨h'.sound ∘ h.sound, fun rs => h'.counted rs ∘ h.counted rs⟩

theorem StagedKept.refl (a : Bank) : StagedKept a a := ⟨id, id⟩

theorem BankKept.trans (h : BankKept a b) (h' : BankKept b c) : BankKept a c :=
  ⟨h.active.trans h'.active, h'.staged.sound ∘ h.staged.sound, h'.staged.plain ∘ h.staged.plain⟩

theorem bankSound_cleared : BankSound Bank.cleared := by
  simp [BankSound, Bank.cleared, ascending, Bank.holdCount]

theorem plain_cleared : Plain Bank.cleared := fun _ he => absurd he (by simp [Bank.cleared])

theorem counted_cleared : Counted [] Bank.cleared :=
  ⟨fun _ he => absurd he (by simp [Bank.cleared]), fun _ hr => absurd hr (by simp)⟩

theorem stagedKept_cleared (a : Bank) : StagedKept a Bank.cleared :=
  ⟨fun _ => bankSound_cleared, fun _ => plain_cleared⟩

/-- R170: a bank partly cleared has lost entries and gained none. -/
theorem stagedKept_partlyCleared (cut : Nat → Bool) (a : Bank) : StagedKept a (a.partlyCleared cut) where
  sound h := by
    obtain ⟨borrowers, items, staff, exceptions⟩ := (bankSound_iff a).mp h
    have lost {α : Type} (l : List α) (i : Nat) := Links.dropSome_sublist cut l i
    exact (bankSound_iff _).mpr ⟨borrowersSound_sublist (lost _ _) borrowers, itemsSound_sublist (lost _ _) items,
      staffSound_sublist (lost _ _) staff, exceptionsSound_sublist (lost _ _) exceptions⟩
  plain h := fun e he => h e ((Links.dropSome_sublist cut _ _).subset he)

/-! ### Collections other than the borrowers -/

/-- A bank's collections with an order or a capacity. -/
def collections (b : Bank) : List Borrower × List Item × List StaffEntry × List CalendarException :=
  (b.borrowers, b.items, b.staff, b.exceptions)

/-- The borrowers stay, and the other collections keep their order and capacity. -/
theorem bankKept_of_borrowers (hb : b.borrowers = a.borrowers) (hs : BankSound a → BankSound b) : BankKept a b := by
  refine ⟨⟨hs, fun records h => ?_⟩, hs, fun h => ?_⟩
  · simpa only [Counted, hb] using h
  · simpa only [Plain, hb] using h

theorem bankKept_of_collections (h : collections b = collections a) : BankKept a b := by
  simp only [collections, Prod.mk.injEq] at h
  obtain ⟨borrowers, items, staff, exceptions⟩ := h
  refine bankKept_of_borrowers borrowers fun sound => ?_
  rw [bankSound_iff] at *
  rwa [borrowers, items, staff, exceptions]

theorem bankKept_items (hc : b = { a with items := b.items }) (hi : ItemsSound a.items → ItemsSound b.items) :
    BankKept a b := by
  refine bankKept_of_borrowers (by rw [hc]) fun sound => ?_
  rw [bankSound_iff] at *
  obtain ⟨borrowers, items, staff, exceptions⟩ := sound
  rw [hc]
  exact ⟨borrowers, hi items, staff, exceptions⟩

theorem bankKept_staff (hc : b = { a with staff := b.staff }) (hi : StaffSound a.staff → StaffSound b.staff) :
    BankKept a b := by
  refine bankKept_of_borrowers (by rw [hc]) fun sound => ?_
  rw [bankSound_iff] at *
  obtain ⟨borrowers, items, staff, exceptions⟩ := sound
  rw [hc]
  exact ⟨borrowers, items, hi staff, exceptions⟩

theorem bankKept_exceptions (hc : b = { a with exceptions := b.exceptions })
    (hi : ExceptionsSound a.exceptions → ExceptionsSound b.exceptions) : BankKept a b := by
  refine bankKept_of_borrowers (by rw [hc]) fun sound => ?_
  rw [bankSound_iff] at *
  obtain ⟨borrowers, items, staff, exceptions⟩ := sound
  rw [hc]
  exact ⟨borrowers, items, staff, hi exceptions⟩

/-- The queue of an item loses holds or keeps their number. -/
theorem bankKept_mapQueue {n : Number} {f : List Hold → List Hold}
    (hf : ascending Item.number b.items → ∀ e ∈ b.items, e.number = n → (f e.queue).length ≤ e.queue.length) :
    BankKept b (b.mapQueue n f) :=
  bankKept_items rfl fun h => itemsSound_mapQueue h (hf h.1)

theorem length_fillQueue (n : Number) (q : List Hold) : (fillQueue n q).length ≤ q.length := by
  cases q with
  | nil => exact le_refl _
  | cons h hs =>
    show (if h.borrower = n then hs else h :: hs).length ≤ (h :: hs).length
    split <;> simp

theorem bankKept_fillHold (n : Number) (b : Bank) (e : ListEntry) : BankKept b (fillHold n b e) := by
  unfold fillHold
  split
  · exact bankKept_mapQueue fun _ x _ _ => length_fillQueue n x.queue
  · exact bankKept_of_collections rfl

theorem activeKept_fillHolds (n : Number) (l : List ListEntry) :
    ∀ b, ActiveKept b (l.foldl (fillHold n) b) := by
  induction l with
  | nil => exact ActiveKept.refl
  | cons e l ih => exact fun b => (bankKept_fillHold n b e).active.trans (ih _)

theorem length_waitHead (b : Bank) (day : Nat) (q : List Hold) : (waitHead b day q).length = q.length := by
  cases q <;> rfl

/-! ### Changes of the borrowers -/

theorem bankSound_borrowers (hc : b = { a with borrowers := b.borrowers, nextCreated := b.nextCreated })
    (hi : BorrowersSound a.borrowers → BorrowersSound b.borrowers) (h : BankSound a) : BankSound b := by
  rw [bankSound_iff] at *
  obtain ⟨borrowers, items, staff, exceptions⟩ := h
  rw [hc]
  exact ⟨hi borrowers, items, staff, exceptions⟩

section
variable {n : Number} {f : Borrower → Borrower}

/-- An entry changes and keeps its number and its `pending`. -/
theorem activeKept_mapBorrower (hf : ∀ e, (f e).number = e.number ∧ (f e).pending = e.pending) :
    ActiveKept b (b.mapBorrower n f) where
  sound := bankSound_borrowers rfl (borrowersSound_of_numbers (mapBorrower_number b n f fun e => (hf e).1))
  counted records h := by
    obtain ⟨counts, named⟩ := h
    refine ⟨fun e he => ?_, fun r hr hc => ?_⟩
    · obtain ⟨x, hx, rfl⟩ := List.mem_map.mp he
      split
      · rw [(hf x).1, (hf x).2]
        exact counts x hx
      · exact counts x hx
    · obtain ⟨x, hx, hrx⟩ := named r hr hc
      refine ⟨_, List.mem_map_of_mem hx, hrx.trans ?_⟩
      split
      · rw [(hf x).1]
      · rfl

/-- An entry changes and keeps its session too, and gains no mark. -/
theorem bankKept_mapBorrower
    (hf : ∀ e, (f e).number = e.number ∧ (f e).pending = e.pending ∧ (f e).sessionStation = e.sessionStation ∧
      (e.provisional = false → (f e).provisional = false) ∧ (e.retiring = false → (f e).retiring = false)) :
    BankKept b (b.mapBorrower n f) := by
  have active : ActiveKept b (b.mapBorrower n f) := activeKept_mapBorrower fun e => ⟨(hf e).1, (hf e).2.1⟩
  refine ⟨active, active.sound, fun plain e he => ?_⟩
  obtain ⟨x, hx, rfl⟩ := List.mem_map.mp he
  obtain ⟨-, pending, session, provisional, retiring⟩ := hf x
  obtain ⟨hp, hs, hv, hr⟩ := plain x hx
  split
  · exact ⟨pending.trans hp, session.trans hs, provisional hv, retiring hr⟩
  · exact ⟨hp, hs, hv, hr⟩

end

/-- Entries leave that no record counts for. -/
theorem counted_filter {records : List Record} {p : Borrower → Bool} (hb : b.borrowers = a.borrowers.filter p)
    (hp : ∀ e ∈ a.borrowers, p e = false → e.pending = 0) (h : Counted records a) : Counted records b := by
  obtain ⟨counts, named⟩ := h
  refine ⟨fun e he => counts e (List.mem_of_mem_filter (hb ▸ he)), fun r hr hc => ?_⟩
  obtain ⟨e, he, hre⟩ := named r hr hc
  refine ⟨e, hb ▸ List.mem_filter.mpr ⟨he, ?_⟩, hre⟩
  by_contra left
  have none_counts := (counts e he).symm.trans (hp e he (by simpa using left))
  exact List.countP_eq_zero.mp none_counts r hr (by simp [Record.countsFor, hc, hre])

/-- R54: a retiring entry with no `pending` and no session leaves. -/
theorem activeKept_dropIfRetired (b : Bank) (n : Number) : ActiveKept b (b.dropIfRetired n) where
  sound := bankSound_borrowers rfl (borrowersSound_sublist List.filter_sublist)
  counted _ := counted_filter rfl fun e _ left => by
    simp only [Borrower.leaves, Bool.not_eq_false', Bool.and_eq_true, beq_iff_eq] at left
    exact left.2.1.2

/-- An entry with no `pending` leaves. -/
theorem bankKept_dropBorrower {e : Borrower} (he : e ∈ b.borrowers) (hp : e.pending = 0) :
    BankKept b (b.dropBorrower e.number) := by
  have sound : BankSound b → BankSound (b.dropBorrower e.number) :=
    bankSound_borrowers rfl (borrowersSound_sublist List.filter_sublist)
  refine ⟨⟨sound, fun records h => counted_filter rfl (fun x hx left => ?_) h⟩, sound,
    fun plain x hx => plain x (List.mem_of_mem_filter hx)⟩
  have same : x.number = e.number := by simpa using left
  rw [h.1 x hx, same, ← h.1 e he, hp]

/-- R48: room is made by the loss of an entry with no `pending`. -/
theorem bankKept_makeRoom {room : Bank} (h : b.makeRoom = some room) : BankKept b room := by
  unfold Bank.makeRoom at h
  split at h
  · obtain rfl := Option.some.inj h
    exact bankKept_of_collections rfl
  · split at h
    · cases h
    · next e he =>
      obtain rfl := Option.some.inj h
      obtain ⟨hmem, hev⟩ := oldestEvictable_evictable he
      simp only [Borrower.evictable, Bool.and_eq_true, beq_iff_eq] at hev
      exact bankKept_dropBorrower hmem hev.1.2

/-- R43, R48: in a table within its capacity the room made is room for one entry. -/
theorem makeRoom_length {room : Bank} (h : b.makeRoom = some room) (hb : BorrowersSound b.borrowers) :
    room.borrowers.length < borrowerCapacity := by
  unfold Bank.makeRoom at h
  split at h
  · next hl =>
    obtain rfl := Option.some.inj h
    exact hl
  · split at h
    · cases h
    · next e he =>
      obtain rfl := Option.some.inj h
      obtain ⟨hmem, -⟩ := oldestEvictable_evictable he
      have shorter := List.length_filter_lt_length_iff_exists (p := fun x : Borrower => decide (x.number ≠ e.number))
        (l := b.borrowers) |>.mpr ⟨e, hmem, by simp⟩
      exact shorter.trans_le hb.2

/-- R44, R57: an entry joins that no record counts for, whose number the table did not hold. -/
theorem activeKept_joinBorrower {room : Bank} {e : Borrower} (hroom : b.makeRoom = some room)
    (new : b.borrower e.number = none) (hp : e.pending = 0) : ActiveKept b (room.joinBorrower e) where
  sound h := by
    refine bankSound_borrowers (a := room) rfl (fun hr => ?_) ((bankKept_makeRoom hroom).active.sound h)
    exact borrowersSound_insert (e := { e with createdSeq := room.nextCreated })
      (Desk.makeRoom_keeps hroom new).1 (makeRoom_length hroom ((bankSound_iff b).mp h).1) hr
  counted records h := by
    obtain ⟨counts, named⟩ := (bankKept_makeRoom hroom).active.counted records h
    refine ⟨fun x hx => ?_, fun r hr hc => ?_⟩
    · obtain rfl | hx := (mem_insertBy _ _ _ _).mp hx
      · refine hp.trans (List.countP_eq_zero.mpr fun r hr hcount => ?_).symm
        simp only [Record.countsFor, Bool.and_eq_true, decide_eq_true_eq] at hcount
        obtain ⟨y, hy, hry⟩ := h.2 r hr hcount.1
        have : y.number = e.number := Option.some.inj (hry.symm.trans hcount.2)
        exact absurd (List.find?_eq_none.mp new y hy) (by simp [this])
      · exact counts x hx
    · obtain ⟨x, hx, hrx⟩ := named r hr hc
      exact ⟨x, (mem_insertBy _ _ _ _).mpr (.inr hx), hrx⟩

theorem bankKept_joinBorrower {room : Bank} {e : Borrower} (hroom : b.makeRoom = some room)
    (new : b.borrower e.number = none)
    (hp : e.pending = 0 ∧ e.sessionStation = none ∧ e.provisional = false ∧ e.retiring = false) :
    BankKept b (room.joinBorrower e) := by
  have active := activeKept_joinBorrower hroom new hp.1
  refine ⟨active, active.sound, fun plain x hx => ?_⟩
  obtain rfl | hx := (mem_insertBy _ _ _ _).mp hx
  · exact hp
  · exact (bankKept_makeRoom hroom).staged.plain plain x hx

/-! ### Records that come and go -/

/-- R50: a record comes, COUNTED when its borrower has an entry, and raises that entry's `pending`. -/
theorem counted_append {records : List Record} {r d : Record} (hb : r.borrower = d.borrower)
    (hc : r.flags.counted = (d.borrower.map fun n => (b.borrower n).isSome).getD false) (h : Counted records b) :
    Counted (records ++ [r]) (raisePending d b) := by
  obtain ⟨counts, named⟩ := h
  have countsFor_iff (n : Number) : r.countsFor n = true ↔ r.flags.counted = true ∧ d.borrower = some n := by
    simp [Record.countsFor, hb]
  cases hd : d.borrower with
  | none =>
    have uncounted : r.flags.counted = false := by rw [hc, hd]; rfl
    have same : raisePending d b = b := by simp [raisePending, hd]
    rw [same]
    refine ⟨fun e he => ?_, fun x hx hxc => ?_⟩
    · have : ¬r.countsFor e.number = true := by rw [countsFor_iff, hd]; simp
      rw [List.countP_append, List.countP_singleton, if_neg this]
      exact counts e he
    · obtain hx | hx := List.mem_append.mp hx
      · exact named x hx hxc
      · rw [List.mem_singleton.mp hx, uncounted] at hxc
        cases hxc
  | some n =>
    have raised : raisePending d b = b.mapBorrower n fun e => { e with pending := e.pending + 1 } := by
      simp [raisePending, hd]
    have counted_of_entry {e : Borrower} (he : e ∈ b.borrowers) (hen : e.number = n) : r.flags.counted = true := by
      rw [hc, hd]
      exact List.find?_isSome.mpr ⟨e, he, by simpa using hen⟩
    rw [raised]
    refine ⟨fun e he => ?_, fun x hx hxc => ?_⟩
    · obtain ⟨y, hy, rfl⟩ := List.mem_map.mp he
      rw [List.countP_append, List.countP_singleton]
      by_cases hyn : y.number = n
      · have : r.countsFor y.number = true := (countsFor_iff _).mpr ⟨counted_of_entry hy hyn, by rw [hd, hyn]⟩
        rw [if_pos hyn, if_pos this]
        exact congrArg (· + 1) (counts y hy)
      · have : ¬r.countsFor y.number = true := fun hr =>
          hyn (Option.some.inj (((countsFor_iff _).mp hr).2.symm.trans hd))
        rw [if_neg hyn, if_neg this]
        exact counts y hy
    · have entry : ∃ e ∈ b.borrowers, x.borrower = some e.number := by
        obtain hx | hx := List.mem_append.mp hx
        · exact named x hx hxc
        · obtain rfl := List.mem_singleton.mp hx
          rw [hc, hd] at hxc
          obtain ⟨e, he⟩ := Option.isSome_iff_exists.mp hxc
          obtain ⟨hmem, hen⟩ := find_number he
          exact ⟨e, hmem, by rw [hb, hd, hen]⟩
      obtain ⟨e, he, hxe⟩ := entry
      refine ⟨_, List.mem_map_of_mem he, hxe.trans ?_⟩
      split <;> rfl

theorem bankSound_raisePending (d : Record) (h : BankSound b) : BankSound (raisePending d b) := by
  refine bankSound_borrowers ?_ (borrowersSound_of_numbers (raisePending_number d b)) h
  unfold raisePending
  split <;> rfl

/-- R51, R54: the oldest record goes and lowers its borrower's `pending`. -/
theorem counted_release {records : List Record} {r : Record} (h : Counted (r :: records) b) :
    Counted records (releaseRecord b r) := by
  obtain ⟨counts, named⟩ := h
  have later : ∀ x ∈ records, x.flags.counted = true → ∃ e ∈ b.borrowers, x.borrower = some e.number :=
    fun x hx => named x (List.mem_cons_of_mem _ hx)
  unfold releaseRecord
  split
  · next n hc hb =>
    have countsFor_iff (m : Number) : r.countsFor m = true ↔ m = n := by
      simp [Record.countsFor, hc, hb, eq_comm]
    refine (activeKept_dropIfRetired _ n).counted records ⟨fun e he => ?_, fun x hx hxc => ?_⟩
    · obtain ⟨y, hy, rfl⟩ := List.mem_map.mp he
      have hcount := counts y hy
      rw [List.countP_cons] at hcount
      by_cases hyn : y.number = n
      · rw [if_pos hyn]
        rw [if_pos ((countsFor_iff _).mpr hyn)] at hcount
        exact Nat.sub_eq_of_eq_add hcount
      · rw [if_neg hyn]
        rwa [if_neg (mt (countsFor_iff _).mp hyn)] at hcount
    · obtain ⟨e, he, hxe⟩ := later x hx hxc
      refine ⟨_, List.mem_map_of_mem he, hxe.trans ?_⟩
      split <;> rfl
  · next other =>
    refine ⟨fun e he => ?_, later⟩
    have : ¬r.countsFor e.number = true := by
      simp only [Record.countsFor, Bool.and_eq_true, decide_eq_true_eq]
      exact fun ⟨hc, hb⟩ => other _ hc hb
    have hcount := counts e he
    rwa [List.countP_cons, if_neg this] at hcount

theorem counted_releases {rest : List Record} (l : List Record) :
    ∀ {b : Bank}, Counted (l ++ rest) b → Counted rest (l.foldl releaseRecord b) := by
  induction l with
  | nil => exact id
  | cons r l ih => exact fun h => ih (counted_release h)

theorem bankSound_releases (l : List Record) : ∀ {b : Bank}, BankSound b → BankSound (l.foldl releaseRecord b) := by
  induction l with
  | nil => exact id
  | cons r l ih =>
    intro b h
    refine ih ?_
    unfold releaseRecord
    split
    · refine (activeKept_dropIfRetired _ _).sound (bankSound_borrowers (a := b) rfl (borrowersSound_of_numbers ?_) h)
      exact mapBorrower_number b _ _ fun _ => rfl
    · exact h

end Sys2Proof.Keeping
end

