-- ==== Sys2Proof/Proofs/SoundWrites.lean ====
section
/-! SUPPORT. What the rule of each table write keeps of the bank that it is given (R38 to R41, R53 to R59, R72 to R76, R107
to R110, R126). -/

namespace Sys2Proof.Keeping

open Sys2Proof.Machine
open Sys2Proof.Links (find_number)

variable {b : Bank}

/-- A write that is refused, or leaves what may befall either bank. -/
def WriteKept (b : Bank) (w : WriteResult) : Prop := ∀ b' r, w = .ok (b', r) → BankKept b b'

theorem writeKept_error (b : Bank) (st : Status) : WriteKept b (.error st) := fun _ _ h => by cases h

theorem writeKept_taken {b' : Bank} (h : BankKept b b') (st : Status) (r : Results) : WriteKept b (taken b' st r) := by
  rintro _ _ ⟨⟩
  exact h

theorem writeKept_takenOk {b' : Bank} (h : BankKept b b') : WriteKept b (takenOk b') := writeKept_taken h _ _

theorem writeKept_element {size index : Nat} {write : Fin size → WriteResult} (h : ∀ i, WriteKept b (write i)) :
    WriteKept b (writeElement size index write) := by
  unfold writeElement
  split
  · exact h _
  · exact writeKept_error b _

/-! ### Borrowers -/

theorem writeKept_putBorrower (p : PutBorrowerParams) (b : Bank) : WriteKept b (putBorrowerRule p b) := by
  unfold putBorrowerRule
  split
  · exact writeKept_error b _
  split
  · split
    · exact writeKept_error b _
    simp only
    split
    · refine writeKept_taken (bankKept_mapBorrower ?_) _ _
      exact fun e => ⟨rfl, rfl, rfl, fun _ => rfl, fun _ => rfl⟩
    · next unknown =>
      split
      · exact writeKept_error b _
      · next room hroom =>
        exact writeKept_taken (bankKept_joinBorrower hroom unknown ⟨rfl, rfl, rfl, rfl⟩) _ _
  · exact writeKept_error b _

/-- R53: an entry is marked only where it is held back, and a staged one never is. -/
theorem bankKept_retire {e : Borrower} (he : b.borrower e.number = some e)
    (held : ¬(e.retiring = false ∧ e.pending = 0 ∧ e.sessionStation = none)) :
    BankKept b (b.mapBorrower e.number fun x => { x with retiring := true }) := by
  have active : ActiveKept b (b.mapBorrower e.number fun x => { x with retiring := true }) :=
    activeKept_mapBorrower fun _ => ⟨rfl, rfl⟩
  refine ⟨active, active.sound, fun plain => ?_⟩
  obtain ⟨pending, session, -, retiring⟩ := plain e (find_number he).1
  exact absurd ⟨retiring, pending, session⟩ held

theorem writeKept_delBorrower (p : BankNumber) (b : Bank) : WriteKept b (delBorrowerRule p b) := by
  unfold delBorrowerRule
  split
  · exact writeKept_error b _
  split
  · exact writeKept_error b _
  next e he =>
  obtain ⟨hmem, hnum⟩ := find_number he
  rw [← hnum]
  simp only
  split
  · next free => exact writeKept_taken (bankKept_dropBorrower hmem free.2.1) _ _
  · next held => exact writeKept_taken (bankKept_retire (hnum ▸ he) held) _ _

theorem writeKept_adjustBorrower (p : AdjustBorrowerParams) (b : Bank) : WriteKept b (adjustBorrowerRule p b) := by
  unfold adjustBorrowerRule
  split
  · exact writeKept_error b _
  split
  · exact writeKept_error b _
  · refine writeKept_taken (bankKept_mapBorrower ?_) _ _
    exact fun e => ⟨rfl, rfl, rfl, id, id⟩

/-! ### Items and holds -/

theorem writeKept_putItem (p : PutItemParams) (b : Bank) : WriteKept b (putItemRule p b) := by
  unfold putItemRule
  split
  · exact writeKept_error b _
  split
  · simp only
    split
    · exact writeKept_takenOk (bankKept_items rfl itemsSound_override)
    next unknown =>
    split
    · next room =>
      refine writeKept_takenOk (bankKept_items rfl fun h => ?_)
      have new : ∀ x ∈ b.items, x.number ≠ p.number := fun x hx => by
        simpa using List.find?_eq_none.mp (show b.item p.number = none by simpa using unknown) x hx
      exact itemsSound_joinItem new room h.2.2.1 rfl (Nat.zero_le _) h
    · exact writeKept_error b _
  · exact writeKept_error b _

theorem writeKept_delItem (p : BankNumber) (b : Bank) : WriteKept b (delItemRule p b) := by
  have kept : BankKept b ((b.mapItem p.number fun x => { x with classOverride := none }).tidyItem p.number) :=
    bankKept_items rfl (itemsSound_tidyItem (fun _ => rfl) fun _ _ _ => le_refl _)
  unfold delItemRule
  split
  · exact writeKept_error b _
  split
  · exact writeKept_error b _
  split
  · exact writeKept_error b _
  simp only
  split
  · exact writeKept_takenOk kept
  · exact writeKept_taken kept _ _

/-- R74: an ADD_HOLD that passes its tests finds room for the hold and, where it needs one, for its entry. -/
theorem room_of_addHoldBar {p : AddHoldParams} {c : Fin 32} (h : addHoldBar p c b = none) :
    (b.queueOf p.item).length < queueCapacity ∧ b.holdCount < itemCapacity ∧
      (b.item p.item = none → b.items.length < itemCapacity) := by
  unfold addHoldBar at h
  simp only at h
  split at h
  · cases h
  split at h
  · cases h
  split at h
  · cases h
  next short =>
  split at h
  · cases h
  next room =>
  split at h
  · cases h
  next entry => exact ⟨Nat.not_le.mp short, Nat.not_le.mp room, fun new => Nat.not_le.mp fun full => entry ⟨new, full⟩⟩

theorem joinHold_items (b : Bank) (n : Number) (h : Hold) :
    b.joinHold n h = { b with items := (b.joinHold n h).items } := by
  unfold Bank.joinHold
  split <;> rfl

theorem writeKept_addHold (p : AddHoldParams) (b : Bank) : WriteKept b (addHoldRule p b) := by
  unfold addHoldRule
  split
  · exact writeKept_error b _
  split
  · split
    · split
      · exact writeKept_error b _
      · next passed =>
        obtain ⟨short, room, entry⟩ := room_of_addHoldBar passed
        exact writeKept_taken (bankKept_items (joinHold_items _ _ _) (itemsSound_joinHold short room entry)) _ _
    · exact writeKept_error b _
  · exact writeKept_error b _

theorem writeKept_cancelHold (p : CancelHoldParams) (b : Bank) : WriteKept b (cancelHoldRule p b) := by
  unfold cancelHoldRule
  split
  · exact writeKept_error b _
  simp only
  split
  · exact writeKept_taken (bankKept_mapQueue fun _ _ _ _ => List.length_filter_le _ _) _ _
  · exact writeKept_error b _

/-! ### Prefixes and staff -/

theorem writeKept_putPrefix (p : PutPrefixParams) (b : Bank) : WriteKept b (putPrefixRule p b) := by
  refine writeKept_element fun i => ?_
  split
  · simp only
    split
    · exact writeKept_error b _
    · split
      · exact writeKept_error b _
      · refine writeKept_taken (bankKept_of_collections ?_) _ _
        rfl
  · exact writeKept_error b _

theorem writeKept_delPrefix (p : BankIndex) (b : Bank) : WriteKept b (delPrefixRule p b) := by
  refine writeKept_element fun i => ?_
  split
  · exact writeKept_takenOk (bankKept_of_collections rfl)
  · exact writeKept_error b _

theorem writeKept_putStaff (p : PutStaffParams) (b : Bank) : WriteKept b (putStaffRule p b) := by
  unfold putStaffRule
  split
  · exact writeKept_error b _
  split
  · refine writeKept_takenOk (bankKept_staff rfl (staffSound_of_numbers ?_))
    rw [List.map_map]
    exact List.map_congr_left fun e _ => by simp only [Function.comp]; split <;> rfl
  next unknown =>
  split
  · next room =>
    exact writeKept_takenOk (bankKept_staff rfl (staffSound_insert (by simpa using unknown) room))
  · exact writeKept_error b _

theorem writeKept_delStaff (p : BankNumber) (b : Bank) : WriteKept b (delStaffRule p b) := by
  unfold delStaffRule
  split
  · exact writeKept_takenOk (bankKept_staff rfl (staffSound_sublist List.filter_sublist))
  · exact writeKept_error b _

/-! ### Records and rules -/

theorem writeKept_putCategory (p : PutCategoryParams) (b : Bank) : WriteKept b (putCategoryRule p b) := by
  refine writeKept_element fun i => writeKept_taken (bankKept_of_collections ?_) _ _
  rfl

theorem writeKept_delCategory (p : BankIndex) (b : Bank) : WriteKept b (delCategoryRule p b) :=
  writeKept_element fun _ => writeKept_takenOk (bankKept_of_collections rfl)

theorem writeKept_putClass (p : PutClassParams) (b : Bank) : WriteKept b (putClassRule p b) := by
  refine writeKept_element fun i => ?_
  split
  · split
    · exact writeKept_takenOk (bankKept_of_collections rfl)
    · exact writeKept_error b _
  · exact writeKept_error b _

theorem writeKept_delClass (p : BankIndex) (b : Bank) : WriteKept b (delClassRule p b) :=
  writeKept_element fun _ => writeKept_takenOk (bankKept_of_collections rfl)

theorem writeKept_putRule (p : PutRuleParams) (b : Bank) : WriteKept b (putRuleRule p b) := by
  refine writeKept_element fun i => writeKept_element fun j => ?_
  split
  · exact writeKept_error b _
  · refine writeKept_taken (bankKept_of_collections ?_) _ _
    rfl

theorem writeKept_delRule (p : DelRuleParams) (b : Bank) : WriteKept b (delRuleRule p b) :=
  writeKept_element fun _ => writeKept_element fun _ => writeKept_takenOk (bankKept_of_collections rfl)

/-! ### The calendar -/

theorem writeKept_writeProfile (n : Nat) (p : Profile) (b : Bank) : WriteKept b (writeProfile n p b) := by
  cases n with
  | zero => exact writeKept_error b _
  | succ n =>
    refine writeKept_element (write := fun i => takenOk { b with profiles := b.profiles.set i p }) fun i => ?_
    exact writeKept_takenOk (bankKept_of_collections rfl)

theorem writeKept_putProfile (p : PutProfileParams) (b : Bank) : WriteKept b (putProfileRule p b) := by
  unfold putProfileRule
  split
  · exact writeKept_error b _
  · exact writeKept_writeProfile _ _ b

theorem writeKept_delProfile (p : BankIndex) (b : Bank) : WriteKept b (delProfileRule p b) :=
  writeKept_writeProfile p.index Profile.cleared b

theorem writeKept_putWeekday (p : PutDayParams) (b : Bank) : WriteKept b (putWeekdayRule p b) :=
  writeKept_element fun _ => writeKept_element fun _ => writeKept_takenOk (bankKept_of_collections rfl)

theorem writeKept_delWeekday (p : BankIndex) (b : Bank) : WriteKept b (delWeekdayRule p b) :=
  writeKept_element fun _ => writeKept_takenOk (bankKept_of_collections rfl)

theorem writeKept_putException (p : PutDayParams) (b : Bank) : WriteKept b (putExceptionRule p b) := by
  refine writeKept_element fun n => ?_
  split
  · refine writeKept_takenOk (bankKept_exceptions rfl (exceptionsSound_of_days ?_))
    rw [List.map_map]
    exact List.map_congr_left fun e _ => by simp only [Function.comp]; split <;> rfl
  next unknown =>
  split
  · next room =>
    exact writeKept_takenOk (bankKept_exceptions rfl (exceptionsSound_insert (by simpa using unknown) room))
  · exact writeKept_error b _

theorem writeKept_delException (p : BankIndex) (b : Bank) : WriteKept b (delExceptionRule p b) := by
  unfold delExceptionRule
  split
  · exact writeKept_takenOk (bankKept_exceptions rfl (exceptionsSound_sublist List.filter_sublist))
  · exact writeKept_error b _

/-! ### Templates and texts -/

theorem writeKept_putTemplate (p : PutTemplateParams) (b : Bank) : WriteKept b (putTemplateRule p b) := by
  refine writeKept_element fun i => ?_
  split
  · exact writeKept_error b _
  · exact writeKept_takenOk (bankKept_of_collections rfl)

theorem writeKept_delTemplate (p : BankIndex) (b : Bank) : WriteKept b (delTemplateRule p b) :=
  writeKept_element fun _ => writeKept_takenOk (bankKept_of_collections rfl)

theorem writeKept_putText (p : PutTextParams) (b : Bank) : WriteKept b (putTextRule p b) := by
  refine writeKept_element fun i => ?_
  split
  · exact writeKept_takenOk (bankKept_of_collections rfl)
  · exact writeKept_error b _

theorem writeKept_delText (p : BankIndex) (b : Bank) : WriteKept b (delTextRule p b) :=
  writeKept_element fun _ => writeKept_takenOk (bankKept_of_collections rfl)

end Sys2Proof.Keeping
end

