-- ==== Sys2Proof/Proofs/TablesKept.lean ====
section
/-! SUPPORT. What an operation keeps of the two invariants of the tables and the `pending` counts: which operations leave
alone what these are read from, and what each of the others makes of it. -/

namespace Sys2Proof.Keeping

open Sys2Proof.Machine

/-! ### A change of the state -/

/-- A change of the state that keeps the tables sound and the `pending` counts right. -/
structure Kept (s t : State) : Prop where
  sound : TablesSound s → TablesSound t
  counted : PendingSound s → PendingSound t

variable {s t u : State}

theorem Kept.refl (s : State) : Kept s s := ⟨id, id⟩

theorem Kept.trans (h : Kept s t) (h' : Kept t u) : Kept s u := ⟨h'.sound ∘ h.sound, h'.counted ∘ h.counted⟩

theorem mem_stagedBanks_self (s : State) : s.staged ∈ s.stagedBanks := by
  unfold State.stagedBanks
  split <;> simp

/-- No record comes or goes, and each bank befalls what may befall it. -/
theorem kept_of_banks (hr : t.journal.records = s.journal.records) (ha : ActiveKept s.active t.active)
    (hb : ∀ b ∈ t.stagedBanks, ∃ a ∈ s.stagedBanks, StagedKept a b) : Kept s t where
  sound := fun ⟨active, staged⟩ => ⟨ha.sound active, fun b h => by
    obtain ⟨a, hmem, kept⟩ := hb b h
    exact kept.sound (staged a hmem)⟩
  counted h := by
    rw [pendingSound_iff] at *
    obtain ⟨counted, plain⟩ := h
    refine ⟨hr ▸ ha.counted _ counted, fun b hmem => ?_⟩
    obtain ⟨a, hmem, kept⟩ := hb b hmem
    exact kept.plain (plain a hmem)

theorem kept_active (hr : t.journal.records = s.journal.records) (ha : ActiveKept s.active t.active)
    (hb : t.stagedBanks = s.stagedBanks) : Kept s t :=
  kept_of_banks hr ha fun b h => ⟨b, hb ▸ h, StagedKept.refl b⟩

theorem kept_withActive {b : Bank} (h : ActiveKept s.active b) : Kept s { s with active := b } :=
  kept_active rfl h rfl

/-- No clearing of a bank is under way any more. -/
theorem kept_slot (hr : t.journal.records = s.journal.records) (ha : t.active = s.active)
    (hb : t.stagedBanks = [s.staged]) : Kept s t :=
  kept_of_banks hr (ha ▸ ActiveKept.refl _) fun b h => by
    obtain rfl := List.mem_singleton.mp (hb ▸ h)
    exact ⟨_, mem_stagedBanks_self s, StagedKept.refl _⟩

/-- What the two invariants are read from. -/
structure Tables where
  active : Bank
  records : List Record
  staged : List Bank

def tables (s : State) : Tables := { active := s.active, records := s.journal.records, staged := s.stagedBanks }

theorem kept_of_tables (h : tables t = tables s) : Kept s t := by
  have active : t.active = s.active := congrArg Tables.active h
  exact kept_active (congrArg Tables.records h) (active ▸ ActiveKept.refl _) (congrArg Tables.staged h)

theorem Kept.quiet (h : Kept s t) (hv : tables u = tables t) : Kept s u := h.trans (kept_of_tables hv)

theorem Kept.after (h : Kept t u) (hv : tables t = tables s) : Kept s u := (kept_of_tables hv).trans h

/-- A run of operations that each keep the invariants. -/
theorem kept_foldl {α : Type} {f : State → α → State} (h : ∀ s a, Kept s (f s a)) (l : List α) :
    ∀ s, Kept s (l.foldl f s) := by
  induction l with
  | nil => exact Kept.refl
  | cons a l ih => exact fun s => (h s a).trans (ih _)

/-! ### Operations that leave the tables alone -/

/-- A run of operations that each leave the tables alone. -/
theorem tables_foldl {α : Type} {f : State → α → State} (h : ∀ s a, tables (f s a) = tables s) (l : List α) :
    ∀ s, tables (l.foldl f s) = tables s := by
  induction l with
  | nil => exact fun _ => rfl
  | cons a l ih => exact fun s => (ih _).trans (h s a)

section
variable (s : State) (st : Station)

@[simp] theorem tables_setPort (p : Port) : tables (s.setPort st p) = tables s := rfl
@[simp] theorem tables_setConsole (c : Console) : tables (s.setConsole st c) = tables s := rfl
@[simp] theorem tables_setSession (r : Session) : tables (s.setSession st r) = tables s := rfl
@[simp] theorem tables_setLine (l : Line) (c : LineCtl) : tables (s.setLine l c) = tables s := by cases l <;> rfl
@[simp] theorem tables_settle (s0 : State) : tables (settle s0 s) = tables s := rfl
@[simp] theorem tables_useFree : tables s.useFree = tables s := rfl

@[simp] theorem tables_sound (g : Signal) : tables (sound st g s) = tables s := by rw [sound_frame]; rfl
@[simp] theorem tables_showLines (a b : Text) : tables (showLines st a b s) = tables s := by
  rw [showLines_frame]; rfl
@[simp] theorem tables_showText (i : Fin 32) : tables (showText st i s) = tables s := by rw [showText_frame]; rfl
@[simp] theorem tables_showStanding : tables (showStanding st s) = tables s := by rw [showStanding_frame]; rfl
@[simp] theorem tables_showUnwiped (w : Bool) : tables (showUnwiped st w s) = tables s := by
  rw [showUnwiped_frame]; rfl
@[simp] theorem tables_showIfLost (w : Bool) : tables (showIfLost st w s) = tables s := by
  rw [showIfLost_frame]; rfl
@[simp] theorem tables_showStandingAll : tables (showStandingAll s) = tables s :=
  tables_foldl (fun s st => tables_showStanding s st) stations s
@[simp] theorem tables_takeInput : tables (takeInput st s) = tables s := by
  have taken : tables
      { (s.setPort st { s.port st with slots := (s.port st).slots.drop 1 }).setConsole st
          { s.console st with wiped := false } with lastServed := st } = tables s := rfl
  unfold takeInput
  split
  · exact (tables_setSession _ _ _).trans taken
  · exact taken

@[simp] theorem tables_raise (c : Cause) (l : Line) : tables (raise c l s) = tables s := by simp [raise]
@[simp] theorem tables_raiseBoth (c : Cause) : tables (raiseBoth c s) = tables s := by simp [raiseBoth]
@[simp] theorem tables_sendFrame (l : Line) (f : LineFrame) : tables (sendFrame l f s) = tables s := by
  simp [sendFrame]
@[simp] theorem tables_sendUnsolicited (l : Line) (f : LineFrame) : tables (sendUnsolicited l f s) = tables s := by
  simp [sendUnsolicited]
@[simp] theorem tables_sendReply (q : Req) (name : ReqName) (r : Reply) :
    tables (sendReply q name r s) = tables s := by simp [sendReply]
@[simp] theorem tables_finalReply (q : Option Req) (name : ReqName) (r : Reply) :
    tables (finalReply q name r s) = tables s := by
  unfold finalReply
  split
  · rfl
  · split <;> simp
@[simp] theorem tables_answer (q : Req) (name : ReqName) (p : State × Reply) :
    tables (answer q name p) = tables p.1 := by simp [answer]
@[simp] theorem tables_goodLineFrame (l : Line) : tables (goodLineFrame l s) = tables s := by simp [goodLineFrame]
@[simp] theorem tables_clearLastError (l : Line) : tables (clearLastError l s) = tables s := by
  simp [clearLastError]
@[simp] theorem tables_received (q : Req) (name : ReqName) : tables (received q name s) = tables s := by
  unfold received; split <;> simp
@[simp] theorem tables_answered (q : Req) (name : ReqName) (r : Reply) (s0 : State) :
    tables (answered q name r s0 s) = tables s := by simp [answered]

@[simp] theorem tables_releaseClaims (n : Nat) : tables (releaseClaims n s) = tables s := rfl
@[simp] theorem tables_stepClock (i : Instant) : tables (stepClock i s) = tables s := rfl
@[simp] theorem tables_disarmAll : tables (disarmAll s) = tables s := rfl
@[simp] theorem tables_dropHeld : tables (dropHeld s) = tables s := rfl
@[simp] theorem tables_tickClock : tables (tickClock s) = tables s := rfl
@[simp] theorem tables_tickTimers : tables (tickTimers s) = tables s := rfl
@[simp] theorem tables_rewind : tables (rewind s) = tables s := rfl
@[simp] theorem tables_cutUpload : tables (cutUpload s) = tables s := rfl
@[simp] theorem tables_testLevels : tables (testLevels s) = tables s := rfl
@[simp] theorem tables_finishScrub : tables (finishScrub s) = tables s := rfl

@[simp] theorem tables_queueSlip (p : Slip) : tables (queueSlip st p s).1 = tables s := by
  unfold queueSlip; split <;> simp
@[simp] theorem tables_slipForClose (n : Number) (items : List ListEntry) :
    tables (slipForClose st n items s).1 = tables s := by
  unfold slipForClose; split <;> simp
@[simp] theorem tables_goAbsent : tables (goAbsent st s) = tables s := by simp [goAbsent]
@[simp] theorem tables_beginBridge : tables (beginBridge st s) = tables s := by simp [beginBridge]
@[simp] theorem tables_endBridge : tables (endBridge st s) = tables s := by
  unfold endBridge; simp only; split <;> simp

@[simp] theorem tables_endBridges : tables (endBridges s) = tables s :=
  tables_foldl (fun s st => by split <;> simp) stations s
@[simp] theorem tables_passUp (body : List Byte) : tables (passUp st body s) = tables s := by
  unfold passUp; split <;> simp
@[simp] theorem tables_joinInput (i : Input) : tables (joinInput st i s) = tables s := by
  unfold joinInput
  split
  · rfl
  · split <;> simp
@[simp] theorem tables_takePaper (out : Bool) (credit : Nat) : tables (takePaper st out credit s) = tables s := by
  unfold takePaper
  simp only
  split
  · split <;> simp
  · split <;> simp
@[simp] theorem tables_appear (out : Bool) (credit : Nat) : tables (appear st out credit s) = tables s := by
  simp [appear]
@[simp] theorem tables_printOne : tables (printOne st s) = tables s := by
  unfold printOne
  simp only
  split
  · rfl
  · split <;> simp [sendPrint]
@[simp] theorem tables_endUpload : tables (endUpload s) = tables s := by
  unfold endUpload
  split
  · rfl
  · exact tables_sendReply _ _ _ _
@[simp] theorem tables_leaveActive (l : Line) : tables (leaveActive l s) = tables s := by
  cases l <;> simp [leaveActive]
@[simp] theorem tables_enterInactive (l : Line) (state : LineState) (w : Option Nat) :
    tables (enterInactive l state w s) = tables s := by
  unfold enterInactive; simp only; split <;> simp
@[simp] theorem tables_joinPass (body : List Byte) : tables (joinPass st body s) = tables s := by
  unfold joinPass; simp only; split <;> simp
@[simp] theorem tables_setMark (l : Line) (w : Bool) : tables (setMark l w s) = tables s := by simp [setMark]
@[simp] theorem tables_setNoteTo (l : Line) (n : NoteSlot) : tables (s.setNoteTo l n) = tables s := by
  cases l <;> rfl
@[simp] theorem tables_postTo (l : Line) (text : Text) : tables (postTo l text s) = tables s := by
  unfold postTo; simp only; split <;> simp
@[simp] theorem tables_sendRecord (u : Upload) : tables (sendRecord u s) = tables s := by
  unfold sendRecord
  simp only
  split
  · exact (show tables _ = tables (sendFrame _ _ s) from rfl).trans (tables_sendFrame _ _ _)
  · rfl
@[simp] theorem tables_acceptItem (e : ListEntry) : tables (acceptItem st e s) = tables s := by
  simp only [acceptItem, tables_sound, tables_showLines, tables_setSession]
  rfl
@[simp] theorem tables_acceptStaff (n : Number) : tables (acceptStaff st n s) = tables s := by simp [acceptStaff]
@[simp] theorem tables_acceptHello (q : Req) (w : FeatureSet) : tables (acceptHello q w s) = tables s := by
  simp only [acceptHello, tables_answer, tables_setLine]
  split <;> simp

end

/-! ### The journal -/

theorem kept_append (d : Record) (s : State) : Kept s (append d s) where
  sound := fun ⟨active, staged⟩ => ⟨bankSound_raisePending d active, staged⟩
  counted h := by
    rw [pendingSound_iff] at *
    refine ⟨counted_append rfl ?_ h.1, h.2⟩
    show s.counts d = _
    unfold State.counts
    cases d.borrower <;> rfl

theorem kept_appendAboveReserve (d : Record) (s : State) : Kept s (appendAboveReserve d s) := by
  unfold appendAboveReserve
  split
  · exact kept_append d s
  · exact Kept.refl s

theorem kept_appendSystem (d : Record) (s : State) : Kept s (appendSystem d s) := by
  unfold appendSystem
  split
  · exact kept_append d s
  · exact kept_of_tables rfl

theorem kept_appendClaimed (d : Record) (s : State) : Kept s (appendClaimed d s) :=
  (kept_append d _).after (tables_releaseClaims s 1)

/-- R51, R54, R153: records go from the journal's front. -/
theorem kept_releaseTo (limit : Nat) (s : State) : Kept s (releaseTo limit s) where
  sound := fun ⟨active, staged⟩ => ⟨bankSound_releases _ active, staged⟩
  counted h := by
    rw [pendingSound_iff] at *
    obtain ⟨counted, plain⟩ := h
    refine ⟨counted_releases (s.journal.records.take (limit + 1 - s.journal.oldest)) ?_, plain⟩
    show Counted (_ ++ s.journal.records.drop (limit + 1 - s.journal.oldest)) s.active
    rwa [List.take_append_drop]

/-! ### The ends of a session -/

theorem kept_bookItems (mk : ListEntry → Record) (n : Number) (items : List ListEntry) (s : State) :
    Kept s (bookItems mk n items s) := by
  have lent (b : Bank) : ActiveKept b
      (b.mapBorrower n fun e => { e with loansHeld := min loansMax (e.loansHeld + checkouts items) }) :=
    activeKept_mapBorrower fun _ => ⟨rfl, rfl⟩
  exact (kept_foldl (fun s e => kept_appendClaimed (mk e) s) items s).trans
    (kept_active rfl ((lent _).trans (activeKept_fillHolds n items _)) rfl)

theorem kept_unlinkBorrower (n : Number) (s : State) : Kept s (unlinkBorrower n s) := by
  have left : ActiveKept s.active (s.active.mapBorrower n fun e => { e with sessionStation := none }) :=
    activeKept_mapBorrower fun _ => ⟨rfl, rfl⟩
  exact kept_active rfl (left.trans (activeKept_dropIfRetired _ n)) rfl

theorem kept_closeSession (st : Station) (m : Mode) (s : State) : Kept s (closeSession st m s).1 := by
  unfold closeSession
  simp only
  split
  · exact kept_of_tables rfl
  · refine Kept.quiet (Kept.trans ?_ (kept_unlinkBorrower _ _)) (tables_setSession _ st _)
    exact (kept_bookItems _ _ _ s).quiet (tables_slipForClose _ _ _ _)

theorem kept_cancelSession (st : Station) (s : State) : Kept s (cancelSession st s) := by
  unfold cancelSession
  split
  · exact Kept.refl s
  · exact ((kept_unlinkBorrower _ _).after (tables_releaseClaims s _)).quiet (tables_setSession _ _ _)

theorem kept_abandonSession (st : Station) (s : State) : Kept s (abandonSession st s) := by
  unfold abandonSession
  simp only
  split
  · exact Kept.refl s
  · refine Kept.quiet (Kept.trans ?_ (kept_unlinkBorrower _ _)) (tables_setSession _ _ _)
    split
    · exact kept_appendSystem _ s
    · exact (kept_appendClaimed _ _).after (tables_releaseClaims s _)

theorem kept_loseStation (st : Station) (s : State) : Kept s (loseStation st s) :=
  (kept_abandonSession st s).quiet (tables_goAbsent _ st)

theorem kept_convertSession (s : State) (st : Station) : Kept s (convertSession s st) := by
  unfold convertSession
  simp only
  split
  · exact Kept.refl s
  · exact (kept_bookItems _ _ _ s).trans (kept_unlinkBorrower _ _)

/-! ### The desk-day -/

theorem kept_beginOpening (q : Option Req) (s : State) : Kept s (beginOpening q s) := kept_slot rfl rfl rfl

theorem kept_autoOpenTest (s : State) : Kept s (autoOpenTest s) := by
  unfold autoOpenTest
  split
  · exact kept_beginOpening none s
  · exact Kept.refl s

theorem kept_releaseSlot (s : State) : Kept s (releaseSlot s) :=
  Kept.trans (t := { s with slot := none }) (kept_slot rfl rfl rfl) (kept_autoOpenTest _)

theorem kept_recordedStep (i : Instant) (s : State) : Kept s (recordedStep i s) :=
  (kept_appendSystem _ _).after (tables_stepClock s i)

theorem kept_applyHeld (s : State) : Kept s (applyHeld s) := by
  unfold applyHeld
  split
  · exact Kept.refl s
  · exact (kept_recordedStep _ _).after (tables_dropHeld s)

theorem kept_enterClosed (s : State) : Kept s (enterClosed s) := by
  unfold enterClosed
  refine Kept.quiet (Kept.trans ?_ (kept_applyHeld _)) (tables_showStandingAll _)
  exact (kept_appendSystem (draft .dayClose) s).quiet rfl

theorem kept_closeIfDone (s : State) : Kept s (closeIfDone s) := by
  unfold closeIfDone
  split
  · exact (kept_enterClosed s).trans (kept_autoOpenTest _)
  · exact Kept.refl s

theorem kept_enterClosing (s : State) : Kept s (enterClosing s) := (kept_closeIfDone _).after rfl

theorem kept_autoCloseTest (s0 s : State) : Kept s (autoCloseTest s0 s) := by
  unfold autoCloseTest
  split
  · exact kept_enterClosing s
  · exact Kept.refl s

theorem kept_afterStep (s0 s : State) : Kept s (afterStep s0 s) :=
  (kept_autoCloseTest s0 s).trans (kept_autoOpenTest _)

theorem kept_closeSilently (st : Station) (s : State) : Kept s (closeSilently st s) :=
  ((kept_closeSession st .normal s).quiet (by simp)).trans (kept_closeIfDone _)

/-- R70: the sweep at an entry of the table. -/
theorem kept_sweepEntry {e : Item} (day : Nat) (he : e ∈ s.active.items) : Kept s (sweepEntry day e s) := by
  unfold sweepEntry
  split
  · exact Kept.refl s
  next h hs hqueue =>
  split
  · simp only
    have appended := kept_appendSystem (sweepDraft .holdExpired e.number h) s
    have hmem : e ∈ (appendSystem (sweepDraft .holdExpired e.number h) s).active.items := by
      obtain ⟨j, l, expired⟩ := Desk.appendSystem_tables (sweepDraft .holdExpired e.number h) s
      rw [expired]
      exact he
    generalize appendSystem (sweepDraft .holdExpired e.number h) s = x at appended hmem ⊢
    have routed := appended.trans (kept_withActive (s := x)
      (b := x.active.mapQueue e.number fun _ => waitHead x.active day hs)
      (bankKept_mapQueue fun order y hy hn => by
        obtain rfl := eq_of_ascending order hy hmem hn
        rw [length_waitHead, hqueue]
        exact Nat.le_succ _).active)
    split
    · exact routed
    · exact routed.trans (kept_appendSystem _ _)
  · exact Kept.refl s

/-! ### Decisions -/

theorem kept_refuse (st : Station) (r : Reason) (b i staff : Option Number) (s : State) :
    Kept s (refuse st r b i staff s) :=
  (kept_appendAboveReserve (refusalDraft st r b i staff) s).quiet (by simp [refuse])

theorem kept_refuseInSession (st : Station) (r : Reason) (i : Option Number) (s : State) :
    Kept s (refuseInSession st r i s) := kept_refuse _ _ _ _ _ s

theorem kept_refuseBorrower (st : Station) (n : Number) (r : Reason) (s : State) :
    Kept s (refuseBorrower st n r s) := (kept_refuse _ _ _ _ _ _).after (tables_setSession s st _)

theorem kept_openSession (st : Station) (n : Number) (admitted : Bool) (s : State) :
    Kept s (openSession st n admitted s) := by
  unfold openSession
  simp only
  refine Kept.quiet ?_ ((tables_sound _ _ _).trans (tables_showLines _ _ _ _))
  exact kept_active rfl (activeKept_mapBorrower fun _ => ⟨rfl, rfl⟩) rfl

theorem kept_admitBorrower (st : Station) (n : Number) (c : Fin 16) (s : State) :
    Kept s (admitBorrower st n c s) := by
  unfold admitBorrower
  split
  · simp only
    split
    · exact kept_refuseBorrower _ _ _ s
    · exact kept_openSession _ _ _ s
  · next unknown =>
    split
    · exact kept_refuseBorrower _ _ _ s
    · next room hroom =>
      refine Kept.trans ?_ (kept_openSession st n false _)
      exact kept_active rfl (activeKept_joinBorrower (e := provisionalEntry n c) hroom unknown rfl) rfl

theorem kept_borrowerDecision (st : Station) (n : Number) (c : Fin 16) (w : Bool) (s : State) :
    Kept s (borrowerDecision st n c w s) := by
  unfold borrowerDecision
  split
  · exact kept_refuse _ _ _ _ _ s
  split
  · exact kept_of_tables (by simp)
  split
  · exact ((kept_closeSession st .normal s).trans (kept_admitBorrower _ _ _ _)).quiet (tables_showIfLost _ _ _)
  · exact kept_admitBorrower _ _ _ s

theorem kept_creditReturn (st : Station) (item : Number) (s : State) : Kept s (creditReturn st item s) := by
  unfold creditReturn
  simp only
  split
  · exact kept_appendAboveReserve _ s
  · refine Kept.trans ?_ (kept_appendAboveReserve _ _)
    exact kept_active rfl (activeKept_mapBorrower fun _ => ⟨rfl, rfl⟩) rfl

theorem kept_routeHead (st : Station) (item : Number) (s : State) : Kept s (routeHead st item s) := by
  have waiting : Kept s { s with active := s.active.mapQueue item (waitHead s.active s.today) } :=
    kept_active rfl (bankKept_mapQueue fun _ _ _ _ => (length_waitHead _ _ _).le).active rfl
  unfold routeHead
  split
  · simp only
    split
    · exact waiting
    · exact waiting.trans (kept_appendAboveReserve _ _)
  · exact Kept.refl s

theorem kept_takeReturn (st : Station) (item : Number) (c : Fin 32) (s : State) :
    Kept s (takeReturn st item c s) := by
  unfold takeReturn
  simp only
  split <;> exact ((kept_creditReturn st item s).trans (kept_routeHead st item _)).quiet (by simp)

theorem kept_lendDecision (st : Station) (n item : Number) (c : Fin 32) (w : Bool) (s : State) :
    Kept s (lendDecision st n item c w s) := by
  unfold lendDecision
  simp only
  split
  · exact kept_refuseInSession _ _ _ s
  split
  · exact kept_of_tables (by simp)
  split
  · exact kept_refuseInSession _ _ _ s
  split
  · exact kept_refuseInSession _ _ _ s
  · exact kept_of_tables (tables_acceptItem _ _ _)

theorem kept_itemDecision (st : Station) (item : Number) (c : Fin 32) (w : Bool) (s : State) :
    Kept s (itemDecision st item c w s) := by
  unfold itemDecision
  split
  · exact kept_lendDecision _ _ _ _ _ s
  split
  · unfold returnDecision
    split
    · exact kept_refuseInSession _ _ _ s
    · exact kept_takeReturn _ _ _ s
  · exact kept_refuseInSession _ _ _ s

theorem kept_staffDecision (st : Station) (n : Number) (s : State) : Kept s (staffDecision st n s) := by
  unfold staffDecision
  split
  · exact kept_of_tables (tables_acceptStaff _ _ _)
  · exact kept_refuse _ _ _ _ _ s

theorem kept_scanDecision (st : Station) (i : Input) (w : Bool) (s : State) : Kept s (scanDecision st i w s) := by
  unfold scanDecision
  split
  · exact kept_borrowerDecision _ _ _ w s
  · exact kept_itemDecision _ _ _ w s
  · exact kept_staffDecision _ _ s
  · exact kept_of_tables (tables_showUnwiped _ _ _)
  · exact kept_refuseInSession _ _ _ s
  · exact Kept.refl s

/-! ### Starts -/

/-- A state with two cleared banks and no record is sound. -/
theorem kept_cleared (ha : t.active = Bank.cleared) (hr : t.journal.records = [])
    (hb : ∀ b ∈ t.stagedBanks, b = Bank.cleared) : Kept s t where
  sound _ := ⟨ha ▸ bankSound_cleared, fun b h => hb b h ▸ bankSound_cleared⟩
  counted _ := (pendingSound_iff t).mpr ⟨hr ▸ ha ▸ counted_cleared, fun b h => hb b h ▸ plain_cleared⟩

theorem kept_cutStaging (s : State) : Kept s (cutStaging s) := by
  unfold cutStaging
  split
  · next replaced q hk =>
    have clearing : replaced ∈ s.stagedBanks := by simp [State.stagedBanks, hk]
    refine kept_of_banks rfl (ActiveKept.refl _) fun b hb => ⟨replaced, clearing, ?_⟩
    have banks : ({ s.useFree with
        staged := replaced.partlyCleared (Config.stageCleared s.freeIx) } : State).stagedBanks =
          [replaced.partlyCleared (Config.stageCleared s.freeIx), replaced] := by
      simp [State.stagedBanks, hk]
    rw [banks] at hb
    obtain rfl | hb := List.mem_cons.mp hb
    · exact stagedKept_partlyCleared _ replaced
    · obtain rfl := List.mem_singleton.mp hb
      exact StagedKept.refl _
  · exact Kept.refl s

theorem kept_startVolatile (s : State) : Kept s (startVolatile s) := kept_slot rfl rfl rfl

theorem kept_convertSessions (s : State) : Kept s (convertSessions s) := by
  have converted := kept_foldl kept_convertSession stations s
  unfold convertSessions
  generalize stations.foldl convertSession s = x at converted ⊢
  exact converted.quiet rfl

theorem kept_closeInterrupted (s : State) : Kept s (closeInterrupted s) := by
  unfold closeInterrupted
  split
  · exact Kept.refl s
  · exact kept_enterClosed s

theorem kept_warmStart (s : State) : Kept s (warmStart s) := by
  have started : Kept s (finishScrub (startVolatile (cutStaging s))) :=
    ((kept_cutStaging s).trans (kept_startVolatile _)).quiet (tables_finishScrub _)
  have closed := (started.trans (kept_convertSessions _)).trans (kept_closeInterrupted _)
  exact (closed.quiet ((tables_testLevels _).trans (tables_rewind _))).trans (kept_autoOpenTest _)

theorem kept_coldStart (s : State) : Kept s (coldStart s) :=
  kept_cleared rfl rfl fun _ hb => List.mem_singleton.mp hb

theorem kept_start (s : State) : Kept s (start s) := by
  unfold start
  split
  · exact kept_warmStart s
  · exact kept_coldStart s

end Sys2Proof.Keeping
end

