-- ==== Sys2Proof/Proofs/TablesThroughCommands.lean ====
section
/-! SUPPORT. The tables and the `pending` counts through an event of each shape and through every command (R41, R43, R51,
R58, R64 to R66, R90). -/

namespace Sys2Proof.Keeping

open Sys2Proof.Machine Sys2Proof.Outcomes

variable {s t : State}

/-! ### Events -/

theorem kept_settled {s0 : State} (h : Kept s t) : Kept s (settle s0 t) := h.quiet (tables_settle t s0)

theorem kept_partEvent {f : State → State} (hf : Kept s (f s)) (h : partEvent f s = .next t) : Kept s t := by
  obtain rfl | rfl := partEvent_next h
  · exact Kept.refl _
  · exact kept_settled hf

theorem kept_guardedEvent {g : State → Bool} {f : State → State} (hf : Kept s (f s))
    (h : guardedEvent g f s = .next t) : Kept s t := by
  obtain rfl | rfl | ⟨-, rfl⟩ := guardedEvent_next h
  · exact Kept.refl _
  · exact kept_settled (Kept.refl _)
  · exact kept_settled hf

theorem kept_decision {takes : State → Input → Bool} {body : Station → Input → Bool → State → State}
    (hb : ∀ st i w x, Kept x (body st i w x)) (h : decision takes body s = .next t) : Kept s t := by
  obtain rfl | rfl | ⟨st, i, -, -, rfl⟩ := decision_next h
  · exact Kept.refl _
  · exact kept_settled (Kept.refl _)
  · exact kept_settled ((hb st i _ _).after (tables_takeInput s st))

theorem kept_keyDecision {k : KeyCode} {body : Station → Bool → State → State} (hb : ∀ st w x, Kept x (body st w x))
    (h : keyDecision k body s = .next t) : Kept s t :=
  kept_decision (fun st _ w x => hb st w x) h

theorem kept_stationEvent {st : Station} {f : State → State} (hf : ∀ x, tables (f x) = tables x)
    (h : stationEvent st f s = .next t) : Kept s t := by
  refine kept_partEvent (kept_of_tables ?_) h
  simp only
  split
  · exact hf _
  · rfl

theorem kept_lineEvent {l : Line} {f : State → State} (hf : ∀ x, Kept x (f x)) (h : lineEvent l f s = .next t) :
    Kept s t := by
  obtain rfl | rfl | rfl := lineEvent_next h
  · exact Kept.refl _
  · exact kept_settled (Kept.refl _)
  · exact kept_settled ((hf _).after (tables_goodLineFrame s l))

theorem kept_requestEvent {α : Type} {q : Req} {name : ReqName} {owner : α → Bool} {c : Content α}
    {rule : α → State → State} (hr : ∀ p x, Kept x (rule p x)) (h : requestEvent q name owner c rule s = .next t) :
    Kept s t := by
  obtain rfl | rfl | ⟨r, rfl⟩ | ⟨p, -, rfl⟩ := requestEvent_next h
  · exact Kept.refl _
  · exact kept_settled (Kept.refl _)
  · exact kept_of_tables (by simp)
  · exact kept_settled ((hr p _).after (tables_received s q name))

theorem kept_request {α : Type} {q : Req} {name : ReqName} {owner : Bool} {c : Content α}
    {rule : α → State → State × Reply} (hr : ∀ p x, Kept x (rule p x).1)
    (h : request q name owner c rule s = .next t) : Kept s t :=
  kept_requestEvent (fun p x => (hr p x).quiet (tables_answer q name _)) h

/-- A request whose rule leaves the tables alone. -/
theorem kept_quietRequest {α : Type} {q : Req} {name : ReqName} {owner : Bool} {c : Content α}
    {rule : α → State → State × Reply} (hr : ∀ p x, tables (rule p x).1 = tables x)
    (h : request q name owner c rule s = .next t) : Kept s t :=
  kept_request (fun p x => kept_of_tables (hr p x)) h

theorem kept_readRequest {α : Type} {q : Req} {name : ReqName} {c : Content α} {reply : α → State → Reply}
    (h : readRequest q name c reply s = .next t) : Kept s t :=
  kept_quietRequest (fun _ _ => rfl) h

/-! ### Table writes -/

theorem kept_setBank {bank : BankName} {b : Bank} (h : BankKept (s.bank bank) b) : Kept s (s.setBank bank b) := by
  cases bank with
  | active => exact kept_withActive h.active
  | staged =>
    refine kept_of_banks rfl (ActiveKept.refl _) fun x hx => ?_
    have change : x = b ∨ x ∈ s.stagedBanks := by
      unfold State.stagedBanks at hx ⊢
      simp only [State.setBank] at hx
      split at hx
      · obtain hx | hx := List.mem_cons.mp hx
        · exact .inl hx
        · exact .inr (List.mem_cons_of_mem _ hx)
      · exact .inl (List.mem_singleton.mp hx)
    obtain rfl | hx := change
    · exact ⟨s.staged, mem_stagedBanks_self s, h.staged⟩
    · exact ⟨x, hx, StagedKept.refl x⟩

theorem kept_recordWrite (q : Req) (bank : BankName) (name : ReqName) (borrower item : Option Number) (s : State) :
    Kept s (recordWrite q bank name borrower item s) := by
  unfold recordWrite
  split
  · exact kept_appendSystem _ s
  · exact Kept.refl s

theorem kept_writeTable {q : Req} {name : ReqName} {bank : BankName} {borrower item : Option Number}
    {rule : Bank → WriteResult} (hr : ∀ b, WriteKept b (rule b)) (s : State) :
    Kept s (writeTable q name bank borrower item rule s).1 := by
  obtain h | ⟨b, r, -, hb, h⟩ := writeTable_cases q name bank borrower item rule s
  · rw [h]
    exact Kept.refl s
  · rw [h]
    exact (kept_setBank (hr _ b r hb)).trans (kept_recordWrite q bank name borrower item _)

theorem kept_tableRequest {α : Type} {q : Req} {name : ReqName} {c : Content α} {bank : α → BankName}
    {borrower item : α → Option Number} {rule : α → Bank → WriteResult} (hr : ∀ p b, WriteKept b (rule p b))
    (h : tableRequest q name c bank borrower item rule s = .next t) : Kept s t :=
  kept_request (fun p x => kept_writeTable (hr p) x) h

theorem kept_calendarWrite {α : Type} {q : Req} {name : ReqName} {c : Content α} {bank : α → BankName}
    {rule : α → Bank → WriteResult} (hr : ∀ p b, WriteKept b (rule p b))
    (h : calendarWrite q name c bank rule s = .next t) : Kept s t := by
  refine kept_request (fun p x => ?_) h
  have wrote := kept_writeTable (q := q) (name := name) (bank := bank p) (borrower := none) (item := none) (hr p) x
  simp only
  split
  · exact wrote.trans (kept_afterStep x _)
  · exact wrote

/-! ### Station lines and keys -/

theorem kept_heartbeat {st : Station} {content : List Byte} (h : execHeartbeat st content s = .next t) :
    Kept s t := by
  refine kept_stationEvent (fun x => ?_) h
  have relayed : tables (if (x.port st).bridged = true then passUp st (heartbeatKind :: content) x else x) =
      tables x := by
    split <;> simp
  simp only
  generalize (if (x.port st).bridged = true then passUp st (heartbeatKind :: content) x else x) = y at relayed ⊢
  rw [← relayed]
  split
  · rfl
  · split <;> simp

theorem kept_scanFrame {st : Station} {content : List Byte} (h : execScanFrame st content s = .next t) :
    Kept s t := by
  refine kept_stationEvent (fun x => ?_) h
  split
  · simp
  · split <;> simp

theorem kept_keyFrame {st : Station} {content : List Byte} (h : execKeyFrame st content s = .next t) :
    Kept s t := by
  refine kept_stationEvent (fun x => ?_) h
  split
  · simp
  · split <;> simp

theorem kept_unknownKind {st : Station} {kind : Byte} {content : List Byte}
    (h : execUnknownKindStationFrame st kind content s = .next t) : Kept s t := by
  refine kept_stationEvent (fun x => ?_) h
  split <;> simp

theorem kept_watchExpiry {st : Station} (h : execHeartbeatWatchExpiry st s = .next t) : Kept s t := by
  refine kept_guardedEvent ?_ h
  split
  · exact kept_of_tables rfl
  · exact (kept_loseStation st s).trans (kept_closeIfDone _)

theorem kept_scan {takes : State → Input → Bool} (h : decision takes scanDecision s = .next t) : Kept s t :=
  kept_decision kept_scanDecision h

theorem kept_endKey (h : execEndKey s = .next t) : Kept s t := by
  refine kept_keyDecision (fun st w x => ?_) h
  split
  · refine Kept.trans ((kept_closeSession st .normal x).quiet ?_) (kept_closeIfDone _)
    simp only [tables_sound, tables_showIfLost]
    split <;> simp
  · exact kept_of_tables (tables_showUnwiped _ _ _)

theorem kept_cancelKey (h : execCancelKey s = .next t) : Kept s t := by
  refine kept_keyDecision (fun st w x => ?_) h
  split
  · exact ((kept_cancelSession st x).quiet (tables_showStanding _ st)).trans (kept_closeIfDone _)
  · exact kept_of_tables (by simp)

theorem kept_returnKey (h : execReturnKey s = .next t) : Kept s t := by
  refine kept_keyDecision (fun st w x => ?_) h
  split
  · exact kept_of_tables (tables_showUnwiped _ _ _)
  · exact ((kept_closeSession st .returns x).quiet (by simp)).trans (kept_closeIfDone _)

theorem kept_checkoutKey (h : execCheckoutKey s = .next t) : Kept s t := by
  refine kept_keyDecision (fun st w x => kept_of_tables ?_) h
  split <;> simp

theorem kept_reprintKey (h : execReprintKey s = .next t) : Kept s t := by
  refine kept_keyDecision (fun st w x => kept_of_tables ?_) h
  simp only
  split <;> simp

/-! ### Timed events -/

theorem kept_tickEvent (s : State) : Kept s (tickEvent s) := by
  have ticked : Kept s (autoCloseTest s (tickTimers (tickClock s))) :=
    (kept_autoCloseTest s _).after ((tables_tickTimers _).trans (tables_tickClock s))
  unfold tickEvent
  simp only
  split
  · exact ticked.trans (kept_autoOpenTest _)
  · exact ticked

theorem kept_clockTick (h : execClockTick s = .next t) : Kept s t := by
  unfold execClockTick at h
  split at h
  · exact kept_partEvent (kept_tickEvent s) h
  · obtain rfl := Host.Outcome.next.inj h
    exact kept_of_tables (tables_tickClock s)

theorem kept_sweepStep (h : execSweepStep s = .next t) : Kept s t := by
  refine kept_partEvent ?_ h
  unfold sweepOne
  split
  · exact Kept.refl s
  next q day visited _ =>
  split
  · exact Kept.refl s
  next e rest hrest =>
  have hmem : e ∈ s.active.items := by
    have first : e ∈ sweepRest visited s.active.items := by rw [hrest]; exact List.mem_cons_self
    unfold sweepRest at first
    split at first
    · exact first
    · exact List.mem_of_mem_filter first
  exact (kept_sweepEntry day hmem).trans (kept_slot rfl rfl rfl)

theorem kept_endOpening (q : Option Req) (day : Nat) (s : State) : Kept s (endOpening q day s) := by
  unfold endOpening
  simp only
  refine Kept.quiet ?_ ((tables_showStandingAll _).trans (tables_finalReply _ _ _ _))
  have opened := (kept_appendSystem (draft .dayOpen) s).trans (kept_slot
    (t := { appendSystem (draft .dayOpen) s with
      day := { (appendSystem (draft .dayOpen) s).day with state := .opened, openDay := some day }, slot := none })
    rfl rfl rfl)
  split
  · exact opened.quiet (tables_raiseBoth _ _)
  · exact opened

theorem kept_openEnd (h : execOpenEnd s = .next t) : Kept s t := by
  refine kept_partEvent ?_ h
  split
  · exact Kept.refl s
  · split
    · exact kept_endOpening _ _ s
    · exact Kept.refl s

theorem kept_stageBeginEnd (h : execStageBeginEnd s = .next t) : Kept s t := by
  refine kept_partEvent ?_ h
  split
  · exact (kept_releaseSlot _).after (tables_finalReply _ _ _ _)
  · exact Kept.refl s

theorem kept_scrubBlock (h : execScrubBlock s = .next t) : Kept s t := by
  refine kept_partEvent ?_ h
  split
  · split
    · simp only
      split
      · exact (kept_releaseSlot _).after ((tables_finalReply _ _ _ _).trans (tables_finishScrub _))
      · exact kept_of_tables rfl
    · exact Kept.refl s
  · exact Kept.refl s

/-! ### COMMIT's change-over -/

/-- R172: the staged bank, whose entries have no `pending`, becomes the ACTIVE one, and an empty journal counts for none
of them. -/
theorem sound_changeOver (hk : s.stagedBanks = [s.staged]) :
    (TablesSound s → TablesSound (changeOver s)) ∧
      (s.journal.records = [] → PendingSound s → PendingSound (changeOver s)) := by
  have cleared (g : Nat) : ({ s with
      active := s.staged, staged := Bank.cleared, stagedState := .empty, cache := []
      generation := g } : State).stagedBanks = [Bank.cleared] := by
    simp only [State.stagedBanks] at hk ⊢
    split
    · next h => simp [h] at hk
    · rfl
  have recorded : Kept
      { s with
        active := s.staged, staged := Bank.cleared, stagedState := .empty, cache := []
        generation := nextGeneration s.generation } (changeOver s) :=
    (kept_appendSystem (draft .commit) _).quiet rfl
  constructor
  · rintro ⟨-, staged⟩
    refine recorded.sound ⟨staged _ (mem_stagedBanks_self s), fun b hb => ?_⟩
    rw [cleared] at hb
    exact List.mem_singleton.mp hb ▸ bankSound_cleared
  · intro drained h
    rw [pendingSound_iff] at h
    refine recorded.counted ((pendingSound_iff _).mpr ⟨?_, fun b hb => ?_⟩)
    · show Counted s.journal.records s.staged
      rw [drained]
      exact ⟨fun e he => (h.2 _ (mem_stagedBanks_self s) e he).1, fun r hr => absurd hr (by simp)⟩
    · rw [cleared] at hb
      exact List.mem_singleton.mp hb ▸ plain_cleared

theorem sound_commitChangeover (h : execCommitChangeover s = .next t) :
    (TablesSound s → TablesSound t) ∧
      (s.journal.records.length = s.journal.unreleased → PendingSound s → PendingSound t) := by
  have ended {x : State} (q : Option Req) (r : Reply) : Kept x (releaseSlot (finalReply q .commit r x)) :=
    (kept_releaseSlot _).after (tables_finalReply _ _ _ _)
  obtain rfl | rfl := partEvent_next h
  · exact ⟨id, fun _ => id⟩
  split
  · next q hk =>
    split
    · next drained =>
      obtain ⟨sound, counted⟩ := sound_changeOver (s := s) (by simp [State.stagedBanks, hk])
      have after := kept_settled (s0 := s) (ended (x := changeOver s) q
        { status := .ok, results := .committed (changeOver s).generation })
      exact ⟨fun hs => after.sound (sound hs), fun hl hs =>
        after.counted (counted (List.length_eq_zero_iff.mp (hl.trans drained.2)) hs)⟩
    · have after := kept_settled (s0 := s) (ended (x := s) q (Reply.bare .notDrained))
      exact ⟨after.sound, fun _ => after.counted⟩
  · exact ⟨id, fun _ => id⟩

/-! ### Management lines -/

theorem kept_lineTransmit {l : Line} (h : execLineTransmit l s = .next t) : Kept s t := by
  refine kept_partEvent ?_ h
  simp only
  split
  · exact kept_warmStart s
  · exact kept_of_tables (tables_setLine _ _ _)

theorem kept_livenessExpiry {l : Line} (h : execLivenessExpiry l s = .next t) : Kept s t := by
  refine kept_guardedEvent ?_ h
  have down : Kept s (enterInactive l .down none s) := kept_of_tables (tables_enterInactive _ _ _ _)
  simp only
  split
  · exact down.trans (kept_warmStart _)
  · exact down

theorem kept_passDown {n : Nat} {body : List Byte} (h : execPassDown n body s = .next t) : Kept s t := by
  refine kept_lineEvent (fun x => kept_of_tables ?_) h
  split
  · split
    · exact tables_joinPass _ _ _
    · rfl
  · rfl

theorem kept_unknownRequest {q : Req} {code : Option Byte} (h : execUnknownRequestName q code s = .next t) :
    Kept s t := by
  unfold execUnknownRequestName at h
  simp only at h
  refine kept_lineEvent (fun x => kept_of_tables ?_) h
  simp only [tables_answer, tables_clearLastError]
  split <;> simp

theorem kept_hello {q : Req} {c : Content HelloParams} (h : execHello q c s = .next t) : Kept s t := by
  refine kept_lineEvent (fun x => kept_of_tables ?_) h
  split
  · simp
  · split
    · exact tables_acceptHello _ _ _
    · simp

theorem kept_unlock {q : Req} {c : Content Key} (h : execUnlock q c s = .next t) : Kept s t := by
  refine kept_quietRequest (fun k x => ?_) h
  split
  · rfl
  · split <;> simp

theorem kept_setKey {q : Req} {c : Content Key} (h : execSetKey q c s = .next t) : Kept s t := by
  refine kept_quietRequest (fun k x => ?_) h
  simp only [tables_setMark]
  rfl

theorem kept_ackAttention {q : Req} {c : Content (Named CauseSet)} (h : execAckAttention q c s = .next t) :
    Kept s t := by
  refine kept_quietRequest (fun p x => ?_) h
  split <;> simp

theorem kept_setAttentionMask {q : Req} {c : Content (Named CauseSet)} (h : execSetAttentionMask q c s = .next t) :
    Kept s t := by
  refine kept_quietRequest (fun p x => ?_) h
  split <;> simp

theorem kept_readNote {q : Req} {c : Content ReadNoteTarget} (h : execReadNote q c s = .next t) : Kept s t := by
  refine kept_quietRequest (fun p x => ?_) h
  cases p with
  | addressed => exact tables_setNoteTo _ _ _
  | slips => rfl
  | other => rfl

theorem tables_postNoteRule (l : Line) (p : PostNoteParams) (x : State) :
    tables (postNoteRule l p x).1 = tables x := by
  unfold postNoteRule
  split
  · rfl
  split
  · rfl
  · rfl
  · split
    · rfl
    split
    · rfl
    · exact tables_postTo _ _ _
  · split
    · rfl
    split
    · rfl
    · exact tables_postTo _ _ _

theorem kept_postNote {q : Req} {c : Content PostNoteParams} (h : execPostNote q c s = .next t) : Kept s t :=
  kept_requestEvent (fun p x => kept_of_tables ((tables_answer _ _ _).trans (tables_postNoteRule _ p x))) h

theorem kept_bridge {q : Req} {c : Content Nat} (h : execBridge q c s = .next t) : Kept s t := by
  refine kept_quietRequest (fun n x => ?_) h
  split
  · rfl
  split
  · split <;> simp
  · rfl

theorem kept_unbridge {q : Req} {c : Content Nat} (h : execUnbridge q c s = .next t) : Kept s t := by
  refine kept_quietRequest (fun n x => ?_) h
  split
  · rfl
  split
  · split <;> simp
  · rfl

theorem kept_restart {q : Req} {c : Content Unit} (h : execRestart q c s = .next t) : Kept s t := by
  refine kept_quietRequest (fun _ x => ?_) h
  rfl

/-! ### The journal's requests -/

theorem tables_uploadRule (q : Req) (n : Nat) (x : State) : tables (uploadRule q n x) = tables x := by
  unfold uploadRule
  split
  · simp
  split
  · simp
  split
  · simp
  simp only
  split
  · exact tables_endUpload _
  · rfl

theorem kept_releaseRule (seq : Nat) (s : State) : Kept s (releaseRule seq s).1 := by
  unfold releaseRule
  simp only
  split
  · exact Kept.refl s
  generalize (if decide (s.journal.sendMark ≤ seq) = true then s.journal.sendMark - 1 else seq) = limit
  split
  · exact Kept.refl s
  · exact kept_releaseTo limit s

theorem kept_release {q : Req} {c : Content Nat} (h : execRelease q c s = .next t) : Kept s t := by
  refine kept_request (fun seq x => ?_) h
  split
  · exact Kept.refl x
  · exact kept_releaseRule seq x

theorem kept_recordSend (h : execRecordSend s = .next t) : Kept s t := by
  refine kept_guardedEvent (kept_of_tables ?_) h
  split
  · rfl
  · simp only
    split
    · exact (tables_endUpload _).trans (tables_sendRecord _ _)
    · exact tables_sendRecord _ _

/-! ### The desk's requests -/

theorem kept_openDesk {q : Req} {c : Content Unit} (h : execOpenDesk q c s = .next t) : Kept s t := by
  refine kept_request (fun _ x => ?_) h
  split
  · exact Kept.refl x
  split
  · exact Kept.refl x
  · exact kept_beginOpening _ x

theorem kept_closeDesk {q : Req} {c : Content Unit} (h : execCloseDesk q c s = .next t) : Kept s t := by
  refine kept_request (fun _ x => ?_) h
  split
  · exact Kept.refl x
  split
  · exact kept_enterClosing x
  · exact Kept.refl x
  · exact Kept.refl x

theorem kept_takeTime (i : Instant) (s : State) : Kept s (takeTime i s).1 := by
  unfold takeTime
  split
  · refine (kept_afterStep s _).after ?_
    split <;> rfl
  split
  · exact kept_of_tables (tables_dropHeld s)
  split
  · exact ((kept_recordedStep i _).after (tables_dropHeld s)).trans (kept_afterStep s _)
  · exact kept_of_tables rfl

theorem kept_timeRule (p : TimeParams) (s : State) : Kept s (timeRule p s).1 := by
  unfold timeRule
  split
  · exact Kept.refl s
  · exact kept_takeTime _ s

theorem kept_time {q : Req} {c : Content TimeParams} (h : execTime q c s = .next t) : Kept s t := by
  refine kept_request (fun p x => ?_) h
  split
  · exact Kept.refl x
  · exact kept_timeRule p x

theorem kept_setTime {q : Req} {c : Content TimeParams} (h : execSetTime q c s = .next t) : Kept s t := by
  refine kept_request (fun p x => ?_) h
  split
  · exact Kept.refl x
  split
  · exact Kept.refl x
  · exact kept_timeRule p x

/-- R170: the bank being cleared stands beside the cleared one. -/
theorem kept_stageBegin {q : Req} {c : Content Unit} (h : execStageBegin q c s = .next t) : Kept s t := by
  refine kept_request (fun _ x => ?_) h
  split
  · exact Kept.refl x
  · refine kept_of_banks rfl (ActiveKept.refl _) fun b hb => ⟨x.staged, mem_stagedBanks_self x, ?_⟩
    obtain rfl | hb := List.mem_cons.mp hb
    · exact stagedKept_cleared _
    · exact List.mem_singleton.mp hb ▸ StagedKept.refl _

theorem kept_commit {q : Req} {c : Content CommitParams} (h : execCommit q c s = .next t) : Kept s t := by
  refine kept_request (fun _ x => ?_) h
  simp only
  split
  · exact Kept.refl x
  split
  · exact Kept.refl x
  split
  · exact Kept.refl x
  split
  · exact kept_slot rfl rfl rfl
  · exact Kept.refl x

theorem kept_disableStations (s : State) : Kept s (disableStations s) :=
  kept_foldl (fun x st => by
    split
    · exact kept_loseStation st x
    · exact Kept.refl x) stations s

theorem kept_settingsRule (p : SettingsParams) (s : State) : Kept s (settingsRule p s).1 := by
  unfold settingsRule
  split
  · exact Kept.refl s
  · next record _ =>
    have stored : Kept s { s with settings := record } := kept_of_tables rfl
    have closed := (stored.trans (kept_disableStations _)).trans (kept_closeIfDone _)
    generalize closeIfDone (disableStations { s with settings := record }) = x at closed
    exact closed.trans (kept_autoOpenTest x)

/-- R198: both banks and the journal are cleared. -/
theorem kept_wipeEvent (q : Req) (hk : s.slot = none) : Kept s (wipeEvent q s) := by
  have free : (endUpload s).slot = none := by
    unfold endUpload
    split
    · exact hk
    · simp [sendReply, hk]
  have wiped : Kept s (wipeTables (endUpload s)) := by
    have banks : (wipeTables (endUpload s)).stagedBanks = [Bank.cleared] := by
      simp [State.stagedBanks, wipeTables, free]
    refine kept_cleared rfl rfl fun b hb => List.mem_singleton.mp ?_
    rwa [banks] at hb
  have recorded := (wiped.quiet (tables_showStandingAll _)).trans (kept_appendSystem (draft .wiped) _)
  unfold wipeEvent
  simp only
  generalize appendSystem (draft .wiped) (showStandingAll (wipeTables (endUpload s))) = x at recorded ⊢
  exact recorded.trans (kept_slot rfl rfl rfl)

theorem kept_wipe {q : Req} {c : Content Unit} (h : execWipe q c s = .next t) : Kept s t := by
  refine kept_request (fun _ x => ?_) h
  split
  · exact Kept.refl x
  · next free => exact kept_wipeEvent q (by simpa using free)

/-! ### The supplies and the pin -/

theorem kept_powerUp (h : execPowerUp s = .next t) : Kept s t := by
  unfold execPowerUp at h
  split at h
  · cases h
    exact Kept.refl s
  · obtain rfl := Host.Outcome.next.inj h
    have powered : Kept s { s with powered := true } := kept_of_tables rfl
    split
    · exact powered
    · exact powered.trans (kept_start _)

theorem kept_backupFail (h : execBackupFail s = .next t) : Kept s t := by
  obtain rfl := Host.Outcome.next.inj h
  split
  · exact Kept.refl s
  · exact kept_of_tables rfl

theorem kept_resetRelease (h : execResetRelease s = .next t) : Kept s t := by
  unfold execResetRelease at h
  split at h
  · obtain rfl := Host.Outcome.next.inj h
    have released : Kept s { s with resetAsserted := false } := kept_of_tables rfl
    split
    · exact released.trans (kept_start _)
    · exact released
  · cases h
    exact Kept.refl s

/-! ### Every command -/

/-- Every command but COMMIT's change-over keeps the tables and the counts, whatever the journal holds. -/
theorem kept_exec {i : Instr} (hi : i ≠ .commitChangeover) (h : exec i s = .next t) : Kept s t := by
  cases i with
  | heartbeat st content => exact kept_heartbeat h
  | scanFrame st content => exact kept_scanFrame h
  | keyFrame st content => exact kept_keyFrame h
  | stationFrameGap st next =>
    exact kept_partEvent (kept_of_tables (tables_setPort _ _ _)) (show execStationFrameGap st next s = .next t from h)
  | stationTransmit st =>
    exact kept_partEvent (kept_of_tables (tables_setPort _ _ _)) (show execStationTransmit st s = .next t from h)
  | borrowerScan => exact kept_scan h
  | itemScan => exact kept_scan h
  | staffScan => exact kept_scan h
  | endKey => exact kept_endKey h
  | cancelKey => exact kept_cancelKey h
  | returnKey => exact kept_returnKey h
  | checkoutKey => exact kept_checkoutKey h
  | reprintKey => exact kept_reprintKey h
  | idleTimeout st =>
    exact kept_guardedEvent (kept_closeSilently st s) (show execIdleTimeout st s = .next t from h)
  | armLapse st =>
    exact kept_guardedEvent (kept_of_tables (tables_setSession _ _ _)) (show execArmLapse st s = .next t from h)
  | heartbeatWatchExpiry st => exact kept_watchExpiry h
  | slipSend st =>
    exact kept_guardedEvent (kept_of_tables (tables_printOne s st)) (show execSlipSend st s = .next t from h)
  | graceExpiry =>
    have expired : Kept s { s with day := { s.day with graceExpired := true } } := kept_of_tables rfl
    exact kept_guardedEvent (expired.trans (kept_closeIfDone _)) (show execGraceExpiry s = .next t from h)
  | graceSessionClose st =>
    exact kept_guardedEvent (kept_closeSilently st s) (show execGraceSessionClose st s = .next t from h)
  | clockTick => exact kept_clockTick h
  | autoOpen => exact kept_guardedEvent (kept_beginOpening none s) (show execAutoOpen s = .next t from h)
  | sweepStep => exact kept_sweepStep h
  | openEnd => exact kept_openEnd h
  | stageBeginEnd => exact kept_stageBeginEnd h
  | commitChangeover => exact absurd rfl hi
  | scrubBlock => exact kept_scrubBlock h
  | recordSend => exact kept_recordSend h
  | lineFrameGap l next =>
    exact kept_guardedEvent (kept_of_tables (tables_setLine _ _ _)) (show execLineFrameGap l next s = .next t from h)
  | lineTransmit l => exact kept_lineTransmit h
  | livenessExpiry l => exact kept_livenessExpiry h
  | passDown station body => exact kept_passDown h
  | hello q c => exact kept_hello h
  | nop q c => exact kept_readRequest (show execNop q c s = .next t from h)
  | status q c => exact kept_readRequest (show execStatus q c s = .next t from h)
  | unlock q c => exact kept_unlock h
  | wipe q c => exact kept_wipe h
  | ackAttention q c => exact kept_ackAttention h
  | setAttentionMask q c => exact kept_setAttentionMask h
  | readNote q c => exact kept_readNote h
  | readBorrower q c => exact kept_readRequest h
  | readItem q c => exact kept_readRequest h
  | readOlc q c => exact kept_readRequest h
  | readRules q c => exact kept_readRequest h
  | readCalendar q c => exact kept_readRequest h
  | readTemplate q c => exact kept_readRequest h
  | readSettings q c => exact kept_readRequest (show execReadSettings q c s = .next t from h)
  | putBorrower q c => exact kept_tableRequest writeKept_putBorrower h
  | delBorrower q c => exact kept_tableRequest writeKept_delBorrower h
  | adjustBorrower q c => exact kept_tableRequest writeKept_adjustBorrower h
  | putItem q c => exact kept_tableRequest writeKept_putItem h
  | delItem q c => exact kept_tableRequest writeKept_delItem h
  | addHold q c => exact kept_tableRequest writeKept_addHold h
  | cancelHold q c => exact kept_tableRequest writeKept_cancelHold h
  | putPrefix q c => exact kept_tableRequest writeKept_putPrefix h
  | delPrefix q c => exact kept_tableRequest writeKept_delPrefix h
  | putStaff q c => exact kept_tableRequest writeKept_putStaff h
  | delStaff q c => exact kept_tableRequest writeKept_delStaff h
  | putCategory q c => exact kept_tableRequest writeKept_putCategory h
  | delCategory q c => exact kept_tableRequest writeKept_delCategory h
  | putClass q c => exact kept_tableRequest writeKept_putClass h
  | delClass q c => exact kept_tableRequest writeKept_delClass h
  | putRule q c => exact kept_tableRequest writeKept_putRule h
  | delRule q c => exact kept_tableRequest writeKept_delRule h
  | putProfile q c => exact kept_calendarWrite writeKept_putProfile h
  | delProfile q c => exact kept_calendarWrite writeKept_delProfile h
  | putWeekday q c => exact kept_calendarWrite writeKept_putWeekday h
  | delWeekday q c => exact kept_calendarWrite writeKept_delWeekday h
  | putException q c => exact kept_calendarWrite writeKept_putException h
  | delException q c => exact kept_calendarWrite writeKept_delException h
  | putTemplate q c => exact kept_tableRequest writeKept_putTemplate h
  | delTemplate q c => exact kept_tableRequest writeKept_delTemplate h
  | putText q c => exact kept_tableRequest writeKept_putText h
  | delText q c => exact kept_tableRequest writeKept_delText h
  | upload q c => exact kept_requestEvent (fun n x => kept_of_tables (tables_uploadRule q n x)) h
  | release q c => exact kept_release h
  | readJournal q c => exact kept_readRequest h
  | openDesk q c => exact kept_openDesk h
  | closeDesk q c => exact kept_closeDesk h
  | time q c => exact kept_time h
  | setTime q c => exact kept_setTime h
  | stageBegin q c => exact kept_stageBegin h
  | commit q c => exact kept_commit h
  | setSettings q c => exact kept_request kept_settingsRule h
  | setKey q c => exact kept_setKey h
  | bridge q c => exact kept_bridge h
  | unbridge q c => exact kept_unbridge h
  | restart q c => exact kept_restart h
  | restartWarmStart => exact kept_guardedEvent (kept_warmStart s) (show execRestartWarmStart s = .next t from h)
  | postNote q c => exact kept_postNote h
  | powerUp => exact kept_powerUp h
  | powerFail => cases h; exact kept_of_tables rfl
  | backupFail => exact kept_backupFail h
  | resetAssert => cases h; exact kept_of_tables rfl
  | resetRelease => exact kept_resetRelease h
  | ignoreOrCcRefusedScan => exact kept_scan h
  | unknownKindStationFrame st kind content => exact kept_unknownKind h
  | droppedGoodLineFrame l kind =>
    exact kept_guardedEvent (kept_of_tables (tables_goodLineFrame s l))
      (show execDroppedGoodLineFrame l kind s = .next t from h)
  | unknownRequestName q code => exact kept_unknownRequest h

/-- What a step keeps; the counts through a change-over rest on the journal's records being those between its pointers. -/
theorem sound_step (h : step s = .next t) :
    (TablesSound s → TablesSound t) ∧
      (s.journal.records.length = s.journal.unreleased → PendingSound s → PendingSound t) := by
  unfold step at h
  split at h
  · cases h
    exact ⟨id, fun _ => id⟩
  next i rest _ =>
  by_cases hi : i = .commitChangeover
  · subst hi
    exact sound_commitChangeover (s := s.withPending rest) h
  · have kept : Kept (s.withPending rest) t := kept_exec hi h
    exact ⟨kept.sound, fun _ => kept.counted⟩

end Sys2Proof.Keeping

open Sys2Proof Sys2Proof.Machine Sys2Proof.Keeping

/-- Settles O5: a case per command; a change of a bank keeps the order and the capacity of each of its collections, and
every operation is made of such changes. -/
theorem everyStepKeepsTheTablesSound : Obligations.EveryStepKeepsTheTablesSound := by
  unfold Obligations.EveryStepKeepsTheTablesSound
  exact fun s t sound h => (sound_step h).1 sound

/-- Settles O6: a record that comes raises the count and the entry's `pending`, one that goes lowers both, and an entry
leaves only where no record counts for it; the change-over of a COMMIT finds the journal empty, as its pointers say. -/
theorem pendingCountsUnreleasedRecords : Obligations.PendingCountsUnreleasedRecords := by
  unfold Obligations.PendingCountsUnreleasedRecords
  intro s t journal _ _ counted h
  obtain ⟨-, -, -, length, -⟩ := journal
  exact (sound_step h).2 length counted
end

