-- ==== Sys2Proof/Proofs/Eviction.lean ====
section
/-! SUPPORT. The search for the entry that is evicted (R48, R57). -/

namespace Sys2Proof.Keeping

open Sys2Proof.Machine
open Sys2Proof.Links (oldestEvictable_evictable)

variable {b : Bank}

theorem evictable_iff (e : Borrower) :
    e.evictable = true ↔ e.provisional = true ∧ e.pending = 0 ∧ e.sessionStation = none := by
  simp [Borrower.evictable, and_assoc]

theorem oldestEvictable_none {l : List Borrower} (h : oldestEvictable l = none) : ∀ e ∈ l, ¬e.evictable = true := by
  induction l with
  | nil => simp
  | cons x xs ih =>
    unfold oldestEvictable at h
    split at h
    · next hrest =>
      split at h
      · cases h
      · next hx => exact List.forall_mem_cons.mpr ⟨hx, ih hrest⟩
    · split at h <;> cases h

/-- R48: no candidate has a lower `created_seq` than the one found. -/
theorem oldestEvictable_least {l : List Borrower} {e : Borrower} (h : oldestEvictable l = some e) :
    ∀ x ∈ l, x.evictable = true → e.createdSeq ≤ x.createdSeq := by
  induction l generalizing e with
  | nil => simp
  | cons y ys ih =>
    unfold oldestEvictable at h
    rw [List.forall_mem_cons]
    split at h
    · next hrest =>
      split at h
      · obtain rfl := Option.some.inj h
        exact ⟨fun _ => le_refl _, fun x hx hev => absurd hev (oldestEvictable_none hrest x hx)⟩
      · cases h
    · next o hrest =>
      split at h
      · next older =>
        obtain rfl := Option.some.inj h
        rw [Bool.and_eq_true, decide_eq_true_eq] at older
        exact ⟨fun _ => le_refl _, fun x hx hev => older.2.trans (ih hrest x hx hev)⟩
      · next younger =>
        obtain rfl := Option.some.inj h
        refine ⟨fun hev => ?_, ih hrest⟩
        rw [hev, Bool.true_and, decide_eq_true_eq] at younger
        exact (Nat.not_le.mp younger).le

theorem makeRoom_of_room (h : b.borrowers.length < 16384) : b.makeRoom = some b := if_pos h

theorem makeRoom_of_full (h : 16384 ≤ b.borrowers.length) :
    b.makeRoom = (oldestEvictable b.borrowers).map fun e => b.dropBorrower e.number := by
  unfold Bank.makeRoom
  rw [if_neg (show ¬b.borrowers.length < borrowerCapacity from Nat.not_lt.mpr h)]
  cases oldestEvictable b.borrowers <;> rfl

end Sys2Proof.Keeping

open Sys2Proof Sys2Proof.Machine Sys2Proof.Keeping

/-- Settles O48: the search over the borrowers finds a candidate where there is one, and none of a lower
`created_seq`. -/
theorem evictionTakesTheOldestCandidate : Obligations.EvictionTakesTheOldestCandidate := by
  unfold Obligations.EvictionTakesTheOldestCandidate
  simp only [← evictable_iff]
  refine fun b => ⟨makeRoom_of_room, fun full => ?_⟩
  rw [makeRoom_of_full full]
  cases found : oldestEvictable b.borrowers with
  | none =>
    have nobody := oldestEvictable_none found
    exact ⟨⟨fun _ => nobody, fun _ => rfl⟩, fun _ h => by cases h⟩
  | some e =>
    obtain ⟨hmem, candidate⟩ := Links.oldestEvictable_evictable found
    refine ⟨⟨fun h => (by cases h), fun nobody => absurd candidate (nobody e hmem)⟩, fun room h => ?_⟩
    obtain rfl := Option.some.inj h
    exact ⟨e, hmem, candidate, oldestEvictable_least found, rfl⟩
end

