-- ==== Sys2Proof/Proofs/BorrowerWrites.lean ====
section
/-! SUPPORT. The rules of PUT_BORROWER, DEL_BORROWER and ADJUST_BORROWER (R53, R55 to R57, R59), case by case. -/

namespace Sys2Proof.TableWrites

open Sys2Proof.Machine

variable {bank : BankName} {b room : Bank} {n : Number} {e : Borrower}

theorem countOk_iff (n : Number) : n.countOk = true ↔ 4 ≤ n.digits ∧ n.digits ≤ 14 := by simp [Number.countOk]

theorem countOk_false (h : n.digits < 4 ∨ 14 < n.digits) : n.countOk = false := by
  rw [← Bool.not_eq_true, countOk_iff]
  omega

/-! ### PUT_BORROWER -/

/-- A PUT_BORROWER that names a category and known blocks. -/
def putBorrowerOf (bank : BankName) (n : Number) (category : Fin 16) (expiry fines overdue loans : Nat)
    (blocks : Blocks) : PutBorrowerParams :=
  { bank := bank, number := n, category := category.val, expiryDay := expiry
    blocks := { set := blocks, outside := false }, finesOwed := fines, overdueItems := overdue, loansHeld := loans }

/-- The entry that a PUT_BORROWER makes of one, `loans_held` as given. -/
def filled (category : Fin 16) (expiry fines overdue : Nat) (blocks : Blocks) (held : Nat) (e : Borrower) : Borrower :=
  { e with
    category := category, expiryDay := expiry, blocks := blocks, finesOwed := min 9999999 fines
    overdueItems := min 255 overdue, loansHeld := held, provisional := false, retiring := false }

section
variable {category : Fin 16} {expiry fines overdue loans : Nat} {blocks : Blocks}

/-- R55, R56: an entry that is known keeps its `loans_held` while it has a `pending`. -/
theorem putBorrowerRule_known (ok : n.countOk = true) (he : b.borrower n = some e) :
    putBorrowerRule (putBorrowerOf bank n category expiry fines overdue loans blocks) b =
      taken
        (b.mapBorrower n
          (filled category expiry fines overdue blocks (if 0 < e.pending then e.loansHeld else min 255 loans)))
        (okOrPartial (decide (9999999 < fines ∨ 255 < overdue ∨ 255 < loans) || decide (0 < e.pending)))
        (.loansAndPending (if 0 < e.pending then e.loansHeld else min 255 loans) e.pending) := by
  simp only [putBorrowerRule, putFields, putClamps, putBorrowerOf, ok, he, category.isLt, Bool.not_true,
    Bool.false_eq_true, if_false, dite_true, decide_eq_true_eq, clamp_zero, countMax, moneyMax]
  rfl

/-- R55, R57: an unknown number gets an entry of its own, when there is room or room can be made. -/
theorem putBorrowerRule_new (ok : n.countOk = true) (he : b.borrower n = none) (hroom : b.makeRoom = some room) :
    putBorrowerRule (putBorrowerOf bank n category expiry fines overdue loans blocks) b =
      taken
        (room.joinBorrower
          (filled category expiry fines overdue blocks (min 255 loans) (provisionalEntry n category)))
        (okOrPartial (decide (9999999 < fines ∨ 255 < overdue ∨ 255 < loans)))
        (.loansAndPending (min 255 loans) 0) := by
  simp only [putBorrowerRule, putFields, putClamps, putBorrowerOf, filled, ok, he, hroom, category.isLt, Bool.not_true,
    Bool.false_eq_true, if_false, dite_true, clamp_zero, countMax, moneyMax]
  rfl

theorem putBorrowerRule_full (ok : n.countOk = true) (he : b.borrower n = none) (hroom : b.makeRoom = none) :
    putBorrowerRule (putBorrowerOf bank n category expiry fines overdue loans blocks) b = .error .full := by
  simp only [putBorrowerRule, putBorrowerOf, ok, he, hroom, category.isLt, Bool.not_true, Bool.false_eq_true,
    if_false, dite_true]

end

theorem putBorrowerRule_badValue {p : PutBorrowerParams}
    (h : (p.number.digits < 4 ∨ 14 < p.number.digits) ∨ 15 < p.category ∨ p.blocks.outside = true) :
    putBorrowerRule p b = .error .badValue := by
  unfold putBorrowerRule
  split
  · rfl
  next ok =>
  split
  · next low =>
    have outside : p.blocks.outside = true := by
      obtain h | h | h := h
      · simp [countOk_false h] at ok
      · omega
      · exact h
    exact if_pos outside
  · rfl

/-- Room is made without the creation counter (R44, R48). -/
theorem makeRoom_nextCreated (h : b.makeRoom = some room) : room.nextCreated = b.nextCreated := by
  unfold Bank.makeRoom at h
  split at h
  · obtain rfl := Option.some.inj h
    rfl
  · split at h
    · cases h
    · obtain rfl := Option.some.inj h
      rfl

/-! ### DEL_BORROWER -/

theorem delBorrowerRule_notFound (ok : n.countOk = true) (he : b.borrower n = none) :
    delBorrowerRule { bank := bank, number := n } b = .error .notFound := by
  simp [delBorrowerRule, ok, he]

theorem delBorrowerRule_removes (ok : n.countOk = true) (he : b.borrower n = some e) (hp : e.pending = 0)
    (hs : e.sessionStation = none) (hr : e.retiring = false) :
    delBorrowerRule { bank := bank, number := n } b = taken (b.dropBorrower n) .ok (.pendingAndSession 0 none) := by
  simp [delBorrowerRule, ok, he, hp, hs, hr]

theorem delBorrowerRule_retires (ok : n.countOk = true) (he : b.borrower n = some e)
    (held : 0 < e.pending ∨ e.sessionStation ≠ none ∨ e.retiring = true) :
    delBorrowerRule { bank := bank, number := n } b =
      taken (b.mapBorrower n fun x => { x with retiring := true }) .partiallyTaken
        (.pendingAndSession e.pending e.sessionStation) := by
  have kept : ¬(e.retiring = false ∧ e.pending = 0 ∧ e.sessionStation = none) := by
    rintro ⟨retiring, pending, session⟩
    obtain h | h | h := held
    · omega
    · exact h session
    · rw [retiring] at h
      cases h
  simp only [delBorrowerRule, ok, he, kept, Bool.not_true, Bool.false_eq_true, if_false]

theorem delBorrowerRule_badValue {p : BankNumber} (h : p.number.digits < 4 ∨ 14 < p.number.digits) :
    delBorrowerRule p b = .error .badValue := by
  simp [delBorrowerRule, countOk_false h]

/-! ### ADJUST_BORROWER -/

theorem clampDelta_eq_max_min (most : Nat) (d : Int) :
    clampDelta most d = max (-(most : Int)) (min (most : Int) d) := by
  unfold clampDelta
  split
  · omega
  · split <;> omega

theorem adjustBorrowerRule_notFound {dl df : Int} (ok : n.countOk = true) (he : b.borrower n = none) :
    adjustBorrowerRule { bank := bank, number := n, loansDelta := dl, finesDelta := df } b = .error .notFound := by
  simp [adjustBorrowerRule, ok, he]

/-- A count after a delta that is brought into its range, saturating at 0 and at its upper end (R59). -/
def adjusted (most v : Nat) (d : Int) : Nat := min most ((v : Int) + max (-(most : Int)) (min (most : Int) d)).toNat

theorem adjusted_loans (v : Nat) (d : Int) :
    adjusted 255 v d = min 255 ((v : Int) + max (-255) (min 255 d)).toNat := rfl

theorem adjusted_fines (v : Nat) (d : Int) :
    adjusted 9999999 v d = min 9999999 ((v : Int) + max (-9999999) (min 9999999 d)).toNat := rfl

theorem shifted_clampDelta (most v : Nat) (d : Int) : shifted most v (clampDelta most d) = adjusted most v d := by
  rw [clampDelta_eq_max_min]
  rfl

/-- A delta is applied as given when it lies in its range and meets no end. -/
theorem inexact_iff (most v : Nat) (d : Int) :
    (clampDelta most d ≠ d ∨ saturates most v (clampDelta most d) = true) ↔
      ¬(-(most : Int) ≤ d ∧ d ≤ most ∧ (adjusted most v d : Int) = v + d) := by
  simp only [saturates, decide_eq_true_eq, clampDelta_eq_max_min, adjusted]
  omega

theorem adjustBorrowerRule_adjusts {dl df : Int} (ok : n.countOk = true) (he : b.borrower n = some e) :
    adjustBorrowerRule { bank := bank, number := n, loansDelta := dl, finesDelta := df } b =
      taken
        (b.mapBorrower n fun x =>
          { x with loansHeld := adjusted 255 e.loansHeld dl, finesOwed := adjusted 9999999 e.finesOwed df })
        (if decide (-255 ≤ dl ∧ dl ≤ 255 ∧ -9999999 ≤ df ∧ df ≤ 9999999 ∧
              (adjusted 255 e.loansHeld dl : Int) = e.loansHeld + dl ∧
              (adjusted 9999999 e.finesOwed df : Int) = e.finesOwed + df) then .ok
        else .partiallyTaken)
        (.loansAndFines (adjusted 255 e.loansHeld dl) (adjusted 9999999 e.finesOwed df)) := by
  have inexact : (decide (clampDelta 255 dl ≠ dl) || decide (clampDelta 9999999 df ≠ df) ||
        saturates 255 e.loansHeld (clampDelta 255 dl) || saturates 9999999 e.finesOwed (clampDelta 9999999 df)) = true ↔
      ¬(-255 ≤ dl ∧ dl ≤ 255 ∧ -9999999 ≤ df ∧ df ≤ 9999999 ∧
        (adjusted 255 e.loansHeld dl : Int) = e.loansHeld + dl ∧
        (adjusted 9999999 e.finesOwed df : Int) = e.finesOwed + df) := by
    have loans := inexact_iff 255 e.loansHeld dl
    have fines := inexact_iff 9999999 e.finesOwed df
    simp only [Bool.or_eq_true, decide_eq_true_eq]
    push_cast at loans fines
    tauto
  rw [← okOrPartial_exact inexact]
  simp only [adjustBorrowerRule, ok, he, Bool.not_true, Bool.false_eq_true, if_false, shifted_clampDelta, countMax,
    moneyMax]
  rfl

theorem adjustBorrowerRule_badValue {p : AdjustBorrowerParams} (h : p.number.digits < 4 ∨ 14 < p.number.digits) :
    adjustBorrowerRule p b = .error .badValue := by
  simp [adjustBorrowerRule, countOk_false h]

/-! ### The answers -/

section
variable {s : State} {q : Req} {st : Status} {r : Results}

theorem exec_putBorrower (c : Content PutBorrowerParams) :
    exec (.putBorrower q c) s =
      tableRequest q .putBorrower c (fun p => p.bank) (fun p => some p.number) (fun _ => none) putBorrowerRule s := rfl

theorem putBorrower_taken {p : PutBorrowerParams} (h : s.admitsWrite q.line p.bank)
    (hb : putBorrowerRule p (s.bank p.bank) = taken b st r) :
    exec (.putBorrower q (.shaped p)) s =
      .next (written q .putBorrower p.bank (some p.number) none { status := st, results := r } b s) := by
  rw [exec_putBorrower]
  exact tableRequest_taken h hb

theorem putBorrower_refused {p : PutBorrowerParams} (h : s.admitsWrite q.line p.bank)
    (hb : putBorrowerRule p (s.bank p.bank) = .error st) :
    exec (.putBorrower q (.shaped p)) s =
      .next (answered q .putBorrower (Reply.bare st) s (received q .putBorrower s)) := by
  rw [exec_putBorrower]
  exact tableRequest_refused h hb

theorem exec_delBorrower (c : Content BankNumber) :
    exec (.delBorrower q c) s =
      tableRequest q .delBorrower c (fun p => p.bank) (fun p => some p.number) (fun _ => none) delBorrowerRule s := rfl

theorem delBorrower_taken {p : BankNumber} (h : s.admitsWrite q.line p.bank)
    (hb : delBorrowerRule p (s.bank p.bank) = taken b st r) :
    exec (.delBorrower q (.shaped p)) s =
      .next (written q .delBorrower p.bank (some p.number) none { status := st, results := r } b s) := by
  rw [exec_delBorrower]
  exact tableRequest_taken h hb

theorem delBorrower_refused {p : BankNumber} (h : s.admitsWrite q.line p.bank)
    (hb : delBorrowerRule p (s.bank p.bank) = .error st) :
    exec (.delBorrower q (.shaped p)) s =
      .next (answered q .delBorrower (Reply.bare st) s (received q .delBorrower s)) := by
  rw [exec_delBorrower]
  exact tableRequest_refused h hb

theorem exec_adjustBorrower (c : Content AdjustBorrowerParams) :
    exec (.adjustBorrower q c) s =
      tableRequest q .adjustBorrower c (fun p => p.bank) (fun p => some p.number) (fun _ => none) adjustBorrowerRule s :=
  rfl

theorem adjustBorrower_taken {p : AdjustBorrowerParams} (h : s.admitsWrite q.line p.bank)
    (hb : adjustBorrowerRule p (s.bank p.bank) = taken b st r) :
    exec (.adjustBorrower q (.shaped p)) s =
      .next (written q .adjustBorrower p.bank (some p.number) none { status := st, results := r } b s) := by
  rw [exec_adjustBorrower]
  exact tableRequest_taken h hb

theorem adjustBorrower_refused {p : AdjustBorrowerParams} (h : s.admitsWrite q.line p.bank)
    (hb : adjustBorrowerRule p (s.bank p.bank) = .error st) :
    exec (.adjustBorrower q (.shaped p)) s =
      .next (answered q .adjustBorrower (Reply.bare st) s (received q .adjustBorrower s)) := by
  rw [exec_adjustBorrower]
  exact tableRequest_refused h hb

end

end Sys2Proof.TableWrites

open Sys2Proof Sys2Proof.Machine Sys2Proof.TableWrites

/-- Settles O47: each write is answered as its rule decides, and the rules are taken case by case. -/
theorem borrowerWrites : Obligations.BorrowerWrites := by
  unfold Obligations.BorrowerWrites
  refine ⟨fun s q bank n h four fourteen => ?meant, fun s q => ?badValues⟩
  case meant =>
    have ok : n.countOk = true := (countOk_iff n).mpr ⟨four, fourteen⟩
    refine ⟨fun category expiry fines overdue loans blocks => ⟨fun e found none_pending => ?_,
        fun e found some_pending => ?_, fun room unknown hroom => ?_, fun unknown full => ?_⟩,
      ⟨fun unknown => delBorrower_refused h (delBorrowerRule_notFound ok unknown),
        fun e found hp hs hr => delBorrower_taken h (delBorrowerRule_removes ok found hp hs hr),
        fun e found held => delBorrower_taken h (delBorrowerRule_retires ok found held)⟩,
      fun dl df => ⟨fun unknown => adjustBorrower_refused h (adjustBorrowerRule_notFound ok unknown),
        fun e found => ?_⟩⟩
    · have rule := putBorrowerRule_known (bank := bank) (category := category) (expiry := expiry) (fines := fines)
        (overdue := overdue) (loans := loans) (blocks := blocks) ok found
      simp only [none_pending, lt_self_iff_false, if_false, decide_false, Bool.or_false] at rule
      exact putBorrower_taken h rule
    · have rule := putBorrowerRule_known (bank := bank) (category := category) (expiry := expiry) (fines := fines)
        (overdue := overdue) (loans := loans) (blocks := blocks) ok found
      simp only [some_pending, if_true, decide_true, Bool.or_true] at rule
      exact putBorrower_taken h rule
    · have joined := putBorrower_taken h (putBorrowerRule_new (bank := bank) (category := category) (expiry := expiry)
        (fines := fines) (overdue := overdue) (loans := loans) (blocks := blocks) ok unknown hroom)
      rw [Bank.joinBorrower, makeRoom_nextCreated hroom] at joined
      exact joined
    · exact putBorrower_refused h (putBorrowerRule_full ok unknown full)
    · have rule := adjustBorrowerRule_adjusts (bank := bank) (dl := dl) (df := df) ok found
      simp only [adjusted_loans, adjusted_fines] at rule
      exact adjustBorrower_taken h rule
  case badValues =>
    exact ⟨fun p h bad => putBorrower_refused h (putBorrowerRule_badValue bad),
      fun p h bad => delBorrower_refused h (delBorrowerRule_badValue bad),
      fun p h bad => adjustBorrower_refused h (adjustBorrowerRule_badValue bad)⟩
end

