-- ==== Sys2Proof/Proofs/ItemWrites.lean ====
section
/-! SUPPORT. The rules of PUT_ITEM, DEL_ITEM, ADD_HOLD and CANCEL_HOLD (R65, R72 to R76), case by case. -/

namespace Sys2Proof.TableWrites

open Sys2Proof.Machine

variable {bank : BankName} {b : Bank} {n who : Number} {e : Item} {k : Fin 32}

/-! ### Items and their queues -/

theorem queueOf_eq (b : Bank) (n : Number) : b.queueOf n = ((b.item n).map Item.queue).getD [] := by
  unfold Bank.queueOf
  cases b.item n <;> rfl

theorem queueOf_unknown (h : b.item n = none) : b.queueOf n = [] := by rw [queueOf_eq, h]; rfl

theorem classOf_eq (b : Bank) (n : Number) (k : Fin 32) :
    b.classOf n k = ((b.item n).bind Item.classOverride).getD k := by
  unfold Bank.classOf
  cases b.item n <;> rfl

/-- R65: the entry that leaves has no override and no hold. -/
theorem tidyItem_eq (b : Bank) (n : Number) :
    b.tidyItem n =
      { b with
        items := b.items.filter fun e => !decide (e.number = n ∧ e.classOverride = none ∧ e.queue = []) } := by
  have spent_iff : ∀ e : Item, e.spent = decide (e.classOverride = none ∧ e.queue = []) := fun e => by
    rw [Bool.eq_iff_iff]
    simp [Item.spent]
  unfold Bank.tidyItem
  simp only [spent_iff, Bool.decide_and]

/-! ### PUT_ITEM -/

theorem putItemRule_known (ok : n.countOk = true) (known : b.item n ≠ none) :
    putItemRule { bank := bank, number := n, itemClass := k.val } b =
      taken (b.mapItem n fun e => { e with classOverride := some k }) .ok .plain := by
  simp [putItemRule, ok, Option.isSome_iff_ne_none.mpr known, takenOk]

theorem putItemRule_new (ok : n.countOk = true) (unknown : b.item n = none) (room : b.items.length < 4096) :
    putItemRule { bank := bank, number := n, itemClass := k.val } b =
      taken (b.joinItem { number := n, classOverride := some k, queue := [] }) .ok .plain := by
  simp [putItemRule, ok, unknown, itemCapacity, room, takenOk]

theorem putItemRule_full (ok : n.countOk = true) (unknown : b.item n = none) (full : 4096 ≤ b.items.length) :
    putItemRule { bank := bank, number := n, itemClass := k.val } b = .error .full := by
  simp [putItemRule, ok, unknown, itemCapacity, Nat.not_lt.mpr full]

theorem putItemRule_badValue {p : PutItemParams}
    (h : (p.number.digits < 4 ∨ 14 < p.number.digits) ∨ 31 < p.itemClass) : putItemRule p b = .error .badValue := by
  unfold putItemRule
  obtain count | high := h
  · simp [countOk_false count]
  · rw [dif_neg (by omega), ite_self]

/-! ### DEL_ITEM -/

/-- The bank once an item's override is removed (R65, R73). -/
def withoutOverride (b : Bank) (n : Number) : Bank :=
  { b with
    items :=
      (b.items.map fun e => if e.number = n then { e with classOverride := none } else e).filter fun e =>
        !decide (e.number = n ∧ e.classOverride = none ∧ e.queue = []) }

theorem delItemRule_overridden (ok : n.countOk = true) (he : b.item n = some e) (ho : e.classOverride ≠ none) :
    delItemRule { bank := bank, number := n } b =
      if e.queue = [] then taken (withoutOverride b n) .ok .plain
      else taken (withoutOverride b n) .partiallyTaken (.queueLength e.queue.length) := by
  simp only [delItemRule, ok, he, ho, tidyItem_eq, Bool.not_true, Bool.false_eq_true, if_false]
  rfl

theorem delItemRule_notFound (ok : n.countOk = true) (h : ∀ e, b.item n = some e → e.classOverride = none) :
    delItemRule { bank := bank, number := n } b = .error .notFound := by
  cases he : b.item n with
  | none => simp [delItemRule, ok, he]
  | some e => simp [delItemRule, ok, he, h e he]

theorem delItemRule_badValue {p : BankNumber} (h : p.number.digits < 4 ∨ 14 < p.number.digits) :
    delItemRule p b = .error .badValue := by
  simp [delItemRule, countOk_false h]

/-! ### ADD_HOLD -/

/-- An ADD_HOLD that names a category and a class. -/
def addHoldOf (bank : BankName) (n who : Number) (category : Fin 16) (k : Fin 32) (placed : Nat)
    (pickup : Option Nat) : AddHoldParams :=
  { bank := bank, item := n, borrower := who, category := category.val, itemClass := k.val, placedDay := placed
    pickupBy := pickup }

section
variable {category : Fin 16} {placed : Nat} {pickup : Option Nat} {c : Fin 32} {queue : List Hold} {st : Status}

theorem addHoldRule_barred (item : n.countOk = true) (borrower : who.countOk = true)
    (h : addHoldBar (addHoldOf bank n who category k placed pickup) k b = some st) :
    addHoldRule (addHoldOf bank n who category k placed pickup) b = .error st := by
  simp only [addHoldOf] at h ⊢
  simp [addHoldRule, item, borrower, h]

/-- R75: the hold's place is behind those that stand. -/
theorem addHoldRule_joins (item : n.countOk = true) (borrower : who.countOk = true) (hq : b.queueOf n = queue)
    (h : addHoldBar (addHoldOf bank n who category k placed pickup) k b = none) :
    addHoldRule (addHoldOf bank n who category k placed pickup) b =
      taken (b.joinHold n { borrower := who, category := category, pickupBy := pickup, placedDay := placed }) .ok
        (.holdPosition queue.length) := by
  simp only [addHoldOf] at h ⊢
  simp [addHoldRule, item, borrower, h, hq]

/-- R74: the tests of an ADD_HOLD in their order. -/
theorem addHoldBar_eq (hq : b.queueOf n = queue) (hc : b.classOf n k = c) :
    addHoldBar (addHoldOf bank n who category k placed pickup) k b =
      if (!b.classes[c].holdable) = true then some .wrongState
      else if (queue.any fun h => h.borrower = who) = true then some .duplicate
      else if 4 ≤ queue.length then some .full
      else if 4096 ≤ b.holdCount then some .full
      else if b.item n = none ∧ 4096 ≤ b.items.length then some .full
      else if pickup.isSome = true ∧ queue ≠ [] then some .wrongState
      else none := by
  subst hq hc
  rfl

section
variable (hq : b.queueOf n = queue) (hc : b.classOf n k = c)
include hq hc

theorem addHoldBar_unholdable (holdable : b.classes[c].holdable = false) :
    addHoldBar (addHoldOf bank n who category k placed pickup) k b = some .wrongState := by
  rw [addHoldBar_eq hq hc, if_pos (by rw [holdable]; rfl)]

variable (holdable : b.classes[c].holdable = true)
include holdable

theorem addHoldBar_duplicate (has : (queue.any fun h => h.borrower = who) = true) :
    addHoldBar (addHoldOf bank n who category k placed pickup) k b = some .duplicate := by
  rw [addHoldBar_eq hq hc, if_neg (by rw [holdable]; decide), if_pos has]

variable (has : (queue.any fun h => h.borrower = who) = false)
include has

theorem addHoldBar_fullHolds (full : 4 ≤ queue.length ∨ 4096 ≤ b.holdCount) :
    addHoldBar (addHoldOf bank n who category k placed pickup) k b = some .full := by
  rw [addHoldBar_eq hq hc, if_neg (by rw [holdable]; decide), if_neg (ne_true_of_eq_false has)]
  split
  · rfl
  · next short => rw [if_pos (full.resolve_left short)]

variable (short : queue.length < 4) (room : b.holdCount < 4096)
include short room

/-- The tests that are left once the hold counts have room. -/
theorem addHoldBar_room :
    addHoldBar (addHoldOf bank n who category k placed pickup) k b =
      if b.item n = none ∧ 4096 ≤ b.items.length then some .full
      else if pickup.isSome = true ∧ queue ≠ [] then some .wrongState
      else none := by
  rw [addHoldBar_eq hq hc, if_neg (by rw [holdable]; decide), if_neg (ne_true_of_eq_false has),
    if_neg (Nat.not_le.mpr short), if_neg (Nat.not_le.mpr room)]

theorem addHoldBar_fullItems (unknown : b.item n = none) (full : 4096 ≤ b.items.length) :
    addHoldBar (addHoldOf bank n who category k placed pickup) k b = some .full := by
  rw [addHoldBar_room hq hc holdable has short room, if_pos ⟨unknown, full⟩]

/-- R75: a hold with a pickup day joins an empty queue alone. -/
theorem addHoldBar_behind (waits : pickup ≠ none) (behind : queue ≠ []) :
    addHoldBar (addHoldOf bank n who category k placed pickup) k b = some .wrongState := by
  have known : b.item n ≠ none := fun unknown => behind (hq.symm.trans (queueOf_unknown unknown))
  rw [addHoldBar_room hq hc holdable has short room, if_neg fun h => known h.1,
    if_pos ⟨Option.isSome_iff_ne_none.mpr waits, behind⟩]

theorem addHoldBar_passes (entry : b.item n = none → b.items.length < 4096)
    (place : pickup = none ∨ queue = []) :
    addHoldBar (addHoldOf bank n who category k placed pickup) k b = none := by
  rw [addHoldBar_room hq hc holdable has short room, if_neg fun h => Nat.not_lt.mpr h.2 (entry h.1), if_neg]
  rintro ⟨waits, behind⟩
  exact behind (place.resolve_left (Option.isSome_iff_ne_none.mp waits))

end

theorem joinHold_known (known : b.item n ≠ none) (h : Hold) :
    b.joinHold n h = b.mapItem n fun e => { e with queue := e.queue ++ [h] } :=
  if_pos (Option.isSome_iff_ne_none.mpr known)

theorem joinHold_new (unknown : b.item n = none) (h : Hold) :
    b.joinHold n h = b.joinItem { number := n, classOverride := none, queue := [h] } :=
  if_neg (by simp [unknown])

end

theorem addHoldRule_badValue {p : AddHoldParams}
    (h : (p.item.digits < 4 ∨ 14 < p.item.digits) ∨ (p.borrower.digits < 4 ∨ 14 < p.borrower.digits) ∨
      15 < p.category ∨ 31 < p.itemClass) : addHoldRule p b = .error .badValue := by
  unfold addHoldRule
  obtain item | borrower | category | itemClass := h
  · simp [countOk_false item]
  · simp [countOk_false borrower]
  · rw [dif_neg (by omega), ite_self]
  · simp [Nat.not_lt.mpr itemClass]

/-! ### CANCEL_HOLD -/

theorem cancelHoldRule_removes {queue : List Hold} (item : n.countOk = true) (borrower : who.countOk = true)
    (hq : b.queueOf n = queue) (has : (queue.any fun h => h.borrower = who) = true) :
    cancelHoldRule { bank := bank, item := n, borrower := who } b =
      taken (b.mapQueue n fun q => q.filter fun h => h.borrower ≠ who) .ok (.queueLength (queue.length - 1)) := by
  simp only [cancelHoldRule, item, borrower, hq, has, Bool.not_true, Bool.or_false, Bool.false_eq_true, if_false,
    if_true]

theorem cancelHoldRule_notFound {queue : List Hold} (item : n.countOk = true) (borrower : who.countOk = true)
    (hq : b.queueOf n = queue) (has : (queue.any fun h => h.borrower = who) = false) :
    cancelHoldRule { bank := bank, item := n, borrower := who } b = .error .notFound := by
  simp only [cancelHoldRule, item, borrower, hq, has, Bool.not_true, Bool.or_false, Bool.false_eq_true, if_false]

theorem cancelHoldRule_badValue {p : CancelHoldParams}
    (h : (p.item.digits < 4 ∨ 14 < p.item.digits) ∨ p.borrower.digits < 4 ∨ 14 < p.borrower.digits) :
    cancelHoldRule p b = .error .badValue := by
  unfold cancelHoldRule
  obtain item | borrower := h
  · simp [countOk_false item]
  · simp [countOk_false borrower]

/-! ### The commands -/

section
variable {s : State} {q : Req}

theorem exec_putItem (c : Content PutItemParams) :
    exec (.putItem q c) s =
      tableRequest q .putItem c (fun p => p.bank) (fun _ => none) (fun p => some p.number) putItemRule s := rfl

theorem exec_delItem (c : Content BankNumber) :
    exec (.delItem q c) s =
      tableRequest q .delItem c (fun p => p.bank) (fun _ => none) (fun p => some p.number) delItemRule s := rfl

theorem exec_addHold (c : Content AddHoldParams) :
    exec (.addHold q c) s =
      tableRequest q .addHold c (fun p => p.bank) (fun p => some p.borrower) (fun p => some p.item) addHoldRule s := rfl

theorem exec_cancelHold (c : Content CancelHoldParams) :
    exec (.cancelHold q c) s =
      tableRequest q .cancelHold c (fun p => p.bank) (fun p => some p.borrower) (fun p => some p.item) cancelHoldRule
        s := rfl

variable {category : Fin 16} {placed : Nat} {pickup : Option Nat}

theorem addHold_refused {st : Status} (h : s.admitsWrite q.line bank) (item : n.countOk = true)
    (borrower : who.countOk = true)
    (bar : addHoldBar (addHoldOf bank n who category k placed pickup) k (s.bank bank) = some st) :
    exec (.addHold q (.shaped (addHoldOf bank n who category k placed pickup))) s =
      .next (answered q .addHold (Reply.bare st) s (received q .addHold s)) :=
  (exec_addHold _).trans (tableRequest_refused h (addHoldRule_barred item borrower bar))

theorem addHold_taken {queue : List Hold} (h : s.admitsWrite q.line bank) (item : n.countOk = true)
    (borrower : who.countOk = true) (hq : (s.bank bank).queueOf n = queue)
    (passes : addHoldBar (addHoldOf bank n who category k placed pickup) k (s.bank bank) = none)
    (joined : (s.bank bank).joinHold n
      { borrower := who, category := category, pickupBy := pickup, placedDay := placed } = b) :
    exec (.addHold q (.shaped (addHoldOf bank n who category k placed pickup))) s =
      .next (written q .addHold bank (some who) (some n)
        { status := .ok, results := .holdPosition queue.length } b s) := by
  have rule := addHoldRule_joins item borrower hq passes
  rw [joined] at rule
  exact (exec_addHold _).trans (tableRequest_taken h rule)

end

end Sys2Proof.TableWrites

open Sys2Proof Sys2Proof.Machine Sys2Proof.TableWrites

/-- Settles O49: each write is answered as its rule decides, and the rules are taken case by case. -/
theorem itemAndHoldWrites : Obligations.ItemAndHoldWrites := by
  unfold Obligations.ItemAndHoldWrites
  refine ⟨fun s q bank n h four fourteen => ?meant, fun s q => ?badValues⟩
  case meant =>
    have ok : n.countOk = true := (countOk_iff n).mpr ⟨four, fourteen⟩
    refine ⟨fun k => ⟨fun known => (exec_putItem _).trans (tableRequest_taken h (putItemRule_known ok known)),
        fun unknown room => (exec_putItem _).trans (tableRequest_taken h (putItemRule_new ok unknown room)),
        fun unknown full => (exec_putItem _).trans (tableRequest_refused h (putItemRule_full ok unknown full))⟩,
      ⟨fun e found overridden spent => ?_, fun e found overridden held => ?_,
        fun bare => (exec_delItem _).trans (tableRequest_refused h (delItemRule_notFound ok bare))⟩,
      fun who wfour wfourteen => ?_⟩
    · have rule := delItemRule_overridden (bank := bank) ok found overridden
      rw [if_pos spent] at rule
      exact (exec_delItem _).trans (tableRequest_taken h rule)
    · have rule := delItemRule_overridden (bank := bank) ok found overridden
      rw [if_neg held] at rule
      exact (exec_delItem _).trans (tableRequest_taken h rule)
    · have whoOk : who.countOk = true := (countOk_iff who).mpr ⟨wfour, wfourteen⟩
      have hq := queueOf_eq (s.bank bank) n
      refine ⟨fun category k placed pickup => ?_,
        fun none_there => (exec_cancelHold _).trans
          (tableRequest_refused h (cancelHoldRule_notFound ok whoOk hq none_there)),
        fun has => ?_⟩
      · have hc := classOf_eq (s.bank bank) n k
        refine ⟨fun holdable => addHold_refused h ok whoOk (addHoldBar_unholdable hq hc holdable),
          fun holdable has => addHold_refused h ok whoOk (addHoldBar_duplicate hq hc holdable has),
          fun holdable has full => addHold_refused h ok whoOk (addHoldBar_fullHolds hq hc holdable has full),
          fun holdable has short room => ⟨fun unknown full => ?_, fun waits behind => ?_,
            fun place => ⟨fun known => ?_, fun unknown entries => ?_⟩⟩⟩
        · exact addHold_refused h ok whoOk (addHoldBar_fullItems hq hc holdable has short room unknown full)
        · exact addHold_refused h ok whoOk (addHoldBar_behind hq hc holdable has short room waits behind)
        · exact addHold_taken h ok whoOk hq
            (addHoldBar_passes hq hc holdable has short room (fun unknown => absurd unknown known) place)
            (joinHold_known known _)
        · exact addHold_taken h ok whoOk (queueOf_unknown unknown)
            (addHoldBar_passes hq hc holdable has short room (fun _ => entries) place) (joinHold_new unknown _)
      · have rule := cancelHoldRule_removes (bank := bank) ok whoOk hq has
        rw [Bank.mapQueue, tidyItem_eq] at rule
        exact (exec_cancelHold _).trans (tableRequest_taken h rule)
  case badValues =>
    exact ⟨fun p h bad => (exec_putItem _).trans (tableRequest_refused h (putItemRule_badValue bad)),
      fun p h bad => (exec_delItem _).trans (tableRequest_refused h (delItemRule_badValue bad)),
      fun p h bad => (exec_addHold _).trans (tableRequest_refused h (addHoldRule_badValue bad)),
      fun p h bad => (exec_cancelHold _).trans (tableRequest_refused h (cancelHoldRule_badValue bad))⟩
end

