-- ==== Sys2Proof/Proofs/Sweep.lean ====
section
/-! SUPPORT. One entry of an opening's sweep (R70): the head that is passed over, and the expired one that leaves. -/

namespace Sys2Proof.Desk

open Sys2Proof.Machine

variable {s x y : State} {q : Option Req} {day p : Nat} {visited : Option Number} {e : Item} {rest : List Item}
  {h k : Hold} {hs : List Hold}

/-! ### The step -/

theorem openingUnderWay_eq (hslot : s.slot = some { op := .opening day visited, requester := q }) :
    s.openingUnderWay = some (q, day, visited) := by simp [State.openingUnderWay, hslot]

theorem sweepStep_visits (running : s.running = true)
    (hslot : s.slot = some { op := .opening day visited, requester := q })
    (hrest : sweepRest visited s.active.items = e :: rest) :
    exec .sweepStep s =
      .next (settle s
        { sweepEntry day e s with slot := some { op := .opening day (some e.number), requester := q } }) := by
  change partEvent sweepOne s = _
  rw [partEvent_running running, sweepOne, openingUnderWay_eq hslot]
  simp only [hrest]

theorem expiredOn_iff : h.expiredOn day = true ↔ ∃ p, h.pickupBy = some p ∧ p < day := by
  unfold Hold.expiredOn
  cases h.pickupBy <;> simp

/-- R70: a head that is not WAITING, or not past its day, is passed over. -/
theorem sweepEntry_passes (kept : ∀ h p, e.queue.head? = some h → h.pickupBy = some p → day ≤ p) :
    sweepEntry day e s = s := by
  unfold sweepEntry
  split
  · rfl
  next h hs hqueue =>
  refine if_neg fun expired => ?_
  obtain ⟨p, hp, past⟩ := expiredOn_iff.mp expired
  exact Nat.not_lt.mpr (kept h p (by rw [hqueue]; rfl) hp) past

/-! ### Appends of system records -/

theorem free_append (d : Record) (s : State) : s.journal.free - 1 ≤ (append d s).journal.free := by
  simp only [append_journal, Journal.free, Journal.unreleased]
  omega

theorem items_append (d : Record) (s : State) : (append d s).active.items = s.active.items := by
  obtain ⟨j, l, hx⟩ := append_tables d s
  rw [hx]

/-- A record is stamped after an append as before it, but for its sequence and the overflow flag. -/
theorem stamped_append (d d' : Record) (s : State) :
    stamped (append d s) d' =
      stamped { s with journal := { s.journal with nextSeq := s.journal.nextSeq + 1, overflow := false } } d' := by
  have numbers : ∀ n, ((append d s).active.borrowers.any fun e => decide (e.number = n)) =
      s.active.borrowers.any fun e => decide (e.number = n) := fun n => by
    simp only [(appended_append s d).2, List.any_map, Function.comp_def, apply_ite Borrower.number, ite_self]
  simp only [stamped, numbers, append_journal]
  rfl

/-! ### An expired head -/

/-- A hold that becomes WAITING in the sweep of a day (R70, R103). -/
def waiting (b : Bank) (day : Nat) (k : Hold) : Hold :=
  { k with pickupBy := some (pickupDay b day (b.categories[k.category]).pickupDays) }

theorem waitHead_eq (b : Bank) (day : Nat) (hs : List Hold) :
    waitHead b day hs = (hs.head?.map (waiting b day)).toList ++ hs.tail := by
  cases hs <;> rfl

theorem waitHead_append (d : Record) (s : State) (hs : List Hold) :
    waitHead (append d s).active day hs = waitHead s.active day hs := by
  obtain ⟨j, l, hx⟩ := append_tables d s
  rw [hx]
  cases hs with
  | nil => rfl
  | cons k hs =>
    simp only [waitHead, pickupDay_borrowers]

/-- The head of an entry's queue has left with its record, and the next hold is WAITING (R65, R70). -/
def expiredHead (s : State) (day : Nat) (n : Number) (h : Hold) (hs : List Hold) : State :=
  { append (sweepDraft .holdExpired n h) s with
    active := (append (sweepDraft .holdExpired n h) s).active.mapQueue n fun _ => waitHead s.active day hs }

theorem expiredHead_items (s : State) (n : Number) (h : Hold) (hs : List Hold) :
    (expiredHead s day n h hs).active.items =
      (s.active.items.map fun x =>
        if x.number = n then { x with queue := (hs.head?.map (waiting s.active day)).toList ++ hs.tail } else x).filter
        fun x => !decide (x.number = n ∧ x.classOverride = none ∧ x.queue = []) := by
  simp only [expiredHead, Bank.mapQueue, TableWrites.tidyItem_eq, Bank.mapItem, items_append, waitHead_eq]

theorem expiredHead_journal (s : State) (n : Number) (h : Hold) (hs : List Hold) :
    (expiredHead s day n h hs).journal =
      { s.journal with
        records := s.journal.records ++ [stamped s (sweepDraft .holdExpired n h)]
        nextSeq := s.journal.nextSeq + 1, overflow := false } :=
  (appended_append s (sweepDraft .holdExpired n h)).1

/-- R70: the only hold of an entry expires. -/
theorem sweepEntry_expires_last (hqueue : e.queue = [h]) (expired : h.expiredOn day = true)
    (room : 1 ≤ s.journal.free) : sweepEntry day e s = expiredHead s day e.number h [] := by
  simp only [sweepEntry, hqueue, expired, if_true, appendSystem_room s room]
  rfl

/-- R70: a hold expires that others stand behind. -/
theorem sweepEntry_expires_first (hqueue : e.queue = h :: k :: hs) (expired : h.expiredOn day = true)
    (room : 2 ≤ s.journal.free) :
    sweepEntry day e s =
      append (sweepDraft .holdRouted e.number (waiting s.active day k)) (expiredHead s day e.number h (k :: hs)) := by
  have room' : 1 ≤ (expiredHead s day e.number h (k :: hs)).journal.free :=
    (by omega : 1 ≤ s.journal.free - 1).trans (free_append (sweepDraft .holdExpired e.number h) s)
  rw [← appendSystem_room _ room']
  simp only [sweepEntry, hqueue, expired, if_true, appendSystem_room s (by omega : 1 ≤ s.journal.free),
    waitHead_append]
  rfl

theorem stamped_expiredHead (s : State) (n : Number) (h : Hold) (hs : List Hold) (d : Record) :
    stamped (expiredHead s day n h hs) d =
      stamped { s with journal := { s.journal with nextSeq := s.journal.nextSeq + 1, overflow := false } } d :=
  stamped_append _ d s

/-- The HOLD_EXPIRED record carries the pickup day that has gone by (R70, R103). -/
theorem sweepDraft_expired (n : Number) (hp : h.pickupBy = some p) :
    sweepDraft .holdExpired n h =
      { draft .holdExpired with
        item := some n, borrower := some h.borrower, due := some { day := p, minute := 1440 } } := by
  simp [sweepDraft, hp, pickupDue]

/-- What an expired head leaves of an entry's queue and of the journal (R65, R70, R145). -/
structure HeadExpired (s : State) (day : Nat) (n : Number) (h : Hold) (hs : List Hold) (t : State) : Prop where
  items : t.active.items =
    (s.active.items.map fun x =>
      if x.number = n then { x with queue := (hs.head?.map (waiting s.active day)).toList ++ hs.tail } else x).filter
      fun x => !decide (x.number = n ∧ x.classOverride = none ∧ x.queue = [])
  first : t.journal.records.take (s.journal.records.length + 1) =
    s.journal.records ++ [stamped s (sweepDraft .holdExpired n h)]
  sequence : t.journal.nextSeq = s.journal.nextSeq + 1 + (hs.head?.map (waiting s.active day)).toList.length
  routed : ∀ k, hs.head?.map (waiting s.active day) = some k →
    t.journal.records = s.journal.records ++
      [stamped s (sweepDraft .holdExpired n h),
        stamped { s with journal := { s.journal with nextSeq := s.journal.nextSeq + 1, overflow := false } }
          (sweepDraft .holdRouted n k)]
  rest : t.cache = s.cache ∧ t.sessions = s.sessions ∧ t.ports = s.ports ∧ t.consoles = s.consoles ∧
    t.day = s.day

theorem headExpired_last (s : State) (n : Number) (h : Hold) :
    HeadExpired s day n h [] (expiredHead s day n h []) where
  items := expiredHead_items s n h []
  first := by
    rw [expiredHead_journal]
    exact List.take_of_length_le (by simp)
  sequence := by rw [expiredHead_journal]; rfl
  routed := fun k none_behind => by cases none_behind
  rest := ⟨rfl, rfl, rfl, rfl, rfl⟩

theorem headExpired_first (s : State) (n : Number) (h k : Hold) (hs : List Hold) :
    HeadExpired s day n h (k :: hs)
      (append (sweepDraft .holdRouted n (waiting s.active day k)) (expiredHead s day n h (k :: hs))) where
  items := (items_append _ _).trans (expiredHead_items s n h (k :: hs))
  first := by
    rw [append_journal, expiredHead_journal]
    exact List.take_left' (by simp)
  sequence := by rw [append_journal, expiredHead_journal]; rfl
  routed := fun k' behind => by
    obtain rfl := Option.some.inj behind
    rw [append_journal, fillRecord_stamped, stamped_expiredHead, expiredHead_journal]
    exact List.append_assoc ..
  rest := ⟨rfl, rfl, rfl, rfl, rfl⟩

theorem sweepEntry_expires (hqueue : e.queue = h :: hs) (hp : h.pickupBy = some p) (past : p < day)
    (room : 2 ≤ s.journal.free) : HeadExpired s day e.number h hs (sweepEntry day e s) := by
  have expired : h.expiredOn day = true := expiredOn_iff.mpr ⟨p, hp, past⟩
  cases hs with
  | nil =>
    rw [sweepEntry_expires_last hqueue expired (by omega)]
    exact headExpired_last s e.number h
  | cons k hs =>
    rw [sweepEntry_expires_first hqueue expired room]
    exact headExpired_first s e.number h k hs

end Sys2Proof.Desk
end

