-- ==== Sys2Proof/Proofs/OpeningEnd.lean ====
section
/-! SUPPORT. The end of an opening (R166): the day, its record, the lines and the displays. -/

namespace Sys2Proof.Desk

open Sys2Proof.Machine

variable {s x y : State} {q : Option Req} {day : Nat} {visited : Option Number} {st : Station} {a : Text}

/-! ### The lines at the end of an event -/

/-- The end of an event leaves an edge cause as the event left it (R187). -/
theorem has_settle_eq {l : Line} {c : Cause} (hc : c ≠ .clockHeld ∧ c ≠ .journalFull ∧ c ≠ .journalHigh) :
    ((settle x y).line l).pendingSet.has c = (y.line l).pendingSet.has c := by
  have follow : ∀ (before after : Bool) (k : Cause) (p : CauseSet), c ≠ k →
      (followLevel before after k p).has c = p.has c := fun before after k p hk => by
    unfold followLevel
    split
    · rfl
    · exact has_put_of_ne _ _ hk
  have kept : ∀ p : CauseSet, (followLevels x y p).has c = p.has c := fun p =>
    (follow _ _ _ _ hc.1).trans ((follow _ _ _ _ hc.2.1).trans (follow _ _ _ _ hc.2.2))
  cases l with
  | uplink => exact kept _
  | supervisor => exact kept _

theorem subset_joinUnsolicited (f : LineFrame) (list : List LineFrame) : list ⊆ joinUnsolicited f list := by
  unfold joinUnsolicited
  split
  · exact List.subset_append_left _ _
  · exact List.Subset.refl _

/-- A frame that waits before the end of an event waits after it (R176, R189). -/
theorem subset_settle (x y : State) (l : Line) : (y.line l).sendList ⊆ ((settle x y).line l).sendList := by
  have joins : ∀ fs list : List LineFrame, list ⊆ fs.foldl (fun list f => joinUnsolicited f list) list := by
    intro fs
    induction fs with
    | nil => exact fun list => List.Subset.refl _
    | cons f fs ih => exact fun list _ waits => ih _ (subset_joinUnsolicited f list waits)
  cases l with
  | uplink => exact joins _ _
  | supervisor => exact joins _ _

/-! ### The final reply -/

theorem finalReply_frame (q : Option Req) (name : ReqName) (r : Reply) (y : State) :
    ∃ u v, finalReply q name r y = { y with uplink := u, supervisor := v } := by
  have replied : ∀ q' : Req, ∃ u v, sendReply q' name r y = { y with uplink := u, supervisor := v } := fun q' => by
    unfold sendReply State.setLine
    cases q'.line with
    | uplink => exact ⟨_, _, rfl⟩
    | supervisor => exact ⟨_, _, rfl⟩
  unfold finalReply
  split
  · exact ⟨_, _, rfl⟩
  · split
    · exact replied _
    · exact ⟨_, _, rfl⟩

theorem pendingSet_finalReply (q : Option Req) (name : ReqName) (r : Reply) (y : State) (l : Line) :
    ((finalReply q name r y).line l).pendingSet = (y.line l).pendingSet := by
  have replied : ∀ q' : Req, ((sendReply q' name r y).line l).pendingSet = (y.line l).pendingSet := by
    rintro ⟨l', _⟩
    cases l' <;> cases l <;> rfl
  unfold finalReply
  split
  · rfl
  · split
    · exact replied _
    · rfl

theorem mem_finalReply {r : Req} (name : ReqName) (reply : Reply) (active : (y.line r.line).state = .active) :
    LineFrame.reply r.tag reply ∈ ((finalReply (some r) name reply y).line r.line).sendList := by
  simp only [finalReply, active, if_true, sendReply_line]
  exact List.mem_append_right _ List.mem_cons_self

/-! ### The displays -/

theorem idle_iff : y.stationState st = .idle ↔
    y.attended st ∧ (y.session st).borrower = none ∧ (y.session st).mode = .normal := by
  constructor
  · intro idle
    have attended : y.attended st := attended_iff.mp (by rw [State.atDesk, idle])
    obtain ⟨present, unbridged⟩ := attended
    cases hb : (y.session st).borrower <;> cases hm : (y.session st).mode <;>
      simp_all [State.stationState, State.attended]
  · rintro ⟨attended, free, normal⟩
    exact stationState_idle attended free normal

/-- A station that shows a line in every repainting of a state shows it once all have shown theirs. -/
theorem line1_foldl_showStanding (shows : ∀ x, Repainted y x → ((showStanding st x).console st).line1 = a)
    (l : List Station) : ∀ x, Repainted y x → (st ∈ l ∨ (x.console st).line1 = a) →
      ((l.foldl (fun s st => showStanding st s) x).console st).line1 = a := by
  induction l with
  | nil => exact fun x _ shown => shown.resolve_left (List.not_mem_nil)
  | cons o l ih =>
    intro x painted shown
    refine ih _ (painted.trans (redrawn_showStanding o x).1) ?_
    by_cases ho : st = o
    · exact .inr (ho ▸ shows x painted)
    · rw [((redrawn_showStanding o x).2 st ho).2]
      exact shown.imp_left fun mem => (List.mem_cons.mp mem).resolve_left ho

/-- R125: every station that is IDLE shows its idle text anew. -/
theorem line1_showStandingAll (idle : y.stationState st = .idle) (unwiped : (y.console st).wiped = false) :
    ((showStandingAll y).console st).line1 = fit20 (idleText y st).line1 := by
  obtain ⟨attended, free, normal⟩ := idle_iff.mp idle
  refine line1_foldl_showStanding (fun x painted => ?_) stations y (Repainted.refl y) (.inl (List.mem_finRange st))
  obtain ⟨d, hport⟩ := painted.port st
  have there : x.attended st := by simpa only [State.attended, hport] using attended
  have stands : StandsAs y st x :=
    { attended := there
      paper := by rw [hport]
      wiped := (painted.wiped st).trans unwiped
      day := painted.day
      texts := by rw [painted.active]
      free := by rw [painted.session]; exact free }
  rw [showStanding_idle stands (by rw [painted.session]; exact normal), showLines_attended there]
  simp

/-! ### The opening ends -/

theorem openEnd_ends (running : s.running = true)
    (hslot : s.slot = some { op := .opening day visited, requester := q })
    (done : sweepRest visited s.active.items = []) :
    exec .openEnd s = .next (settle s (endOpening q day s)) := by
  change execOpenEnd s = _
  rw [execOpenEnd, partEvent_running running, openingUnderWay_eq hslot]
  simp only [done, List.isEmpty_nil, if_true]

/-- The desk-day OPEN, its record appended, BANK_STALE raised unless the bank is fresh (R166). -/
def dayOpened (day : Nat) (s : State) : State :=
  let s' : State :=
    { append (draft .dayOpen) s with
      day := { (append (draft .dayOpen) s).day with state := .opened, openDay := some day }, slot := none }
  if !s.day.fresh then raiseBoth .bankStale s' else s'

/-- The state in which an opening's end shows its displays: the reply of its request waits (R166, R173). -/
def openingReplied (q : Option Req) (day : Nat) (s : State) : State :=
  finalReply q .openDesk { status := .ok, results := .opened day (!s.day.fresh) } (dayOpened day s)

theorem endOpening_eq (q : Option Req) (day : Nat) (room : 1 ≤ s.journal.free) :
    endOpening q day s = showStandingAll (openingReplied q day s) := by
  simp only [endOpening, appendSystem_room s room, openingReplied, dayOpened]

theorem dayOpened_frame (day : Nat) (s : State) :
    ∃ u v, dayOpened day s =
      { append (draft .dayOpen) s with
        day := { s.day with state := .opened, openDay := some day }, slot := none, uplink := u, supervisor := v } := by
  unfold dayOpened
  split <;> exact ⟨_, _, rfl⟩

theorem state_dayOpened (day : Nat) (s : State) (l : Line) : ((dayOpened day s).line l).state = (s.line l).state := by
  unfold dayOpened
  split <;> cases l <;> rfl

theorem has_dayOpened (day : Nat) (s : State) (l : Line) :
    ((dayOpened day s).line l).pendingSet.has .bankStale = ((s.line l).pendingSet.has .bankStale || !s.day.fresh) := by
  unfold dayOpened
  split
  · next stale => rw [has_raiseBoth, stale, Bool.or_true]
  · next fresh =>
    rw [Bool.eq_false_of_not_eq_true fresh, Bool.or_false]
    cases l <;> rfl

theorem openingReplied_frame (q : Option Req) (day : Nat) (s : State) :
    ∃ u v, openingReplied q day s =
      { append (draft .dayOpen) s with
        day := { s.day with state := .opened, openDay := some day }, slot := none, uplink := u, supervisor := v } := by
  obtain ⟨u, v, opened⟩ := dayOpened_frame day s
  obtain ⟨u', v', replied⟩ := finalReply_frame q .openDesk { status := .ok, results := .opened day (!s.day.fresh) }
    (dayOpened day s)
  rw [opened] at replied
  exact ⟨u', v', by rw [openingReplied, opened]; exact replied⟩

theorem endOpening_frame (q : Option Req) (day : Nat) (room : 1 ≤ s.journal.free) :
    ∃ p c u v, endOpening q day s =
      { append (draft .dayOpen) s with
        day := { s.day with state := .opened, openDay := some day }, slot := none, ports := p, consoles := c
        uplink := u, supervisor := v } := by
  obtain ⟨u, v, replied⟩ := openingReplied_frame q day s
  obtain ⟨p, c, painted⟩ := (repainted_showStandingAll (openingReplied q day s)).rest
  refine ⟨p, c, u, v, (endOpening_eq q day room).trans (painted.trans ?_)⟩
  rw [replied]

theorem line_endOpening (q : Option Req) (day : Nat) (room : 1 ≤ s.journal.free) (l : Line) :
    (endOpening q day s).line l = (openingReplied q day s).line l := by
  rw [endOpening_eq q day room]
  exact (repainted_showStandingAll _).line l

/-- R125, R163: a station that is IDLE shows READY, or that its paper is out. -/
theorem line1_endOpening (q : Option Req) (day : Nat) (room : 1 ≤ s.journal.free) (idle : s.stationState st = .idle)
    (unwiped : (s.console st).wiped = false) :
    ((endOpening q day s).console st).line1 =
      fit20 (s.shownText (if (s.port st).paperOut then 27 else 23)).line1 := by
  obtain ⟨u, v, replied⟩ := openingReplied_frame q day s
  have shown := line1_showStandingAll (y := openingReplied q day s) (st := st)
    (by rw [replied]; exact idle) (by rw [replied]; exact unwiped)
  have text : idleText (openingReplied q day s) st = s.shownText (if (s.port st).paperOut then 27 else 23) := by
    rw [replied]
    rfl
  rw [endOpening_eq q day room, ← text]
  exact shown

end Sys2Proof.Desk

open Sys2Proof Sys2Proof.Machine Sys2Proof.Desk

/-- Settles O32: the step at the next entry, by whether its head has expired; the end of the opening, by what each of
its parts leaves. -/
theorem openingsSweepAndEnd : Obligations.OpeningsSweepAndEnd := by
  unfold Obligations.OpeningsSweepAndEnd
  refine ⟨fun s q day visited e rest running hslot hrest => ?sweep,
    fun s q day visited running hslot hrest room => ?ends⟩
  case sweep =>
    have step := sweepStep_visits running hslot hrest
    refine ⟨fun kept => ?_, fun h hs p hqueue hp past room => ?_⟩
    · rw [step, sweepEntry_passes kept]
      exact congrArg _ (settle_still rfl rfl rfl rfl rfl)
    · obtain ⟨items, first, sequence, routed, cache, sessions, ports, consoles, hday⟩ :=
        sweepEntry_expires hqueue hp past room
      rw [sweepDraft_expired _ hp] at first routed
      exact ⟨_, step, rfl, items, first, sequence, routed, cache, sessions, ports, consoles, hday⟩
  case ends =>
    refine ⟨_, openEnd_ends running hslot hrest, ?_⟩
    have line := line_endOpening q day room
    have display := fun st => line1_endOpening (st := st) q day room
    obtain ⟨p, c, u, v, ended⟩ := endOpening_frame q day room
    have recorded := appended_append s (draft .dayOpen)
    rw [ended] at line display ⊢
    refine ⟨rfl, rfl, recorded, fun l => ?_, fun r hq active => ?_, display, rfl, rfl, rfl, rfl, rfl⟩
    · rw [has_settle_eq (by decide), line, openingReplied, pendingSet_finalReply, has_dayOpened]
    · refine subset_settle _ _ _ ?_
      rw [line, hq]
      exact mem_finalReply _ _ ((state_dayOpened day s r.line).trans active)
end

