-- ==== Sys2Proof/Proofs/CalendarSearches.lean ====
section
/-! SUPPORT. The two searches of the calendar (R92), each by the day it yields, and the pickup day (R103). -/

namespace Sys2Proof.DueDates

open Sys2Proof.Machine

variable {b : Bank} {day d n : Nat} {p : Profile}

/-! ### The forward search -/

theorem searchForward_pastEnd (past : lastDay < day) : searchForward b day n = none := by
  cases n with
  | zero => rfl
  | succ n => exact if_pos past

theorem searchForward_open (inside : day ≤ lastDay) (hours : hoursOf b day = some p) :
    searchForward b day (n + 1) = some (day, p) := by
  simp [searchForward, Nat.not_lt.mpr inside, hours]

theorem searchForward_closed (inside : day ≤ lastDay) (hours : hoursOf b day = none) :
    searchForward b day (n + 1) = searchForward b (day + 1) n := by
  simp [searchForward, Nat.not_lt.mpr inside, hours]

/-- The forward search yields the first open day of its width. -/
theorem searchForward_first (hours : hoursOf b d = some p) (inside : d ≤ lastDay) :
    ∀ {n day : Nat}, day ≤ d → d < day + n → (∀ x, day ≤ x → x < d → hoursOf b x = none) →
      searchForward b day n = some (d, p) := by
  intro n
  induction n with
  | zero => intro day lower upper closed; omega
  | succ n ih =>
    intro day lower upper closed
    obtain rfl | later := Nat.eq_or_lt_of_le lower
    · exact searchForward_open inside hours
    · rw [searchForward_closed (lower.trans inside) (closed day le_rfl later)]
      exact ih later (by omega) fun x hx => closed x (by omega)

/-- The forward search yields none where every day of its width up to the last is closed. -/
theorem searchForward_none :
    ∀ {n day : Nat}, (∀ x, day ≤ x → x < day + n → x ≤ lastDay → hoursOf b x = none) →
      searchForward b day n = none := by
  intro n
  induction n with
  | zero => exact fun _ => rfl
  | succ n ih =>
    intro day closed
    obtain past | inside := Nat.lt_or_ge lastDay day
    · exact searchForward_pastEnd past
    · rw [searchForward_closed inside (closed day le_rfl (by omega) inside)]
      exact ih fun x lower upper => closed x (by omega) (by omega)

/-! ### The backward search -/

/-- The backward search yields a day below its top. -/
theorem searchBelow_lt : ∀ {n top : Nat}, searchBelow b top n = some (d, p) → d < top := by
  intro n
  induction n with
  | zero => intro top found; simp [searchBelow] at found
  | succ n ih =>
    intro top found
    cases top with
    | zero => cases found
    | succ top =>
      cases hours : hoursOf b top with
      | some p' =>
        obtain ⟨rfl, -⟩ : top = d ∧ p' = p := by simpa [searchBelow, hours] using found
        exact Nat.lt_succ_self top
      | none => exact Nat.lt_succ_of_lt (ih (by simpa [searchBelow, hours] using found))

/-! ### Pickup days -/

theorem pickupDay_found {k : Nat} (found : searchForward b (day + k) 14 = some (d, p)) : pickupDay b day k = d := by
  simp only [pickupDay, found]

theorem pickupDay_none {k : Nat} (none_open : searchForward b (day + k) 14 = none) :
    pickupDay b day k = min (day + k) lastDay := by
  simp only [pickupDay, none_open]
  split <;> omega

end Sys2Proof.DueDates

open Sys2Proof Sys2Proof.Machine Sys2Proof.DueDates

/-- Settles O60: the pickup day by what the forward search over 14 days yields. -/
theorem pickupDays : Obligations.PickupDays := by
  unfold Obligations.PickupDays
  refine fun b day k => ⟨fun d lower upper inside hours closed => ?_, fun closed => ?_⟩
  · obtain ⟨p, hours⟩ := Option.ne_none_iff_exists'.mp hours
    exact pickupDay_found (searchForward_first hours inside lower upper closed)
  · exact pickupDay_none (searchForward_none closed)
end

