-- ==== Sys2Proof/Proofs/DueBounds.lean ====
section
/-! SUPPORT. The bounds of a due: the ceiling that each computation keeps (R94, R96, R99), the final test (R101) and the
comparison of a renewal (R102). -/

namespace Sys2Proof.DueDates

open Sys2Proof.Machine

variable {i : DueInput} {c c' : Computed} {old : Due} {t : Nat}

/-! ### The order of dues and the ceiling -/

theorem later_iff {x y : Due} : x.later y = true ↔ y.day < x.day ∨ (y.day = x.day ∧ y.minute < x.minute) := by
  simp only [Due.later, Bool.or_eq_true, Bool.and_eq_true, decide_eq_true_eq, eq_comm (a := x.day)]

theorem not_later_iff {x y : Due} : x.later y = false ↔ x.day < y.day ∨ (x.day = y.day ∧ x.minute ≤ y.minute) := by
  rw [← Bool.not_eq_true, later_iff]
  omega

theorem later_trans {x y z : Due} (hxy : x.later y = true) (hyz : y.later z = true) : x.later z = true := by
  rw [later_iff] at *
  omega

theorem ceiling_le_expiryDay (i : DueInput) : ceiling i ≤ i.expiryDay := by
  unfold ceiling
  split
  · exact le_rfl
  · split <;> omega

theorem ceiling_le_termEndDay (h : i.category.termEndDay = some t) : ceiling i ≤ t := by
  simp only [ceiling, h]
  split <;> omega

/-! ### The ceiling steps -/

/-- R96: the step that DAYS and FIXED share ends at or before a ceiling that is not behind the decision's day. -/
theorem ceilingStep_day_le (ahead : i.day ≤ ceiling i) (h : ceilingStep i c = .ok c') : c'.due.day ≤ ceiling i := by
  unfold ceilingStep at h
  split at h
  case isTrue within =>
    cases h
    exact within
  case isFalse =>
    split at h
    case h_1 d p found =>
      cases h
      exact Nat.le_of_lt_succ (searchBelow_lt found)
    case h_2 =>
      split at h
      case h_1 =>
        split at h
        · cases h
          exact ahead
        · cases h
      case h_2 => cases h

/-- R99: an HOURS computation has its own ceiling step. -/
theorem hoursDue_day_le (h : hoursDue i = .ok c) : c.due.day ≤ ceiling i := by
  unfold hoursDue at h
  split at h
  case h_1 => cases h
  case h_2 =>
    split at h
    case h_1 => cases h
    case h_2 =>
      dsimp only at h
      split at h
      case isTrue within =>
        cases h
        exact within
      case isFalse =>
        split at h
        case h_1 d p found =>
          split at h
          · cases h
            exact Nat.le_of_lt_succ (searchBelow_lt found)
          · cases h
        case h_2 => cases h

/-- R89: whichever computation is chosen, its due passes a ceiling step. -/
theorem chosenDue_day_le (ahead : i.day ≤ ceiling i) (h : chosenDue i = .ok c) : c.due.day ≤ ceiling i := by
  unfold chosenDue at h
  split at h
  case h_1 => cases h
  case h_2 => exact ceilingStep_day_le ahead h
  case h_3 => exact hoursDue_day_le h
  all_goals
    split at h
    · cases h
    · exact ceilingStep_day_le ahead h

/-! ### New loans and renewals -/

/-- The decision instant (R93). -/
def decisionInstant (i : DueInput) : Due := { day := i.day, minute := i.minute }

theorem newLoanDue_ok (h : newLoanDue i = .ok c) :
    i.day ≤ ceiling i ∧ chosenDue i = .ok c ∧ c.due.later (decisionInstant i) = true := by
  unfold newLoanDue at h
  split at h
  case isTrue => cases h
  case isFalse ahead =>
    split at h
    case h_1 => cases h
    case h_2 chosen =>
      split at h
      case isTrue later =>
        cases h
        exact ⟨Nat.not_lt.mp ahead, chosen, later⟩
      case isFalse => cases h

/-- R102: a renewal hands on its new-loan due, or the later old one. -/
theorem renewalDue_ok (h : renewalDue i old = .ok c) :
    ∃ fresh, newLoanDue i = .ok fresh ∧
      ((old.later fresh.due = true ∧ old.day ≤ ceiling i ∧ c.due = old) ∨
        (old.later fresh.due = false ∧ c = fresh)) := by
  unfold renewalDue at h
  split at h
  case h_1 => cases h
  case h_2 fresh loan =>
    refine ⟨fresh, loan, ?_⟩
    split at h
    case isTrue later =>
      split at h
      case isTrue => cases h
      case isFalse within =>
        cases h
        exact .inl ⟨later, Nat.not_lt.mp within, rfl⟩
    case isFalse notLater =>
      cases h
      exact .inr ⟨Bool.eq_false_of_not_eq_true notLater, rfl⟩

theorem newLoanDue_bounds (h : newLoanDue i = .ok c) :
    c.due.later (decisionInstant i) = true ∧ c.due.day ≤ ceiling i := by
  obtain ⟨ahead, chosen, later⟩ := newLoanDue_ok h
  exact ⟨later, chosenDue_day_le ahead chosen⟩

theorem renewalDue_bounds (h : renewalDue i old = .ok c) :
    c.due.later (decisionInstant i) = true ∧ c.due.day ≤ ceiling i := by
  obtain ⟨fresh, loan, ⟨kept, within, due⟩ | ⟨-, rfl⟩⟩ := renewalDue_ok h
  · rw [due]
    exact ⟨later_trans kept (newLoanDue_bounds loan).1, within⟩
  · exact newLoanDue_bounds loan

theorem renewalDue_not_before_old (h : renewalDue i old = .ok c) : old.later c.due = false := by
  obtain ⟨fresh, loan, ⟨-, -, due⟩ | ⟨notLater, rfl⟩⟩ := renewalDue_ok h
  · rw [due, not_later_iff]
    exact .inr ⟨rfl, le_rfl⟩
  · exact notLater

theorem dueFor_bounds {o : Option Due} (h : dueFor i o = .ok c) :
    c.due.later (decisionInstant i) = true ∧ c.due.day ≤ ceiling i := by
  cases o with
  | none => exact newLoanDue_bounds h
  | some old => exact renewalDue_bounds h

end Sys2Proof.DueDates

open Sys2Proof Sys2Proof.Machine Sys2Proof.DueDates

/-- Settles O59: the final test and the ceiling bound every due, and a renewal hands on the later of two dues. -/
theorem duesLieBetweenNowAndTheCeiling : Obligations.DuesLieBetweenNowAndTheCeiling := by
  unfold Obligations.DuesLieBetweenNowAndTheCeiling
  intro i old c h
  obtain ⟨later, within⟩ := dueFor_bounds h
  refine ⟨later_iff.mp later, within.trans (ceiling_le_expiryDay i),
    fun t ends => within.trans (ceiling_le_termEndDay ends), ?_⟩
  rintro o rfl
  exact not_later_iff.mp (renewalDue_not_before_old h)
end

