-- ==== Sys2Proof/Proofs/CalendarWrites.lean ====
section
/-! SUPPORT. A write to the calendar with the tests that follow it (R165, R167), and the rules of the six writes (R90,
R109, R110), case by case. -/

namespace Sys2Proof.TableWrites

open Sys2Proof.Machine

variable {s : State} {q : Req} {name : ReqName} {bank : BankName} {b b' : Bank} {st : Status}

/-! ### The work of a write, and its answer -/

theorem writeTable_stores {rule : Bank → WriteResult} {r : Reply} (h : s.admitsWrite q.line bank)
    (hb : rule (s.bank bank) = .ok (b', r)) :
    writeTable q name bank none none rule (received q name s) =
      (recordWrite q bank name none none ((received q name s).setBank bank b'), r) := by
  simp only [writeTable, writeBar_received, writeBar_admitted h, bank_received, hb]

theorem writeTable_refuses {rule : Bank → WriteResult} (h : s.admitsWrite q.line bank)
    (hb : rule (s.bank bank) = .error st) :
    writeTable q name bank none none rule (received q name s) = (received q name s, Reply.bare st) := by
  simp only [writeTable, writeBar_received, writeBar_admitted h, bank_received, hb]

section
variable {α : Type} {p : α} {bankOf : α → BankName} {rule : α → Bank → WriteResult}

theorem request_owner {work : α → State → State × Reply} (h : s.admitsOwner q.line) :
    request q name true (.shaped p) work s =
      .next (answered q name (work p (received q name s)).2 s (work p (received q name s)).1) := by
  obtain ⟨⟨⟨running, still, active⟩, unlocked⟩, owner⟩ := h
  exact request_taken running still (gate_open active (.inr unlocked) fun _ => owner)

theorem calendarWrite_taken (h : s.admitsWrite q.line (bankOf p)) (hb : rule p (s.bank (bankOf p)) = takenOk b') :
    calendarWrite q name (.shaped p) bankOf rule s = .next (calendarWritten q name (bankOf p) b' s) := by
  have stored := writeTable_stores (name := name) h hb
  rw [calendarWrite, request_owner h.1]
  simp only [stored, calendarWritten]
  by_cases ofActive : bankOf p = .active
  · rw [if_pos ⟨ofActive, rfl⟩, if_pos ofActive]
    rfl
  · rw [if_neg (mt And.left ofActive), if_neg ofActive]
    rfl

/-- A refused write tests neither auto-close nor auto-open. -/
theorem calendarWrite_refused (refusal : st.isRefusal = true) (h : s.admitsWrite q.line (bankOf p))
    (hb : rule p (s.bank (bankOf p)) = .error st) :
    calendarWrite q name (.shaped p) bankOf rule s =
      .next (answered q name (Reply.bare st) s (received q name s)) := by
  have kept := writeTable_refuses (name := name) h hb
  rw [calendarWrite, request_owner h.1]
  simp only [kept]
  rw [if_neg fun taken => Bool.false_ne_true (taken.2.symm.trans refusal)]

end

/-! ### Profiles -/

theorem writeProfile_stores (i : Fin 7) (p : Profile) (b : Bank) :
    writeProfile (i.val + 1) p b = takenOk { b with profiles := b.profiles.set i p } :=
  writeElement_inside i fun i => takenOk { b with profiles := b.profiles.set i p }

theorem writeProfile_badValue {number : Nat} (h : number = 0 ∨ 7 < number) (p : Profile) (b : Bank) :
    writeProfile number p b = .error .badValue := by
  cases number with
  | zero => rfl
  | succ n =>
    have outside : 7 ≤ n := by omega
    rw [writeProfile, writeElement_outside outside]

section
variable {number opening closing : Nat}

theorem putProfileRule_meant (hours : opening ≤ 1439 ∧ closing ≤ 1440 ∧ opening < closing) :
    putProfileRule { bank := bank, profile := number, openMinute := opening, closeMinute := closing } b =
      writeProfile number { openMinute := opening, closeMinute := closing } b := by
  rw [putProfileRule, if_neg]
  dsimp only
  omega

theorem putProfileRule_badValue
    (h : number = 0 ∨ 7 < number ∨ 1439 < opening ∨ 1440 < closing ∨ closing ≤ opening) :
    putProfileRule { bank := bank, profile := number, openMinute := opening, closeMinute := closing } b =
      .error .badValue := by
  rw [putProfileRule]
  split
  · rfl
  next ordered =>
  dsimp only at ordered
  have unknown : number = 0 ∨ 7 < number := by omega
  exact writeProfile_badValue unknown _ _

end

/-! ### Weekdays -/

theorem putWeekdayRule_stores (d : Fin 7) (p : Fin 8) :
    putWeekdayRule { bank := bank, day := d.val, profile := p.val } b =
      takenOk { b with weekdays := b.weekdays.set d p } :=
  (writeElement_inside d _).trans (writeElement_inside p _)

theorem putWeekdayRule_badValue {p : PutDayParams} (h : 6 < p.day ∨ 7 < p.profile) :
    putWeekdayRule p b = .error .badValue := by
  obtain day | profile := h
  · exact writeElement_outside day _
  · exact writeElement_badValue fun i => writeElement_outside profile _

theorem delWeekdayRule_clears (d : Fin 7) :
    delWeekdayRule { bank := bank, index := d.val } b = takenOk { b with weekdays := b.weekdays.set d 0 } :=
  writeElement_inside d _

theorem delWeekdayRule_badValue {p : BankIndex} (h : 6 < p.index) : delWeekdayRule p b = .error .badValue :=
  writeElement_outside h _

/-! ### Exceptions -/

section
variable {day : Nat}

/-- A PUT_EXCEPTION with a profile from 0 to 7. -/
theorem putExceptionRule_meant (p : Fin 8) :
    putExceptionRule { bank := bank, day := day, profile := p.val } b =
      if (b.exceptions.any fun e => e.day = day) = true then
        takenOk { b with exceptions := b.exceptions.map fun e => if e.day = day then { e with profile := p } else e }
      else if b.exceptions.length < 96 then
        takenOk
          { b with
            exceptions := insertBy (fun x y => decide (x.day < y.day)) { day := day, profile := p } b.exceptions }
      else .error .full := writeElement_inside p _

theorem putExceptionRule_badValue {p : PutDayParams} (h : 7 < p.profile) :
    putExceptionRule p b = .error .badValue := writeElement_outside h _

theorem delExceptionRule_removes (known : (b.exceptions.any fun e => e.day = day) = true) :
    delExceptionRule { bank := bank, index := day } b =
      takenOk { b with exceptions := b.exceptions.filter fun e => e.day ≠ day } := if_pos known

theorem delExceptionRule_notFound (unknown : (b.exceptions.any fun e => e.day = day) = false) :
    delExceptionRule { bank := bank, index := day } b = .error .notFound := if_neg (ne_true_of_eq_false unknown)

end

end Sys2Proof.TableWrites

open Sys2Proof Sys2Proof.Machine Sys2Proof.TableWrites

/-- Settles O51: each write is answered as its rule decides, and the rules are taken case by case. -/
theorem calendarWrites : Obligations.CalendarWrites := by
  unfold Obligations.CalendarWrites
  refine ⟨fun s q bank h => ⟨fun number opening closing => ?profile, fun number => ?cleared, fun d p => ?weekday,
    fun day => ?exception⟩, fun s q => ?badValues⟩
  case profile =>
    refine ⟨fun i numbered early late ordered => ?_,
      fun bad => calendarWrite_refused rfl h (putProfileRule_badValue bad)⟩
    subst numbered
    exact calendarWrite_taken h ((putProfileRule_meant ⟨early, late, ordered⟩).trans (writeProfile_stores i _ _))
  case cleared =>
    refine ⟨fun i numbered => ?_, fun bad => calendarWrite_refused rfl h (writeProfile_badValue bad _ _)⟩
    subst numbered
    exact calendarWrite_taken h (writeProfile_stores i _ _)
  case weekday =>
    exact ⟨calendarWrite_taken h (putWeekdayRule_stores d p), calendarWrite_taken h (delWeekdayRule_clears d)⟩
  case exception =>
    refine ⟨fun p => ?_, fun known => calendarWrite_taken h (delExceptionRule_removes known),
      fun unknown => calendarWrite_refused rfl h (delExceptionRule_notFound unknown)⟩
    have rule := putExceptionRule_meant (bank := bank) (b := s.bank bank) (day := day) p
    refine ⟨fun known => ?_, fun unknown room => ?_, fun unknown full => ?_⟩
    · rw [if_pos known] at rule
      exact calendarWrite_taken h rule
    · rw [if_neg (ne_true_of_eq_false unknown), if_pos room] at rule
      exact calendarWrite_taken h rule
    · rw [if_neg (ne_true_of_eq_false unknown), if_neg (Nat.not_lt.mpr full)] at rule
      exact calendarWrite_refused rfl h rule
  case badValues =>
    exact ⟨fun p h => ⟨fun bad => calendarWrite_refused rfl h (putWeekdayRule_badValue bad),
        fun bad => calendarWrite_refused rfl h (putExceptionRule_badValue bad)⟩,
      fun p h bad => calendarWrite_refused rfl h (delWeekdayRule_badValue bad)⟩
end

