-- ==== Sys2Proof/Proofs/SlipSends.lean ====
section
/-! SUPPORT. One send of the head slip (R119, R136): the print of its next line, or the cut behind its last. -/

namespace Sys2Proof.Desk

open Sys2Proof.Machine

variable {s : State} {st : Station} {head : Slip} {rest : List Slip}

/-- R119: what a send needs, at a station with a slip. -/
theorem mayPrint_of (ha : s.atDesk st = true) (paper : (s.port st).paperOut = false) (credit : 0 < (s.port st).credit)
    (room : (s.port st).down.countP DownFrame.isPrint < 8) (hq : (s.console st).queue = head :: rest) :
    s.mayPrint st = true := by
  simp [State.mayPrint, ha, paper, credit, room, hq]

theorem printOne_line {line : Text} (hq : (s.console st).queue = head :: rest)
    (next : head.lines[(s.console st).headSent]? = some line) :
    printOne st s =
      (sendPrint st (.print line) s).setConsole st
        { s.console st with headSent := (s.console st).headSent + 1 } := by
  simp only [printOne, hq, next]

theorem printOne_cut (hq : (s.console st).queue = head :: rest) (done : head.lines.length ≤ (s.console st).headSent) :
    printOne st s =
      (sendPrint st .cut s).setConsole st { s.console st with queue := rest, headSent := 0, copy := some head } := by
  simp only [printOne, hq, List.getElem?_eq_none done]

/-- A send moves nothing but its station's port and console. -/
theorem settle_sendPrint (f : DownFrame) (c : Console) :
    settle s ((sendPrint st f s).setConsole st c) = (sendPrint st f s).setConsole st c :=
  settle_still rfl rfl rfl rfl rfl

theorem slipSend_taken (hr : s.running = true) (hp : s.mayPrint st = true) :
    exec (.slipSend st) s = .next (settle s (printOne st s)) :=
  (show execSlipSend st s = _ from guardedEvent_taken hr hp)

end Sys2Proof.Desk

open Sys2Proof Sys2Proof.Machine Sys2Proof.Desk

/-- Settles O15: a line unsent is printed; when none is left the slip is cut off and kept as the copy. -/
theorem oneSendOneLine : Obligations.OneSendOneLine := by
  unfold Obligations.OneSendOneLine
  intro s st head rest running atDesk paper credit room queued
  have taken := slipSend_taken running (mayPrint_of atDesk paper credit room queued)
  refine ⟨fun line next => ?_, fun done => ?_⟩
  · rw [taken, printOne_line queued next, settle_sendPrint]
    rfl
  · rw [taken, printOne_cut queued done, settle_sendPrint]
    rfl
end

