-- ==== Sys2Proof/Proofs/TemplatesAndTexts.lean ====
section
/-! SUPPORT. The rules of PUT_TEMPLATE, DEL_TEMPLATE, PUT_TEXT and DEL_TEXT (R126), case by case. -/

namespace Sys2Proof.TableWrites

open Sys2Proof.Machine

variable {s : State} {q : Req} {bank : BankName} {b : Bank}

/-! ### Lists read element by element -/

section
variable {α β : Type} {f : α → Option β}

/-- A reading that gives each element back gives the list back. -/
theorem mapM_map_eq_some {g : β → α} {l : List β} (h : ∀ x ∈ l, f (g x) = some x) : (l.map g).mapM f = some l := by
  induction l with
  | nil => rfl
  | cons x xs ih =>
    obtain ⟨first, others⟩ := List.forall_mem_cons.mp h
    simp [List.mapM_cons, first, ih others]

/-- One element that cannot be read spoils the list. -/
theorem mapM_eq_none {l : List α} {x : α} (mem : x ∈ l) (h : f x = none) : l.mapM f = none := by
  induction l with
  | nil => cases mem
  | cons y ys ih =>
    rw [List.mapM_cons]
    obtain rfl | later := List.mem_cons.mp mem
    · rw [h]
      rfl
    · rw [ih later]
      cases f y <;> rfl

end

/-! ### Characters -/

/-- Every character lies in the 7-bit printable set. -/
def AllPrintable (t : Text) : Prop := ∀ x ∈ t, 0x20 ≤ x.toNat ∧ x.toNat ≤ 0x7E

theorem all_printable_iff {t : Text} : t.all printable = true ↔ AllPrintable t := by
  simp only [List.all_eq_true, printable, decide_eq_true_eq, AllPrintable]

/-! ### Slots and lines -/

/-- The parameters that carry a slot. -/
def slotParams (x : TemplateSlot) : Nat × Option FieldName := (x.column, some x.field)

/-- The parameters that carry a line. -/
def lineParams (l : TemplateLine) : TemplateLineParams :=
  { text := l.text, repeated := l.repeated, slots := l.slots.map slotParams }

theorem slotOf_slotParams {x : TemplateSlot} (h : x.column ≤ 47) : slotOf (slotParams x) = some x := if_pos h

theorem slotOf_badValue {p : Nat × Option FieldName} (h : 47 < p.1 ∨ p.2 = none) : slotOf p = none := by
  obtain ⟨column, field⟩ := p
  cases field with
  | none => rfl
  | some f =>
    have outside : 47 < column := h.resolve_right (Option.some_ne_none f)
    exact if_neg (Nat.not_le.mpr outside)

theorem templateLineOf_lineParams {l : TemplateLine} (short : l.text.length ≤ 48) (text : AllPrintable l.text)
    (slots : ∀ x ∈ l.slots, x.column ≤ 47) : templateLineOf (lineParams l) = some l := by
  have read : (l.slots.map slotParams).mapM slotOf = some l.slots :=
    mapM_map_eq_some fun x mem => slotOf_slotParams (slots x mem)
  simp only [templateLineOf, lineParams, read]
  exact if_pos ⟨short, all_printable_iff.mpr text⟩

/-- What R126 refuses in a line, besides its shape. -/
def LineUnmeant (l : TemplateLineParams) : Prop :=
  48 < l.text.length ∨ ¬AllPrintable l.text ∨ ∃ x ∈ l.slots, 47 < x.1 ∨ x.2 = none

theorem templateLineOf_unmeant {l : TemplateLineParams} (h : LineUnmeant l) : templateLineOf l = none := by
  unfold templateLineOf
  split
  · rfl
  next slots read =>
  refine if_neg fun ⟨short, text⟩ => ?_
  obtain long | unprintable | ⟨x, mem, bad⟩ := h
  · exact Nat.not_le.mpr long short
  · exact unprintable (all_printable_iff.mp text)
  · rw [mapM_eq_none mem (slotOf_badValue bad)] at read
    cases read

/-! ### Templates -/

theorem templateFits_iff {p : PutTemplateParams} :
    templateFits p = true ↔ p.lines.length ≤ 16 ∧ ∀ l ∈ p.lines, l.slots.length ≤ 4 := by
  simp only [templateFits, Bool.and_eq_true, decide_eq_true_eq, List.all_eq_true]

theorem exec_putTemplate_fits {p : PutTemplateParams} (lines : p.lines.length ≤ 16)
    (slots : ∀ l ∈ p.lines, l.slots.length ≤ 4) :
    exec (.putTemplate q (.shaped p)) s =
      plainWrite q .putTemplate (.shaped p) (fun p => p.bank) putTemplateRule s := by
  change execPutTemplate q (.shaped p) s = _
  rw [execPutTemplate, shapedWhen, if_pos (templateFits_iff.mpr ⟨lines, slots⟩)]

theorem exec_putTemplate_tooLong {p : PutTemplateParams} (h : 16 < p.lines.length ∨ ∃ l ∈ p.lines, 4 < l.slots.length) :
    exec (.putTemplate q (.shaped p)) s =
      plainWrite q .putTemplate .malformed (fun p => p.bank) putTemplateRule s := by
  have unfit : ¬templateFits p = true := by
    intro fits
    obtain ⟨lines, slots⟩ := templateFits_iff.mp fits
    obtain long | ⟨l, mem, many⟩ := h
    · exact Nat.not_le.mpr long lines
    · exact Nat.not_le.mpr many (slots l mem)
  change execPutTemplate q (.shaped p) s = _
  rw [execPutTemplate, shapedWhen, if_neg unfit]

theorem putTemplateRule_stores (i : Fin 8) {lines : List TemplateLine}
    (h : ∀ l ∈ lines, l.text.length ≤ 48 ∧ AllPrintable l.text ∧ ∀ x ∈ l.slots, x.column ≤ 47) :
    putTemplateRule { bank := bank, template := i.val, lines := lines.map lineParams } b =
      takenOk { b with templates := b.templates.set i lines } := by
  have read : (lines.map lineParams).mapM templateLineOf = some lines := by
    refine mapM_map_eq_some fun l mem => ?_
    obtain ⟨short, text, slots⟩ := h l mem
    exact templateLineOf_lineParams short text slots
  simp only [putTemplateRule, writeElement_inside, read]

theorem putTemplateRule_badValue {p : PutTemplateParams} (h : 7 < p.template ∨ ∃ l ∈ p.lines, LineUnmeant l) :
    putTemplateRule p b = .error .badValue := by
  unfold putTemplateRule
  obtain outside | ⟨l, mem, unmeant⟩ := h
  · exact writeElement_outside outside _
  · exact writeElement_badValue fun i => by rw [mapM_eq_none mem (templateLineOf_unmeant unmeant)]

theorem delTemplateRule_clears (i : Fin 8) :
    delTemplateRule { bank := bank, index := i.val } b = takenOk { b with templates := b.templates.set i [] } :=
  writeElement_inside i _

theorem delTemplateRule_badValue {p : BankIndex} (h : 7 < p.index) : delTemplateRule p b = .error .badValue :=
  writeElement_outside h _

/-! ### Texts -/

/-- A line of at most 20 characters is padded to 20. -/
theorem fit20_short {t : Text} (h : t.length ≤ 20) : fit20 t = t ++ List.replicate (20 - t.length) 0x20#8 := by
  rw [fit20, blankLine, List.take_append, List.take_of_length_le h, List.take_replicate,
    Nat.min_eq_left (Nat.sub_le ..)]

theorem textLineOk_iff {t : Text} : textLineOk t = true ↔ t.length ≤ 20 ∧ AllPrintable t := by
  simp only [textLineOk, Bool.and_eq_true, decide_eq_true_eq, all_printable_iff]

section
variable {line1 line2 : Text}

theorem putTextRule_stores (i : Fin 32) (short1 : line1.length ≤ 20) (short2 : line2.length ≤ 20)
    (good1 : AllPrintable line1) (good2 : AllPrintable line2) :
    putTextRule { bank := bank, text := i.val, line1 := line1, line2 := line2 } b =
      takenOk
        { b with
          texts := b.texts.set i
            { line1 := line1 ++ List.replicate (20 - line1.length) 0x20#8
              line2 := line2 ++ List.replicate (20 - line2.length) 0x20#8 } } := by
  simp only [putTextRule, writeElement_inside, textLineOk_iff.mpr ⟨short1, good1⟩,
    textLineOk_iff.mpr ⟨short2, good2⟩, fit20_short short1, fit20_short short2, Bool.and_self, if_true]

theorem putTextRule_unmeant (i : Fin 32)
    (h : 20 < line1.length ∨ 20 < line2.length ∨ ¬AllPrintable line1 ∨ ¬AllPrintable line2) :
    putTextRule { bank := bank, text := i.val, line1 := line1, line2 := line2 } b = .error .badValue := by
  rw [putTextRule, writeElement_inside]
  refine if_neg fun meant => ?_
  rw [Bool.and_eq_true, textLineOk_iff, textLineOk_iff] at meant
  obtain ⟨⟨short1, good1⟩, short2, good2⟩ := meant
  obtain long | long | bad | bad := h
  · exact Nat.not_le.mpr long short1
  · exact Nat.not_le.mpr long short2
  · exact bad good1
  · exact bad good2

end

theorem putTextRule_badValue {p : PutTextParams} (h : 31 < p.text) : putTextRule p b = .error .badValue :=
  writeElement_outside h _

theorem delTextRule_clears (i : Fin 32) :
    delTextRule { bank := bank, index := i.val } b =
      takenOk { b with texts := b.texts.set i StationText.cleared } := writeElement_inside i _

theorem delTextRule_badValue {p : BankIndex} (h : 31 < p.index) : delTextRule p b = .error .badValue :=
  writeElement_outside h _

end Sys2Proof.TableWrites

open Sys2Proof Sys2Proof.Machine Sys2Proof.TableWrites

/-- Settles O52: a template too large is malformed; any other write is answered as its rule decides, case by case. -/
theorem templateAndTextWrites : Obligations.TemplateAndTextWrites := by
  unfold Obligations.TemplateAndTextWrites
  refine ⟨fun s q bank h => ⟨fun i lines few good => ?template, fun n lines few slots bad => ?unmeant,
    fun n lines long => ?malformed, fun i => plainWrite_taken h (delTemplateRule_clears i), fun i => ?texts⟩,
    fun s q => ?badValues⟩
  case template =>
    have fewParams : (lines.map lineParams).length ≤ 16 := (List.length_map ..).trans_le few
    have fewSlots : ∀ p ∈ lines.map lineParams, p.slots.length ≤ 4 := by
      refine List.forall_mem_map.mpr fun l mem => ?_
      exact (List.length_map ..).trans_le (good l mem).1
    exact (exec_putTemplate_fits fewParams fewSlots).trans
      (plainWrite_taken h (putTemplateRule_stores i fun l mem => (good l mem).2))
  case unmeant => exact (exec_putTemplate_fits few slots).trans (plainWrite_refused h (putTemplateRule_badValue bad))
  case malformed => exact (exec_putTemplate_tooLong long).trans (tableRequest_malformed (hears_of_admitsWrite h))
  case texts =>
    exact ⟨fun line1 line2 => ⟨fun short1 short2 good1 good2 =>
          plainWrite_taken h (putTextRule_stores i short1 short2 good1 good2),
        fun bad => plainWrite_refused h (putTextRule_unmeant i bad)⟩,
      plainWrite_taken h (delTextRule_clears i)⟩
  case badValues =>
    exact ⟨fun p h => ⟨fun bad => plainWrite_refused h (delTemplateRule_badValue bad),
        fun bad => plainWrite_refused h (delTextRule_badValue bad)⟩,
      fun p h bad => plainWrite_refused h (putTextRule_badValue bad)⟩
end

