-- ==== Sys2Proof/Proofs/WireBytes.lean ====
section
/-! SUPPORT. A receiver taking the bytes of a frame, part by part (R128, R175). -/

namespace Sys2Proof.WireBytes

open Sys2Proof.Machine

variable {f : FrameFormat} {r r' r'' : Receiver} {xs ys noise body got lengthBytes content : List Byte}
  {out out' : List (List Byte)} {a b : Byte} {n v : Nat}

/-! ### Numbers as bytes -/

theorem length_bigEndian (n v : Nat) : (bigEndian n v).length = n := by
  induction n generalizing v with
  | zero => rfl
  | succ n ih => simp only [bigEndian, List.length_append, ih, List.length_singleton]

theorem bigEndianValue_append_singleton (xs : List Byte) (b : Byte) :
    bigEndianValue (xs ++ [b]) = bigEndianValue xs * 256 + b.toNat := by
  simp only [bigEndianValue, List.foldl_append, List.foldl_cons, List.foldl_nil]

/-- A number that its bytes hold is read back from them. -/
theorem bigEndianValue_bigEndian (h : v < 256 ^ n) : bigEndianValue (bigEndian n v) = v := by
  induction n generalizing v with
  | zero => exact (Nat.lt_one_iff.mp h).symm
  | succ n ih =>
    rw [bigEndian, bigEndianValue_append_singleton, ih (by rw [pow_succ] at h; omega), BitVec.toNat_ofNat]
    omega

theorem bigEndian_two (v : Nat) : bigEndian 2 v = [BitVec.ofNat 8 (v / 256), BitVec.ofNat 8 v] := rfl

/-! ### Bytes one after the other -/

theorem takeAll_cons (f : FrameFormat) (b : Byte) (xs : List Byte) (r : Receiver) :
    Receiver.takeAll f (b :: xs) r =
      ((Receiver.takeAll f xs (r.take f b).1).1,
        (r.take f b).2.toList ++ (Receiver.takeAll f xs (r.take f b).1).2) := rfl

theorem takeAll_append (first : Receiver.takeAll f xs r = (r', out))
    (second : Receiver.takeAll f ys r' = (r'', out')) :
    Receiver.takeAll f (xs ++ ys) r = (r'', out ++ out') := by
  induction xs generalizing r out with
  | nil =>
    obtain ⟨rfl, rfl⟩ := Prod.mk.inj first
    exact second
  | cons x xs ih =>
    rw [takeAll_cons] at first
    obtain ⟨rfl, rfl⟩ := Prod.mk.inj first
    rw [List.cons_append, takeAll_cons, ih rfl, List.append_assoc]

/-! ### The parts of a frame -/

theorem takeAll_noise (h : f.start ∉ noise) : Receiver.takeAll f noise .looking = (.looking, []) := by
  induction noise with
  | nil => rfl
  | cons b noise ih =>
    obtain ⟨other, rest⟩ := not_or.mp (List.mem_cons.not.mp h)
    have still : Receiver.looking.take f b = (.looking, none) := by
      rw [Receiver.take, if_neg fun same => other same.symm]
    rw [takeAll_cons, still, ih rest]
    rfl

theorem take_start (f : FrameFormat) : Receiver.looking.take f f.start = (.length [], none) := by
  rw [Receiver.take, if_pos rfl]

/-- What a receiver does once it has the bytes of a length. -/
def afterLength (f : FrameFormat) (bytes : List Byte) : Receiver :=
  if f.least ≤ bigEndianValue bytes ∧ bigEndianValue bytes ≤ f.most then .body bytes [] else .looking

theorem take_length (b : Byte) (got : List Byte) :
    (Receiver.length got).take f b =
      (if (got ++ [b]).length < f.lengthSize then .length (got ++ [b]) else afterLength f (got ++ [b]), none) := by
  simp only [Receiver.take, afterLength]
  split
  · rfl
  · split <;> rfl

theorem take_body (b : Byte) (lengthBytes got : List Byte) :
    (Receiver.body lengthBytes got).take f b =
      (if (got ++ [b]).length < bigEndianValue lengthBytes then .body lengthBytes (got ++ [b])
        else .crc lengthBytes (got ++ [b]) [], none) := rfl

/-- A receiver that takes a field of a frame byte by byte goes on when the field is whole. -/
theorem takeAll_field {size : Nat} {field next : List Byte → Receiver}
    (step : ∀ got b, (field got).take f b =
      (if (got ++ [b]).length < size then field (got ++ [b]) else next (got ++ [b]), none))
    (nonempty : xs ≠ []) (whole : got.length + xs.length = size) :
    Receiver.takeAll f xs (field got) = (next (got ++ xs), []) := by
  induction xs generalizing got with
  | nil => exact absurd rfl nonempty
  | cons b xs ih =>
    have longer : (got ++ [b]).length = got.length + 1 := List.length_append
    rw [List.length_cons] at whole
    rw [takeAll_cons, step]
    cases xs with
    | nil =>
      rw [List.length_nil] at whole
      rw [if_neg (by omega)]
      rfl
    | cons c xs =>
      have more : 0 < (c :: xs).length := Nat.succ_pos _
      rw [if_pos (by omega), ih (List.cons_ne_nil c xs) (by omega), List.append_assoc]
      rfl

theorem takeAll_length (nonempty : xs ≠ []) (whole : xs.length = f.lengthSize) :
    Receiver.takeAll f xs (.length []) = (afterLength f xs, []) :=
  takeAll_field (next := afterLength f) (fun got b => take_length b got) nonempty ((Nat.zero_add _).trans whole)

theorem takeAll_body (nonempty : xs ≠ []) (whole : xs.length = bigEndianValue lengthBytes) :
    Receiver.takeAll f xs (.body lengthBytes []) = (.crc lengthBytes xs [], []) :=
  takeAll_field (field := .body lengthBytes) (next := fun body => .crc lengthBytes body [])
    (fun got b => take_body b lengthBytes got) nonempty ((Nat.zero_add _).trans whole)

/-- The two last bytes decide whether the body is given back. -/
theorem takeAll_crc (a b : Byte) :
    Receiver.takeAll f [a, b] (.crc lengthBytes content []) =
      (.looking, if [a, b] = bigEndian 2 (crc16 (lengthBytes ++ content)).toNat then [content] else []) := by
  have first : (Receiver.crc lengthBytes content []).take f a = (.crc lengthBytes content [a], none) := rfl
  have second : (Receiver.crc lengthBytes content [a]).take f b =
      (.looking, if [a, b] = bigEndian 2 (crc16 (lengthBytes ++ content)).toNat then some content else none) := rfl
  rw [takeAll_cons, first, takeAll_cons, second]
  split <;> rfl

/-! ### Whole frames -/

/-- A format's frames have a length and a body, and the field of the length holds every length. -/
structure Framed (f : FrameFormat) : Prop where
  sized : 0 < f.lengthSize
  filled : 0 < f.least
  held : f.most < 256 ^ f.lengthSize

theorem framed_of_format (h : f = stationFormat ∨ f = lineFormat) : Framed f := by
  obtain rfl | rfl := h <;> constructor <;> decide

theorem takeAll_startLength (framed : Framed f) (fits : n < 256 ^ f.lengthSize) :
    Receiver.takeAll f (f.start :: bigEndian f.lengthSize n) .looking =
      (if f.least ≤ n ∧ n ≤ f.most then .body (bigEndian f.lengthSize n) [] else .looking, []) := by
  have size := length_bigEndian f.lengthSize n
  have nonempty : bigEndian f.lengthSize n ≠ [] := List.ne_nil_of_length_pos (framed.sized.trans_eq size.symm)
  rw [takeAll_cons, take_start, takeAll_length nonempty size, afterLength, bigEndianValue_bigEndian fits]
  rfl

theorem takeAll_frame (framed : Framed f) (long : f.least ≤ body.length) (short : body.length ≤ f.most) (a b : Byte) :
    Receiver.takeAll f (f.start :: (bigEndian f.lengthSize body.length ++ body) ++ [a, b]) .looking =
      (.looking,
        if [a, b] = bigEndian 2 (crc16 (bigEndian f.lengthSize body.length ++ body)).toNat then [body] else []) := by
  have fits := short.trans_lt framed.held
  have counted := takeAll_startLength framed fits
  rw [if_pos ⟨long, short⟩] at counted
  have nonempty : body ≠ [] := List.ne_nil_of_length_pos (framed.filled.trans_le long)
  have filled := takeAll_body (f := f) nonempty (bigEndianValue_bigEndian fits).symm
  exact takeAll_append (takeAll_append counted filled) (takeAll_crc a b)

end Sys2Proof.WireBytes

open Sys2Proof Sys2Proof.Machine Sys2Proof.WireBytes

/-- Settles O8: the noise passes by, and the frame's parts are taken one after the other. -/
theorem framesComeBackFromTheWire : Obligations.FramesComeBackFromTheWire := by
  unfold Obligations.FramesComeBackFromTheWire
  intro f noise body format quiet long short
  refine takeAll_append (takeAll_noise quiet) ?_
  rw [frameBytes, bigEndian_two, takeAll_frame (framed_of_format format) long short, if_pos (bigEndian_two _).symm]

/-- Settles O9: the end of the length drops the frame, or the end of the CRC does. -/
theorem damagedFramesAreDropped : Obligations.DamagedFramesAreDropped := by
  unfold Obligations.DamagedFramesAreDropped
  intro f format
  have framed := framed_of_format format
  refine ⟨fun n fits outside => ?_, fun body a b long short wrong => ?_⟩
  · rw [takeAll_startLength framed fits, if_neg (by omega)]
  · rw [takeAll_frame framed long short, if_neg wrong]
end

