-- ==== Sys2Proof/Proofs/StationLines.lean ====
section
/-! SUPPORT. Gaps and transmitters (R128, R136, R175, R176), inputs that join the slots (R129, R130, R135), and frames
relayed between a bridged station and the supervisor line (R129, R139). -/

namespace Sys2Proof.Desk

open Sys2Proof.Machine

variable {s y : State} {st : Station} {l : Line} {content body : List Byte} {i : Input} {ds : List Nat} {k : KeyCode}

/-! ### A station's port -/

@[simp] theorem setPort_setPort (s : State) (st : Station) (p p' : Port) :
    (s.setPort st p).setPort st p' = s.setPort st p' := by simp [State.setPort]

@[simp] theorem setPort_port (s : State) (st : Station) : s.setPort st (s.port st) = s := by
  simp [State.setPort, State.port]

theorem settle_setPort (p : Port) : settle s (s.setPort st p) = s.setPort st p := settle_still rfl rfl rfl rfl rfl

/-- A good station frame has been taken: the receiver looks again (R128). -/
def heard (st : Station) (s : State) : State := s.setPort st { s.port st with receiver := .looking }

@[simp] theorem port_heard (st : Station) (s : State) :
    (heard st s).port st = { s.port st with receiver := .looking } := port_setPort ..

theorem settle_heard : settle s (heard st s) = heard st s := settle_setPort _

theorem stationEvent_ignored {f : State → State} (running : s.running = true)
    (disabled : s.settings.enableMask[st] = false) : stationEvent st f s = .next (heard st s) :=
  (partEvent_running running).trans
    (congrArg _ ((congrArg (settle s) (if_neg (by simp [disabled]))).trans settle_heard))

/-! ### Gaps and transmitters -/

theorem stationFrameGap_taken (running : s.running = true) (next : Byte) :
    exec (.stationFrameGap st next) s =
      .next (s.setPort st { s.port st with receiver := receiverAfterGap stationFormat next }) :=
  (show execStationFrameGap st next s = _ from partEvent_running running).trans (congrArg _ (settle_setPort _))

theorem stationTransmit_taken (running : s.running = true) :
    exec (.stationTransmit st) s =
      .next (s.setPort st { s.port st with wire := (s.port st).down.head?, down := (s.port st).down.drop 1 }) :=
  (show execStationTransmit st s = _ from partEvent_running running).trans (congrArg _ (settle_setPort _))

/-- A line whose causes stay as they are ends its event as it stands. -/
theorem settle_setLine {c : LineCtl} (pending : c.pendingSet = (s.line l).pendingSet)
    (enabled : c.enableSet = (s.line l).enableSet) : settle s (s.setLine l c) = s.setLine l c := by
  cases l with
  | uplink => exact settle_quiet rfl rfl rfl pending enabled rfl rfl
  | supervisor => exact settle_quiet rfl rfl rfl rfl rfl pending enabled

theorem lineFrameGap_taken (running : s.running = true) (still : s.restarting = none) (next : Byte) :
    exec (.lineFrameGap l next) s =
      .next (s.setLine l { s.line l with receiver := receiverAfterGap lineFormat next }) :=
  (show execLineFrameGap l next s = _ from guardedEvent_taken running (by rw [still]; rfl)).trans
    (congrArg _ (settle_setLine rfl rfl))

theorem lineTransmit_taken (running : s.running = true) (still : s.restarting = none) :
    exec (.lineTransmit l) s =
      .next (s.setLine l
        { s.line l with wire := (s.line l).sendList.head?, sendList := (s.line l).sendList.drop 1 }) := by
  refine (show execLineTransmit l s = _ from partEvent_running running).trans (congrArg _ ?_)
  rw [if_neg (by simp [still])]
  exact settle_setLine rfl rfl

/-! ### Inputs -/

theorem scanContent_digits {symbology : Byte} {chars : List Byte} (read : symbology ≠ 0x00#8)
    (digits : ∀ b ∈ chars, isDigit b = true) (long : 4 ≤ chars.length) (short : chars.length ≤ 24) :
    scanContent (symbology :: chars) = some (.digits (chars.map fun b => b.toNat - 0x30)) := by
  rw [scanContent, if_neg read, if_pos ⟨List.all_eq_true.mpr digits, long, short⟩]

theorem scanContent_noRead (chars : List Byte) : scanContent (0x00#8 :: chars) = some .noRead := by
  rw [scanContent, if_pos rfl]

theorem keyContent_code (k : Fin 5) :
    keyContent [BitVec.ofNat 8 (k.val + 1)] =
      some ([KeyCode.endKey, .cancel, .returnKey, .checkout, .reprint].getD k.val .endKey) := by
  revert k
  decide

section

variable (running : s.running = true) (enabled : s.settings.enableMask[st] = true)
  (unbridged : (s.port st).bridged = false)

include running enabled unbridged

theorem scanFrame_read (h : scanContent content = some (.digits ds)) :
    exec (.scanFrame st content) s = .next (settle s (joinInput st (.scan ds) (heard st s))) := by
  refine (show execScanFrame st content s = _ from stationEvent_enabled running enabled).trans (congrArg _ ?_)
  rw [port_setPort, if_neg (by simp [unbridged])]
  simp only [h]
  rfl

theorem scanFrame_noRead (h : scanContent content = some .noRead) :
    exec (.scanFrame st content) s = .next (settle s (sound st .refuse (heard st s))) := by
  refine (show execScanFrame st content s = _ from stationEvent_enabled running enabled).trans (congrArg _ ?_)
  rw [port_setPort, if_neg (by simp [unbridged])]
  simp only [h]
  rfl

theorem keyFrame_read (h : keyContent content = some k) :
    exec (.keyFrame st content) s = .next (settle s (joinInput st (.key k) (heard st s))) := by
  refine (show execKeyFrame st content s = _ from stationEvent_enabled running enabled).trans (congrArg _ ?_)
  rw [port_setPort, if_neg (by simp [unbridged])]
  simp only [h]
  rfl

end

theorem attended_heard (attended : s.attended st) : (heard st s).attended st := by
  simpa only [State.attended, port_heard] using attended

/-- A signal at the end of a good frame's event (R136). -/
theorem settle_sound_heard (attended : s.attended st) (g : Signal) :
    settle s (sound st g (heard st s)) =
      s.setPort st { s.port st with receiver := .looking, down := joinSignal g (s.port st).down } := by
  rw [sound_attended (attended_heard attended), port_heard, heard, setPort_setPort, settle_setPort]

theorem joinInput_joins (present : (y.port st).present = true) (still : y.restarting = none)
    (room : (y.port st).slots.length < 2) :
    joinInput st i y = y.setPort st { y.port st with slots := (y.port st).slots ++ [i] } := by
  rw [joinInput, if_neg (by simp [present, still]), if_pos (show _ < slotCapacity from room)]

theorem joinInput_waits (present : (y.port st).present = true) (still : y.restarting = none)
    (full : 2 ≤ (y.port st).slots.length) : joinInput st i y = sound st .wait y := by
  rw [joinInput, if_neg (by simp [present, still]), if_neg (show ¬_ < slotCapacity from Nat.not_lt.mpr full)]

theorem joinInput_absent (absent : (y.port st).present = false) : joinInput st i y = y := by
  rw [joinInput, if_pos (by simp [absent])]

/-! ### Relays -/

/-- What waits for the supervisor line once a bridged station's frame has gone up to it while it is ACTIVE (R139). -/
def waitingUp (s : State) (st : Station) (body : List Byte) : List LineFrame :=
  if (s.port st).bridged = true ∧ s.supervisor.state = .active then
    joinUnsolicited (.pass st body) s.supervisor.sendList
  else s.supervisor.sendList

/-- A good station frame has been taken, and has gone up if its station is bridged. -/
def relayed (st : Station) (body : List Byte) (s : State) : State :=
  (heard st s).setLine .supervisor { s.supervisor with sendList := waitingUp s st body }

theorem relayed_idle (h : (s.port st).bridged = false ∨ s.supervisor.state ≠ .active) :
    relayed st body s = heard st s := by
  rw [relayed, waitingUp, if_neg (by simpa [Decidable.imp_iff_not_or] using h)]
  rfl

theorem relayed_up (bridged : (s.port st).bridged = true) (active : s.supervisor.state = .active) :
    relayed st body s =
      { heard st s with
        supervisor := { s.supervisor with sendList := joinUnsolicited (.pass st body) s.supervisor.sendList } } := by
  rw [relayed, waitingUp, if_pos ⟨bridged, active⟩]
  rfl

@[simp] theorem port_relayed (st : Station) (body : List Byte) (s : State) :
    (relayed st body s).port st = { s.port st with receiver := .looking } := port_heard st s

theorem frame_relayed (st : Station) (body : List Byte) (s : State) : DeskFrame st s (relayed st body s) :=
  (deskFrame_setPort _).trans (deskFrame_setLine .supervisor _)

theorem passUp_heard (bridged : (s.port st).bridged = true) : passUp st body (heard st s) = relayed st body s := by
  by_cases active : s.supervisor.state = .active
  · rw [relayed_up bridged active]
    exact if_pos active
  · rw [relayed_idle (.inr active)]
    exact if_neg active

theorem ite_bridged_passUp (s : State) (st : Station) (body : List Byte) :
    (if (s.port st).bridged = true then passUp st body (heard st s) else heard st s) = relayed st body s := by
  split
  · next bridged => exact passUp_heard bridged
  · next unbridged => exact (relayed_idle (.inl (Bool.eq_false_of_not_eq_true unbridged))).symm

theorem settle_relayed : settle s (relayed st body s) = relayed st body s := settle_quiet rfl rfl rfl rfl rfl rfl rfl

section

variable (running : s.running = true) (enabled : s.settings.enableMask[st] = true)

include running enabled

theorem scanFrame_bridged (bridged : (s.port st).bridged = true) :
    exec (.scanFrame st content) s = .next (relayed st (scanKind :: content) s) := by
  refine (show execScanFrame st content s = _ from stationEvent_enabled running enabled).trans (congrArg _ ?_)
  rw [port_setPort, if_pos bridged]
  exact (congrArg _ (passUp_heard bridged)).trans settle_relayed

theorem keyFrame_bridged (bridged : (s.port st).bridged = true) :
    exec (.keyFrame st content) s = .next (relayed st (keyKind :: content) s) := by
  refine (show execKeyFrame st content s = _ from stationEvent_enabled running enabled).trans (congrArg _ ?_)
  rw [port_setPort, if_pos bridged]
  exact (congrArg _ (passUp_heard bridged)).trans settle_relayed

theorem unknownKind_taken (kind : Byte) :
    exec (.unknownKindStationFrame st kind content) s = .next (relayed st (kind :: content) s) := by
  refine (show execUnknownKindStationFrame st kind content s = _ from
    stationEvent_enabled running enabled).trans (congrArg _ ?_)
  rw [port_setPort]
  exact (congrArg _ (ite_bridged_passUp s st _)).trans settle_relayed

end

theorem goodLineFrame_active (active : (s.line l).state = .active) :
    goodLineFrame l s = s.setLine l { s.line l with receiver := .looking, liveness := some 0 } := by
  rw [goodLineFrame, if_neg (by simp [active])]

theorem joinPass_eq (some : 1 ≤ body.length) (short : body.length ≤ 64) :
    joinPass st body s =
      s.setPort st
        { s.port st with
          down :=
            if (s.port st).bridged = true ∧ (s.port st).down.countP DownFrame.isPass < 4 then
              (s.port st).down ++ [.pass body]
            else (s.port st).down } := by
  by_cases h : (s.port st).bridged = true ∧ (s.port st).down.countP DownFrame.isPass < 4
  · rw [joinPass, if_pos ⟨h.1, h.2, some, short⟩, if_pos h]
  · rw [joinPass, if_neg fun all => h ⟨all.1, all.2.1⟩, if_neg h]
    exact (setPort_port s st).symm

theorem passDown_taken (hears : s.hears .supervisor) :
    exec (.passDown st.val body) s = .next (settle s (joinPass st body (goodLineFrame .supervisor s))) := by
  obtain ⟨running, still, active⟩ := hears
  refine (show execPassDown st.val body s = _ from lineEvent_taken running still).trans (congrArg _ ?_)
  rw [if_pos (by rw [goodLineFrame_active active]; exact active), dif_pos st.isLt]

theorem settle_goodLineFrame : settle s (goodLineFrame l s) = goodLineFrame l s := settle_setLine rfl rfl

end Sys2Proof.Desk

open Sys2Proof Sys2Proof.Machine Sys2Proof.Desk

/-- Settles O10: each gap and each transmission moves its own port or line and raises no cause. -/
theorem linesGapAndTransmit : Obligations.LinesGapAndTransmit := by
  unfold Obligations.LinesGapAndTransmit
  refine ⟨⟨fun s st next running => stationFrameGap_taken running next,
      fun s l next running still => lineFrameGap_taken running still next⟩,
    fun s st running => ?_, fun s l running still => ?_⟩
  · rw [stationTransmit_taken running, List.drop_one]
  · rw [lineTransmit_taken running still, List.drop_one]

/-- Settles O12: a scan of digits or a key is an input that the slots take, by their room; a no-read is refused. -/
theorem inputsJoinTheSlots : Obligations.InputsJoinTheSlots := by
  unfold Obligations.InputsJoinTheSlots
  intro s st c i running still enabled unbridged input
  have taken : exec c s = .next (settle s (joinInput st i (heard st s))) := by
    obtain ⟨symbology, chars, read, digits, long, short, rfl, rfl⟩ | ⟨k, rfl, rfl⟩ := input
    · exact scanFrame_read running enabled unbridged (scanContent_digits read digits long short)
    · exact keyFrame_read running enabled unbridged (keyContent_code k)
  refine ⟨fun present room => ?_, fun present full => ?_, fun absent => ?_, fun digits present => ?_⟩
  · rw [taken, joinInput_joins (y := heard st s) (by simpa using present) still (by simpa using room), port_heard,
      heard, setPort_setPort, settle_setPort]
  · rw [taken, joinInput_waits (y := heard st s) (by simpa using present) still (by simpa using full),
      settle_sound_heard ⟨present, unbridged⟩]
  · rw [taken, joinInput_absent (by simpa using absent), settle_heard]
    rfl
  · rw [scanFrame_noRead running enabled unbridged (scanContent_noRead digits),
      settle_sound_heard ⟨present, unbridged⟩]

/-- Settles O13: frames of a bridged station go up whole, PASS frames join its down list, and any other good frame only
counts for its line. -/
theorem bridgedFramesAreRelayed : Obligations.BridgedFramesAreRelayed := by
  unfold Obligations.BridgedFramesAreRelayed
  refine ⟨fun s st kind content running enabled active => ⟨fun bridged => ?up, fun unbridged => ?dropped⟩,
    fun s st body hears some short => ?down, fun s l kind running still other => ?good⟩
  case up =>
    exact ⟨(scanFrame_bridged running enabled bridged).trans (congrArg _ (relayed_up bridged active)),
      (keyFrame_bridged running enabled bridged).trans (congrArg _ (relayed_up bridged active)),
      (unknownKind_taken running enabled kind).trans (congrArg _ (relayed_up bridged active))⟩
  case dropped =>
    exact (unknownKind_taken running enabled kind).trans (congrArg _ (relayed_idle (.inl unbridged)))
  case down =>
    rw [passDown_taken hears, goodLineFrame_active hears.2.2, joinPass_eq some short, port_setLine]
    exact congrArg _ (settle_quiet rfl rfl rfl rfl rfl rfl rfl)
  case good =>
    exact (show execDroppedGoodLineFrame l kind s = _ from
      guardedEvent_taken running (by simp [still, other])).trans (congrArg _ settle_goodLineFrame)
end

