-- ==== Sys2Proof/Proofs/Heartbeats.lean ====
section
/-! SUPPORT. Heartbeats: the station they bring, the credit and paper state they report, and their relay (R119, R120,
R129, R132, R139). -/

namespace Sys2Proof.Desk

open Sys2Proof.Machine

variable {s u y : State} {st : Station} {content body : List Byte} {paper credit : Byte} {out : Bool} {n : Nat}
  {i : Fin 32}

/-! ### The form test -/

theorem heartbeatContent_known (known : paper = 0x00#8 ∨ paper = 0x01#8) :
    heartbeatContent [paper, credit] = some (decide (paper = 0x01#8), credit.toNat) := by
  obtain rfl | rfl := known <;> rfl

theorem heartbeatContent_unknown (unknown : ∀ credit, content ≠ [0x00#8, credit] ∧ content ≠ [0x01#8, credit]) :
    heartbeatContent content = none := by
  unfold heartbeatContent
  split
  · next paper credit =>
    obtain ⟨notIn, notOut⟩ := unknown credit
    rw [if_neg fun h => notIn (by rw [h]), if_neg fun h => notOut (by rw [h])]
  · rfl

/-! ### What is shown -/

theorem Repainted.standingText (h : Repainted s y) (st : Station) : y.standingText st = s.standingText st := by
  obtain ⟨d, port⟩ := h.port st
  simp only [State.standingText, h.stationState st, h.wiped st, port, h.day]

theorem attended_of_standingText (h : y.standingText st = some i) : y.attended st := by
  refine attended_iff.mp ?_
  unfold State.standingText at h
  unfold State.atDesk
  split at h
  · cases h
  · cases h
  · cases h
  · next idle => rw [idle]
  · next returns => rw [returns]

/-- A text on the display of a station, and sent to it as one SHOW (R124). -/
def TextShown (s : State) (st : Station) (i : Fin 32) (y : State) : Prop :=
  y.console st =
      { s.console st with line1 := fit20 (s.shownText i).line1, line2 := fit20 (s.shownText i).line2 } ∧
    (y.port st).down = joinDisplay (.display (y.console st).line1 (y.console st).line2) (s.port st).down

theorem textShown_showText (attended : s.attended st) (i : Fin 32) : TextShown s st i (showText st i s) := by
  unfold showText
  rw [showLines_attended attended]
  constructor <;> simp

/-- The display of a station, and the frames that wait for it, are as they were. -/
def DisplayKept (s : State) (st : Station) (y : State) : Prop :=
  y.console st = s.console st ∧ (y.port st).down = (s.port st).down

theorem showText_bridged (bridged : (s.port st).bridged = true) (i : Fin 32) :
    showText st i s =
      s.setConsole st
        { s.console st with line1 := fit20 (s.shownText i).line1, line2 := fit20 (s.shownText i).line2 } := by
  have state : s.stationState st = .bridged := by simp [State.stationState, bridged]
  simp only [showText, showLines, state]

/-- A text on the display of a station that is at the desk or bridged: stored, and sent only at the desk (R137). -/
def TextStored (s : State) (st : Station) (i : Fin 32) (y : State) : Prop :=
  y.console st =
      { s.console st with line1 := fit20 (s.shownText i).line1, line2 := fit20 (s.shownText i).line2 } ∧
    (y.port st).down =
      if (s.port st).bridged then (s.port st).down
      else joinDisplay (.display (y.console st).line1 (y.console st).line2) (s.port st).down

theorem textStored_showText (there : (s.port st).present = true ∨ (s.port st).bridged = true) (i : Fin 32) :
    TextStored s st i (showText st i s) := by
  unfold TextStored
  cases bridged : (s.port st).bridged with
  | true =>
    rw [showText_bridged bridged]
    exact ⟨console_setConsole .., rfl⟩
  | false =>
    have present : (s.port st).present = true := there.resolve_right (by simp [bridged])
    exact textShown_showText ⟨present, bridged⟩ i

theorem showStanding_some (h : y.standingText st = some i) : showStanding st y = showText st i y := by
  rw [showStanding, h]

theorem showStanding_none (h : y.standingText st = none) : showStanding st y = y := by rw [showStanding, h]

/-- R125: a station with a standing text shows it, any other keeps its display. -/
theorem shows_showStanding (st : Station) (y : State) :
    (∀ i, (showStanding st y).standingText st = some i → TextShown y st i (showStanding st y)) ∧
      ((showStanding st y).standingText st = none → DisplayKept y st (showStanding st y)) := by
  rw [(redrawn_showStanding st y).1.standingText]
  refine ⟨fun i text => ?_, fun text => ?_⟩
  · rw [showStanding_some text]
    exact textShown_showText (attended_of_standingText text) i
  · rw [showStanding_none text]
    exact ⟨rfl, rfl⟩

/-! ### The first heartbeat -/

/-- The station's watch, credit and paper state as a heartbeat leaves them. -/
def Port.refreshed (p : Port) (out : Bool) (n : Nat) : Port :=
  { p with watch := some 0, credit := min 8 n, paperOut := out }

/-- A heartbeat's report taken in, its effects on the display apart (R119). -/
def refreshed (st : Station) (out : Bool) (n : Nat) (u : State) : State :=
  u.setPort st (Port.refreshed (u.port st) out n)

@[simp] theorem port_refreshed (st : Station) (out : Bool) (n : Nat) (u : State) :
    (refreshed st out n u).port st = Port.refreshed (u.port st) out n := port_setPort ..

theorem down_refreshed (st : Station) (out : Bool) (n : Nat) (u : State) :
    ((refreshed st out n u).port st).down = (u.port st).down := by
  rw [port_refreshed]
  rfl

/-- An absent station has come (R132), its display apart. -/
def brought (st : Station) (out : Bool) (n : Nat) (s : State) : State :=
  s.setPort st { Port.refreshed (s.port st) out n with receiver := .looking, present := true }

theorem appear_heard (st : Station) (out : Bool) (n : Nat) (s : State) :
    appear st out n (heard st s) = showStanding st (brought st out n s) := by
  change showStanding st
    ((heard st s).setPort st { Port.refreshed ((heard st s).port st) out n with present := true }) = _
  rw [port_heard, heard, setPort_setPort]
  rfl

theorem settle_showStanding_brought :
    settle s (showStanding st (brought st out n s)) = showStanding st (brought st out n s) := by
  have drawn := (redrawn_showStanding st (brought st out n s)).1
  exact settle_still drawn.journal drawn.clock drawn.settings drawn.uplink drawn.supervisor

/-! ### A change of paper -/

theorem takePaper_runsOut (before : (u.port st).paperOut = false) (h : out = true) :
    takePaper st out n u =
      raiseBoth .printer
        (if (u.console st).wiped then refreshed st out n u else showText st 27 (refreshed st out n u)) := by
  subst h
  rw [takePaper, before]
  rfl

theorem takePaper_comesBack (before : (u.port st).paperOut = true) (h : out = false) :
    takePaper st out n u = showStanding st (refreshed st out n u) := by
  subst h
  rw [takePaper, before]
  rfl

theorem takePaper_stays (h : out = (u.port st).paperOut) : takePaper st out n u = refreshed st out n u := by
  unfold takePaper
  rw [← h]
  cases out <;> rfl

/-- Besides the display, a heartbeat's report raises PRINTER where paper runs out (R120). -/
theorem takePaper_redrawn (st : Station) (out : Bool) (n : Nat) (u : State) :
    ∃ x, Redrawn st (refreshed st out n u) x ∧
      takePaper st out n u = if out && !(u.port st).paperOut then raiseBoth .printer x else x := by
  cases before : (u.port st).paperOut with
  | false =>
    cases out with
    | false => exact ⟨_, Redrawn.refl st _, takePaper_stays before.symm⟩
    | true =>
      refine ⟨_, ?_, takePaper_runsOut before rfl⟩
      split
      · exact Redrawn.refl st _
      · exact redrawn_showText st 27 _
  | true =>
    cases out with
    | false => exact ⟨_, redrawn_showStanding st _, takePaper_comesBack before rfl⟩
    | true => exact ⟨_, Redrawn.refl st _, takePaper_stays before.symm⟩

/-- What a heartbeat's report leaves besides the display of its station. -/
structure ReportTaken (u : State) (st : Station) (out : Bool) (n : Nat) (y : State) : Prop where
  port : y.port st = { Port.refreshed (u.port st) out n with down := (y.port st).down }
  printer : ∀ l : Line, (y.line l).pendingSet.has .printer =
    ((u.line l).pendingSet.has .printer || (out && !(u.port st).paperOut))
  waiting : ∀ l : Line, (y.line l).sendList = (u.line l).sendList
  lines : linesKept u y
  quiet : (out && !(u.port st).paperOut) = false → y.uplink = u.uplink ∧ y.supervisor = u.supervisor
  frame : DeskFrame st u y
  session : y.session st = u.session st
  tables : y.journal = u.journal ∧ y.active = u.active ∧ y.cache = u.cache

theorem Redrawn.port_down (h : Redrawn st s y) : y.port st = { s.port st with down := (y.port st).down } := by
  obtain ⟨d, port⟩ := h.1.port st
  rw [port]

theorem reportTaken_takePaper (st : Station) (out : Bool) (n : Nat) (u : State) :
    ReportTaken u st out n (takePaper st out n u) := by
  obtain ⟨x, drawn, taken⟩ := takePaper_redrawn st out n u
  have frame : DeskFrame st u x := (deskFrame_setPort _).trans drawn.frame
  have port : x.port st = { Port.refreshed (u.port st) out n with down := (x.port st).down } :=
    drawn.port_down.trans (by rw [refreshed, port_setPort])
  have line : ∀ l, x.line l = u.line l := fun l => (drawn.1.line l).trans (line_setPort ..)
  have session : x.session st = u.session st := drawn.1.session st
  have tables : x.journal = u.journal ∧ x.active = u.active ∧ x.cache = u.cache :=
    ⟨drawn.1.journal, drawn.1.active, drawn.1.cache⟩
  cases runsOut : out && !(u.port st).paperOut with
  | false =>
    rw [taken, runsOut, if_neg Bool.false_ne_true]
    exact {
      port, frame, session, tables
      printer := fun l => by rw [line, runsOut, Bool.or_false]
      waiting := fun l => by rw [line]
      lines := linesKept_of_eq (line .uplink) (line .supervisor)
      quiet := fun _ => ⟨line .uplink, line .supervisor⟩ }
  | true =>
    rw [taken, runsOut, if_pos rfl]
    exact {
      port, session, tables
      printer := fun l => by rw [has_raiseBoth, runsOut, Bool.or_true]
      waiting := fun l => by
        rw [← line]
        cases l <;> rfl
      lines := linesKept_trans (linesKept_of_eq (line .uplink) (line .supervisor)) (linesKept_raiseBoth .printer)
      quiet := fun never => absurd (runsOut.symm.trans never) (by decide)
      frame := frame.trans (deskFrame_raiseBoth .printer) }

/-! ### The display after a heartbeat's report -/

theorem textStored_runsOut (there : (u.port st).present = true ∨ (u.port st).bridged = true)
    (before : (u.port st).paperOut = false) (h : out = true) (unwiped : (u.console st).wiped = false) :
    TextStored u st 27 (takePaper st out n u) := by
  have shown := textStored_showText (s := refreshed st out n u) (st := st) (by rw [port_refreshed]; exact there) 27
  rw [TextStored, port_refreshed] at shown
  rw [TextStored, takePaper_runsOut before h, if_neg (by simp [unwiped]), console_raiseBoth, port_raiseBoth]
  exact shown

theorem displayKept_runsOut (before : (u.port st).paperOut = false) (h : out = true)
    (wiped : (u.console st).wiped = true) : DisplayKept u st (takePaper st out n u) := by
  rw [takePaper_runsOut before h, if_pos wiped]
  exact ⟨rfl, down_refreshed st out n u⟩

theorem shows_comesBack (before : (u.port st).paperOut = true) (h : out = false) :
    (∀ i, (takePaper st out n u).standingText st = some i → TextShown u st i (takePaper st out n u)) ∧
      ((takePaper st out n u).standingText st = none → DisplayKept u st (takePaper st out n u)) := by
  rw [takePaper_comesBack before h]
  obtain ⟨shows, keeps⟩ := shows_showStanding st (refreshed st out n u)
  refine ⟨fun i text => ?_, fun text => ?_⟩
  · obtain ⟨console, down⟩ := shows i text
    exact ⟨console, down.trans (by rw [down_refreshed])⟩
  · obtain ⟨console, down⟩ := keeps text
    exact ⟨console, down.trans (down_refreshed st out n u)⟩

theorem displayKept_stays (h : out = (u.port st).paperOut) : DisplayKept u st (takePaper st out n u) := by
  rw [takePaper_stays h]
  exact ⟨rfl, down_refreshed st out n u⟩

/-! ### What is shown after a relay -/

theorem TextShown.of_relayed (h : TextShown (relayed st body s) st i y) :
    TextShown s st i y := by
  obtain ⟨console, down⟩ := h
  exact ⟨console, down.trans (by rw [port_relayed])⟩

theorem TextStored.of_relayed (h : TextStored (relayed st body s) st i y) : TextStored s st i y := by
  obtain ⟨console, down⟩ := h
  exact ⟨console, down.trans (by rw [port_relayed])⟩

theorem DisplayKept.of_relayed (h : DisplayKept (relayed st body s) st y) : DisplayKept s st y := by
  obtain ⟨console, down⟩ := h
  exact ⟨console, down.trans (by rw [port_relayed])⟩

/-! ### The event -/

section

variable (running : s.running = true) (enabled : s.settings.enableMask[st] = true)

include running enabled

theorem heartbeat_relayedOnly (bad : heartbeatContent content = none) :
    exec (.heartbeat st content) s = .next (relayed st (heartbeatKind :: content) s) := by
  refine (show execHeartbeat st content s = _ from stationEvent_enabled running enabled).trans (congrArg _ ?_)
  rw [port_setPort]
  simp only [bad]
  exact (congrArg _ (ite_bridged_passUp s st _)).trans settle_relayed

theorem heartbeat_reports (good : heartbeatContent content = some (out, n))
    (there : (s.port st).present = true ∨ (s.port st).bridged = true) :
    exec (.heartbeat st content) s =
      .next (settle s (takePaper st out n (relayed st (heartbeatKind :: content) s))) := by
  refine (show execHeartbeat st content s = _ from stationEvent_enabled running enabled).trans (congrArg _ ?_)
  have relay := ite_bridged_passUp s st (heartbeatKind :: content)
  rw [heard] at relay
  rw [port_setPort]
  simp only [good, relay]
  rw [if_pos (by simpa [relayed, or_comm] using there)]

theorem heartbeat_brings (good : heartbeatContent content = some (out, n)) (absent : (s.port st).present = false)
    (unbridged : (s.port st).bridged = false) :
    exec (.heartbeat st content) s = .next (showStanding st (brought st out n s)) := by
  refine (show execHeartbeat st content s = _ from stationEvent_enabled running enabled).trans (congrArg _ ?_)
  have relay := (ite_bridged_passUp s st (heartbeatKind :: content)).trans (relayed_idle (.inl unbridged))
  rw [heard] at relay
  rw [port_setPort]
  simp only [good, relay]
  rw [if_neg (by simp [absent, unbridged])]
  exact (congrArg _ (appear_heard st out n s)).trans settle_showStanding_brought

end

theorem heartbeat_ignored (running : s.running = true) (disabled : s.settings.enableMask[st] = false) :
    exec (.heartbeat st content) s = .next (heard st s) :=
  (show execHeartbeat st content s = _ from stationEvent_ignored running disabled)

theorem isPrefix_joinUnsolicited (f : LineFrame) (list : List LineFrame) : list <+: joinUnsolicited f list := by
  unfold joinUnsolicited
  split
  · exact List.prefix_append _ _
  · exact List.prefix_rfl

/-- Frames that wait before the end of an event stay in front of those made there (R176, R189). -/
theorem isPrefix_settle (x y : State) (l : Line) : (y.line l).sendList <+: ((settle x y).line l).sendList := by
  have joins : ∀ fs list : List LineFrame, list <+: fs.foldl (fun list f => joinUnsolicited f list) list := by
    intro fs
    induction fs with
    | nil => exact fun list => List.prefix_rfl
    | cons f fs ih => exact fun list => (isPrefix_joinUnsolicited f list).trans (ih _)
  cases l with
  | uplink => exact joins _ _
  | supervisor => exact joins _ _

end Sys2Proof.Desk

open Sys2Proof Sys2Proof.Machine Sys2Proof.Desk

/-- Settles O11: the heartbeat's report is taken in, and the display follows the station's coming and its paper. -/
theorem heartbeatsBringAndRefreshTheStation : Obligations.HeartbeatsBringAndRefreshTheStation := by
  unfold Obligations.HeartbeatsBringAndRefreshTheStation
  refine ⟨fun s st paper credit running enabled absent unbridged known => ?brings,
    fun s st paper credit running enabled there known => ?refreshes,
    fun s st content running => ⟨fun disabled => heartbeat_ignored running disabled, fun enabled unknown => ?fails⟩⟩
  case brings =>
    refine ⟨_, heartbeat_brings running enabled (heartbeatContent_known known) absent unbridged, ?_⟩
    obtain ⟨shows, -⟩ := shows_showStanding st (brought st (decide (paper = 0x01#8)) credit.toNat s)
    have drawn := redrawn_showStanding st (brought st (decide (paper = 0x01#8)) credit.toNat s)
    generalize showStanding st (brought st (decide (paper = 0x01#8)) credit.toNat s) = t at shows drawn
    have frame : DeskFrame st s t := (deskFrame_setPort _).trans drawn.frame
    refine ⟨drawn.port_down.trans (by rw [brought, port_setPort]; rfl), fun i text => ?_, drawn.1.session st, frame.1,
      frame.2, drawn.1.journal, drawn.1.active, drawn.1.cache, drawn.1.uplink, drawn.1.supervisor⟩
    obtain ⟨console, down⟩ := shows i text
    exact ⟨congrArg Console.line1 console, congrArg Console.line2 console,
      down.trans (by rw [brought, port_setPort]; rfl)⟩
  case refreshes =>
    intro waiting runsOut
    refine ⟨_, heartbeat_reports running enabled (heartbeatContent_known known) there, ?_⟩
    have report := reportTaken_takePaper st (decide (paper = 0x01#8)) credit.toNat
      (relayed st [heartbeatKind, paper, credit] s)
    have port := port_relayed st [heartbeatKind, paper, credit] s
    have line : ∀ l, ((relayed st [heartbeatKind, paper, credit] s).line l).pendingSet = (s.line l).pendingSet :=
      fun l => by cases l <;> rfl
    have frame := (frame_relayed st [heartbeatKind, paper, credit] s).trans report.frame
    obtain ⟨journal, active, cache⟩ := report.tables
    refine ⟨report.port.trans (by rw [port]; rfl), fun l => ?printer, fun ⟨isOut, before⟩ unwiped => ?runsOut,
      fun ⟨isOut, before⟩ wiped => ?wiped, fun isIn before => ?comesBack, fun same => ?stays, fun stays => ?quiet,
      ?waiting, ?lines, report.session, frame.1, frame.2, journal, active, cache⟩
    case printer => rw [has_settle_eq (by decide), report.printer, line, port]
    case runsOut =>
      exact (textStored_runsOut (n := credit.toNat) (u := relayed st [heartbeatKind, paper, credit] s)
        (by rw [port]; exact there) (by rw [port]; exact before) (decide_eq_true isOut) unwiped).of_relayed
    case wiped =>
      exact (displayKept_runsOut (n := credit.toNat) (u := relayed st [heartbeatKind, paper, credit] s)
        (by rw [port]; exact before) (decide_eq_true isOut) wiped).of_relayed
    case comesBack =>
      obtain ⟨shows, keeps⟩ := shows_comesBack (n := credit.toNat) (out := decide (paper = 0x01#8))
        (u := relayed st [heartbeatKind, paper, credit] s) (st := st) (by rw [port]; exact before)
        (decide_eq_false (by rw [isIn]; decide))
      exact ⟨fun i text => (shows i text).of_relayed, fun text => (keeps text).of_relayed⟩
    case stays =>
      exact (displayKept_stays (n := credit.toNat) (u := relayed st [heartbeatKind, paper, credit] s)
        (by rw [port]; exact same)).of_relayed
    case quiet =>
      have stays : ¬(paper = 0x01#8 ∧ (s.port st).paperOut = false) := stays
      obtain ⟨uplink, supervisor⟩ := report.quiet (by rw [port]; simpa using stays)
      rw [settle_quiet (by simp only [State.clockHeld, frame.clock]) (by simp only [State.journalFull, journal]; rfl)
        (by simp only [State.journalHigh, journal, frame.settings]; rfl) (by rw [uplink]; rfl) (by rw [uplink]; rfl)
        (by rw [supervisor]; rfl) (by rw [supervisor]; rfl)]
      exact ⟨uplink, supervisor⟩
    case waiting =>
      have kept := isPrefix_settle s (takePaper st (decide (paper = 0x01#8)) credit.toNat
        (relayed st [heartbeatKind, paper, credit] s)) .supervisor
      rw [report.waiting] at kept
      exact kept
    case lines => exact linesKept_settle (linesKept_trans ⟨rfl, rfl⟩ report.lines)
  case fails =>
    have taken := heartbeat_relayedOnly running enabled (heartbeatContent_unknown unknown)
    exact ⟨fun bridged active => taken.trans (congrArg _ (relayed_up bridged active)),
      fun idle => taken.trans (congrArg _ (relayed_idle idle))⟩
end

