-- ==== Sys2Proof/Proofs/Bridges.lean ====
section
/-! SUPPORT. A request that leaves its line's causes alone, and the begin and the end of a bridge (R1, R138, R140,
R183). -/

namespace Sys2Proof.Desk

open Sys2Proof.Machine

variable {s u y : State} {st o : Station} {l : Line} {q : Req} {name : ReqName} {r : Reply}

/-! ### A request's line -/

/-- The line of a request that meets its rule (R177, R183). -/
def LineCtl.afterTests (c : LineCtl) (name : ReqName) : LineCtl :=
  { c with
    receiver := .looking, liveness := some 0, lastError := if name.isBasic then c.lastError else none }

/-- A request other than a write, on a line that admits it, meets its rule (R180). -/
theorem request_admitted {α : Type} {p : α} {rule : α → State → State × Reply} (admitted : s.admits q.line) :
    request q name false (.shaped p) rule s =
      .next (answered q name (rule p (received q name s)).2 s (rule p (received q name s)).1) := by
  obtain ⟨⟨running, still, active⟩, unlocked⟩ := admitted
  exact request_taken running still (gate_open active (.inr unlocked) (by simp))

theorem received_active (active : (s.line q.line).state = .active) :
    received q name s = s.setLine q.line (LineCtl.afterTests (s.line q.line) name) := by
  unfold received LineCtl.afterTests
  cases name.isBasic <;> simp [goodLineFrame_active active, clearLastError]

theorem sendReply_afterTests (there : y.line q.line = LineCtl.afterTests (s.line q.line) name) :
    sendReply q name r y = y.setLine q.line ((s.line q.line).afterReply q name r) := by
  rw [sendReply, there]
  rfl

/-- A request whose work touches the desk's stations alone. -/
theorem answered_repainted (active : (s.line q.line).state = .active)
    (rest : ∃ p c e, y = { received q name s with ports := p, consoles := c, sessions := e }) :
    answered q name r s y = y.setLine q.line ((s.line q.line).afterReply q name r) := by
  obtain ⟨p, c, e, rfl⟩ := rest
  rw [answered, sendReply_afterTests (s := s)]
  · rw [received_active active]
    cases q.line <;> exact settle_quiet rfl rfl rfl rfl rfl rfl rfl
  · rw [received_active active]
    cases q.line <;> rfl

theorem answered_nothing (active : (s.line q.line).state = .active) :
    answered q name r s (received q name s) = s.setLine q.line ((s.line q.line).afterReply q name r) := by
  rw [answered_repainted active ⟨_, _, _, rfl⟩, received_active active, setLine_setLine]

/-! ### What a request's end leaves of the desk -/

@[simp] theorem port_answered : (answered q name r s y).port o = y.port o := port_setLine ..
@[simp] theorem console_answered : (answered q name r s y).console o = y.console o := console_setLine ..
@[simp] theorem session_answered : (answered q name r s y).session o = y.session o := session_setLine ..

theorem journal_answered : (answered q name r s y).journal = y.journal := setLine_journal ..
theorem active_answered : (answered q name r s y).active = y.active := setLine_active ..
theorem cache_answered : (answered q name r s y).cache = y.cache := setLine_cache ..

theorem stationState_setLine (c : LineCtl) : (s.setLine l c).stationState o = s.stationState o := by cases l <;> rfl

theorem stationState_answered : (answered q name r s y).stationState o = y.stationState o := stationState_setLine _

theorem pendingSet_sendReply (q : Req) (name : ReqName) (r : Reply) (y : State) (l : Line) :
    ((sendReply q name r y).line l).pendingSet = (y.line l).pendingSet := by
  obtain ⟨replying, tag⟩ := q
  cases replying <;> cases l <;> rfl

/-- An edge cause that is pending when a request's work is done is pending when it has been answered (R187). -/
theorem has_answered {c : Cause} (edge : c ≠ .clockHeld ∧ c ≠ .journalFull ∧ c ≠ .journalHigh)
    (h : (y.line l).pendingSet.has c = true) : ((answered q name r s y).line l).pendingSet.has c = true :=
  has_settle edge (by rw [pendingSet_sendReply]; exact h)

/-- Until a request meets its rule its line alone has changed. -/
theorem received_eq (q : Req) (name : ReqName) (s : State) : ∃ c, received q name s = s.setLine q.line c := by
  unfold received
  split
  · exact ⟨_, rfl⟩
  · exact ⟨_, setLine_setLine ..⟩

@[simp] theorem port_received : (received q name s).port o = s.port o := by
  obtain ⟨c, h⟩ := received_eq q name s
  rw [h, port_setLine]

@[simp] theorem console_received : (received q name s).console o = s.console o := by
  obtain ⟨c, h⟩ := received_eq q name s
  rw [h, console_setLine]

@[simp] theorem session_received : (received q name s).session o = s.session o := by
  obtain ⟨c, h⟩ := received_eq q name s
  rw [h, session_setLine]

theorem stationState_received : (received q name s).stationState o = s.stationState o := by
  obtain ⟨c, h⟩ := received_eq q name s
  rw [h, stationState_setLine]

theorem settings_received : (received q name s).settings = s.settings := by
  obtain ⟨c, h⟩ := received_eq q name s
  rw [h, setLine_settings]

/-- A request's work that leaves journal, ACTIVE bank and cache as it found them leaves them so at its end. -/
theorem tables_of_answered (kept : y.journal = (received q name s).journal ∧ y.active = (received q name s).active ∧
    y.cache = (received q name s).cache) :
    (answered q name r s y).journal = s.journal ∧ (answered q name r s y).active = s.active ∧
      (answered q name r s y).cache = s.cache := by
  obtain ⟨c, h⟩ := received_eq q name s
  rw [h, setLine_journal, setLine_active, setLine_cache] at kept
  rw [journal_answered, active_answered, cache_answered]
  exact kept

theorem deskFrame_received : DeskFrame st s (received q name s) := by
  obtain ⟨c, h⟩ := received_eq q name s
  rw [h]
  exact deskFrame_setLine _ _

theorem deskFrame_answered (h : DeskFrame st (received q name s) y) : DeskFrame st s (answered q name r s y) :=
  ((deskFrame_received.trans h).trans (deskFrame_setLine _ _)).settle

/-! ### The begin of a bridge -/

/-- The port of a bridged station (R138). -/
def Port.bridgeBegun (p : Port) : Port :=
  { p with
    bridged := true, present := false, slots := []
    down := p.down.filter fun f => !(f.isDisplay || f.isSignal) }

theorem frame_beginBridge (st : Station) (u : State) : DeskFrame st u (beginBridge st u) :=
  (deskFrame_setSession _).trans (deskFrame_setPort _)

theorem session_beginBridge (st : Station) (u : State) :
    (beginBridge st u).session st = (u.session st).leaveDesk := session_setSession ..

theorem port_beginBridge (st : Station) (u : State) :
    (beginBridge st u).port st = Port.bridgeBegun (u.port st) := port_setPort ..

theorem stationState_bridged (bridged : (y.port st).bridged = true) : y.stationState st = .bridged := by
  simp [State.stationState, bridged]

section

variable (admitted : s.admits .supervisor) (here : q.line = .supervisor)

include admitted here

theorem bridge_taken (away : s.stationState st = .idle ∨ s.stationState st = .absent) :
    exec (.bridge q (.shaped st.val)) s =
      .next (answered q .bridge Reply.ok s (beginBridge st (received q .bridge s))) := by
  refine (show execBridge q (.shaped st.val) s = _ from request_admitted (here ▸ admitted)).trans (congrArg _ ?_)
  rw [← stationState_received (q := q) (name := .bridge)] at away
  obtain away | away := away <;> simp [here, away]

theorem bridge_refused
    (busy : s.stationState st = .checkout ∨ s.stationState st = .returns ∨ s.stationState st = .bridged) :
    exec (.bridge q (.shaped st.val)) s =
      .next (answered q .bridge (Reply.bare .busyStation) s (received q .bridge s)) := by
  refine (show execBridge q (.shaped st.val) s = _ from request_admitted (here ▸ admitted)).trans (congrArg _ ?_)
  rw [← stationState_received (q := q) (name := .bridge)] at busy
  obtain busy | busy | busy := busy <;> simp [here, busy]

theorem unbridge_taken (bridged : (s.port st).bridged = true) :
    exec (.unbridge q (.shaped st.val)) s =
      .next (answered q .unbridge Reply.ok s (endBridge st (received q .unbridge s))) := by
  refine (show execUnbridge q (.shaped st.val) s = _ from request_admitted (here ▸ admitted)).trans (congrArg _ ?_)
  simp [here, bridged]

end

/-! ### The end of a bridge -/

/-- The port of a station that has come back from a bridge (R140). -/
def Port.bridgeEnded (p : Port) : Port :=
  { p with bridged := false, present := true, down := p.down.filter fun f => !f.isPass }

theorem endBridge_returns (back : (u.settings.enableMask[st] && (u.port st).watch.isSome) = true) :
    endBridge st u = showStanding st (u.setPort st (Port.bridgeEnded (u.port st))) := if_pos back

theorem endBridge_lost (gone : (u.settings.enableMask[st] && (u.port st).watch.isSome) = false) :
    endBridge st u = goAbsent st u :=
  if_neg (Bool.not_eq_true _ ▸ gone)

theorem mem_joinDisplay_cases {f g : DownFrame} {down : List DownFrame} (h : f ∈ joinDisplay g down) :
    f = g ∨ f ∈ down := by
  unfold joinDisplay at h
  split at h
  · obtain ⟨e, mem, rfl⟩ := List.mem_map.mp h
    split
    · exact .inl rfl
    · exact .inr mem
  · obtain mem | mem := List.mem_append.mp h
    · exact .inr mem
    · exact .inl (List.mem_singleton.mp mem)

/-- A standing text brings no PASS frame. -/
theorem noPass_showStanding (none : ∀ f ∈ (y.port st).down, f.isPass = false) :
    ∀ f ∈ ((showStanding st y).port st).down, f.isPass = false := by
  obtain ⟨shows, keeps⟩ := shows_showStanding st y
  intro f mem
  cases text : (showStanding st y).standingText st with
  | none =>
    obtain ⟨-, down⟩ := keeps text
    exact none f (down ▸ mem)
  | some i =>
    obtain ⟨-, down⟩ := shows i text
    rw [down] at mem
    obtain rfl | mem := mem_joinDisplay_cases mem
    · rfl
    · exact none f mem

/-- What the end of a bridge leaves, be the station back or lost (R140). -/
structure BridgeEnded (u : State) (st : Station) (y : State) : Prop where
  bridged : (y.port st).bridged = false
  noPass : ∀ f ∈ (y.port st).down, f.isPass = false
  frame : DeskFrame st u y
  tables : y.journal = u.journal ∧ y.active = u.active ∧ y.cache = u.cache

theorem bridgeEnded_endBridge (st : Station) (u : State) : BridgeEnded u st (endBridge st u) := by
  cases back : u.settings.enableMask[st] && (u.port st).watch.isSome with
  | true =>
    rw [endBridge_returns back]
    have drawn := redrawn_showStanding st (u.setPort st (Port.bridgeEnded (u.port st)))
    exact {
      bridged := by rw [drawn.port_down, port_setPort]; rfl
      noPass := noPass_showStanding fun f mem => by
        rw [port_setPort] at mem
        simpa using (List.mem_filter.mp mem).2
      frame := (deskFrame_setPort _).trans drawn.frame
      tables := ⟨drawn.1.journal, drawn.1.active, drawn.1.cache⟩ }
  | false =>
    rw [endBridge_lost back]
    obtain ⟨port, -, -, frame, tables, -⟩ := wentAbsent_goAbsent u st
    refine ⟨by rw [port]; rfl, fun f mem => ?_, frame, tables⟩
    rw [port] at mem
    exact absurd mem List.not_mem_nil

end Sys2Proof.Desk

open Sys2Proof Sys2Proof.Machine Sys2Proof.Desk

/-- Settles O16: a bridge begins at a station without work and ends with the station back at the desk, or lost. -/
theorem bridgeAndUnbridge : Obligations.BridgeAndUnbridge := by
  unfold Obligations.BridgeAndUnbridge
  refine ⟨fun s q st admitted here => ⟨fun away => ?begins, fun busy => ?refused⟩,
    fun s q st admitted here bridged free normal => ?ends⟩
  case begins =>
    have active : (s.line q.line).state = .active := here ▸ admitted.1.2.2
    have frame := deskFrame_answered (r := Reply.ok) (frame_beginBridge st (received q .bridge s))
    obtain ⟨journal, bank, cache⟩ := tables_of_answered (q := q) (name := .bridge) (r := Reply.ok)
      (y := beginBridge st (received q .bridge s)) ⟨rfl, rfl, rfl⟩
    have port : (beginBridge st (received q .bridge s)).port st = Port.bridgeBegun (s.port st) := by
      rw [port_beginBridge, port_received]
    have session : (beginBridge st (received q .bridge s)).session st = (s.session st).leaveDesk := by
      rw [session_beginBridge, session_received]
    have line := answered_repainted (y := beginBridge st (received q .bridge s)) (name := .bridge) (r := Reply.ok)
      active ⟨_, _, _, rfl⟩
    refine ⟨_, bridge_taken admitted here away, ?_, port_answered.trans port, ?_, ?_, ?_, frame.1, frame.2, journal,
      bank, cache, ?_, ?_⟩
    · rw [stationState_answered, stationState_bridged (by rw [port]; rfl)]
    · rw [console_answered]
      exact console_received
    · rw [session_answered, session, leaveDesk_armedUntil]
    · rw [session_answered, session]
      rfl
    · rw [line, received_active active, here]
      rfl
    · rw [line, here]
      rfl
  case refused =>
    have active : (s.line q.line).state = .active := here ▸ admitted.1.2.2
    rw [bridge_refused admitted here busy, answered_nothing active, here]
    rfl
  case ends =>
    have active : (s.line q.line).state = .active := here ▸ admitted.1.2.2
    have ended := bridgeEnded_endBridge st (received q .unbridge s)
    have frame := deskFrame_answered (r := Reply.ok) ended.frame
    refine ⟨_, unbridge_taken admitted here bridged, (congrArg Port.bridged port_answered).trans ended.bridged,
      ?noPass, fun back => ?back, fun gone => ?lost, frame.1, frame.2, tables_of_answered ended.tables⟩
    case noPass =>
      rw [port_answered]
      exact ended.noPass
    case back =>
      rw [endBridge_returns (by rw [settings_received, port_received]; exact back), port_received]
      have drawn := redrawn_showStanding st ((received q .unbridge s).setPort st (Port.bridgeEnded (s.port st)))
      obtain ⟨queue, headSent, -⟩ := drawn.1.slips st
      obtain ⟨p, c, rest⟩ := drawn.1.rest
      have line := answered_repainted (name := .unbridge) (r := Reply.ok) active ⟨p, c, _, rest⟩
      refine ⟨?_, ?_, ?_, ?_⟩
      · rw [stationState_answered, drawn.1.stationState]
        refine stationState_idle ?_ ?_ ?_
        · rw [State.attended, port_setPort]
          exact ⟨rfl, rfl⟩
        · rw [session_setPort, session_received, free]
        · rw [session_setPort, session_received, normal]
      · rw [console_answered, queue, console_setPort, console_received]
      · rw [console_answered, headSent, console_setPort, console_received]
      · rw [line, rest, received_active active, here]
        rfl
    case lost =>
      rw [endBridge_lost (by rw [settings_received, port_received]; exact gone)]
      obtain ⟨port, console, -, -, -, lost⟩ := wentAbsent_goAbsent (received q .unbridge s) st
      rw [stationState_answered, port_answered, console_answered, stationState_absent (by rw [port]; rfl)
        (by rw [port]; rfl), port, console]
      exact ⟨rfl, rfl, rfl, rfl, rfl, rfl, fun l => has_answered (by decide) (lost l)⟩
end

