-- ==== Sys2Proof/Proofs/JournalRing.lean ====
section
/-! SUPPORT. What the journal's invariant is read from (R141, R142, R146), and the changes of it that an operation can make:
records that come, claims that go, records that are released, a mark that moves. -/

namespace Sys2Proof.Ledgers

open Sys2Proof.Machine

/-! ### The ring -/

/-- The part of the invariant that speaks of the journal alone: its pointers, its records, its room. -/
def RingSound (j : Journal) : Prop :=
  1 ≤ j.oldest ∧ j.oldest ≤ j.sendMark ∧ j.sendMark ≤ j.nextSeq ∧ j.records.length = j.unreleased ∧
    sequencesFrom j.oldest j.records ∧ j.unreleased + j.claims ≤ ringSlots

theorem sequencesFrom_concat {r : Record} (l : List Record) : ∀ {n : Nat}, sequencesFrom n l → r.seq = n + l.length →
    sequencesFrom n (l ++ [r]) := by
  induction l with
  | nil => exact fun _ hr => ⟨hr, trivial⟩
  | cons x xs ih =>
    rintro n ⟨first, rest⟩ hr
    refine ⟨first, ih rest (hr.trans ?_)⟩
    rw [List.length_cons]
    omega

theorem sequencesFrom_drop (k : Nat) : ∀ {n : Nat} {l : List Record}, sequencesFrom n l →
    sequencesFrom (n + k) (l.drop k) := by
  induction k with
  | zero => exact fun h => h
  | succ k ih =>
    intro n l h
    cases l with
    | nil => trivial
    | cons x xs =>
      have rest := ih h.2
      rwa [Nat.add_assoc, Nat.add_comm 1 k] at rest

section
variable {j : Journal}

/-- R145: a record with the next sequence joins where there is room for it beside the claims. -/
theorem RingSound.append {r : Record} (h : RingSound j) (room : j.unreleased + j.claims < ringSlots)
    (hr : r.seq = j.nextSeq) :
    RingSound { j with records := j.records ++ [r], nextSeq := j.nextSeq + 1, overflow := false } := by
  obtain ⟨first, sent, unsent, length, sequences, -⟩ := h
  have end_eq : j.nextSeq = j.oldest + j.records.length := by
    rw [length, Journal.unreleased]
    omega
  have one_more : j.nextSeq + 1 - j.oldest = j.unreleased + 1 := by
    rw [Journal.unreleased]
    omega
  refine ⟨first, sent, Nat.le_succ_of_le unsent, ?_, sequencesFrom_concat _ sequences (hr.trans end_eq), ?_⟩
  · rw [List.length_append, length]
    exact one_more.symm
  · show j.nextSeq + 1 - j.oldest + j.claims ≤ ringSlots
    omega

theorem RingSound.giveBack (h : RingSound j) (n : Nat) : RingSound { j with claims := j.claims - n } := by
  obtain ⟨first, sent, unsent, length, sequences, room⟩ := h
  exact ⟨first, sent, unsent, length, sequences, le_trans (Nat.add_le_add_left (Nat.sub_le _ _) _) room⟩

theorem RingSound.claim (h : RingSound j) (room : j.unreleased + j.claims < ringSlots) :
    RingSound { j with claims := j.claims + 1 } := by
  obtain ⟨first, sent, unsent, length, sequences, -⟩ := h
  exact ⟨first, sent, unsent, length, sequences, room⟩

theorem RingSound.mark {m : Nat} (h : RingSound j) (least : j.oldest ≤ m) (most : m ≤ j.nextSeq) :
    RingSound { j with sendMark := m } := by
  obtain ⟨first, -, -, length, sequences, room⟩ := h
  exact ⟨first, least, most, length, sequences, room⟩

/-- R153: the records up to a limit that has been sent go. -/
theorem RingSound.release {limit : Nat} (h : RingSound j) (least : j.oldest ≤ limit) (sent : limit < j.sendMark) :
    RingSound { j with records := j.records.drop (limit + 1 - j.oldest), oldest := limit + 1 } := by
  obtain ⟨-, -, unsent, length, sequences, room⟩ := h
  have kept := sequencesFrom_drop (limit + 1 - j.oldest) sequences
  rw [show j.oldest + (limit + 1 - j.oldest) = limit + 1 by omega] at kept
  rw [Journal.unreleased] at length room
  refine ⟨Nat.le_add_left 1 limit, sent, unsent, ?_, kept, ?_⟩
  · rw [List.length_drop, length]
    show j.nextSeq - j.oldest - (limit + 1 - j.oldest) = j.nextSeq - (limit + 1)
    omega
  · show j.nextSeq - (limit + 1) + j.claims ≤ ringSlots
    omega

theorem room_of_free (h : 1 ≤ j.free) : j.unreleased + j.claims < ringSlots := by
  rw [Journal.free] at h
  omega

end

/-! ### The ledger -/

/-- What a session holds: its borrower and its list. -/
def holding (r : Session) : Option Number × List ListEntry := (r.borrower, r.items)

/-- What the journal's invariant is read from. -/
structure Ledger where
  journal : Journal
  upload : Option Upload
  lists : Station → Option Number × List ListEntry

def ledger (s : State) : Ledger :=
  { journal := s.journal, upload := s.upload, lists := fun st => holding (s.session st) }

/-- A list that keeps within its length, and is empty where nobody borrows. -/
def ListSound (p : Option Number × List ListEntry) : Prop := p.2.length ≤ listCapacity ∧ (p.1 = none → p.2 = [])

theorem listEntries_eq (s : State) : s.listEntries = ∑ st : Station, ((ledger s).lists st).2.length :=
  (Fin.sum_univ_def fun st : Station => (s.session st).items.length).symm

structure Ledger.Sound (v : Ledger) : Prop where
  ring : RingSound v.journal
  claims : v.journal.claims = ∑ st : Station, (v.lists st).2.length
  lists : ∀ st, ListSound (v.lists st)
  upload : ∀ u, v.upload = some u → u.endPoint ≤ v.journal.nextSeq

theorem journalSound_iff (s : State) : JournalSound s ↔ (ledger s).Sound := by
  constructor
  · rintro ⟨first, sent, unsent, length, sequences, claims, room, short, nobody, upload⟩
    exact ⟨⟨first, sent, unsent, length, sequences, room⟩, claims.trans (listEntries_eq s),
      fun st => ⟨short st, nobody st⟩, upload⟩
  · rintro ⟨⟨first, sent, unsent, length, sequences, room⟩, claims, lists, upload⟩
    exact ⟨first, sent, unsent, length, sequences, claims.trans (listEntries_eq s).symm, room,
      fun st => (lists st).1, fun st => (lists st).2, upload⟩

/-! ### What a change keeps -/

/-- A change of the state that keeps the journal sound. -/
def JournalKept (s t : State) : Prop := JournalSound s → JournalSound t

variable {s t u x y : State} {st : Station}

theorem JournalKept.refl (s : State) : JournalKept s s := id

theorem JournalKept.trans (h : JournalKept s t) (h' : JournalKept t u) : JournalKept s u := h' ∘ h

theorem kept_of_ledger (h : ledger t = ledger s) : JournalKept s t := fun sound =>
  (journalSound_iff t).mpr (h ▸ (journalSound_iff s).mp sound)

theorem JournalKept.quiet (h : JournalKept s t) (hv : ledger u = ledger t) : JournalKept s u :=
  h.trans (kept_of_ledger hv)

theorem JournalKept.after (h : JournalKept t u) (hv : ledger t = ledger s) : JournalKept s u :=
  (kept_of_ledger hv).trans h

/-- A run of operations that each keep the journal sound. -/
theorem kept_foldl {α : Type} {f : State → α → State} (h : ∀ s a, JournalKept s (f s a)) (l : List α) :
    ∀ s, JournalKept s (l.foldl f s) := by
  induction l with
  | nil => exact JournalKept.refl
  | cons a l ih => exact fun s => (h s a).trans (ih _)

/-- A change that spends a number of claims, by records or by giving them back, and leaves the lists as they were; an
upload may end by it. -/
structure Spends (n : Nat) (s t : State) : Prop where
  ring : RingSound s.journal → n ≤ s.journal.claims → RingSound t.journal
  claims : t.journal.claims = s.journal.claims - n
  nextSeq : s.journal.nextSeq ≤ t.journal.nextSeq
  lists : (ledger t).lists = (ledger s).lists
  upload : ∀ u, t.upload = some u → s.upload = some u

theorem spends_of_ledger (h : ledger t = ledger s) : Spends 0 s t := by
  have journal : t.journal = s.journal := congrArg Ledger.journal h
  have upload : t.upload = s.upload := congrArg Ledger.upload h
  exact ⟨fun ring _ => journal ▸ ring, congrArg Journal.claims journal, journal ▸ le_rfl,
    congrArg Ledger.lists h, fun u hu => upload ▸ hu⟩

theorem Spends.trans {n m : Nat} (h : Spends n s t) (h' : Spends m t u) : Spends (n + m) s u where
  ring ring enough := h'.ring (h.ring ring (by omega)) (by rw [h.claims]; omega)
  claims := by rw [h'.claims, h.claims]; omega
  nextSeq := h.nextSeq.trans h'.nextSeq
  lists := h'.lists.trans h.lists
  upload u hu := h.upload u (h'.upload u hu)

theorem Spends.quiet {n : Nat} (h : Spends n s t) (hv : ledger u = ledger t) : Spends n s u :=
  h.trans (spends_of_ledger hv)

/-- Where no claim is spent and no list changed the journal stays sound. -/
theorem kept_of_spends (h : Spends 0 s t) : JournalKept s t := by
  intro sound
  obtain ⟨ring, claims, lists, upload⟩ := (journalSound_iff s).mp sound
  rw [journalSound_iff]
  exact ⟨h.ring ring (Nat.zero_le _), (h.claims.trans claims).trans (by rw [h.lists]), h.lists ▸ lists,
    fun u hu => (upload u (h.upload u hu)).trans h.nextSeq⟩

/-! ### A change of one list -/

theorem lists_setSession (x : State) (st : Station) (r : Session) :
    (ledger (x.setSession st r)).lists = Function.update (ledger x).lists st (holding r) := by
  funext o
  by_cases ho : o = st
  · subst ho
    simp [ledger]
  · simp [ledger, ho]

theorem sum_update (lists : Station → Option Number × List ListEntry) (st : Station)
    (p : Option Number × List ListEntry) :
    (∑ o, (Function.update lists st p o).2.length) + (lists st).2.length = (∑ o, (lists o).2.length) + p.2.length := by
  have others : ∑ o ∈ Finset.univ.erase st, (Function.update lists st p o).2.length =
      ∑ o ∈ Finset.univ.erase st, (lists o).2.length :=
    Finset.sum_congr rfl fun o ho => by rw [Function.update_of_ne (Finset.ne_of_mem_erase ho)]
  rw [← Finset.add_sum_erase _ _ (Finset.mem_univ st), others, Function.update_self,
    ← Finset.add_sum_erase _ (fun o => (lists o).2.length) (Finset.mem_univ st)]
  omega

/-- One session's list changes, and the claims with it. -/
theorem kept_setSession {r : Session} (here : ListSound (holding r)) (ring : RingSound s.journal → RingSound x.journal)
    (claims : (s.session st).items.length ≤ s.journal.claims →
      x.journal.claims + (s.session st).items.length = s.journal.claims + r.items.length)
    (nextSeq : s.journal.nextSeq ≤ x.journal.nextSeq) (lists : (ledger x).lists = (ledger s).lists)
    (upload : ∀ u, x.upload = some u → s.upload = some u) : JournalKept s (x.setSession st r) := by
  intro sound
  have covered := Desk.claims_of_sound sound st
  obtain ⟨hring, hclaims, hlists, hupload⟩ := (journalSound_iff s).mp sound
  have changed : (ledger (x.setSession st r)).lists = Function.update (ledger s).lists st (holding r) := by
    rw [lists_setSession, lists]
  rw [journalSound_iff]
  refine ⟨ring hring, ?_, fun o => ?_, fun u hu => (hupload u (upload u hu)).trans nextSeq⟩
  · have sum := sum_update (ledger s).lists st (holding r)
    have moved := claims covered
    rw [changed]
    show x.journal.claims = _
    change _ + (s.session st).items.length = _ + r.items.length at sum
    change s.journal.claims = _ at hclaims
    omega
  · rw [changed]
    by_cases ho : o = st
    · rw [ho, Function.update_self]
      exact here
    · rw [Function.update_of_ne ho]
      exact hlists o

theorem listSound_nil (b : Option Number) : ListSound (b, []) := ⟨Nat.zero_le _, fun _ => rfl⟩

/-- A session ends whose claims have been spent. -/
theorem kept_sessionEnd {r : Session} (h : Spends (s.session st).items.length s x) (hr : r.items = []) :
    JournalKept s (x.setSession st r) := by
  intro sound
  refine kept_setSession (s := s) ?_ (fun ring => h.ring ring (Desk.claims_of_sound sound st)) (fun covered => ?_)
    h.nextSeq h.lists h.upload sound
  · rw [holding, hr]
    exact listSound_nil _
  · rw [h.claims, hr, List.length_nil]
    omega

/-- Where every session is emptied and no claim is left the journal's room is for its records alone. -/
theorem journalSound_emptied (ring : RingSound x.journal) (claims : x.journal.claims = 0)
    (emptied : x.sessions = Vector.replicate 8 Session.empty) (upload : x.upload = none) : JournalSound x := by
  have lists : (ledger x).lists = fun _ => (none, []) := by
    funext st
    simp [ledger, holding, State.session, emptied, Session.empty]
  rw [journalSound_iff]
  refine ⟨ring, claims.trans (by simp [lists]), fun st => by rw [lists]; exact listSound_nil _, fun u hu => ?_⟩
  cases upload.symm.trans hu

end Sys2Proof.Ledgers
end

