-- ==== Sys2Proof/Proofs/JournalQuiet.lean ====
section
/-! SUPPORT. The operations that leave journal, upload and lists alone, and those of the journal (R142, R145 to R148, R152,
R155). -/

namespace Sys2Proof.Ledgers

open Sys2Proof.Machine

/-! ### Operations that leave the ledger alone -/

/-- A run of operations that each leave the ledger alone. -/
theorem ledger_foldl {α : Type} {f : State → α → State} (h : ∀ s a, ledger (f s a) = ledger s) (l : List α) :
    ∀ s, ledger (l.foldl f s) = ledger s := by
  induction l with
  | nil => exact fun _ => rfl
  | cons a l ih => exact fun s => (ih _).trans (h s a)

/-- A change that keeps what each session holds. -/
theorem ledger_of_lists {s t : State} (hj : t.journal = s.journal) (hu : t.upload = s.upload)
    (hl : ∀ st, holding (t.session st) = holding (s.session st)) : ledger t = ledger s := by
  simp only [ledger, hj, hu, hl]

theorem ledger_repainted {s t : State} (h : Desk.Repainted s t) : ledger t = ledger s := by
  obtain ⟨p, c, rfl⟩ := h.rest
  rfl

section
variable (s : State) (st : Station)

@[simp] theorem ledger_setPort (p : Port) : ledger (s.setPort st p) = ledger s := rfl
@[simp] theorem ledger_setConsole (c : Console) : ledger (s.setConsole st c) = ledger s := rfl
@[simp] theorem ledger_setLine (l : Line) (c : LineCtl) : ledger (s.setLine l c) = ledger s := by cases l <;> rfl
@[simp] theorem ledger_setBank (bank : BankName) (b : Bank) : ledger (s.setBank bank b) = ledger s := by
  cases bank <;> rfl
@[simp] theorem ledger_settle (s0 : State) : ledger (settle s0 s) = ledger s := rfl
@[simp] theorem ledger_useFree : ledger s.useFree = ledger s := rfl
@[simp] theorem ledger_withPending (q : List Instr) : ledger (s.withPending q) = ledger s := rfl

theorem ledger_setSession {r : Session} (h : holding r = holding (s.session st)) :
    ledger (s.setSession st r) = ledger s := by
  refine ledger_of_lists rfl rfl fun o => ?_
  by_cases ho : o = st
  · rw [ho, session_setSession, h]
  · rw [session_setSession_of_ne _ _ _ ho]

@[simp] theorem ledger_sound (g : Signal) : ledger (sound st g s) = ledger s :=
  ledger_repainted (Desk.redrawn_sound st g s).1
@[simp] theorem ledger_showLines (a b : Text) : ledger (showLines st a b s) = ledger s :=
  ledger_repainted (Desk.redrawn_showLines st a b s).1
@[simp] theorem ledger_showText (i : Fin 32) : ledger (showText st i s) = ledger s := ledger_showLines s st _ _
@[simp] theorem ledger_showStanding : ledger (showStanding st s) = ledger s :=
  ledger_repainted (Desk.redrawn_showStanding st s).1
@[simp] theorem ledger_showUnwiped (w : Bool) : ledger (showUnwiped st w s) = ledger s := by
  rw [showUnwiped_frame]; rfl
@[simp] theorem ledger_showIfLost (w : Bool) : ledger (showIfLost st w s) = ledger s :=
  ledger_repainted (Desk.redrawn_showIfLost st w s).1
@[simp] theorem ledger_showStandingAll : ledger (showStandingAll s) = ledger s :=
  ledger_repainted (Desk.repainted_showStandingAll s)

@[simp] theorem ledger_raise (c : Cause) (l : Line) : ledger (raise c l s) = ledger s := by simp [raise]
@[simp] theorem ledger_raiseBoth (c : Cause) : ledger (raiseBoth c s) = ledger s := by simp [raiseBoth]
@[simp] theorem ledger_sendFrame (l : Line) (f : LineFrame) : ledger (sendFrame l f s) = ledger s := by
  simp [sendFrame]
@[simp] theorem ledger_sendUnsolicited (l : Line) (f : LineFrame) : ledger (sendUnsolicited l f s) = ledger s := by
  simp [sendUnsolicited]
@[simp] theorem ledger_sendReply (q : Req) (name : ReqName) (r : Reply) :
    ledger (sendReply q name r s) = ledger s := by simp [sendReply]
@[simp] theorem ledger_finalReply (q : Option Req) (name : ReqName) (r : Reply) :
    ledger (finalReply q name r s) = ledger s := by
  obtain ⟨u, v, h⟩ := Desk.finalReply_frame q name r s
  rw [h]
  rfl
@[simp] theorem ledger_answer (q : Req) (name : ReqName) (p : State × Reply) :
    ledger (answer q name p) = ledger p.1 := by simp [answer]
@[simp] theorem ledger_answered (q : Req) (name : ReqName) (r : Reply) (s0 : State) :
    ledger (answered q name r s0 s) = ledger s := by simp [answered]
@[simp] theorem ledger_goodLineFrame (l : Line) : ledger (goodLineFrame l s) = ledger s := by simp [goodLineFrame]
@[simp] theorem ledger_clearLastError (l : Line) : ledger (clearLastError l s) = ledger s := by
  simp [clearLastError]
@[simp] theorem ledger_received (q : Req) (name : ReqName) : ledger (received q name s) = ledger s := by
  obtain ⟨c, h⟩ := Desk.received_eq q name s
  rw [h, ledger_setLine]

@[simp] theorem holding_disarm (r : Session) : holding r.disarm = holding r := by
  unfold Session.disarm; split <;> rfl
@[simp] theorem holding_leaveDesk (r : Session) : holding r.leaveDesk = holding r := holding_disarm r

@[simp] theorem ledger_disarm : ledger (s.setSession st (s.session st).disarm) = ledger s :=
  ledger_setSession s st (holding_disarm _)
@[simp] theorem ledger_leaveDesk : ledger (s.setSession st (s.session st).leaveDesk) = ledger s :=
  ledger_setSession s st (holding_leaveDesk _)

@[simp] theorem ledger_takeInput : ledger (takeInput st s) = ledger s := by
  refine ledger_of_lists ?_ ?_ fun o => ?_
  · rw [takeInput_frame]
  · rw [takeInput_frame]
  · obtain ⟨idle, h⟩ := Desk.session_takeInput s st o
    rw [h]
    rfl

@[simp] theorem ledger_disarmAll : ledger (disarmAll s) = ledger s :=
  ledger_of_lists rfl rfl fun o => by simp [disarmAll, State.session]
@[simp] theorem ledger_stepClock (i : Instant) : ledger (stepClock i s) = ledger s := ledger_disarmAll s
@[simp] theorem ledger_dropHeld : ledger (dropHeld s) = ledger s := rfl
@[simp] theorem ledger_tickClock : ledger (tickClock s) = ledger s := rfl
@[simp] theorem ledger_tickTimers : ledger (tickTimers s) = ledger s := by
  refine ledger_of_lists rfl rfl fun o => ?_
  simp only [tickTimers, State.session, Fin.getElem_fin, Vector.getElem_ofFn]
  split <;> rfl
@[simp] theorem ledger_testLevels : ledger (testLevels s) = ledger s := rfl
@[simp] theorem ledger_finishScrub : ledger (finishScrub s) = ledger s := rfl
@[simp] theorem ledger_cutStaging : ledger (cutStaging s) = ledger s := by
  unfold cutStaging; split <;> rfl
@[simp] theorem ledger_beginOpening (q : Option Req) : ledger (beginOpening q s) = ledger s := rfl
@[simp] theorem ledger_autoOpenTest : ledger (autoOpenTest s) = ledger s := by rw [autoOpenTest_frame]; rfl
@[simp] theorem ledger_releaseSlot : ledger (releaseSlot s) = ledger s := by
  rw [releaseSlot, ledger_autoOpenTest]; rfl
@[simp] theorem ledger_unlinkBorrower (n : Number) : ledger (unlinkBorrower n s) = ledger s := rfl

@[simp] theorem ledger_queueSlip (p : Slip) : ledger (queueSlip st p s).1 = ledger s := by
  unfold queueSlip; split <;> simp
@[simp] theorem ledger_slipForClose (n : Number) (items : List ListEntry) :
    ledger (slipForClose st n items s).1 = ledger s := by
  unfold slipForClose; split <;> simp
@[simp] theorem ledger_goAbsent : ledger (goAbsent st s) = ledger s := by simp [goAbsent]
@[simp] theorem ledger_beginBridge : ledger (beginBridge st s) = ledger s := by simp [beginBridge]
@[simp] theorem ledger_endBridge : ledger (endBridge st s) = ledger s := by
  unfold endBridge; simp only; split <;> simp
@[simp] theorem ledger_endBridges : ledger (endBridges s) = ledger s :=
  ledger_foldl (fun s st => by split <;> simp) stations s
@[simp] theorem ledger_passUp (body : List Byte) : ledger (passUp st body s) = ledger s := by
  unfold passUp; split <;> simp
@[simp] theorem ledger_joinInput (i : Input) : ledger (joinInput st i s) = ledger s := by
  unfold joinInput
  split
  · rfl
  · split <;> simp
@[simp] theorem ledger_takePaper (out : Bool) (credit : Nat) : ledger (takePaper st out credit s) = ledger s := by
  unfold takePaper
  simp only
  split
  · split <;> simp
  · split <;> simp
@[simp] theorem ledger_appear (out : Bool) (credit : Nat) : ledger (appear st out credit s) = ledger s := by
  simp [appear]
@[simp] theorem ledger_printOne : ledger (printOne st s) = ledger s := by
  unfold printOne
  simp only
  split
  · rfl
  · split <;> simp [sendPrint]
@[simp] theorem ledger_joinPass (body : List Byte) : ledger (joinPass st body s) = ledger s := by
  unfold joinPass; simp only; split <;> simp
@[simp] theorem ledger_setMark (l : Line) (w : Bool) : ledger (setMark l w s) = ledger s := by simp [setMark]
@[simp] theorem ledger_setNoteTo (l : Line) (n : NoteSlot) : ledger (s.setNoteTo l n) = ledger s := by
  cases l <;> rfl
@[simp] theorem ledger_postTo (l : Line) (text : Text) : ledger (postTo l text s) = ledger s := by
  unfold postTo; simp only; split <;> simp
@[simp] theorem ledger_acceptStaff (n : Number) : ledger (acceptStaff st n s) = ledger s := by
  simp only [acceptStaff, ledger_sound, ledger_showLines]
  refine ledger_setSession s st ?_
  split <;> rfl

end

/-! ### Appends -/

variable {s : State}

theorem spends_append {d : Record} (room : 1 ≤ s.journal.free) : Spends 0 s (append d s) where
  ring ring _ := ring.append (room_of_free room) rfl
  claims := rfl
  nextSeq := Nat.le_succ _
  lists := rfl
  upload _ := id

theorem kept_append {d : Record} (room : 1 ≤ s.journal.free) : JournalKept s (append d s) :=
  kept_of_spends (spends_append room)

theorem spends_appendSystem (d : Record) (s : State) : Spends 0 s (appendSystem d s) := by
  unfold appendSystem
  split
  · next room => exact spends_append room
  · exact ⟨fun ring _ => ring, rfl, le_rfl, rfl, fun _ => id⟩

theorem kept_appendSystem (d : Record) (s : State) : JournalKept s (appendSystem d s) :=
  kept_of_spends (spends_appendSystem d s)

theorem kept_appendAboveReserve (d : Record) (s : State) : JournalKept s (appendAboveReserve d s) := by
  unfold appendAboveReserve
  split
  · next room => exact kept_append (Nat.one_le_of_lt room)
  · exact JournalKept.refl s

theorem spends_releaseClaims (n : Nat) (s : State) : Spends n s (releaseClaims n s) :=
  ⟨fun ring _ => ring.giveBack n, rfl, le_rfl, rfl, fun _ => id⟩

/-- R146: a record takes the room of the claim that it consumes. -/
theorem spends_appendClaimed (d : Record) (s : State) : Spends 1 s (appendClaimed d s) where
  ring ring enough := by
    refine (ring.giveBack 1).append ?_ rfl
    obtain ⟨-, -, -, -, -, room⟩ := ring
    show s.journal.unreleased + (s.journal.claims - 1) < ringSlots
    omega
  claims := rfl
  nextSeq := Nat.le_succ _
  lists := rfl
  upload _ := id

/-! ### The mark and the upload -/

/-- R155: the mark goes back to the oldest record. -/
theorem spends_rewind (s : State) : Spends 0 s (rewind s) where
  ring ring _ := ring.mark le_rfl (ring.2.1.trans ring.2.2.1)
  claims := rfl
  nextSeq := le_rfl
  lists := rfl
  upload _ := id

/-- An upload ends. -/
theorem spends_withoutUpload (s : State) : Spends 0 s { s with upload := none } :=
  ⟨fun ring _ => ring, rfl, le_rfl, rfl, fun _ h => by cases h⟩

theorem spends_cutUpload (s : State) : Spends 0 s (cutUpload s) := (spends_withoutUpload s).trans (spends_rewind _)

theorem spends_endUpload (s : State) : Spends 0 s (endUpload s) := by
  unfold endUpload
  split
  · exact spends_of_ledger rfl
  · exact (spends_withoutUpload s).quiet (ledger_sendReply _ _ _ _)

theorem kept_rewind (s : State) : JournalKept s (rewind s) := kept_of_spends (spends_rewind s)
theorem kept_cutUpload (s : State) : JournalKept s (cutUpload s) := kept_of_spends (spends_cutUpload s)
theorem kept_endUpload (s : State) : JournalKept s (endUpload s) := kept_of_spends (spends_endUpload s)

end Sys2Proof.Ledgers
end

