-- ==== Sys2Proof/Proofs/JournalOfDecisions.lean ====
section
/-! SUPPORT. What the sessions, the desk-day, the decisions and the starts make of the journal (R16, R18, R21, R22, R27,
R146, R168, R195, R196). -/

namespace Sys2Proof.Ledgers

open Sys2Proof.Machine

variable {s t : State} {st : Station}

/-! ### The ends of a session -/

theorem spends_bookItems (mk : ListEntry → Record) (n : Number) (items : List ListEntry) (s : State) :
    Spends items.length s (bookItems mk n items s) := by
  have records : ∀ (l : List ListEntry) (x : State),
      Spends l.length x (l.foldl (fun s e => appendClaimed (mk e) s) x) := by
    intro l
    induction l with
    | nil => exact fun x => spends_of_ledger rfl
    | cons e l ih =>
      intro x
      rw [List.length_cons, Nat.add_comm]
      exact (spends_appendClaimed (mk e) x).trans (ih _)
  exact (records items s).quiet rfl

theorem kept_closeSession (st : Station) (m : Mode) (s : State) : JournalKept s (closeSession st m s).1 := by
  unfold closeSession
  simp only
  split
  · exact kept_of_ledger (ledger_setSession s st rfl)
  · next n _ =>
    refine kept_sessionEnd (Spends.quiet ?_ (ledger_unlinkBorrower _ n)) rfl
    exact (spends_bookItems _ n _ s).quiet (ledger_slipForClose _ _ _ _)

theorem kept_cancelSession (st : Station) (s : State) : JournalKept s (cancelSession st s) := by
  unfold cancelSession
  split
  · exact JournalKept.refl s
  · next n _ => exact kept_sessionEnd ((spends_releaseClaims _ s).quiet (ledger_unlinkBorrower _ n)) rfl

/-- R22: one record takes the room of one claim, and the others are given back. -/
theorem kept_abandonSession (st : Station) (s : State) : JournalKept s (abandonSession st s) := by
  unfold abandonSession
  simp only
  split
  · exact JournalKept.refl s
  · next n _ =>
    refine kept_sessionEnd (Spends.quiet ?_ (ledger_unlinkBorrower _ n)) rfl
    split
    · next none =>
      rw [none]
      exact spends_appendSystem _ s
    · next rest some =>
      rw [some]
      exact (spends_releaseClaims rest.length s).trans (spends_appendClaimed _ _)

theorem kept_loseStation (st : Station) (s : State) : JournalKept s (loseStation st s) :=
  (kept_abandonSession st s).quiet (ledger_goAbsent _ st)

/-! ### The warm-start conversion -/

theorem spends_convertSession (s : State) (st : Station) (list : ListSound (holding (s.session st))) :
    Spends (s.session st).items.length s (convertSession s st) := by
  unfold convertSession
  simp only
  split
  · next nobody =>
    rw [show (s.session st).items = [] from list.2 nobody]
    exact spends_of_ledger rfl
  · next n _ => exact (spends_bookItems _ n _ s).quiet (ledger_unlinkBorrower _ n)

theorem spends_convertFold (l : List Station) : ∀ s : State, (∀ st, ListSound ((ledger s).lists st)) →
    Spends (l.map fun st => (s.session st).items.length).sum s (l.foldl convertSession s) := by
  induction l with
  | nil => exact fun s _ => spends_of_ledger rfl
  | cons st l ih =>
    intro s lists
    have first := spends_convertSession s st (lists st)
    have same (o : Station) : ((convertSession s st).session o).items = (s.session o).items :=
      congrArg Prod.snd (congrFun first.lists o)
    have rest := ih (convertSession s st) (first.lists ▸ lists)
    simp only [same] at rest
    exact first.trans rest

/-- R27: every claim becomes a record, and every session is emptied. -/
theorem kept_convertSessions (idle : s.upload = none) : JournalKept s (convertSessions s) := by
  intro sound
  obtain ⟨ring, claims, lists, -⟩ := (journalSound_iff s).mp sound
  have converted := spends_convertFold stations s lists
  have all : (stations.map fun st => (s.session st).items.length).sum = s.journal.claims :=
    (listEntries_eq s).trans claims.symm
  rw [all] at converted
  unfold convertSessions
  generalize stations.foldl convertSession s = x at converted
  refine journalSound_emptied (converted.ring ring le_rfl) (converted.claims.trans (Nat.sub_self _)) rfl ?_
  refine Option.eq_none_iff_forall_ne_some.mpr fun u hu => ?_
  cases idle.symm.trans (converted.upload u hu)

/-! ### The desk-day -/

theorem kept_autoOpenTest (s : State) : JournalKept s (autoOpenTest s) := kept_of_ledger (ledger_autoOpenTest s)

theorem kept_recordedStep (i : Instant) (s : State) : JournalKept s (recordedStep i s) :=
  (kept_appendSystem _ _).after (ledger_stepClock s i)

theorem kept_applyHeld (s : State) : JournalKept s (applyHeld s) := by
  unfold applyHeld
  split
  · exact JournalKept.refl s
  · exact (kept_recordedStep _ _).after (ledger_dropHeld s)

theorem kept_enterClosed (s : State) : JournalKept s (enterClosed s) := by
  unfold enterClosed
  refine JournalKept.quiet (JournalKept.trans ?_ (kept_applyHeld _)) (ledger_showStandingAll _)
  exact (kept_appendSystem (draft .dayClose) s).quiet rfl

theorem kept_closeIfDone (s : State) : JournalKept s (closeIfDone s) := by
  unfold closeIfDone
  split
  · exact (kept_enterClosed s).trans (kept_autoOpenTest _)
  · exact JournalKept.refl s

theorem kept_enterClosing (s : State) : JournalKept s (enterClosing s) := (kept_closeIfDone _).after rfl

theorem kept_autoCloseTest (s0 s : State) : JournalKept s (autoCloseTest s0 s) := by
  unfold autoCloseTest
  split
  · exact kept_enterClosing s
  · exact JournalKept.refl s

theorem kept_afterStep (s0 s : State) : JournalKept s (afterStep s0 s) :=
  (kept_autoCloseTest s0 s).trans (kept_autoOpenTest _)

theorem kept_closeSilently (st : Station) (s : State) : JournalKept s (closeSilently st s) :=
  ((kept_closeSession st .normal s).quiet (by simp)).trans (kept_closeIfDone _)

theorem kept_sweepEntry (day : Nat) (e : Item) (s : State) : JournalKept s (sweepEntry day e s) := by
  unfold sweepEntry
  split
  · exact JournalKept.refl s
  next h hs _ =>
  split
  · have expired := kept_appendSystem (sweepDraft .holdExpired e.number h) s
    simp only
    generalize appendSystem (sweepDraft .holdExpired e.number h) s = x at expired ⊢
    have moved : JournalKept s
        { x with active := x.active.mapQueue e.number fun _ => waitHead x.active day hs } := expired.quiet rfl
    split
    · exact moved
    · exact moved.trans (kept_appendSystem _ _)
  · exact JournalKept.refl s

/-! ### Borrower scans -/

theorem kept_refuse (st : Station) (r : Reason) (b i staff : Option Number) (s : State) :
    JournalKept s (refuse st r b i staff s) :=
  (kept_appendAboveReserve (refusalDraft st r b i staff) s).quiet (by simp [refuse])

theorem kept_refuseInSession (st : Station) (r : Reason) (i : Option Number) (s : State) :
    JournalKept s (refuseInSession st r i s) := kept_refuse _ _ _ _ _ s

theorem kept_refuseBorrower (st : Station) (n : Number) (r : Reason) (s : State) :
    JournalKept s (refuseBorrower st n r s) := (kept_refuse _ _ _ _ _ _).after (ledger_leaveDesk s st)

/-- R9: a session opens with an empty list where none was open. -/
theorem kept_openSession (n : Number) (admitted : Bool) (nobody : (s.session st).borrower = none) :
    JournalKept s (openSession st n admitted s) := by
  intro sound
  have empty : (s.session st).items = [] := (((journalSound_iff s).mp sound).lists st).2 nobody
  unfold openSession
  simp only
  refine JournalKept.quiet (JournalKept.quiet ?_ (t := s.setSession st
    { borrower := some n, items := [], overrideStaff := (s.session st).armedStaff, armedUntil := none,
      admittedByOverride := admitted, idle := s.settings.idleTimeout, mode := .normal }) rfl)
    ((ledger_sound _ _ _).trans (ledger_showLines _ _ _ _)) sound
  exact kept_setSession (listSound_nil _) id (fun _ => by rw [empty]) le_rfl rfl fun _ => id

theorem kept_admitBorrower (n : Number) (c : Fin 16) (nobody : (s.session st).borrower = none) :
    JournalKept s (admitBorrower st n c s) := by
  unfold admitBorrower
  split
  · simp only
    split
    · exact kept_refuseBorrower _ _ _ s
    · exact kept_openSession n _ nobody
  · split
    · exact kept_refuseBorrower _ _ _ s
    · next room _ =>
      have opened := kept_openSession (s := { s with active := room.joinBorrower (provisionalEntry n c) }) n false nobody
      exact opened.after rfl

theorem kept_borrowerDecision (st : Station) (n : Number) (c : Fin 16) (w : Bool) (s : State) :
    JournalKept s (borrowerDecision st n c w s) := by
  unfold borrowerDecision
  split
  · exact kept_refuse _ _ _ _ _ s
  split
  · exact kept_of_ledger (by simp)
  split
  · have admitted := kept_admitBorrower n c (Links.borrower_closeSession s st .normal)
    exact ((kept_closeSession st .normal s).trans admitted).quiet (ledger_showIfLost _ _ _)
  · next nobody => exact kept_admitBorrower n c (by simpa using nobody)

/-! ### Item scans -/

theorem required_ok {holds : Bool} {r : Reason} {u : Unit} (h : required holds r = .ok u) : holds = true := by
  unfold required at h
  split at h
  · assumption
  · cases h

theorem bind_ok {α β : Type} {x : Except Reason α} {f : α → Except Reason β} {b : β} (h : x >>= f = .ok b) :
    ∃ a, x = .ok a ∧ f a = .ok b := by
  cases x with
  | error r => cases h
  | ok a => exact ⟨a, rfl, h⟩

/-- R14: the checks pass an item only while the journal has more free slots than the reserve. -/
theorem room_of_itemChecks {r : Session} {n item : Number} {c : Fin 32} {e : ListEntry}
    (h : itemChecks s r n item c = .ok e) : reserveSlots < s.journal.free := by
  unfold itemChecks at h
  obtain ⟨_, -, h⟩ := bind_ok h
  obtain ⟨lent, -, h⟩ := bind_ok h
  obtain ⟨⟨old, renewed⟩, -, h⟩ := bind_ok h
  obtain ⟨⟨filled, held⟩, -, h⟩ := bind_ok h
  obtain ⟨limited, -, h⟩ := bind_ok h
  obtain ⟨due, -, h⟩ := bind_ok h
  obtain ⟨_, room, -⟩ := bind_ok h
  simpa using required_ok room

/-- R16, R146: an item joins a list that has room with a claim that has room. -/
theorem kept_acceptItem {n : Number} {e : ListEntry} (lent : (s.session st).borrower = some n)
    (short : (s.session st).items.length < listCapacity) (room : 1 ≤ s.journal.free) :
    JournalKept s (acceptItem st e s) := by
  unfold acceptItem
  simp only
  refine JournalKept.quiet ?_ ((ledger_sound _ _ _).trans (ledger_showLines _ _ _ _))
  refine kept_setSession (s := s) ⟨?_, fun nobody => ?_⟩ (fun ring => ring.claim (room_of_free room)) (fun _ => ?_) le_rfl
    rfl fun _ => id
  · show ((s.session st).items ++ [e]).length ≤ listCapacity
    rw [List.length_append]
    exact short
  · cases lent.symm.trans nobody
  · show s.journal.claims + 1 + (s.session st).items.length = s.journal.claims + ((s.session st).items ++ [e]).length
    rw [List.length_append, List.length_singleton]
    omega

theorem kept_lendDecision {n : Number} (item : Number) (c : Fin 32) (w : Bool)
    (lent : (s.session st).borrower = some n) : JournalKept s (lendDecision st n item c w s) := by
  unfold lendDecision
  simp only
  split
  · exact kept_refuseInSession _ _ _ s
  next short =>
  split
  · exact kept_of_ledger (by simp)
  split
  · exact kept_refuseInSession _ _ _ s
  split
  · exact kept_refuseInSession _ _ _ s
  · next passed =>
    exact kept_acceptItem lent (Nat.lt_of_not_le short) (Nat.one_le_of_lt (room_of_itemChecks passed))

theorem kept_creditReturn (st : Station) (item : Number) (s : State) : JournalKept s (creditReturn st item s) := by
  unfold creditReturn
  simp only
  split
  · exact kept_appendAboveReserve _ s
  · exact (kept_appendAboveReserve _ _).after rfl

theorem kept_routeHead (st : Station) (item : Number) (s : State) : JournalKept s (routeHead st item s) := by
  unfold routeHead
  split
  · simp only
    split
    · exact kept_of_ledger rfl
    · exact (kept_appendAboveReserve _ _).after rfl
  · exact JournalKept.refl s

theorem kept_takeReturn (st : Station) (item : Number) (c : Fin 32) (s : State) :
    JournalKept s (takeReturn st item c s) := by
  have returned := (kept_creditReturn st item s).trans (kept_routeHead st item _)
  unfold takeReturn
  simp only
  split
  · exact returned.quiet (by simp)
  · exact returned.quiet (by simp)

theorem kept_itemDecision (st : Station) (item : Number) (c : Fin 32) (w : Bool) (s : State) :
    JournalKept s (itemDecision st item c w s) := by
  unfold itemDecision
  split
  · next n lent => exact kept_lendDecision item c w lent
  split
  · unfold returnDecision
    split
    · exact kept_refuseInSession _ _ _ s
    · exact kept_takeReturn _ _ _ s
  · exact kept_refuseInSession _ _ _ s

theorem kept_staffDecision (st : Station) (n : Number) (s : State) : JournalKept s (staffDecision st n s) := by
  unfold staffDecision
  split
  · exact kept_of_ledger (ledger_acceptStaff _ _ _)
  · exact kept_refuse _ _ _ _ _ s

theorem kept_scanDecision (st : Station) (i : Input) (w : Bool) (s : State) :
    JournalKept s (scanDecision st i w s) := by
  unfold scanDecision
  split
  · exact kept_borrowerDecision _ _ _ w s
  · exact kept_itemDecision _ _ _ w s
  · exact kept_staffDecision _ _ s
  · exact kept_of_ledger (ledger_showUnwiped _ _ _)
  · exact kept_refuseInSession _ _ _ s
  · exact JournalKept.refl s

/-! ### Starts -/

theorem kept_startVolatile (s : State) : JournalKept s (startVolatile s) :=
  JournalKept.quiet (kept_of_spends (spends_withoutUpload s)) rfl

theorem kept_closeInterrupted (s : State) : JournalKept s (closeInterrupted s) := by
  unfold closeInterrupted
  split
  · exact JournalKept.refl s
  · exact kept_enterClosed s

theorem kept_warmStart (s : State) : JournalKept s (warmStart s) := by
  have started : JournalKept s (finishScrub (startVolatile (cutStaging s))) :=
    ((kept_startVolatile _).after (ledger_cutStaging s)).quiet (ledger_finishScrub _)
  have converted := (started.trans (kept_convertSessions rfl)).trans (kept_closeInterrupted _)
  exact ((converted.trans (kept_rewind _)).quiet (ledger_testLevels _)).trans (kept_autoOpenTest _)

/-- R157: the journal of a cold start is empty. -/
theorem journalSound_coldStart (s : State) : JournalSound (coldStart s) := by
  refine journalSound_emptied ?_ rfl rfl rfl
  show RingSound Journal.cold
  exact ⟨le_rfl, le_rfl, le_rfl, rfl, trivial, by decide⟩

theorem kept_start (s : State) : JournalKept s (start s) := by
  unfold start
  split
  · exact kept_warmStart s
  · exact fun _ => journalSound_coldStart s

end Sys2Proof.Ledgers
end

