-- ==== Sys2Proof/Proofs/JournalThroughCommands.lean ====
section
/-! SUPPORT. The journal through an event of each shape and through every command (R141, R142, R146, R150 to R155,
R198). -/

namespace Sys2Proof.Ledgers

open Sys2Proof.Machine Sys2Proof.Outcomes

variable {s t : State}

/-! ### Events -/

theorem kept_settled {s0 : State} (h : JournalKept s t) : JournalKept s (settle s0 t) := h.quiet (ledger_settle t s0)

theorem kept_partEvent {f : State → State} (hf : JournalKept s (f s)) (h : partEvent f s = .next t) :
    JournalKept s t := by
  obtain rfl | rfl := partEvent_next h
  · exact JournalKept.refl _
  · exact kept_settled hf

theorem kept_guardedEvent {g : State → Bool} {f : State → State} (hf : g s = true → JournalKept s (f s))
    (h : guardedEvent g f s = .next t) : JournalKept s t := by
  obtain rfl | rfl | ⟨guard, rfl⟩ := guardedEvent_next h
  · exact JournalKept.refl _
  · exact kept_settled (JournalKept.refl _)
  · exact kept_settled (hf guard)

/-- An event whose work leaves the ledger alone. -/
theorem kept_quietEvent {g : State → Bool} {f : State → State} (hf : ledger (f s) = ledger s)
    (h : guardedEvent g f s = .next t) : JournalKept s t :=
  kept_guardedEvent (fun _ => kept_of_ledger hf) h

theorem kept_decision {takes : State → Input → Bool} {body : Station → Input → Bool → State → State}
    (hb : ∀ st i w x, JournalKept x (body st i w x)) (h : decision takes body s = .next t) : JournalKept s t := by
  obtain rfl | rfl | ⟨st, i, -, -, rfl⟩ := decision_next h
  · exact JournalKept.refl _
  · exact kept_settled (JournalKept.refl _)
  · exact kept_settled ((hb st i _ _).after (ledger_takeInput s st))

theorem kept_keyDecision {k : KeyCode} {body : Station → Bool → State → State}
    (hb : ∀ st w x, JournalKept x (body st w x)) (h : keyDecision k body s = .next t) : JournalKept s t :=
  kept_decision (fun st _ w x => hb st w x) h

theorem kept_stationEvent {st : Station} {f : State → State} (hf : ∀ x, ledger (f x) = ledger x)
    (h : stationEvent st f s = .next t) : JournalKept s t := by
  refine kept_partEvent (kept_of_ledger ?_) h
  simp only
  split
  · exact hf _
  · rfl

theorem kept_lineEvent {l : Line} {f : State → State} (hf : ∀ x, JournalKept x (f x))
    (h : lineEvent l f s = .next t) : JournalKept s t := by
  obtain rfl | rfl | rfl := lineEvent_next h
  · exact JournalKept.refl _
  · exact kept_settled (JournalKept.refl _)
  · exact kept_settled ((hf _).after (ledger_goodLineFrame s l))

theorem kept_requestEvent {α : Type} {q : Req} {name : ReqName} {owner : α → Bool} {c : Content α}
    {rule : α → State → State} (hr : ∀ p x, JournalKept x (rule p x))
    (h : requestEvent q name owner c rule s = .next t) : JournalKept s t := by
  obtain rfl | rfl | ⟨r, rfl⟩ | ⟨p, -, rfl⟩ := requestEvent_next h
  · exact JournalKept.refl _
  · exact kept_settled (JournalKept.refl _)
  · exact kept_of_ledger (by simp)
  · exact kept_settled ((hr p _).after (ledger_received s q name))

theorem kept_request {α : Type} {q : Req} {name : ReqName} {owner : Bool} {c : Content α}
    {rule : α → State → State × Reply} (hr : ∀ p x, JournalKept x (rule p x).1)
    (h : request q name owner c rule s = .next t) : JournalKept s t :=
  kept_requestEvent (fun p x => (hr p x).quiet (ledger_answer q name _)) h

/-- A request whose rule leaves the ledger alone. -/
theorem kept_quietRequest {α : Type} {q : Req} {name : ReqName} {owner : Bool} {c : Content α}
    {rule : α → State → State × Reply} (hr : ∀ p x, ledger (rule p x).1 = ledger x)
    (h : request q name owner c rule s = .next t) : JournalKept s t :=
  kept_request (fun p x => kept_of_ledger (hr p x)) h

theorem kept_readRequest {α : Type} {q : Req} {name : ReqName} {c : Content α} {reply : α → State → Reply}
    (h : readRequest q name c reply s = .next t) : JournalKept s t :=
  kept_quietRequest (fun _ _ => rfl) h

/-! ### Table writes -/

/-- R181: whatever a write's rule makes of its bank, the journal has at most its TABLE_CHANGE record more. -/
theorem kept_writeTable (q : Req) (name : ReqName) (bank : BankName) (borrower item : Option Number)
    (rule : Bank → WriteResult) (s : State) : JournalKept s (writeTable q name bank borrower item rule s).1 := by
  obtain h | ⟨b, r, -, -, h⟩ := writeTable_cases q name bank borrower item rule s
  · rw [h]
    exact JournalKept.refl s
  · rw [h]
    unfold recordWrite
    simp only
    split
    · exact (kept_appendSystem _ _).after (ledger_setBank s bank b)
    · exact kept_of_ledger (ledger_setBank s bank b)

theorem kept_tableRequest {α : Type} {q : Req} {name : ReqName} {c : Content α} {bank : α → BankName}
    {borrower item : α → Option Number} {rule : α → Bank → WriteResult}
    (h : tableRequest q name c bank borrower item rule s = .next t) : JournalKept s t :=
  kept_request (fun _ x => kept_writeTable _ _ _ _ _ _ x) h

theorem kept_calendarWrite {α : Type} {q : Req} {name : ReqName} {c : Content α} {bank : α → BankName}
    {rule : α → Bank → WriteResult} (h : calendarWrite q name c bank rule s = .next t) : JournalKept s t := by
  refine kept_request (fun p x => ?_) h
  have wrote := kept_writeTable q name (bank p) none none (rule p) x
  simp only
  split
  · exact wrote.trans (kept_afterStep x _)
  · exact wrote

/-! ### Station lines and keys -/

theorem kept_heartbeat {st : Station} {content : List Byte} (h : execHeartbeat st content s = .next t) :
    JournalKept s t := by
  refine kept_stationEvent (fun x => ?_) h
  have relayed : ledger (if (x.port st).bridged = true then passUp st (heartbeatKind :: content) x else x) =
      ledger x := by
    split <;> simp
  simp only
  generalize (if (x.port st).bridged = true then passUp st (heartbeatKind :: content) x else x) = y at relayed ⊢
  rw [← relayed]
  split
  · rfl
  · split <;> simp

theorem kept_scanFrame {st : Station} {content : List Byte} (h : execScanFrame st content s = .next t) :
    JournalKept s t := by
  refine kept_stationEvent (fun x => ?_) h
  split
  · simp
  · split <;> simp

theorem kept_keyFrame {st : Station} {content : List Byte} (h : execKeyFrame st content s = .next t) :
    JournalKept s t := by
  refine kept_stationEvent (fun x => ?_) h
  split
  · simp
  · split <;> simp

theorem kept_unknownKind {st : Station} {kind : Byte} {content : List Byte}
    (h : execUnknownKindStationFrame st kind content s = .next t) : JournalKept s t := by
  refine kept_stationEvent (fun x => ?_) h
  split <;> simp

theorem kept_watchExpiry {st : Station} (h : execHeartbeatWatchExpiry st s = .next t) : JournalKept s t := by
  refine kept_guardedEvent (fun _ => ?_) h
  split
  · exact kept_of_ledger rfl
  · exact (kept_loseStation st s).trans (kept_closeIfDone _)

theorem kept_scan {takes : State → Input → Bool} (h : decision takes scanDecision s = .next t) : JournalKept s t :=
  kept_decision kept_scanDecision h

theorem kept_endKey (h : execEndKey s = .next t) : JournalKept s t := by
  refine kept_keyDecision (fun st w x => ?_) h
  split
  · refine JournalKept.trans ((kept_closeSession st .normal x).quiet ?_) (kept_closeIfDone _)
    simp only [ledger_sound, ledger_showIfLost]
    split <;> simp
  · exact kept_of_ledger (ledger_showUnwiped _ _ _)

theorem kept_cancelKey (h : execCancelKey s = .next t) : JournalKept s t := by
  refine kept_keyDecision (fun st w x => ?_) h
  split
  · exact ((kept_cancelSession st x).quiet (ledger_showStanding _ st)).trans (kept_closeIfDone _)
  · exact kept_of_ledger (by simp)

theorem kept_returnKey (h : execReturnKey s = .next t) : JournalKept s t := by
  refine kept_keyDecision (fun st w x => ?_) h
  split
  · exact kept_of_ledger (ledger_showUnwiped _ _ _)
  · exact ((kept_closeSession st .returns x).quiet (by simp)).trans (kept_closeIfDone _)

theorem kept_checkoutKey (h : execCheckoutKey s = .next t) : JournalKept s t := by
  refine kept_keyDecision (fun st w x => kept_of_ledger ?_) h
  split
  · exact (ledger_showStanding _ _).trans (ledger_setSession _ _ rfl)
  · exact ledger_showUnwiped _ _ _

theorem kept_reprintKey (h : execReprintKey s = .next t) : JournalKept s t := by
  refine kept_keyDecision (fun st w x => kept_of_ledger ?_) h
  simp only
  split <;> simp

/-! ### Timed events -/

theorem kept_tickEvent (s : State) : JournalKept s (tickEvent s) := by
  have ticked : JournalKept s (autoCloseTest s (tickTimers (tickClock s))) :=
    (kept_autoCloseTest s _).after ((ledger_tickTimers _).trans (ledger_tickClock s))
  unfold tickEvent
  simp only
  split
  · exact ticked.trans (kept_autoOpenTest _)
  · exact ticked

theorem kept_clockTick (h : execClockTick s = .next t) : JournalKept s t := by
  unfold execClockTick at h
  split at h
  · exact kept_partEvent (kept_tickEvent s) h
  · obtain rfl := Host.Outcome.next.inj h
    exact kept_of_ledger (ledger_tickClock s)

theorem kept_sweepStep (h : execSweepStep s = .next t) : JournalKept s t := by
  refine kept_partEvent ?_ h
  unfold sweepOne
  split
  · exact JournalKept.refl s
  next q day visited _ =>
  split
  · exact JournalKept.refl s
  · next e rest _ => exact (kept_sweepEntry day e s).quiet rfl

theorem kept_endOpening (q : Option Req) (day : Nat) (s : State) : JournalKept s (endOpening q day s) := by
  have recorded := kept_appendSystem (draft .dayOpen) s
  unfold endOpening
  simp only
  generalize appendSystem (draft .dayOpen) s = x at recorded ⊢
  have opened : JournalKept s { x with day := { x.day with state := .opened, openDay := some day }, slot := none } :=
    recorded.quiet rfl
  refine JournalKept.quiet ?_ ((ledger_showStandingAll _).trans (ledger_finalReply _ _ _ _))
  split
  · exact opened.quiet (ledger_raiseBoth _ _)
  · exact opened

theorem kept_openEnd (h : execOpenEnd s = .next t) : JournalKept s t := by
  refine kept_partEvent ?_ h
  split
  · exact JournalKept.refl s
  · split
    · exact kept_endOpening _ _ s
    · exact JournalKept.refl s

theorem kept_stageBeginEnd (h : execStageBeginEnd s = .next t) : JournalKept s t := by
  refine kept_partEvent ?_ h
  split
  · exact kept_of_ledger ((ledger_releaseSlot _).trans (ledger_finalReply _ _ _ _))
  · exact JournalKept.refl s

theorem kept_changeOver (s : State) : JournalKept s (changeOver s) := by
  have exchanged : JournalKept s
      { s with
        active := s.staged, staged := Bank.cleared, stagedState := .empty, cache := []
        generation := nextGeneration s.generation } := kept_of_ledger rfl
  exact (exchanged.trans (kept_appendSystem (draft .commit) _)).quiet rfl

theorem kept_commitChangeover (h : execCommitChangeover s = .next t) : JournalKept s t := by
  refine kept_partEvent ?_ h
  split
  · split
    · exact (kept_changeOver s).quiet ((ledger_releaseSlot _).trans (ledger_finalReply _ _ _ _))
    · exact kept_of_ledger ((ledger_releaseSlot _).trans (ledger_finalReply _ _ _ _))
  · exact JournalKept.refl s

theorem kept_scrubBlock (h : execScrubBlock s = .next t) : JournalKept s t := by
  refine kept_partEvent ?_ h
  split
  · split
    · simp only
      split
      · refine kept_of_ledger ((ledger_releaseSlot _).trans ((ledger_finalReply _ _ _ _).trans ?_))
        exact ledger_finishScrub _
      · exact kept_of_ledger rfl
    · exact JournalKept.refl s
  · exact JournalKept.refl s

/-! ### Management lines -/

theorem kept_lineTransmit {l : Line} (h : execLineTransmit l s = .next t) : JournalKept s t := by
  refine kept_partEvent ?_ h
  simp only
  split
  · exact kept_warmStart s
  · exact kept_of_ledger (ledger_setLine _ _ _)

/-- R152, R155, R177: an uplink that leaves ACTIVE cuts the upload off. -/
theorem kept_enterInactive (l : Line) (state : LineState) (w : Option Nat) (s : State) :
    JournalKept s (enterInactive l state w s) := by
  have entered (c : LineCtl) : JournalKept s (s.setLine l c) := kept_of_ledger (ledger_setLine _ _ _)
  unfold enterInactive
  simp only
  split
  · cases l with
    | uplink => exact ((entered _).trans (kept_cutUpload _)).quiet (ledger_raise _ _ _)
    | supervisor => exact (entered _).quiet (ledger_endBridges _)
  · exact entered _

theorem kept_livenessExpiry {l : Line} (h : execLivenessExpiry l s = .next t) : JournalKept s t := by
  refine kept_guardedEvent (fun _ => ?_) h
  have down := kept_enterInactive l .down none s
  simp only
  split
  · exact down.trans (kept_warmStart _)
  · exact down

theorem kept_passDown {n : Nat} {body : List Byte} (h : execPassDown n body s = .next t) : JournalKept s t := by
  refine kept_lineEvent (fun x => kept_of_ledger ?_) h
  split
  · split
    · exact ledger_joinPass _ _ _
    · rfl
  · rfl

theorem kept_unknownRequest {q : Req} {code : Option Byte} (h : execUnknownRequestName q code s = .next t) :
    JournalKept s t := by
  unfold execUnknownRequestName at h
  simp only at h
  refine kept_lineEvent (fun x => kept_of_ledger ?_) h
  simp only [ledger_answer, ledger_clearLastError]
  split <;> simp

/-- R178: a HELLO on the uplink cuts an upload off. -/
theorem kept_acceptHello (q : Req) (wished : FeatureSet) (s : State) : JournalKept s (acceptHello q wished s) := by
  unfold acceptHello
  simp only
  refine JournalKept.quiet ?_ ((ledger_answer _ _ _).trans (ledger_setLine _ _ _))
  split
  · exact kept_cutUpload s
  · exact JournalKept.refl s

theorem kept_hello {q : Req} {c : Content HelloParams} (h : execHello q c s = .next t) : JournalKept s t := by
  refine kept_lineEvent (fun x => ?_) h
  split
  · exact kept_of_ledger (ledger_answer _ _ _)
  · split
    · exact kept_acceptHello q _ x
    · exact (kept_enterInactive _ _ _ x).quiet (ledger_answer _ _ _)

theorem kept_unlock {q : Req} {c : Content Key} (h : execUnlock q c s = .next t) : JournalKept s t := by
  refine kept_quietRequest (fun k x => ?_) h
  split
  · rfl
  · split <;> simp

theorem kept_setKey {q : Req} {c : Content Key} (h : execSetKey q c s = .next t) : JournalKept s t := by
  refine kept_quietRequest (fun k x => ?_) h
  simp only [ledger_setMark]
  rfl

theorem kept_ackAttention {q : Req} {c : Content (Named CauseSet)} (h : execAckAttention q c s = .next t) :
    JournalKept s t := by
  refine kept_quietRequest (fun p x => ?_) h
  split <;> simp

theorem kept_setAttentionMask {q : Req} {c : Content (Named CauseSet)} (h : execSetAttentionMask q c s = .next t) :
    JournalKept s t := by
  refine kept_quietRequest (fun p x => ?_) h
  split <;> simp

theorem kept_readNote {q : Req} {c : Content ReadNoteTarget} (h : execReadNote q c s = .next t) :
    JournalKept s t := by
  refine kept_quietRequest (fun p x => ?_) h
  cases p with
  | addressed => exact ledger_setNoteTo _ _ _
  | slips => rfl
  | other => rfl

theorem ledger_postNoteRule (l : Line) (p : PostNoteParams) (x : State) :
    ledger (postNoteRule l p x).1 = ledger x := by
  unfold postNoteRule
  split
  · rfl
  split
  · rfl
  · rfl
  · split
    · rfl
    split
    · rfl
    · exact ledger_postTo _ _ _
  · split
    · rfl
    split
    · rfl
    · exact ledger_postTo _ _ _

theorem kept_postNote {q : Req} {c : Content PostNoteParams} (h : execPostNote q c s = .next t) : JournalKept s t :=
  kept_requestEvent (fun p x => kept_of_ledger ((ledger_answer _ _ _).trans (ledger_postNoteRule _ p x))) h

theorem kept_bridge {q : Req} {c : Content Nat} (h : execBridge q c s = .next t) : JournalKept s t := by
  refine kept_quietRequest (fun n x => ?_) h
  split
  · rfl
  split
  · split <;> simp
  · rfl

theorem kept_unbridge {q : Req} {c : Content Nat} (h : execUnbridge q c s = .next t) : JournalKept s t := by
  refine kept_quietRequest (fun n x => ?_) h
  split
  · rfl
  split
  · split <;> simp
  · rfl

theorem kept_restart {q : Req} {c : Content Unit} (h : execRestart q c s = .next t) : JournalKept s t := by
  refine kept_quietRequest (fun _ x => ?_) h
  rfl

/-! ### The journal's requests -/

/-- An upload comes to be in flight that ends within the journal. -/
theorem kept_withUpload {u : Upload} (within : u.endPoint ≤ s.journal.nextSeq) :
    JournalKept s { s with upload := some u } := by
  intro sound
  obtain ⟨ring, claims, lists, -⟩ := (journalSound_iff s).mp sound
  refine (journalSound_iff _).mpr ⟨ring, claims, lists, fun v hv => ?_⟩
  obtain rfl := Option.some.inj hv
  exact within

theorem kept_uploadRule (q : Req) (n : Nat) (s : State) : JournalKept s (uploadRule q n s) := by
  unfold uploadRule
  split
  · exact kept_of_ledger (ledger_answer _ _ _)
  split
  · exact kept_of_ledger (ledger_answer _ _ _)
  split
  · exact kept_of_ledger (ledger_answer _ _ _)
  simp only
  split
  · exact (kept_withUpload (Nat.min_le_right _ _)).trans (kept_endUpload _)
  · exact kept_withUpload (Nat.min_le_right _ _)

theorem sendRecord_eq (u : Upload) (s : State) :
    ∃ c, sendRecord u s =
      { s with
        uplink := c, journal := { s.journal with sendMark := s.journal.sendMark + 1 }
        upload := some { u with sent := u.sent + 1 } } := by
  unfold sendRecord
  simp only
  split
  · exact ⟨_, rfl⟩
  · exact ⟨_, rfl⟩

/-- R151: a record is sent while the mark stands before the upload's end point. -/
theorem kept_sendRecord {u : Upload} (flight : s.upload = some u) (before : s.journal.sendMark < u.endPoint) :
    JournalKept s (sendRecord u s) := by
  obtain ⟨c, sent⟩ := sendRecord_eq u s
  rw [sent]
  intro sound
  obtain ⟨ring, claims, lists, upload⟩ := (journalSound_iff s).mp sound
  have within : u.endPoint ≤ s.journal.nextSeq := upload u flight
  have marked := ring.mark (m := s.journal.sendMark + 1) (Nat.le_succ_of_le ring.2.1) (Nat.le_trans before within)
  refine (journalSound_iff _).mpr ⟨marked, claims, lists, fun v hv => ?_⟩
  obtain rfl := Option.some.inj hv
  exact within

theorem kept_recordSend (h : execRecordSend s = .next t) : JournalKept s t := by
  refine kept_guardedEvent (fun may => ?_) h
  split
  · exact JournalKept.refl s
  next u flight =>
  simp only [State.maySendRecord, flight, Bool.and_eq_true, decide_eq_true_eq] at may
  have sent := kept_sendRecord flight may.1
  simp only
  split
  · exact sent.trans (kept_endUpload _)
  · exact sent

theorem kept_releaseTo {limit : Nat} (least : s.journal.oldest ≤ limit)
    (sent : 1 ≤ s.journal.sendMark → limit < s.journal.sendMark) : JournalKept s (releaseTo limit s) := by
  intro sound
  obtain ⟨ring, claims, lists, upload⟩ := (journalSound_iff s).mp sound
  exact (journalSound_iff _).mpr ⟨ring.release least (sent (ring.1.trans ring.2.1)), claims, lists, upload⟩

theorem kept_releaseRule (seq : Nat) (s : State) : JournalKept s (releaseRule seq s).1 := by
  have sent : 1 ≤ s.journal.sendMark →
      (if decide (s.journal.sendMark ≤ seq) = true then s.journal.sendMark - 1 else seq) < s.journal.sendMark := by
    intro some_sent
    split
    · exact Nat.sub_lt some_sent Nat.one_pos
    · next unsent => exact Nat.lt_of_not_le (by simpa using unsent)
  unfold releaseRule
  simp only
  generalize (if decide (s.journal.sendMark ≤ seq) = true then s.journal.sendMark - 1 else seq) = limit at sent ⊢
  split
  · exact JournalKept.refl s
  split
  · exact JournalKept.refl s
  · next least => exact kept_releaseTo (Nat.le_of_not_lt least) sent

theorem kept_release {q : Req} {c : Content Nat} (h : execRelease q c s = .next t) : JournalKept s t := by
  refine kept_request (fun seq x => ?_) h
  split
  · exact JournalKept.refl x
  · exact kept_releaseRule seq x

/-! ### The desk's requests -/

theorem kept_openDesk {q : Req} {c : Content Unit} (h : execOpenDesk q c s = .next t) : JournalKept s t := by
  refine kept_quietRequest (fun _ x => ?_) h
  split
  · rfl
  split
  · rfl
  · exact ledger_beginOpening x _

theorem kept_closeDesk {q : Req} {c : Content Unit} (h : execCloseDesk q c s = .next t) : JournalKept s t := by
  refine kept_request (fun _ x => ?_) h
  split
  · exact JournalKept.refl x
  split
  · exact kept_enterClosing x
  · exact JournalKept.refl x
  · exact JournalKept.refl x

theorem kept_takeTime (i : Instant) (s : State) : JournalKept s (takeTime i s).1 := by
  unfold takeTime
  split
  · refine (kept_afterStep s _).after ?_
    split
    · rfl
    · exact ledger_disarmAll s
  split
  · exact kept_of_ledger (ledger_dropHeld s)
  split
  · exact ((kept_recordedStep i _).after (ledger_dropHeld s)).trans (kept_afterStep s _)
  · exact kept_of_ledger rfl

theorem kept_timeRule (p : TimeParams) (s : State) : JournalKept s (timeRule p s).1 := by
  unfold timeRule
  split
  · exact JournalKept.refl s
  · exact kept_takeTime _ s

theorem kept_time {q : Req} {c : Content TimeParams} (h : execTime q c s = .next t) : JournalKept s t := by
  refine kept_request (fun p x => ?_) h
  split
  · exact JournalKept.refl x
  · exact kept_timeRule p x

theorem kept_setTime {q : Req} {c : Content TimeParams} (h : execSetTime q c s = .next t) : JournalKept s t := by
  refine kept_request (fun p x => ?_) h
  split
  · exact JournalKept.refl x
  split
  · exact JournalKept.refl x
  · exact kept_timeRule p x

theorem kept_stageBegin {q : Req} {c : Content Unit} (h : execStageBegin q c s = .next t) : JournalKept s t := by
  refine kept_quietRequest (fun _ x => ?_) h
  split <;> rfl

theorem kept_commit {q : Req} {c : Content CommitParams} (h : execCommit q c s = .next t) : JournalKept s t := by
  refine kept_quietRequest (fun _ x => ?_) h
  simp only
  split
  · rfl
  split
  · rfl
  split
  · rfl
  split <;> rfl

theorem kept_disableStations (s : State) : JournalKept s (disableStations s) :=
  kept_foldl (fun x st => by
    split
    · exact kept_loseStation st x
    · exact JournalKept.refl x) stations s

theorem kept_settingsRule (p : SettingsParams) (s : State) : JournalKept s (settingsRule p s).1 := by
  unfold settingsRule
  split
  · exact JournalKept.refl s
  · next record _ =>
    have stored : JournalKept s { s with settings := record } := kept_of_ledger rfl
    have closed := (stored.trans (kept_disableStations _)).trans (kept_closeIfDone _)
    generalize closeIfDone (disableStations { s with settings := record }) = x at closed
    exact closed.trans (kept_autoOpenTest x)

theorem upload_endUpload (s : State) : (endUpload s).upload = none := by
  unfold endUpload
  split
  · assumption
  · simp [sendReply]

/-- R198: the journal is emptied, its sequences going on, and the claims go with the sessions. -/
theorem kept_wipeEvent (q : Req) (s : State) : JournalKept s (wipeEvent q s) := by
  intro sound
  obtain ⟨⟨first, sent, unsent, -⟩, -⟩ := (journalSound_iff _).mp (kept_endUpload s sound)
  have wiped : JournalSound (wipeTables (endUpload s)) := by
    refine journalSound_emptied ⟨first.trans (sent.trans unsent), le_rfl, le_rfl, ?_, trivial, ?_⟩ rfl rfl
      (upload_endUpload s)
    · exact (Nat.sub_self _).symm
    · show (endUpload s).journal.nextSeq - (endUpload s).journal.nextSeq + 0 ≤ ringSlots
      omega
  have recorded := (kept_appendSystem (draft .wiped) _).after (ledger_showStandingAll (wipeTables (endUpload s))) wiped
  unfold wipeEvent
  simp only
  generalize appendSystem (draft .wiped) (showStandingAll (wipeTables (endUpload s))) = x at recorded ⊢
  exact kept_of_ledger (s := x) rfl recorded

theorem kept_wipe {q : Req} {c : Content Unit} (h : execWipe q c s = .next t) : JournalKept s t := by
  refine kept_request (fun _ x => ?_) h
  split
  · exact JournalKept.refl x
  · exact kept_wipeEvent q x

/-! ### The supplies and the pin -/

theorem kept_powerUp (h : execPowerUp s = .next t) : JournalKept s t := by
  unfold execPowerUp at h
  split at h
  · cases h
    exact JournalKept.refl s
  · obtain rfl := Host.Outcome.next.inj h
    have powered : JournalKept s { s with powered := true } := kept_of_ledger rfl
    split
    · exact powered
    · exact powered.trans (kept_start _)

theorem kept_backupFail (h : execBackupFail s = .next t) : JournalKept s t := by
  obtain rfl := Host.Outcome.next.inj h
  split
  · exact JournalKept.refl s
  · exact kept_of_ledger rfl

theorem kept_resetRelease (h : execResetRelease s = .next t) : JournalKept s t := by
  unfold execResetRelease at h
  split at h
  · obtain rfl := Host.Outcome.next.inj h
    have released : JournalKept s { s with resetAsserted := false } := kept_of_ledger rfl
    split
    · exact released.trans (kept_start _)
    · exact released
  · cases h
    exact JournalKept.refl s

/-! ### Every command -/

theorem kept_exec {i : Instr} (h : exec i s = .next t) : JournalKept s t := by
  cases i with
  | heartbeat st content => exact kept_heartbeat h
  | scanFrame st content => exact kept_scanFrame h
  | keyFrame st content => exact kept_keyFrame h
  | stationFrameGap st next =>
    exact kept_partEvent (kept_of_ledger (ledger_setPort _ _ _)) (show execStationFrameGap st next s = .next t from h)
  | stationTransmit st =>
    exact kept_partEvent (kept_of_ledger (ledger_setPort _ _ _)) (show execStationTransmit st s = .next t from h)
  | borrowerScan => exact kept_scan h
  | itemScan => exact kept_scan h
  | staffScan => exact kept_scan h
  | endKey => exact kept_endKey h
  | cancelKey => exact kept_cancelKey h
  | returnKey => exact kept_returnKey h
  | checkoutKey => exact kept_checkoutKey h
  | reprintKey => exact kept_reprintKey h
  | idleTimeout st =>
    exact kept_guardedEvent (fun _ => kept_closeSilently st s) (show execIdleTimeout st s = .next t from h)
  | armLapse st => exact kept_quietEvent (ledger_disarm s st) (show execArmLapse st s = .next t from h)
  | heartbeatWatchExpiry st => exact kept_watchExpiry h
  | slipSend st => exact kept_quietEvent (ledger_printOne s st) (show execSlipSend st s = .next t from h)
  | graceExpiry =>
    have expired : JournalKept s { s with day := { s.day with graceExpired := true } } := kept_of_ledger rfl
    exact kept_guardedEvent (fun _ => expired.trans (kept_closeIfDone _)) (show execGraceExpiry s = .next t from h)
  | graceSessionClose st =>
    exact kept_guardedEvent (fun _ => kept_closeSilently st s) (show execGraceSessionClose st s = .next t from h)
  | clockTick => exact kept_clockTick h
  | autoOpen => exact kept_quietEvent (ledger_beginOpening s none) (show execAutoOpen s = .next t from h)
  | sweepStep => exact kept_sweepStep h
  | openEnd => exact kept_openEnd h
  | stageBeginEnd => exact kept_stageBeginEnd h
  | commitChangeover => exact kept_commitChangeover h
  | scrubBlock => exact kept_scrubBlock h
  | recordSend => exact kept_recordSend h
  | lineFrameGap l next =>
    exact kept_quietEvent (ledger_setLine _ _ _) (show execLineFrameGap l next s = .next t from h)
  | lineTransmit l => exact kept_lineTransmit h
  | livenessExpiry l => exact kept_livenessExpiry h
  | passDown station body => exact kept_passDown h
  | hello q c => exact kept_hello h
  | nop q c => exact kept_readRequest (show execNop q c s = .next t from h)
  | status q c => exact kept_readRequest (show execStatus q c s = .next t from h)
  | unlock q c => exact kept_unlock h
  | wipe q c => exact kept_wipe h
  | ackAttention q c => exact kept_ackAttention h
  | setAttentionMask q c => exact kept_setAttentionMask h
  | readNote q c => exact kept_readNote h
  | readBorrower q c => exact kept_readRequest h
  | readItem q c => exact kept_readRequest h
  | readOlc q c => exact kept_readRequest h
  | readRules q c => exact kept_readRequest h
  | readCalendar q c => exact kept_readRequest h
  | readTemplate q c => exact kept_readRequest h
  | readSettings q c => exact kept_readRequest (show execReadSettings q c s = .next t from h)
  | putBorrower q c => exact kept_tableRequest h
  | delBorrower q c => exact kept_tableRequest h
  | adjustBorrower q c => exact kept_tableRequest h
  | putItem q c => exact kept_tableRequest h
  | delItem q c => exact kept_tableRequest h
  | addHold q c => exact kept_tableRequest h
  | cancelHold q c => exact kept_tableRequest h
  | putPrefix q c => exact kept_tableRequest h
  | delPrefix q c => exact kept_tableRequest h
  | putStaff q c => exact kept_tableRequest h
  | delStaff q c => exact kept_tableRequest h
  | putCategory q c => exact kept_tableRequest h
  | delCategory q c => exact kept_tableRequest h
  | putClass q c => exact kept_tableRequest h
  | delClass q c => exact kept_tableRequest h
  | putRule q c => exact kept_tableRequest h
  | delRule q c => exact kept_tableRequest h
  | putProfile q c => exact kept_calendarWrite h
  | delProfile q c => exact kept_calendarWrite h
  | putWeekday q c => exact kept_calendarWrite h
  | delWeekday q c => exact kept_calendarWrite h
  | putException q c => exact kept_calendarWrite h
  | delException q c => exact kept_calendarWrite h
  | putTemplate q c => exact kept_tableRequest h
  | delTemplate q c => exact kept_tableRequest h
  | putText q c => exact kept_tableRequest h
  | delText q c => exact kept_tableRequest h
  | upload q c => exact kept_requestEvent (kept_uploadRule q) h
  | release q c => exact kept_release h
  | readJournal q c => exact kept_readRequest h
  | openDesk q c => exact kept_openDesk h
  | closeDesk q c => exact kept_closeDesk h
  | time q c => exact kept_time h
  | setTime q c => exact kept_setTime h
  | stageBegin q c => exact kept_stageBegin h
  | commit q c => exact kept_commit h
  | setSettings q c => exact kept_request kept_settingsRule h
  | setKey q c => exact kept_setKey h
  | bridge q c => exact kept_bridge h
  | unbridge q c => exact kept_unbridge h
  | restart q c => exact kept_restart h
  | restartWarmStart =>
    exact kept_guardedEvent (fun _ => kept_warmStart s) (show execRestartWarmStart s = .next t from h)
  | postNote q c => exact kept_postNote h
  | powerUp => exact kept_powerUp h
  | powerFail => cases h; exact kept_of_ledger rfl
  | backupFail => exact kept_backupFail h
  | resetAssert => cases h; exact kept_of_ledger rfl
  | resetRelease => exact kept_resetRelease h
  | ignoreOrCcRefusedScan => exact kept_scan h
  | unknownKindStationFrame st kind content => exact kept_unknownKind h
  | droppedGoodLineFrame l kind =>
    exact kept_quietEvent (ledger_goodLineFrame s l) (show execDroppedGoodLineFrame l kind s = .next t from h)
  | unknownRequestName q code => exact kept_unknownRequest h

end Sys2Proof.Ledgers

open Sys2Proof Sys2Proof.Machine Sys2Proof.Ledgers

/-- Settles O4: a case per command; a record comes only where there is room for it, one that consumes a claim takes the
claim's room, a list grows with its claim and ends with its claims spent, the mark stays between its bounds, and an
operation of any other kind leaves journal, upload and lists alone. -/
theorem everyStepKeepsTheJournalSound : Obligations.EveryStepKeepsTheJournalSound := by
  unfold Obligations.EveryStepKeepsTheJournalSound
  intro s t sound h
  unfold step at h
  split at h
  · cases h
    exact sound
  · next i rest _ => exact (kept_exec (s := s.withPending rest) h).after (ledger_withPending s rest) sound
end

