-- ==== Sys2Proof/Proofs/Uploads.lean ====
section
/-! SUPPORT. UPLOAD's rule branch by branch, and the sending of its records (R150, R151). -/

namespace Sys2Proof.Ledgers

open Sys2Proof.Machine

variable {s : State} {q : Req} {n : Nat} {u : Upload} {r : Record}

/-! ### What a request's tests leave -/

theorem journal_received (q : Req) (name : ReqName) (s : State) : (received q name s).journal = s.journal :=
  congrArg Ledger.journal (ledger_received s q name)

theorem upload_received (q : Req) (name : ReqName) (s : State) : (received q name s).upload = s.upload :=
  congrArg Ledger.upload (ledger_received s q name)

theorem day_received (q : Req) (name : ReqName) (s : State) : (received q name s).day = s.day := by
  obtain ⟨c, h⟩ := Desk.received_eq q name s
  rw [h, setLine_day]

theorem granted_received (q : Req) (name : ReqName) (s : State) :
    (received q name s).uplink.granted = s.uplink.granted := by
  obtain ⟨line, tag⟩ := q
  unfold received
  cases line <;> cases name.isBasic <;> rfl

/-! ### UPLOAD -/

theorem upload_taken (admitted : s.admits q.line) :
    exec (.upload q (.shaped n)) s = .next (settle s (uploadRule q n (received q .upload s))) := by
  obtain ⟨⟨running, still, active⟩, unlocked⟩ := admitted
  exact (show execUpload q (.shaped n) s = _ from
    requestEvent_taken running still (gate_open active (.inr unlocked) (by simp)))

theorem uploadRule_supervisor (h : q.line = .supervisor) :
    uploadRule q n s = answer q .upload (s, Reply.bare .wrongState) := if_pos h

/-- The upload that a request brings into flight (R150). -/
def uploadOf (s : State) (q : Req) (n : Nat) : Upload :=
  { tag := q.tag, endPoint := min (s.journal.sendMark + clamp 1 256 n) s.journal.nextSeq, clamped := clamps 1 256 n
    sent := 0 }

theorem clamps_iff (lo hi v : Nat) : clamps lo hi v = decide (clamp lo hi v ≠ v) := by
  rw [clamps, decide_eq_decide]
  unfold clamp
  split
  · omega
  · split <;> omega

theorem uploadOf_received (q : Req) (name : ReqName) (s : State) (n : Nat) :
    uploadOf (received q name s) q n =
      { tag := q.tag, endPoint := min (s.journal.sendMark + clamp 1 256 n) s.journal.nextSeq
        clamped := decide (clamp 1 256 n ≠ n), sent := 0 } := by
  rw [uploadOf, journal_received, clamps_iff]

/-- An upload in flight ends with its final reply (R151). -/
theorem endUpload_flight (flight : s.upload = some u) :
    endUpload s =
      sendReply { line := .uplink, tag := u.tag } .upload (uploadReply u s.journal) { s with upload := none } := by
  simp [endUpload, flight]

section
variable (up : q.line = .uplink)

include up

theorem uploadRule_busy (h : s.upload ≠ none) : uploadRule q n s = answer q .upload (s, Reply.bare .busy) := by
  simp [uploadRule, up, Option.isSome_iff_ne_none, h]

theorem uploadRule_openDesk (h : s.upload = none)
    (may : ¬(s.day.state = .closed ∨ s.uplink.granted.trickle = true)) :
    uploadRule q n s = answer q .upload (s, Reply.bare .wrongState) := by
  simp [uploadRule, up, h, (not_or.mp may).1, (not_or.mp may).2]

theorem uploadRule_begins (h : s.upload = none) (may : s.day.state = .closed ∨ s.uplink.granted.trickle = true) :
    uploadRule q n s =
      if (uploadOf s q n).endPoint = s.journal.sendMark then endUpload { s with upload := some (uploadOf s q n) }
      else { s with upload := some (uploadOf s q n) } := by
  have allowed : ¬(s.day.state ≠ .closed ∧ s.uplink.granted.trickle = false) := by
    rintro ⟨other, denied⟩
    simp [other, denied] at may
  simp only [uploadRule, up, h]
  rw [if_neg (by simp), if_neg (by simp), if_neg allowed]
  rfl

/-- R151: an upload that ends where it begins leaves its final reply alone. -/
theorem endUpload_begun (h : s.upload = none) :
    endUpload { s with upload := some (uploadOf s q n) } =
      sendReply q .upload
        { status := okOrPartial (clamps 1 256 n), results := .uploaded 0 (s.journal.sendMark - 1) } s := by
  obtain ⟨line, tag⟩ := q
  obtain rfl : line = .uplink := up
  have none_left : ({ s with upload := none } : State) = s := by rw [← h]
  rw [endUpload_flight rfl]
  exact congrArg _ none_left

end

/-- A request that is taken and answered later ends its event where it stands. -/
theorem settle_withUpload (q : Req) (name : ReqName) (u : Option Upload) (s : State) :
    settle s { received q name s with upload := u } = { received q name s with upload := u } := by
  obtain ⟨line, tag⟩ := q
  unfold received
  cases line <;> cases name.isBasic <;> exact settle_quiet rfl rfl rfl rfl rfl rfl rfl

/-! ### RECORD_SEND -/

/-- The state once the record at the mark has been handed to an idle transmitter (R151). -/
def sentOne (s : State) (u : Upload) (r : Record) : State :=
  { s with
    journal := { s.journal with sendMark := s.journal.sendMark + 1 }, upload := some { u with sent := u.sent + 1 }
    uplink := { s.uplink with sendList := [.record u.tag r] } }

section
variable (idle : s.uplink.sendList = []) (found : s.journal.record s.journal.sendMark = some r)

include idle found

theorem sendRecord_found : sendRecord u s = sentOne s u r := by
  simp only [sendRecord, found, sendFrame, State.setLine, State.line, idle, List.nil_append]
  rfl

theorem recordSend_taken (running : s.running = true) (flight : s.upload = some u)
    (before : s.journal.sendMark < u.endPoint) :
    exec .recordSend s =
      .next (settle s
        (if s.journal.sendMark + 1 = u.endPoint then endUpload (sentOne s u r) else sentOne s u r)) := by
  have may : s.maySendRecord = true := by simp [State.maySendRecord, flight, before, idle]
  refine (show execRecordSend s = _ from guardedEvent_taken running may).trans ?_
  simp only [flight, sendRecord_found idle found]
  rfl

end

/-- The final reply of an upload stands behind its last record. -/
theorem endUpload_sentOne (s : State) (u : Upload) (r : Record) :
    endUpload (sentOne s u r) =
      { s with
        journal := { s.journal with sendMark := s.journal.sendMark + 1 }, upload := none
        uplink :=
          { s.uplink with
            sendList :=
              [.record u.tag r,
                .reply u.tag
                  { status := okOrPartial u.clamped, results := .uploaded (u.sent + 1) s.journal.sendMark }] } } := by
  rw [endUpload_flight (u := { u with sent := u.sent + 1 }) rfl]
  have kept : (okOrPartial u.clamped).isRefusal = false := by cases u.clamped <;> rfl
  simp only [sendReply, uploadReply, sentOne, State.setLine, State.line, kept]
  rfl

end Sys2Proof.Ledgers

open Sys2Proof Sys2Proof.Machine Sys2Proof.Ledgers

/-- Settles O53: the tests of UPLOAD's rule one after the other, and the two ends of a record's sending. -/
theorem uploadsSendRecordsInOrder : Obligations.UploadsSendRecordsInOrder := by
  unfold Obligations.UploadsSendRecordsInOrder
  refine ⟨fun s q n admitted => ⟨?supervisor, ?busy, ?refused, ?begins, ?nothing⟩,
    fun s u r running flight idle before least found => ⟨?oneMore, ?theLast⟩⟩
  case supervisor =>
    intro other
    rw [upload_taken admitted, uploadRule_supervisor other]
    rfl
  case busy =>
    intro up busy
    rw [upload_taken admitted, uploadRule_busy up (by rwa [upload_received])]
    rfl
  case refused =>
    intro up free may
    rw [upload_taken admitted, uploadRule_openDesk up (by rwa [upload_received])
      (by rwa [day_received, granted_received])]
    rfl
  case begins =>
    intro up free may some_records
    have stays : (uploadOf (received q .upload s) q n).endPoint ≠ (received q .upload s).journal.sendMark := by
      rw [uploadOf_received, journal_received]
      exact some_records
    rw [upload_taken admitted, uploadRule_begins up (by rwa [upload_received])
      (by rwa [day_received, granted_received]), if_neg stays, settle_withUpload, uploadOf_received]
    rfl
  case nothing =>
    intro up free may no_record
    have none_left : (received q .upload s).upload = none := by rwa [upload_received]
    have ends : (uploadOf (received q .upload s) q n).endPoint = (received q .upload s).journal.sendMark := by
      rw [uploadOf_received, journal_received]
      exact no_record
    rw [upload_taken admitted, uploadRule_begins up none_left (by rwa [day_received, granted_received]), if_pos ends,
      endUpload_begun up none_left, journal_received, clamps_iff, okOrPartial]
    simp only [decide_eq_true_eq, ite_not]
    rfl
  case oneMore =>
    intro more
    rw [recordSend_taken idle ((if_pos least).trans found) running flight before, if_neg (Nat.ne_of_lt more)]
    exact congrArg _ (settle_quiet rfl rfl rfl rfl rfl rfl rfl)
  case theLast =>
    intro last
    rw [recordSend_taken idle ((if_pos least).trans found) running flight before, if_pos last, endUpload_sentOne]
    exact congrArg _ (settle_quiet rfl rfl rfl rfl rfl rfl rfl)
end

