-- ==== Sys2Proof/Proofs/Releases.lean ====
section
/-! SUPPORT. RELEASE's rule branch by branch, and what the release of a run of records makes of the borrowers' counts (R51,
R54, R153). -/

namespace Sys2Proof.Ledgers

open Sys2Proof.Machine

variable {s : State} {q : Req} {seq limit : Nat}

/-! ### The counts -/

/-- An entry whose borrower a record counts for is lowered by its release (R51). -/
def lowered (r : Record) (e : Borrower) : Borrower :=
  if r.countsFor e.number = true then { e with pending := e.pending - 1 } else e

/-- An entry whose `pending` is what the given records count. -/
def recounted (records : List Record) (e : Borrower) : Borrower :=
  { e with pending := records.countP (Record.countsFor e.number) }

/-- A retiring entry without a session that is brought to 0 by the release of the given records (R54). -/
abbrev freedBy (records : List Record) (e : Borrower) : Prop :=
  e.retiring = true ∧ e.pending = 0 ∧ e.sessionStation = none ∧ records.any (Record.countsFor e.number) = true

theorem countsFor_iff (n : Number) (r : Record) : r.countsFor n = true ↔ r.flags.counted = true ∧ r.borrower = some n := by
  simp [Record.countsFor]

theorem releaseRecord_borrowers (b : Bank) (r : Record) :
    (releaseRecord b r).borrowers =
      (b.borrowers.map (lowered r)).filter fun e => !(r.countsFor e.number && e.leaves) := by
  unfold releaseRecord
  split
  · next n counted borrower =>
    have counts (m : Number) : r.countsFor m = decide (m = n) := by
      rw [Bool.eq_iff_iff, countsFor_iff, counted, borrower]
      simp [eq_comm]
    have change : lowered r = fun e => if e.number = n then { e with pending := e.pending - 1 } else e :=
      funext fun e => by simp only [lowered, counts, decide_eq_true_eq]
    simp only [Bank.dropIfRetired, Bank.mapBorrower, change, counts]
  · next other =>
    have counts (m : Number) : r.countsFor m = false := by
      rw [← Bool.not_eq_true, countsFor_iff]
      exact fun ⟨counted, borrower⟩ => other m counted borrower
    have same : lowered r = id := funext fun e => if_neg (by simp [counts])
    simp [same, counts]

theorem lowered_number (r : Record) (e : Borrower) : (lowered r e).number = e.number := by
  unfold lowered; split <;> rfl

theorem recounted_lowered (records : List Record) (r : Record) (e : Borrower) :
    recounted records (lowered r e) = recounted records e := by
  unfold lowered; split <;> rfl

/-- An entry leaves at the first of a run of records or at one behind it, as it does for the whole run: when no COUNTED
record is left, and one went. -/
theorem freedBy_cons {r : Record} {l rest : List Record} {e : Borrower}
    (pending : e.pending = (r :: l ++ rest).countP (Record.countsFor e.number)) :
    freedBy (r :: l) (recounted rest e) ↔
      freedBy l (recounted rest e) ∨ r.countsFor e.number = true ∧ (lowered r e).leaves = true := by
  have went : l.any (Record.countsFor e.number) = true ↔ 0 < l.countP (Record.countsFor e.number) := by
    rw [List.countP_pos_iff, List.any_eq_true]
  rw [List.cons_append, List.countP_cons, List.countP_append] at pending
  unfold freedBy
  simp only [recounted, List.any_cons, Bool.or_eq_true, went]
  by_cases counts : r.countsFor e.number = true
  · have left : (lowered r e).leaves = true ↔ e.retiring = true ∧ e.pending - 1 = 0 ∧ e.sessionStation = none := by
      simp [lowered, counts, Borrower.leaves, and_assoc]
    rw [if_pos counts] at pending
    simp only [counts, true_or, and_true, true_and, left]
    constructor
    · rintro ⟨retiring, none_left, session⟩
      by_cases some_went : 0 < l.countP (Record.countsFor e.number)
      · exact .inl ⟨retiring, none_left, session, some_went⟩
      · exact .inr ⟨retiring, by omega, session⟩
    · rintro (⟨retiring, none_left, session, -⟩ | ⟨retiring, none_left, session⟩)
      · exact ⟨retiring, none_left, session⟩
      · exact ⟨retiring, by omega, session⟩
  · simp [counts]

/-- R51, R54: what the release of a run of records leaves of the entries. -/
theorem releases_borrowers {rest : List Record} (l : List Record) : ∀ {b : Bank}, Keeping.Counted (l ++ rest) b →
    (l.foldl releaseRecord b).borrowers =
      (b.borrowers.map (recounted rest)).filter fun e => !decide (freedBy l e) := by
  induction l with
  | nil =>
    intro b counted
    have same : b.borrowers.map (recounted rest) = b.borrowers := by
      refine (List.map_congr_left fun e he => ?_).trans (List.map_id _)
      rw [recounted, ← List.nil_append rest, ← counted.1 e he]
      rfl
    simp [same, freedBy]
  | cons r l ih =>
    intro b counted
    have after : recounted rest ∘ lowered r = recounted rest := funext (recounted_lowered rest r)
    rw [List.foldl_cons, ih (Keeping.counted_release counted), releaseRecord_borrowers]
    simp only [List.filter_map, List.map_map, after, List.filter_filter]
    refine congrArg _ (List.filter_congr fun e he => ?_)
    have one := freedBy_cons (counted.1 e he)
    simp only [Function.comp, lowered_number, one]
    by_cases earlier : freedBy l (recounted rest e)
    · simp [earlier]
    · simp [earlier]

/-- A release changes the ACTIVE bank's borrowers alone. -/
theorem releases_frame (l : List Record) : ∀ b : Bank,
    l.foldl releaseRecord b = { b with borrowers := (l.foldl releaseRecord b).borrowers } := by
  induction l with
  | nil => exact fun b => rfl
  | cons r l ih =>
    intro b
    have one : releaseRecord b r = { b with borrowers := (releaseRecord b r).borrowers } := by
      unfold releaseRecord
      split <;> rfl
    rw [List.foldl_cons, ih]
    generalize (l.foldl releaseRecord (releaseRecord b r)).borrowers = borrowers
    rw [one]

/-! ### RELEASE -/

theorem release_taken (admitted : s.admits q.line) :
    let done := if q.line = .supervisor then (received q .release s, Reply.bare .wrongState)
      else releaseRule seq (received q .release s)
    exec (.release q (.shaped seq)) s = .next (answered q .release done.2 s done.1) :=
  (show execRelease q (.shaped seq) s = _ from Desk.request_admitted admitted)

/-- The last sequence that a RELEASE may free (R153). -/
def releaseLimit (j : Journal) (seq : Nat) : Nat := if j.sendMark ≤ seq then j.sendMark - 1 else seq

theorem releaseRule_below (h : seq < s.journal.oldest) :
    releaseRule seq s = (s, { status := .ok, results := .released s.journal.oldest 0 }) := if_pos h

theorem releaseRule_eq (h : s.journal.oldest ≤ seq) :
    releaseRule seq s =
      if releaseLimit s.journal seq < s.journal.oldest then
        (s, { status := .partiallyTaken, results := .released s.journal.oldest 0 })
      else
        (releaseTo (releaseLimit s.journal seq) s,
          { status := if s.journal.sendMark ≤ seq then .partiallyTaken else .ok
            results := .released (releaseLimit s.journal seq + 1)
              (releaseLimit s.journal seq + 1 - s.journal.oldest) }) := by
  simp only [releaseRule, releaseLimit, okOrPartial, decide_eq_true_eq, if_neg (Nat.not_lt.mpr h)]
  rfl

/-- A release that has been answered: the lines apart, the state is that of the release. -/
theorem answered_releaseTo (q : Req) (name : ReqName) (r : Reply) (s : State) (limit : Nat) :
    ∃ u v, answered q name r s (releaseTo limit (received q name s)) =
      { releaseTo limit s with uplink := u, supervisor := v } := by
  obtain ⟨c, heard⟩ := Desk.received_eq q name s
  obtain ⟨line, tag⟩ := q
  rw [heard]
  cases line <;> exact ⟨_, _, rfl⟩

theorem reply_answered (q : Req) (name : ReqName) (r : Reply) (s0 s : State) :
    LineFrame.reply q.tag r ∈ ((answered q name r s0 s).line q.line).sendList := by
  refine Desk.subset_settle s0 (sendReply q name r s) q.line ?_
  rw [sendReply_line]
  exact List.mem_append_right _ (List.mem_singleton_self _)

end Sys2Proof.Ledgers

open Sys2Proof Sys2Proof.Machine Sys2Proof.Ledgers

/-- Settles O54: the branches of RELEASE's rule; the counts follow by induction over the records that go. -/
theorem releaseFreesSentRecords : Obligations.ReleaseFreesSentRecords := by
  unfold Obligations.ReleaseFreesSentRecords
  intro s q seq admitted
  have rule (up : q.line = .uplink) (done : State × Reply) (h : releaseRule seq (received q .release s) = done) :
      exec (.release q (.shaped seq)) s = .next (answered q .release done.2 s done.1) := by
    refine (release_taken admitted).trans ?_
    rw [if_neg (by simp [up]), h]
  refine ⟨fun other => ?supervisor, fun up below => ?below, fun up least unsent => ?unsent,
    fun up least some_sent => ?frees⟩
  case supervisor =>
    refine (release_taken admitted).trans ?_
    rw [if_pos other]
  case below =>
    refine (rule up _ (releaseRule_below (by rwa [journal_received]))).trans ?_
    rw [journal_received]
  case unsent =>
    refine (rule up _ (releaseRule_eq (by rwa [journal_received]))).trans ?_
    simp only [journal_received]
    rw [if_pos (show releaseLimit s.journal seq < s.journal.oldest from unsent)]
  case frees =>
    have free : ¬releaseLimit s.journal seq < s.journal.oldest := Nat.not_lt.mpr some_sent
    have done := rule up _ (releaseRule_eq (by rwa [journal_received]))
    simp only [journal_received, if_neg free] at done
    refine ⟨_, done, ?_⟩
    have reply := reply_answered q .release
      { status := if s.journal.sendMark ≤ seq then .partiallyTaken else .ok
        results := .released (releaseLimit s.journal seq + 1) (releaseLimit s.journal seq + 1 - s.journal.oldest) }
      s (releaseTo (releaseLimit s.journal seq) (received q .release s))
    rw [up] at reply
    obtain ⟨u, v, rest⟩ := answered_releaseTo q .release
      { status := if s.journal.sendMark ≤ seq then .partiallyTaken else .ok
        results := .released (releaseLimit s.journal seq + 1) (releaseLimit s.journal seq + 1 - s.journal.oldest) }
      s (releaseLimit s.journal seq)
    rw [rest] at reply ⊢
    refine ⟨rfl, reply, fun _ _ counted => ?_, ?_, rfl, rfl, rfl, rfl, rfl, rfl⟩
    · refine releases_borrowers (rest := s.journal.records.drop (releaseLimit s.journal seq + 1 - s.journal.oldest)) _ ?_
      rw [List.take_append_drop]
      exact ((Keeping.pendingSound_iff s).mp counted).1
    · have gone := releases_frame (s.journal.records.take (releaseLimit s.journal seq + 1 - s.journal.oldest)) s.active
      exact (congrArg Bank.items gone :)
end

