-- ==== Sys2Proof/Proofs/ScheduledTests.lean ====
section
/-! SUPPORT. The tests of auto-open and auto-close (R165, R167), the entries into CLOSING and CLOSED (R168) as one equation
each, and the lines of a request's event. -/

namespace Sys2Proof.DeskDay

open Sys2Proof.Machine

variable {s x y : State} {d : Record} {k : Option Slot}

/-! ### Auto-open -/

theorem mayAutoOpen_iff : s.mayAutoOpen = true ↔ scheduledOpening s ∧ s.slot = none := by
  unfold State.mayAutoOpen scheduledOpening State.today State.minute minuteOf
  cases hoursOf s.active s.clock.now.day with
  | none => simp
  | some p =>
    simp only [Bool.and_eq_true, decide_eq_true_eq, Option.isNone_iff_eq_none, Option.some.injEq, exists_eq_left']
    tauto

theorem autoOpenTest_due (due : scheduledOpening s) (free : s.slot = none) :
    autoOpenTest s = { s with slot := some { op := .opening s.clock.now.day none, requester := none } } :=
  if_pos (mayAutoOpen_iff.mpr ⟨due, free⟩)

theorem autoOpenTest_kept (h : s.slot ≠ none ∨ ¬scheduledOpening s) : autoOpenTest s = s := by
  refine if_neg fun due => ?_
  obtain ⟨scheduled, free⟩ := mayAutoOpen_iff.mp due
  exact h.elim (fun taken => taken free) fun other => other scheduled

theorem autoOpenTest_off (off : s.settings.autoOpen = false) : autoOpenTest s = s :=
  autoOpenTest_kept (.inr fun due => by simp [due.1] at off)

/-- A second test finds the slot taken, or the conditions not met as before. -/
theorem autoOpenTest_again (s : State) : autoOpenTest (autoOpenTest s) = autoOpenTest s := by
  by_cases due : scheduledOpening s ∧ s.slot = none
  · rw [autoOpenTest_due due.1 due.2]
    exact autoOpenTest_kept (.inl (Option.some_ne_none _))
  · have kept : autoOpenTest s = s := autoOpenTest_kept (by tauto)
    rw [kept, kept]

theorem openingTested_autoOpenTest (s : State) : openingTested s.slot (autoOpenTest s) := by
  refine ⟨fun free => ?_, fun h => ?_⟩
  · by_cases due : scheduledOpening s
    · rw [autoOpenTest_due due free]
      exact fun _ => rfl
    · rw [autoOpenTest_kept (.inr due)]
      exact fun due' => absurd due' due
  · by_cases due : scheduledOpening s ∧ s.slot = none
    · rw [autoOpenTest_due due.1 due.2] at h ⊢
      exact absurd due.1 (h.resolve_left fun taken => taken due.2)
    · rw [autoOpenTest_kept (by tauto)]

/-- An event that leaves a desk that is not CLOSED leaves the slot. -/
theorem openingTested_open (h : y.day.state ≠ .closed) : openingTested y.slot y :=
  ⟨fun _ due => absurd due.2.1 h, fun _ => rfl⟩

theorem releaseSlot_off (off : s.settings.autoOpen = false) : releaseSlot s = { s with slot := none } :=
  autoOpenTest_off (s := { s with slot := none }) off

/-! ### Auto-close -/

/-- Auto-close is on, and a clock that moves to an instant reaches the close instant of the open day (R167). -/
def reachesClose (s : State) (new : Instant) : Prop :=
  s.settings.autoClose = true ∧ s.day.state = .opened ∧
    ∃ d, s.day.openDay = some d ∧
      let close := d * 86400 + ((hoursOf s.active d).map fun p => p.closeMinute * 60).getD 86400
      s.clock.now.day * 86400 + s.clock.now.second < close ∧ close ≤ new.day * 86400 + new.second

theorem closeInstant_eq (s : State) :
    s.closeInstant = s.day.openDay.map fun d =>
      d * 86400 + ((hoursOf s.active d).map fun p => p.closeMinute * 60).getD 86400 := by
  unfold State.closeInstant
  congr
  funext d
  cases hoursOf s.active d <;> rfl

/-- What auto-close is tested with is as it was, the clock and the borrowers apart. -/
structure SameDay (s x : State) : Prop where
  settings : x.settings = s.settings
  day : x.day.state = s.day.state ∧ x.day.openDay = s.day.openDay
  active : x.active = s.active

theorem beforeClose_iff : s.beforeClose = true ↔ ∃ i, s.closeInstant = some i ∧ s.clock.now.seconds < i := by
  unfold State.beforeClose
  cases s.closeInstant <;> simp

theorem pastClose_iff : s.pastClose = true ↔ ∃ i, s.closeInstant = some i ∧ i ≤ s.clock.now.seconds := by
  unfold State.pastClose
  cases s.closeInstant <;> simp

theorem autoCloses_iff (same : SameDay s x) :
    (x.settings.autoClose = true ∧ x.day.state = .opened ∧ s.beforeClose = true ∧ x.pastClose = true) ↔
      reachesClose s x.clock.now := by
  have instant : x.closeInstant = s.closeInstant := by
    rw [closeInstant_eq, closeInstant_eq, same.day.2, same.active]
  rw [beforeClose_iff, pastClose_iff, instant, closeInstant_eq, same.settings, same.day.1, reachesClose]
  cases s.day.openDay with
  | none => simp
  | some d => simp [Instant.seconds]

theorem autoCloseTest_reaches (same : SameDay s x) (reaches : reachesClose s x.clock.now) :
    autoCloseTest s x = enterClosing x := if_pos ((autoCloses_iff same).mpr reaches)

theorem autoCloseTest_short (same : SameDay s x) (short : ¬reachesClose s x.clock.now) : autoCloseTest s x = x :=
  if_neg fun due => short ((autoCloses_iff same).mp due)

/-! ### The entry into CLOSING -/

/-- The desk-day CLOSING, its grace running (R168). -/
def closingDay (s : State) : Day :=
  { s.day with state := .closing, grace := some (s.settings.closingGrace * 60), graceExpired := false }

/-- The desk-day CLOSED (R168). -/
def closedDay (d : Day) : Day := { d with state := .closed, fresh := false, grace := none, graceExpired := false }

theorem enterClosing_waits (lent : ∃ st : Station, (s.session st).borrower ≠ none) :
    enterClosing s = { s with day := closingDay s } := by
  obtain ⟨st, open_⟩ := lent
  exact if_neg fun done => open_ (Links.anySession_false.mp done.2 st)

theorem enterClosing_ends (idle : ∀ st : Station, (s.session st).borrower = none) :
    enterClosing s = closeDeskDay { s with day := closingDay s } :=
  if_pos ⟨rfl, Links.anySession_false.mpr idle⟩

/-! ### The entry into CLOSED -/

/-- A system record that names no borrower touches the journal alone. -/
theorem appendSystem_journal (nobody : d.borrower = none) (s : State) :
    appendSystem d s = { s with journal := (appendSystem d s).journal } := by
  unfold appendSystem append raisePending
  rw [nobody]
  split <;> rfl

/-- The clock once a held time has been applied (R161). -/
def heldApplied (c : Clock) : Clock := { c with now := c.held.getD c.now, held := none }

theorem heldApplied_none {c : Clock} (none_held : c.held = none) : heldApplied c = c := by
  obtain ⟨now, valid, held⟩ := c
  obtain rfl : held = none := none_held
  rfl

/-- A held time applied changes the clock, the arms and the journal alone. -/
theorem applyHeld_frame (s : State) :
    applyHeld s =
      { s with
        clock := heldApplied s.clock, sessions := (applyHeld s).sessions, journal := (applyHeld s).journal } := by
  unfold applyHeld
  split
  · next none_held => rw [heldApplied_none none_held]
  · next t waiting =>
    have moved : heldApplied s.clock = { s.clock with now := t, held := none } := by
      simp [heldApplied, waiting]
    unfold recordedStep
    rw [appendSystem_journal rfl, moved]
    rfl

theorem applyHeld_none (none_held : s.clock.held = none) : applyHeld s = s := by
  simp only [applyHeld, none_held]

theorem dayClosing_frame (s : State) :
    Desk.dayClosing s =
      { s with day := closedDay s.day, notice := none, journal := (Desk.dayClosing s).journal } := by
  unfold Desk.dayClosing
  rw [appendSystem_journal rfl]
  rfl

/-- R161, R168: the entry into CLOSED, the records, the arms and the displays as it leaves them. -/
theorem enterClosed_frame (s : State) :
    enterClosed s =
      { s with
        day := closedDay s.day, notice := none, clock := heldApplied s.clock
        journal := (applyHeld (Desk.dayClosing s)).journal, sessions := (applyHeld (Desk.dayClosing s)).sessions
        ports := (enterClosed s).ports, consoles := (enterClosed s).consoles } := by
  rw [Desk.enterClosed_eq]
  obtain ⟨p, c, painted⟩ := (Desk.repainted_showStandingAll (applyHeld (Desk.dayClosing s))).rest
  have applied := applyHeld_frame (Desk.dayClosing s)
  have closed := dayClosing_frame s
  rw [painted]
  generalize applyHeld (Desk.dayClosing s) = x at applied ⊢
  generalize Desk.dayClosing s = z at applied closed
  rw [applied, closed]

theorem enterClosed_sessions (none_held : s.clock.held = none) : (enterClosed s).sessions = s.sessions := by
  rw [enterClosed_frame, applyHeld_none]
  · rw [dayClosing_frame]
  · rw [dayClosing_frame]
    exact none_held

theorem closeDeskDay_slot (s : State) : ∃ k, closeDeskDay s = { enterClosed s with slot := k } :=
  ⟨_, autoOpenTest_frame (enterClosed s)⟩

theorem openingTested_closeDeskDay (s : State) : openingTested s.slot (closeDeskDay s) := by
  have tested := openingTested_autoOpenTest (enterClosed s)
  rwa [show (enterClosed s).slot = s.slot by rw [enterClosed_frame]] at tested

theorem closeDeskDay_tested (s : State) : autoOpenTest (closeDeskDay s) = closeDeskDay s := autoOpenTest_again _

/-! ### The displays -/

/-- A station shows its standing text once all have shown theirs (R125). -/
theorem texts_showStandingAll {st : Station} {i : Fin 32} (text : y.standingText st = some i) :
    ((showStandingAll y).console st).line1 = fit20 (y.shownText i).line1 ∧
      ((showStandingAll y).console st).line2 = fit20 (y.shownText i).line2 := by
  have run : ∀ (l : List Station) (x : State), Desk.Repainted y x →
      (st ∈ l ∨ (x.console st).line1 = fit20 (y.shownText i).line1 ∧
        (x.console st).line2 = fit20 (y.shownText i).line2) →
      ((l.foldl (fun s st => showStanding st s) x).console st).line1 = fit20 (y.shownText i).line1 ∧
        ((l.foldl (fun s st => showStanding st s) x).console st).line2 = fit20 (y.shownText i).line2 := by
    intro l
    induction l with
    | nil => exact fun x _ shown => shown.resolve_left List.not_mem_nil
    | cons o l ih =>
      intro x painted shown
      refine ih _ (painted.trans (Desk.redrawn_showStanding o x).1) ?_
      by_cases here : st = o
      · subst here
        obtain ⟨console, -⟩ := (Desk.shows_showStanding st x).1 i
          ((Desk.redrawn_showStanding st x).1.standingText st ▸ painted.standingText st ▸ text)
        rw [console, Desk.shownText_congr (x := x) (s := y) (by rw [painted.active]) i]
        exact .inr ⟨rfl, rfl⟩
      · rw [((Desk.redrawn_showStanding o x).2 st here).2]
        exact shown.imp_left fun mem => (List.mem_cons.mp mem).resolve_left here
  exact run stations y (Desk.Repainted.refl y) (.inl (List.mem_finRange st))

/-- R125, R168: where a station has a standing text at the entry into CLOSED, it shows it. -/
theorem texts_enterClosed {st : Station} {i : Fin 32} (text : (enterClosed s).standingText st = some i) :
    ((enterClosed s).console st).line1 = fit20 (s.shownText i).line1 ∧
      ((enterClosed s).console st).line2 = fit20 (s.shownText i).line2 := by
  have texts : (applyHeld (Desk.dayClosing s)).shownText i = s.shownText i := by
    refine Desk.shownText_congr ?_ i
    rw [applyHeld_frame, dayClosing_frame]
  rw [Desk.enterClosed_eq] at text ⊢
  rw [(Desk.repainted_showStandingAll _).standingText] at text
  rw [← texts]
  exact texts_showStandingAll text

/-! ### The lines of a request -/

theorem setLine_lines (l : Line) (c : LineCtl) (s : State) :
    ∃ u v, s.setLine l c = { s with uplink := u, supervisor := v } := by
  cases l <;> exact ⟨_, _, rfl⟩

/-- Until a request meets its rule the lines alone have changed, and they are in the states they were in. -/
theorem received_lines (q : Req) (name : ReqName) (s : State) :
    ∃ u v, received q name s = { s with uplink := u, supervisor := v } ∧ u.state = s.uplink.state := by
  obtain ⟨line, tag⟩ := q
  unfold received
  cases line <;> cases name.isBasic <;> exact ⟨_, _, rfl, rfl⟩

/-- The answer to a request changes the lines alone. -/
theorem answered_lines (q : Req) (name : ReqName) (r : Reply) (s y : State) :
    ∃ u v, answered q name r s y = { y with uplink := u, supervisor := v } := by
  obtain ⟨line, tag⟩ := q
  cases line <;> exact ⟨_, _, rfl⟩

end Sys2Proof.DeskDay
end

