-- ==== Sys2Proof/Proofs/ClockTicks.lean ====
section
/-! SUPPORT. A second of the time base (R158, R161, R165, R167; log entries 2 and 3). -/

namespace Sys2Proof.DeskDay

open Sys2Proof.Machine

variable {s x y : State}

/-! ### Entries into CLOSING -/

theorem openingTested_enterClosing (x : State) : openingTested x.slot (enterClosing x) := by
  by_cases idle : ∀ st : Station, (x.session st).borrower = none
  · rw [enterClosing_ends idle]
    exact openingTested_closeDeskDay { x with day := closingDay x }
  · rw [enterClosing_waits (not_forall.mp idle)]
    exact openingTested_open (y := { x with day := closingDay x }) DeskDay.noConfusion

/-- An entry into CLOSING has tested auto-open where it went on to CLOSED, and cannot open elsewhere. -/
theorem autoOpenTest_enterClosing (x : State) : autoOpenTest (enterClosing x) = enterClosing x := by
  by_cases idle : ∀ st : Station, (x.session st).borrower = none
  · rw [enterClosing_ends idle]
    exact closeDeskDay_tested _
  · rw [enterClosing_waits (not_forall.mp idle)]
    exact autoOpenTest_open { x with day := closingDay x } DeskDay.noConfusion

/-- The last session gone, an entry into CLOSING goes on to CLOSED. -/
theorem enterClosing_closed (idle : ∀ st : Station, (x.session st).borrower = none) :
    (enterClosing x).day = closedDay x.day ∧ (enterClosing x).notice = none ∧ (enterClosing x).clock.held = none := by
  rw [enterClosing_ends idle]
  obtain ⟨day, notice, held, -⟩ := Desk.dayEnded_closeDeskDay { x with day := closingDay x }
  exact ⟨day, notice, held⟩

/-! ### The tick -/

/-- The clock and the timers one second on. -/
def ticked (s : State) : State := tickTimers (tickClock s)

theorem sameDay_ticked (s : State) : SameDay s (ticked s) := ⟨rfl, ⟨rfl, rfl⟩, rfl⟩

theorem clockTick_taken (running : s.running = true) : exec .clockTick s = .next (settle s (tickEvent s)) :=
  (if_pos running).trans (partEvent_running running)

theorem clockTick_stopped (stopped : s.running = false) : exec .clockTick s = .next (tickClock s) :=
  if_neg (by simp [stopped])

/-- A tick moves no level cause, whatever holds the slot. -/
theorem settle_ticked (k : Option Slot) : settle s { ticked s with slot := k } = { ticked s with slot := k } :=
  settle_quiet (Option.isSome_map ..) rfl rfl rfl rfl rfl rfl

theorem tickEvent_short (short : ¬reachesClose s (nextSecond s.clock.now)) :
    tickEvent s = if minuteChanged s.clock.now (nextSecond s.clock.now) then autoOpenTest (ticked s) else ticked s := by
  unfold tickEvent
  rw [show autoCloseTest s (tickTimers (tickClock s)) = ticked s from autoCloseTest_short (sameDay_ticked s) short]
  rfl

theorem tickEvent_reaches (reaches : reachesClose s (nextSecond s.clock.now)) :
    tickEvent s = enterClosing (ticked s) := by
  have closes : autoCloseTest s (ticked s) = enterClosing (ticked s) :=
    autoCloseTest_reaches (sameDay_ticked s) reaches
  change (if minuteChanged s.clock.now (autoCloseTest s (ticked s)).clock.now then
    autoOpenTest (autoCloseTest s (ticked s)) else autoCloseTest s (ticked s)) = _
  rw [closes, autoOpenTest_enterClosing, ite_self]

theorem minuteChanged_iff (a b : Instant) :
    minuteChanged a b = true ↔ b.day ≠ a.day ∨ b.second / 60 ≠ a.second / 60 := by
  rw [minuteChanged, Bool.or_eq_true, decide_eq_true_eq, decide_eq_true_eq]
  exact or_congr ne_comm ne_comm

section
variable (running : s.running = true)
include running

theorem clockTick_passes (short : ¬reachesClose s (nextSecond s.clock.now))
    (unopened : ¬minuteChanged s.clock.now (nextSecond s.clock.now) = true ∨ s.slot ≠ none ∨
      ¬scheduledOpening (ticked s)) : exec .clockTick s = .next (ticked s) := by
  have passes : tickEvent s = ticked s := by
    rw [tickEvent_short short]
    split
    · next changed => exact autoOpenTest_kept (unopened.resolve_left fun other => other changed)
    · rfl
  rw [clockTick_taken running, passes]
  exact congrArg _ (settle_ticked s.slot)

theorem clockTick_opens (short : ¬reachesClose s (nextSecond s.clock.now))
    (changed : minuteChanged s.clock.now (nextSecond s.clock.now) = true) (free : s.slot = none)
    (due : scheduledOpening (ticked s)) :
    exec .clockTick s =
      .next { ticked s with slot := some { op := .opening (nextSecond s.clock.now).day none, requester := none } } := by
  rw [clockTick_taken running, tickEvent_short short, if_pos changed, autoOpenTest_due due free]
  exact congrArg _ (settle_ticked _)

theorem clockTick_closes (reaches : reachesClose s (nextSecond s.clock.now)) :
    exec .clockTick s = .next (settle s (enterClosing (ticked s))) := by
  rw [clockTick_taken running, tickEvent_reaches reaches]

end

theorem borrower_ticked (st : Station) : ((ticked s).session st).borrower = (s.session st).borrower := by
  simp only [ticked, tickTimers, State.session, Fin.getElem_fin, Vector.getElem_ofFn]
  split <;> rfl

theorem day_closes_waits (lent : ∃ st : Station, (s.session st).borrower ≠ none) :
    (enterClosing (ticked s)).day = closingDay s := by
  rw [enterClosing_waits (by simpa only [borrower_ticked] using lent)]
  rfl

theorem closes_ends (idle : ∀ st : Station, (s.session st).borrower = none) :
    (enterClosing (ticked s)).day = closedDay s.day ∧ (enterClosing (ticked s)).notice = none ∧
      (enterClosing (ticked s)).clock.held = none :=
  enterClosing_closed fun st => (borrower_ticked st).trans (idle st)

end Sys2Proof.DeskDay

open Sys2Proof Sys2Proof.Machine Sys2Proof.DeskDay

/-- Settles O30: the tick that reaches the close instant enters CLOSING; any other moves the time, and may open. -/
theorem aTickMovesClockAndTimers : Obligations.ATickMovesClockAndTimers := by
  unfold Obligations.ATickMovesClockAndTimers
  intro s
  refine ⟨fun running noClose noOpen => ?quiet, fun stopped => clockTick_stopped stopped,
    fun d p running closes noOpen opened openDay hours before reached => ?closes,
    fun running => ⟨?passes, ?opens, ?ends⟩⟩
  case quiet =>
    have short : ¬reachesClose s (nextSecond s.clock.now) := fun reaches => by simp [reaches.1] at noClose
    have unopened : ¬scheduledOpening (ticked s) := fun due => by
      have on : s.settings.autoOpen = true := due.1
      simp [on] at noOpen
    exact clockTick_passes running short (.inr (.inr unopened))
  case closes =>
    have reaches : reachesClose s (nextSecond s.clock.now) := by
      refine ⟨closes, opened, d, openDay, ?_⟩
      rw [hours]
      exact ⟨before, reached⟩
    exact ⟨_, clockTick_closes running reaches, day_closes_waits, fun idle => congrArg Day.state (closes_ends idle).1⟩
  case passes =>
    intro short unopened
    rw [← minuteChanged_iff] at unopened
    exact clockTick_passes running short unopened
  case opens =>
    exact fun short changed free due => clockTick_opens running short ((minuteChanged_iff _ _).mpr changed) free due
  case ends =>
    intro reaches
    have taken := clockTick_closes running reaches
    have tested := openingTested_enterClosing (ticked s)
    have waits := day_closes_waits (s := s)
    have ended := closes_ends (s := s)
    generalize enterClosing (ticked s) = y at taken tested waits ended
    exact ⟨_, taken, tested, waits, ended⟩
end

