-- ==== Sys2Proof/Proofs/DeskRequests.lean ====
section
/-! SUPPORT. OPEN_DESK, AUTO_OPEN and CLOSE_DESK (R164, R165, R167), each by the state it meets. -/

namespace Sys2Proof.DeskDay

open Sys2Proof.Machine

variable {s : State} {q : Req}

/-! ### OPEN_DESK -/

/-- What OPEN_DESK's rule makes of a state (R164). -/
def openRule (q : Req) (s : State) : State × Reply :=
  if s.slot.isSome then (s, Reply.bare .busy)
  else if !s.clock.valid || decide (s.day.state ≠ .closed) then (s, Reply.bare .wrongState)
  else (beginOpening (some q) s, Reply.bare .accepted)

theorem openDesk_taken (admitted : s.admits q.line) :
    exec (.openDesk q (.shaped ())) s =
      .next (answered q .openDesk (openRule q (received q .openDesk s)).2 s
        (openRule q (received q .openDesk s)).1) :=
  (show execOpenDesk q (.shaped ()) s = _ from Desk.request_admitted admitted)

theorem openRule_busy (held : s.slot ≠ none) : openRule q s = (s, Reply.bare .busy) :=
  if_pos (Option.isSome_iff_ne_none.mpr held)

theorem openRule_wrongState (free : s.slot = none) (h : s.clock.valid = false ∨ s.day.state ≠ .closed) :
    openRule q s = (s, Reply.bare .wrongState) := by
  rw [openRule, free, if_neg (by simp), if_pos (by simpa using h)]

theorem openRule_begins (free : s.slot = none) (valid : s.clock.valid = true) (closed : s.day.state = .closed) :
    openRule q s = (beginOpening (some q) s, Reply.bare .accepted) := by
  rw [openRule, free, if_neg (by simp), if_neg (by simp [valid, closed])]

/-! ### AUTO_OPEN -/

theorem autoOpen_taken (running : s.running = true) : exec .autoOpen s = .next (settle s (autoOpenTest s)) :=
  (show execAutoOpen s = _ from partEvent_running running)

/-- The opening's test ends its event where it stands. -/
theorem settle_autoOpenTest (s : State) : settle s (autoOpenTest s) = autoOpenTest s := by
  rw [autoOpenTest_frame]
  exact settle_quiet rfl rfl rfl rfl rfl rfl rfl

/-! ### CLOSE_DESK -/

/-- What CLOSE_DESK's rule makes of a state (R167). -/
def closeRule (s : State) : State × Reply :=
  if s.wiping then (s, Reply.bare .busy)
  else
    match s.day.state with
    | .opened => (enterClosing s, Reply.ok)
    | .closing => (s, Reply.ok)
    | .closed => (s, Reply.bare .wrongState)

theorem closeDesk_taken (admitted : s.admits q.line) :
    exec (.closeDesk q (.shaped ())) s =
      .next (answered q .closeDesk (closeRule (received q .closeDesk s)).2 s (closeRule (received q .closeDesk s)).1) :=
  (show execCloseDesk q (.shaped ()) s = _ from Desk.request_admitted admitted)

theorem closeRule_wiping (h : s.wiping = true) : closeRule s = (s, Reply.bare .busy) := if_pos h

section
variable (free : s.wiping = false)
include free

theorem closeRule_closed (h : s.day.state = .closed) : closeRule s = (s, Reply.bare .wrongState) := by
  simp [closeRule, free, h]

theorem closeRule_closing (h : s.day.state = .closing) : closeRule s = (s, Reply.ok) := by simp [closeRule, free, h]

theorem closeRule_opened (h : s.day.state = .opened) : closeRule s = (enterClosing s, Reply.ok) := by
  simp [closeRule, free, h]

end

/-! ### The entry into CLOSED -/

theorem closeDeskDay_fields (s : State) :
    ∃ j k r p c, closeDeskDay s =
      { s with
        day := closedDay s.day, notice := none, clock := heldApplied s.clock, journal := j, slot := k, sessions := r
        ports := p, consoles := c } := by
  obtain ⟨k, tested⟩ := closeDeskDay_slot s
  rw [enterClosed_frame] at tested
  exact ⟨_, k, _, _, _, tested⟩

theorem closeDeskDay_sessions (none_held : s.clock.held = none) : (closeDeskDay s).sessions = s.sessions := by
  have kept := enterClosed_sessions none_held
  obtain ⟨k, tested⟩ := closeDeskDay_slot s
  generalize enterClosed s = x at kept tested
  rw [tested]
  exact kept

/-- R168: with no session open CLOSE_DESK brings the desk-day to CLOSED at once. -/
theorem enterClosing_deskClosed (idle : ∀ st : Station, (s.session st).borrower = none) :
    deskClosed s (enterClosing s) := by
  rw [enterClosing_ends idle]
  obtain ⟨day, notice, held, record, -⟩ := Desk.dayEnded_closeDeskDay { s with day := closingDay s }
  exact ⟨day, notice, held, record⟩

/-- The entry into CLOSED touches tables and settings nowhere, and where no time is held neither sessions nor clock. -/
theorem enterClosing_keeps (idle : ∀ st : Station, (s.session st).borrower = none) :
    (enterClosing s).active = s.active ∧ (enterClosing s).cache = s.cache ∧
      (enterClosing s).settings = s.settings ∧ (enterClosing s).key = s.key ∧
      (s.clock.held = none → (enterClosing s).sessions = s.sessions ∧ (enterClosing s).clock = s.clock) := by
  have sessions := closeDeskDay_sessions (s := { s with day := closingDay s })
  obtain ⟨j, k, r, p, c, closed⟩ := closeDeskDay_fields { s with day := closingDay s }
  rw [enterClosing_ends idle]
  rw [closed] at sessions ⊢
  exact ⟨rfl, rfl, rfl, rfl, fun none_held => ⟨sessions none_held, heldApplied_none none_held⟩⟩

end Sys2Proof.DeskDay

open Sys2Proof Sys2Proof.Machine Sys2Proof.DeskDay

/-- Settles O31: each request by the branch of its rule that the state meets. -/
theorem theDeskOpensAndCloses : Obligations.TheDeskOpensAndCloses := by
  unfold Obligations.TheDeskOpensAndCloses
  refine ⟨fun s q admitted => ?opens, fun s running => ⟨fun due => ?due, fun other => ?other⟩, fun s q admitted => ?closes⟩
  case opens =>
    have taken := openDesk_taken admitted
    obtain ⟨u, v, heard, -⟩ := received_lines q .openDesk s
    refine ⟨fun held => ?_, fun free invalid => ?_, fun free other => ?_, fun free valid closed => ?_⟩
    · rw [taken, openRule_busy (by rwa [heard])]
    · rw [taken, openRule_wrongState (by rwa [heard]) (.inl (by rwa [heard]))]
    · rw [taken, openRule_wrongState (by rwa [heard]) (.inr (by rwa [heard]))]
    · rw [taken, openRule_begins (by rwa [heard]) (by rwa [heard]) (by rwa [heard]), heard]
      rfl
  case due =>
    obtain ⟨on, closed, valid, unopened, free, hours⟩ := due
    rw [autoOpen_taken running, settle_autoOpenTest, autoOpenTest_due ⟨on, closed, valid, unopened, hours⟩ free]
  case other =>
    rw [autoOpen_taken running, settle_autoOpenTest, autoOpenTest_kept]
    by_contra due
    obtain ⟨free, on, closed, valid, unopened, hours⟩ := (not_or.mp due).imp not_not.mp not_not.mp
    exact other ⟨on, closed, valid, unopened, free, hours⟩
  case closes =>
    have taken := closeDesk_taken admitted
    obtain ⟨u, v, heard, -⟩ := received_lines q .closeDesk s
    refine ⟨fun wiping => ?_, fun free closed => ?_, fun free closing => ?_, fun free opened lent => ?_,
      fun free opened idle => ?_⟩
    · rw [taken, closeRule_wiping (by rw [heard]; exact wiping)]
    · rw [taken, closeRule_closed (by rw [heard]; exact free) (by rwa [heard])]
    · rw [taken, closeRule_closing (by rw [heard]; exact free) (by rwa [heard])]
    · rw [taken, closeRule_opened (by rw [heard]; exact free) (by rwa [heard]),
        enterClosing_waits (by rw [heard]; exact lent), heard]
      rfl
    · rw [closeRule_opened (by rw [heard]; exact free) (by rwa [heard]), heard] at taken
      have ended := enterClosing_deskClosed (s := { s with uplink := u, supervisor := v }) idle
      obtain ⟨active, cache, settings, key, still⟩ :=
        enterClosing_keeps (s := { s with uplink := u, supervisor := v }) idle
      obtain ⟨u', v', answer⟩ :=
        answered_lines q .closeDesk Reply.ok s (enterClosing { s with uplink := u, supervisor := v })
      rw [answer] at taken
      exact ⟨_, taken, ended, active, cache, settings, key, still⟩
end

