-- ==== Sys2Proof/Proofs/StagingAndCommit.lean ====
section
/-! SUPPORT. STAGE_BEGIN (R170) and COMMIT (R171, R172): the branches of their rules, and the ends of the two operations. -/

namespace Sys2Proof.DeskDay

open Sys2Proof.Machine

variable {s y : State} {q : Req} {p : CommitParams}

/-! ### The release of the slot -/

/-- R165, R173: with auto-open off the slot is free once the final reply is on its way, in either order. -/
theorem releaseSlot_finalReply (off : y.settings.autoOpen = false) (q : Option Req) (name : ReqName) (r : Reply) :
    releaseSlot (finalReply q name r y) = finalReply q name r { y with slot := none } := by
  have released : releaseSlot (finalReply q name r y) = { finalReply q name r y with slot := none } := by
    refine releaseSlot_off ?_
    obtain ⟨u, v, replied⟩ := Desk.finalReply_frame q name r y
    rw [replied]
    exact off
  rw [released]
  cases q with
  | none => rfl
  | some q =>
    have there : ({ y with slot := none } : State).line q.line = y.line q.line := by cases q.line <;> rfl
    have sent : sendReply q name r { y with slot := none } = { sendReply q name r y with slot := none } := by
      obtain ⟨line, tag⟩ := q
      cases line <;> rfl
    simp only [finalReply, there, sent]
    split <;> rfl

/-! ### STAGE_BEGIN -/

/-- What STAGE_BEGIN's rule makes of a state (R170). -/
def stageRule (q : Req) (s : State) : State × Reply :=
  if s.slot.isSome then (s, Reply.bare .busy)
  else
    ({ s with
        stagedState := .empty, staged := Bank.cleared
        slot := some { op := .stageBegin s.staged, requester := some q } }, Reply.bare .accepted)

theorem stageBegin_taken (admitted : s.admitsOwner q.line) :
    exec (.stageBegin q (.shaped ())) s =
      .next (answered q .stageBegin (stageRule q (received q .stageBegin s)).2 s
        (stageRule q (received q .stageBegin s)).1) :=
  (show execStageBegin q (.shaped ()) s = _ from TableWrites.request_owner admitted)

theorem stageRule_busy (held : s.slot ≠ none) : stageRule q s = (s, Reply.bare .busy) :=
  if_pos (Option.isSome_iff_ne_none.mpr held)

theorem stageRule_begins (free : s.slot = none) :
    stageRule q s =
      ({ s with
          stagedState := .empty, staged := Bank.cleared
          slot := some { op := .stageBegin s.staged, requester := some q } }, Reply.bare .accepted) := by
  rw [stageRule, if_neg (by simp [free])]

theorem stageBeginEnd_taken {q : Option Req} {replaced : Bank} (running : s.running = true)
    (slot : s.slot = some { op := .stageBegin replaced, requester := q }) :
    exec .stageBeginEnd s =
      .next (settle s (releaseSlot (finalReply q .stageBegin Reply.ok { s with stagedState := .loading }))) := by
  refine (show execStageBeginEnd s = _ from partEvent_running running).trans ?_
  simp only [slot]

/-! ### COMMIT -/

/-- What COMMIT's rule makes of a state (R171). -/
def commitRule (q : Req) (p : CommitParams) (s : State) : State × Reply :=
  let counts := s.staged.counts
  if s.slot.isSome then (s, Reply.bare .busy)
  else if s.day.state ≠ .closed ∨ s.stagedState ≠ .loading then (s, Reply.bare .wrongState)
  else if s.journal.unreleased ≠ 0 then (s, Reply.bare .notDrained)
  else if counts = { borrowers := p.borrowers, items := p.items, exceptions := p.exceptions, holds := p.holds } then
    ({ s with slot := some { op := .commit, requester := some q } }, Reply.bare .accepted)
  else (s, { status := .mismatch, results := .counts counts })

theorem commit_taken (admitted : s.admitsOwner q.line) :
    exec (.commit q (.shaped p)) s =
      .next (answered q .commit (commitRule q p (received q .commit s)).2 s
        (commitRule q p (received q .commit s)).1) :=
  (show execCommit q (.shaped p) s = _ from TableWrites.request_owner admitted)

/-- The counts that a COMMIT carries are those of the staged bank (R171). -/
def agrees (p : CommitParams) (b : Bank) : Prop :=
  p.borrowers = b.borrowers.length ∧ p.items = b.items.length ∧ p.exceptions = b.exceptions.length ∧
    p.holds = (b.items.map fun e => e.queue.length).sum

theorem counts_iff (p : CommitParams) (b : Bank) :
    b.counts = { borrowers := p.borrowers, items := p.items, exceptions := p.exceptions, holds := p.holds } ↔
      agrees p b := by
  rw [Bank.counts, BankCounts.mk.injEq, Bank.holdCount, agrees, eq_comm, eq_comm (a := b.items.length),
    eq_comm (a := b.exceptions.length), eq_comm (b := p.holds)]

theorem commitRule_busy (held : s.slot ≠ none) : commitRule q p s = (s, Reply.bare .busy) :=
  if_pos (Option.isSome_iff_ne_none.mpr held)

section
variable (free : s.slot = none)
include free

theorem commitRule_wrongState (h : s.day.state ≠ .closed ∨ s.stagedState ≠ .loading) :
    commitRule q p s = (s, Reply.bare .wrongState) :=
  (if_neg (by simp [free])).trans (if_pos h)

variable (closed : s.day.state = .closed) (loading : s.stagedState = .loading)
include closed loading

theorem commitRule_drains :
    commitRule q p s =
      if s.journal.unreleased ≠ 0 then (s, Reply.bare .notDrained)
      else if s.staged.counts =
          { borrowers := p.borrowers, items := p.items, exceptions := p.exceptions, holds := p.holds } then
        ({ s with slot := some { op := .commit, requester := some q } }, Reply.bare .accepted)
      else (s, { status := .mismatch, results := .counts s.staged.counts }) :=
  (if_neg (by simp [free])).trans (if_neg (by simp [closed, loading]))

theorem commitRule_notDrained (waiting : s.journal.unreleased ≠ 0) :
    commitRule q p s = (s, Reply.bare .notDrained) :=
  (commitRule_drains free closed loading).trans (if_pos waiting)

variable (drained : s.journal.unreleased = 0)
include drained

theorem commitRule_mismatch (other : ¬agrees p s.staged) :
    commitRule q p s = (s, { status := .mismatch, results := .counts s.staged.counts }) :=
  (commitRule_drains free closed loading).trans
    ((if_neg (not_not.mpr drained)).trans (if_neg (mt (counts_iff p s.staged).mp other)))

theorem commitRule_accepts (same : agrees p s.staged) :
    commitRule q p s = ({ s with slot := some { op := .commit, requester := some q } }, Reply.bare .accepted) :=
  (commitRule_drains free closed loading).trans
    ((if_neg (not_not.mpr drained)).trans (if_pos ((counts_iff p s.staged).mpr same)))

end

/-! ### The change-over -/

/-- The banks changed over and the cache cleared, under the next generation (R172). -/
def banksSwapped (s : State) : State :=
  { s with
    active := s.staged, staged := Bank.cleared, stagedState := .empty, cache := []
    generation := nextGeneration s.generation }

/-- R172: the change-over, its record appended. -/
theorem changeOver_eq (room : 1 ≤ s.journal.free) :
    changeOver s =
      { s with
        active := s.staged, staged := Bank.cleared, stagedState := .empty, cache := []
        generation := nextGeneration s.generation, day := { s.day with fresh := true }
        journal :=
          { s.journal with
            records :=
              s.journal.records ++ [stamped { s with generation := nextGeneration s.generation } (draft .commit)]
            nextSeq := s.journal.nextSeq + 1, overflow := false } } := by
  have recorded := appendSystem_room (banksSwapped s) (d := draft .commit) room
  rw [append, Desk.fillRecord_stamped] at recorded
  change { appendSystem (draft .commit) (banksSwapped s) with
    day := { (appendSystem (draft .commit) (banksSwapped s)).day with fresh := true } } = _
  rw [recorded]
  rfl

theorem commitChangeover_taken {q : Option Req} (running : s.running = true)
    (slot : s.slot = some { op := .commit, requester := q }) :
    exec .commitChangeover s =
      .next (settle s
        (if s.day.state = .closed ∧ s.journal.unreleased = 0 then
          releaseSlot (finalReply q .commit
            { status := .ok, results := .committed (changeOver s).generation } (changeOver s))
        else releaseSlot (finalReply q .commit (Reply.bare .notDrained) s))) := by
  refine (show execCommitChangeover s = _ from partEvent_running running).trans ?_
  simp only [slot]

end Sys2Proof.DeskDay

open Sys2Proof Sys2Proof.Machine Sys2Proof.DeskDay

/-- Settles O33: STAGE_BEGIN by whether the slot is free, and its end. -/
theorem stagingClearsTheStagedBank : Obligations.StagingClearsTheStagedBank := by
  unfold Obligations.StagingClearsTheStagedBank
  refine ⟨fun s q admitted => ⟨fun free => ?begins, fun held => ?busy⟩, fun s q replaced running off slot => ?ends⟩
  case begins =>
    obtain ⟨u, v, heard, -⟩ := received_lines q .stageBegin s
    rw [stageBegin_taken admitted, stageRule_begins (by rwa [heard]), heard]
  case busy =>
    obtain ⟨u, v, heard, -⟩ := received_lines q .stageBegin s
    rw [stageBegin_taken admitted, stageRule_busy (by rwa [heard])]
  case ends =>
    rw [stageBeginEnd_taken running slot, releaseSlot_finalReply (y := { s with stagedState := .loading }) off]

/-- Settles O34: COMMIT's tests in order, and the change-over by whether the desk is CLOSED and drained. -/
theorem commitChangesOver : Obligations.CommitChangesOver := by
  unfold Obligations.CommitChangesOver
  refine ⟨fun s q p admitted => ?tests, fun s q running off slot => ⟨fun closed drained room => ?changes, fun h => ?kept⟩⟩
  case tests =>
    have taken := commit_taken (p := p) admitted
    obtain ⟨u, v, heard, -⟩ := received_lines q .commit s
    refine ⟨fun held => ?_, fun free h => ?_, fun free closed loading =>
      ⟨fun waiting => ?_, fun drained other => ?_, fun drained same => ?_⟩⟩
    · rw [taken, commitRule_busy (by rwa [heard])]
    · rw [taken, commitRule_wrongState (by rwa [heard]) (by rwa [heard])]
    · rw [taken, commitRule_notDrained (by rwa [heard]) (by rwa [heard]) (by rwa [heard]) (by rwa [heard])]
    · rw [taken, commitRule_mismatch (by rwa [heard]) (by rwa [heard]) (by rwa [heard]) (by rwa [heard])
        (by rwa [heard]), heard]
    · rw [taken, commitRule_accepts (by rwa [heard]) (by rwa [heard]) (by rwa [heard]) (by rwa [heard])
        (by rwa [heard]), heard]
  case changes =>
    have quiet : (changeOver s).settings.autoOpen = false := by
      rw [changeOver_eq room]
      exact off
    rw [commitChangeover_taken running slot, if_pos ⟨closed, drained⟩, releaseSlot_finalReply quiet,
      changeOver_eq room]
    rfl
  case kept =>
    have undone : ¬(s.day.state = .closed ∧ s.journal.unreleased = 0) := by tauto
    rw [commitChangeover_taken running slot, if_neg undone, releaseSlot_finalReply off]
end

