-- ==== Sys2Proof/Proofs/RecordRuns.lean ====
section
/-! SUPPORT. The records that one event appends, in their order (R143, R145, R148), and those of the entry into CLOSED (R161,
R168). -/

namespace Sys2Proof.DeskDay

open Sys2Proof.Machine

variable {s x y : State} {d : Record} {drafts : List Record}

/-! ### Records in a row -/

/-- The journal that an event of a state has left so far: the records of some drafts behind those that were there. -/
structure Wrote (s : State) (drafts : List Record) (t : State) : Prop where
  records : t.journal.records = s.journal.records ++ numbered s (decide (s.uplink.state ≠ .active)) drafts
  nextSeq : t.journal.nextSeq = s.journal.nextSeq + drafts.length
  overflow : t.journal.overflow = (s.journal.overflow && drafts.isEmpty)

/-- What a record carries besides its draft and the clock is as it was when the event began. -/
structure StampsAs (s x : State) : Prop where
  uplink : x.uplink.state = s.uplink.state
  generation : x.generation = s.generation

theorem StampsAs.refl (s : State) : StampsAs s s := ⟨rfl, rfl⟩

theorem wrote_nothing (h : x.journal = s.journal) : Wrote s [] x := by
  refine ⟨?_, ?_, ?_⟩ <;> rw [h]
  · exact (List.append_nil _).symm
  · rfl
  · exact (Bool.and_true _).symm

theorem Wrote.congr (h : Wrote s drafts x) (same : y.journal = x.journal) : Wrote s drafts y := by
  obtain ⟨records, nextSeq, overflow⟩ := h
  rw [← same] at records nextSeq overflow
  exact ⟨records, nextSeq, overflow⟩

theorem fillRecord_dated (x : State) (d : Record) :
    x.fillRecord d =
      { dated x.clock.now d with
        seq := x.journal.nextSeq, generation := x.generation
        flags :=
          { d.flags with
            offline := decide (x.uplink.state ≠ .active), counted := x.counts d
            overflowBefore := x.journal.overflow } } := rfl

theorem Wrote.append (h : Wrote s drafts x) (stamps : StampsAs s x) (counted : x.counts d = d.borrower.isSome) :
    Wrote s (drafts ++ [dated x.clock.now d]) (append d x) := by
  obtain ⟨records, nextSeq, overflow⟩ := h
  refine ⟨?_, ?_, ?_⟩ <;> rw [append_journal]
  · have behind : drafts.isEmpty = decide (drafts = []) := by cases drafts <;> rfl
    rw [fillRecord_dated, records, nextSeq, overflow, counted, stamps.uplink, stamps.generation, List.append_assoc,
      numbered, numbered, List.mapIdx_append]
    simp [dated, behind]
  · simp [nextSeq, Nat.add_assoc]
  · simp

theorem counts_nobody (nobody : d.borrower = none) : x.counts d = d.borrower.isSome := by
  simp [State.counts, nobody]

/-! ### System records -/

/-- The journal that the system records of an event have left: those that found room are in it (R148). -/
def Recorded (s : State) (drafts : List Record) (t : State) : Prop :=
  let taken := drafts.take s.journal.free
  t.journal =
    { s.journal with
      records := s.journal.records ++ numbered s (decide (s.uplink.state ≠ .active)) taken
      nextSeq := s.journal.nextSeq + taken.length
      overflow := if s.journal.free < drafts.length then true else s.journal.overflow && drafts.isEmpty }

theorem Recorded.congr (h : Recorded s drafts x) (same : y.journal = x.journal) : Recorded s drafts y := same.trans h

theorem recorded_nothing (h : x.journal = s.journal) : Recorded s [] x := by
  refine h.trans ?_
  simp [numbered]

theorem Recorded.wrote (h : Recorded s drafts x) (room : drafts.length ≤ s.journal.free) : Wrote s drafts x := by
  rw [Recorded, List.take_of_length_le room, if_neg (Nat.not_lt.mpr room)] at h
  refine ⟨?_, ?_, ?_⟩ <;> rw [h]

/-- What is free after some system records. -/
theorem Recorded.free (h : Recorded s drafts x) (sane : s.journal.oldest ≤ s.journal.nextSeq) :
    x.journal.free = s.journal.free - drafts.length := by
  rw [h]
  simp only [Journal.free, Journal.unreleased, List.length_take]
  omega

theorem Recorded.system (h : Recorded s drafts x) (sane : s.journal.oldest ≤ s.journal.nextSeq)
    (stamps : StampsAs s x) (nobody : d.borrower = none) :
    Recorded s (drafts ++ [dated x.clock.now d]) (appendSystem d x) := by
  have left := h.free sane
  by_cases room : drafts.length < s.journal.free
  · obtain ⟨records, nextSeq, overflow⟩ := (h.wrote room.le).append stamps (counts_nobody nobody)
    rw [appendSystem_room _ (by omega)]
    have fits : (drafts ++ [dated x.clock.now d]).length ≤ s.journal.free := by simpa using room
    rw [append_journal] at records nextSeq overflow
    rw [Recorded, append_journal, List.take_of_length_le fits, if_neg (Nat.not_lt.mpr fits), ← records, ← nextSeq,
      ← overflow, h]
  · have full : s.journal.free ≤ drafts.length := Nat.not_lt.mp room
    have beyond : s.journal.free < (drafts ++ [dated x.clock.now d]).length := by
      rw [List.length_append]
      exact Nat.lt_succ_of_le full
    have none_left : x.journal.free = 0 := by omega
    rw [appendSystem_full _ none_left, Recorded, List.take_append_of_le_length full, if_pos beyond, h]

/-! ### The records of the entry into CLOSED -/

theorem journal_dayClosing (s : State) : (Desk.dayClosing s).journal = (appendSystem (draft .dayClose) s).journal := rfl

theorem journal_enterClosed (s : State) : (enterClosed s).journal = (applyHeld (Desk.dayClosing s)).journal := by
  rw [Desk.enterClosed_eq]
  exact (Desk.repainted_showStandingAll _).journal

theorem held_dayClosing (s : State) : (Desk.dayClosing s).clock = s.clock := by rw [dayClosing_frame]

/-- R168: where no time is held DAY_CLOSE is the one record, if it finds room. -/
theorem Recorded.closed (h : Recorded s drafts x) (sane : s.journal.oldest ≤ s.journal.nextSeq) (stamps : StampsAs s x)
    (none_held : x.clock.held = none) :
    Recorded s (drafts ++ [dated x.clock.now (draft .dayClose)]) (enterClosed x) := by
  refine (h.system sane stamps rfl).congr ?_
  rw [journal_enterClosed, applyHeld_none (by rw [held_dayClosing, none_held]), journal_dayClosing]

/-- R161, R168: DAY_CLOSE, then the CLOCK_STEP of a held time, where both find room. -/
theorem Wrote.closed (h : Wrote s drafts x) (stamps : StampsAs s x) (room : 2 ≤ x.journal.free) :
    Wrote s (drafts ++ closingDrafts x) (enterClosed x) := by
  have closing := h.append stamps (counts_nobody (x := x) (d := draft .dayClose) rfl)
  have left := Desk.free_append (draft .dayClose) x
  rw [← appendSystem_room x (d := draft .dayClose) (by omega)] at closing left
  have closing : Wrote s (drafts ++ [dated x.clock.now (draft .dayClose)]) (Desk.dayClosing x) :=
    closing.congr (journal_dayClosing x)
  refine Wrote.congr ?_ (journal_enterClosed x)
  cases waiting : x.clock.held with
  | none =>
    rw [applyHeld_none (by rw [held_dayClosing, waiting]), closingDrafts, waiting]
    exact closing
  | some t =>
    have applied : applyHeld (Desk.dayClosing x) = recordedStep t (dropHeld (Desk.dayClosing x)) := by
      simp only [applyHeld, held_dayClosing, waiting]
    have stamps' : StampsAs s (stepClock t (dropHeld (Desk.dayClosing x))) := by
      rw [dayClosing_frame]
      exact ⟨stamps.uplink, stamps.generation⟩
    have stepped := (closing.congr (y := stepClock t (dropHeld (Desk.dayClosing x))) rfl).append stamps'
      (counts_nobody (d := clockStepDraft (dropHeld (Desk.dayClosing x)).clock.now) rfl)
    rw [applied, recordedStep, appendSystem_room _ (by
      show 1 ≤ (Desk.dayClosing x).journal.free
      rw [journal_dayClosing]
      omega)]
    rw [List.append_assoc] at stepped
    rw [closingDrafts, waiting]
    rw [dayClosing_frame] at stepped ⊢
    exact stepped

end Sys2Proof.DeskDay
end

