-- ==== Sys2Proof/Proofs/TimeRequests.lean ====
section
/-! SUPPORT. TIME and SET_TIME (R160, R162): the branches of their rule, and what the scheduled tests of a time's event leave
(R159, R165, R167; log entries 25 and 33). -/

namespace Sys2Proof.DeskDay

open Sys2Proof.Machine

variable {s x y : State} {q : Req} {name : ReqName} {new : Instant} {p : TimeParams}

/-! ### The rule -/

theorem timeRule_badValue (h : 86399 < p.second) : timeRule p x = (x, Reply.bare .badValue) := if_pos h

/-- The reply of a time that is taken or held: the clock after it (R160). -/
def timeReply (st : Status) (c : Clock) : Reply := { status := st, results := .clock c.now c.valid c.held }

theorem timeRule_meant {day second : Nat} (h : second ≤ 86399) {z : State} {st : Status}
    (takes : takeTime { day := day, second := second } x = (z, st)) :
    timeRule { day := day, second := second } x = (z, timeReply st z.clock) := by
  rw [timeRule, if_neg (Nat.not_lt.mpr h)]
  simp only [takes]
  rfl

/-- A time is taken: it makes an invalid clock valid, or steps a valid one (R160). -/
def takes (x : State) (new : Instant) : Prop :=
  x.clock.valid = false ∨
    new ≠ x.clock.now ∧ (x.day.state = .closed ∨ secondsApart new x.clock.now ≤ x.settings.stepLimit)

/-- The clock set to a time that is taken, the scheduled tests apart (R159, R160; log entry 25). -/
def timeTaken (new : Instant) (x : State) : State :=
  if x.clock.valid = false then
    { (if new = x.clock.now then x else disarmAll x) with clock := { now := new, valid := true, held := none } }
  else recordedStep new (dropHeld x)

theorem takeTime_takes (h : takes x new) : takeTime new x = (afterStep x (timeTaken new x), .ok) := by
  unfold takeTime timeTaken
  obtain invalid | ⟨other, may⟩ := h
  · simp only [invalid, Bool.not_false, if_true]
  · cases valid : x.clock.valid with
    | false => simp
    | true => simp [other, may]

theorem takeTime_same (valid : x.clock.valid = true) (same : new = x.clock.now) :
    takeTime new x = (dropHeld x, .ok) := by
  simp [takeTime, valid, same]

theorem takeTime_holds (valid : x.clock.valid = true) (other : new ≠ x.clock.now)
    (far : ¬(x.day.state = .closed ∨ secondsApart new x.clock.now ≤ x.settings.stepLimit)) :
    takeTime new x = ({ x with clock := { x.clock with held := some new } }, .partiallyTaken) := by
  simp only [takeTime, valid, Bool.not_true, Bool.false_eq_true, if_false, if_neg other, if_neg far]

/-- R160: a change within the step limit, to the past or to the future. -/
theorem secondsApart_le (a b : Instant) (limit : Nat) :
    secondsApart a b ≤ limit ↔
      -(limit : Int) ≤ (a.day * 86400 + a.second : Nat) - (b.day * 86400 + b.second : Nat) ∧
        ((a.day * 86400 + a.second : Nat) - (b.day * 86400 + b.second : Nat) : Int) ≤ limit := by
  unfold secondsApart Instant.seconds
  omega

/-! ### The time taken -/

/-- The sessions without their arms (R11, R159). -/
def unarmed (x : State) : Vector Session 8 := Vector.ofFn fun st =>
  if (x.session st).armedUntil = none then x.session st
  else
    { x.session st with
      armedUntil := none
      overrideStaff := if (x.session st).borrower = none then none else (x.session st).overrideStaff }

theorem disarm_eq (r : Session) :
    r.disarm =
      if r.armedUntil = none then r
      else { r with armedUntil := none, overrideStaff := if r.borrower = none then none else r.overrideStaff } := by
  unfold Session.disarm
  cases r.armedUntil <;> cases r.borrower <;> rfl

theorem disarmAll_eq (x : State) : disarmAll x = { x with sessions := unarmed x } := by
  unfold disarmAll unarmed
  simp only [disarm_eq]

/-- The sessions after a time that is taken: an equal one removes no arm (log entry 25). -/
def sessionsAt (new : Instant) (x : State) : Vector Session 8 := if new = x.clock.now then x.sessions else unarmed x

theorem borrower_sessionsAt (new : Instant) (x : State) (st : Station) :
    ((sessionsAt new x)[st]).borrower = (x.session st).borrower := by
  unfold sessionsAt
  split
  · rfl
  · simp only [unarmed, Fin.getElem_fin, Vector.getElem_ofFn, Fin.eta]
    split <;> rfl

/-- The record of a step of the clock, which an invalid clock does not get (R160). -/
def stepRecords (x : State) (new : Instant) : List Record :=
  if x.clock.valid = false then []
  else
    [dated new
      { draft .clockStep with due := some { day := x.clock.now.day, minute := x.clock.now.second / 60 } }]

/-- A time that makes the clock valid changes clock and arms alone. -/
theorem timeTaken_sets (invalid : x.clock.valid = false) :
    timeTaken new x =
      { x with clock := { now := new, valid := true, held := none }, sessions := sessionsAt new x } := by
  unfold timeTaken sessionsAt
  rw [if_pos invalid]
  split
  · rfl
  · rw [disarmAll_eq]

/-- The clock stepped and the arms removed, the record not yet appended (R159). -/
def clockStepped (new : Instant) (x : State) : State :=
  { x with clock := { now := new, valid := true, held := none }, sessions := unarmed x }

theorem timeTaken_steps (valid : x.clock.valid = true) :
    timeTaken new x = appendSystem (clockStepDraft x.clock.now) (clockStepped new x) := by
  have stepped : stepClock new (dropHeld x) = clockStepped new x := by
    rw [stepClock, disarmAll_eq]
    simp only [dropHeld, valid]
    rfl
  rw [timeTaken, if_neg (by simp [valid]), recordedStep, stepped]
  rfl

/-- A time that is taken changes clock, arms and journal alone. -/
theorem timeTaken_frame (h : takes x new) :
    ∃ j, timeTaken new x =
      { x with
        clock := { now := new, valid := true, held := none }, sessions := sessionsAt new x, journal := j } := by
  cases valid : x.clock.valid with
  | false => exact ⟨x.journal, timeTaken_sets valid⟩
  | true =>
    have other : new ≠ x.clock.now := (h.resolve_left (by simp [valid])).1
    rw [timeTaken_steps valid, appendSystem_journal rfl, sessionsAt, if_neg other]
    exact ⟨_, rfl⟩

theorem recorded_timeTaken (sane : x.journal.oldest ≤ x.journal.nextSeq) :
    Recorded x (stepRecords x new) (timeTaken new x) := by
  unfold stepRecords
  cases valid : x.clock.valid with
  | false =>
    rw [timeTaken_sets valid]
    exact recorded_nothing rfl
  | true =>
    rw [timeTaken_steps valid]
    exact (recorded_nothing (s := x) (x := clockStepped new x) rfl).system sane ⟨rfl, rfl⟩ rfl

/-! ### The scheduled tests of its event -/

/-- The state that the scheduled tests of a time's event find (R159). -/
structure StepEnds (x y : State) (new : Instant) : Prop where
  same : SameDay x y
  now : y.clock.now = new
  unheld : y.clock.held = none

theorem stepEnds_timeTaken (h : takes x new) : StepEnds x (timeTaken new x) new := by
  obtain ⟨j, taken⟩ := timeTaken_frame h
  rw [taken]
  exact ⟨⟨rfl, ⟨rfl, rfl⟩, rfl⟩, rfl, rfl⟩

section
variable (h : StepEnds x y new)
include h

theorem afterStep_short (short : ¬reachesClose x new) : afterStep x y = autoOpenTest y := by
  rw [afterStep, autoCloseTest_short h.same (by rwa [h.now])]

theorem afterStep_reaches (reaches : reachesClose x new) : afterStep x y = enterClosing y := by
  rw [afterStep, autoCloseTest_reaches h.same (by rwa [h.now]), autoOpenTest_enterClosing]

theorem openingTested_afterStep : openingTested y.slot (afterStep x y) := by
  by_cases reaches : reachesClose x new
  · rw [afterStep_reaches h reaches]
    exact openingTested_enterClosing y
  · rw [afterStep_short h reaches]
    exact openingTested_autoOpenTest y

theorem afterStep_unscheduled (noClose : x.settings.autoClose = false) (noOpen : x.settings.autoOpen = false) :
    afterStep x y = y := by
  rw [afterStep_short h fun reaches => by simp [reaches.1] at noClose]
  exact autoOpenTest_off (by rw [h.same.settings, noOpen])

/-- Where it does not bring the desk-day to CLOSED a time's event changes day and slot alone. -/
theorem afterStep_stays (stays : ¬(reachesClose x new ∧ ∀ st : Station, (y.session st).borrower = none)) :
    ∃ d k, afterStep x y = { y with day := d, slot := k } := by
  by_cases reaches : reachesClose x new
  · have lent := not_forall.mp fun idle => stays ⟨reaches, idle⟩
    rw [afterStep_reaches h reaches, enterClosing_waits lent]
    exact ⟨_, _, rfl⟩
  · rw [afterStep_short h reaches, autoOpenTest_frame]
    exact ⟨_, _, rfl⟩

theorem day_afterStep_short (short : ¬reachesClose x new) : (afterStep x y).day = y.day := by
  rw [afterStep_short h short, autoOpenTest_frame]

theorem day_afterStep_waits (reaches : reachesClose x new) (lent : ∃ st : Station, (y.session st).borrower ≠ none) :
    (afterStep x y).day = closingDay y := by
  rw [afterStep_reaches h reaches, enterClosing_waits lent]

/-- R168: a time that reaches the close instant with no session open brings the desk-day to CLOSED. -/
theorem afterStep_ends (reaches : reachesClose x new) (idle : ∀ st : Station, (y.session st).borrower = none) :
    ∃ k, afterStep x y = { enterClosed { y with day := closingDay y } with slot := k } := by
  rw [afterStep_reaches h reaches, enterClosing_ends idle]
  exact closeDeskDay_slot _

theorem afterStep_fields : ∃ d n j k o c, afterStep x y =
    { y with day := d, notice := n, journal := j, slot := k, ports := o, consoles := c } := by
  by_cases ends : reachesClose x new ∧ ∀ st : Station, (y.session st).borrower = none
  · obtain ⟨k, ended⟩ := afterStep_ends h ends.1 ends.2
    have sessions := enterClosed_sessions (s := { y with day := closingDay y }) h.unheld
    have clock : heldApplied y.clock = y.clock := heldApplied_none h.unheld
    have closed := enterClosed_frame { y with day := closingDay y }
    rw [closed] at sessions ended
    simp only at sessions ended
    rw [sessions, clock] at ended
    exact ⟨_, _, _, _, _, _, ended⟩
  · obtain ⟨d, k, stays⟩ := afterStep_stays h ends
    exact ⟨_, _, _, _, _, _, stays⟩

end

/-! ### The requests -/

theorem time_supervisor {tag : Tag} (admitted : s.admits .supervisor) :
    exec (.time { line := .supervisor, tag := tag } (.shaped p)) s =
      .next (answered { line := .supervisor, tag := tag } .time (Reply.bare .wrongState) s
        (received { line := .supervisor, tag := tag } .time s)) :=
  (show execTime { line := .supervisor, tag := tag } (.shaped p) s = _ from
    Desk.request_admitted (q := { line := .supervisor, tag := tag }) admitted)

theorem time_uplink {tag : Tag} (admitted : s.admits .uplink) :
    exec (.time { line := .uplink, tag := tag } (.shaped p)) s =
      .next (answered { line := .uplink, tag := tag } .time
        (timeRule p (received { line := .uplink, tag := tag } .time s)).2 s
        (timeRule p (received { line := .uplink, tag := tag } .time s)).1) :=
  (show execTime { line := .uplink, tag := tag } (.shaped p) s = _ from
    Desk.request_admitted (q := { line := .uplink, tag := tag }) admitted)

theorem setTime_uplink {tag : Tag} (admitted : s.admits .uplink) :
    exec (.setTime { line := .uplink, tag := tag } (.shaped p)) s =
      .next (answered { line := .uplink, tag := tag } .setTime (Reply.bare .wrongState) s
        (received { line := .uplink, tag := tag } .setTime s)) :=
  (show execSetTime { line := .uplink, tag := tag } (.shaped p) s = _ from
    Desk.request_admitted (q := { line := .uplink, tag := tag }) admitted)

theorem uplinkState_received (q : Req) (name : ReqName) (s : State) :
    (received q name s).uplink.state = s.uplink.state := by
  obtain ⟨u, v, heard, state⟩ := received_lines q name s
  rw [heard]
  exact state

theorem setTime_notOwner {tag : Tag} (admitted : s.admits .supervisor) (active : s.uplink.state = .active) :
    exec (.setTime { line := .supervisor, tag := tag } (.shaped p)) s =
      .next (answered { line := .supervisor, tag := tag } .setTime (Reply.bare .notOwner) s
        (received { line := .supervisor, tag := tag } .setTime s)) := by
  refine (show execSetTime { line := .supervisor, tag := tag } (.shaped p) s = _ from
    Desk.request_admitted (q := { line := .supervisor, tag := tag }) admitted).trans ?_
  rw [if_neg Line.noConfusion, if_pos ((uplinkState_received _ _ s).trans active)]

theorem setTime_supervisor {tag : Tag} (admitted : s.admits .supervisor) (inactive : s.uplink.state ≠ .active) :
    exec (.setTime { line := .supervisor, tag := tag } (.shaped p)) s =
      .next (answered { line := .supervisor, tag := tag } .setTime
        (timeRule p (received { line := .supervisor, tag := tag } .setTime s)).2 s
        (timeRule p (received { line := .supervisor, tag := tag } .setTime s)).1) := by
  refine (show execSetTime { line := .supervisor, tag := tag } (.shaped p) s = _ from
    Desk.request_admitted (q := { line := .supervisor, tag := tag }) admitted).trans ?_
  rw [if_neg Line.noConfusion, if_neg (by rwa [uplinkState_received])]

end Sys2Proof.DeskDay
end

