-- ==== Sys2Proof/Proofs/TimesTaken.lean ====
section
/-! SUPPORT. What a time that is taken leaves once auto-close and auto-open have been tested (R159, R160, R165, R167, R168). -/

namespace Sys2Proof.DeskDay

open Sys2Proof.Machine

variable {s x t : State} {new : Instant} {drafts : List Record}

/-! ### The event's outcome -/

/-- A time that is taken brings the desk-day to CLOSED (R167, R168). -/
def endsDay (x : State) (new : Instant) : Prop :=
  reachesClose x new ∧ ∀ st : Station, (x.session st).borrower = none

/-- What the event of a time that is taken leaves, its reply apart. -/
structure TimeLeft (x : State) (new : Instant) (z : State) : Prop where
  frame : ∃ d n j k o c, z =
    { x with
      clock := { now := new, valid := true, held := none }, sessions := sessionsAt new x, day := d, notice := n
      journal := j, slot := k, ports := o, consoles := c }
  tested : openingTested x.slot z
  short : ¬reachesClose x new → z.day = x.day
  waits : reachesClose x new → (∃ st : Station, (x.session st).borrower ≠ none) → z.day = closingDay x
  stays : ¬endsDay x new → z.notice = x.notice ∧ z.ports = x.ports ∧ z.consoles = x.consoles
  ends : endsDay x new → z.day = closedDay x.day ∧ z.notice = none
  texts : endsDay x new → ∀ (st : Station) (i : Fin 32), z.standingText st = some i →
    (z.console st).line1 = fit20 (x.shownText i).line1 ∧ (z.console st).line2 = fit20 (x.shownText i).line2
  steps : x.journal.oldest ≤ x.journal.nextSeq → ¬endsDay x new → Recorded x (stepRecords x new) z
  closes : x.journal.oldest ≤ x.journal.nextSeq → endsDay x new →
    Recorded x (stepRecords x new ++ [dated new (draft .dayClose)]) z

theorem borrower_timeTaken (h : takes x new) (st : Station) :
    ((timeTaken new x).session st).borrower = (x.session st).borrower := by
  obtain ⟨j, taken⟩ := timeTaken_frame h
  rw [taken]
  exact borrower_sessionsAt new x st

theorem timeLeft_afterStep (h : takes x new) : TimeLeft x new (afterStep x (timeTaken new x)) := by
  have found := stepEnds_timeTaken h
  have recorded := recorded_timeTaken (x := x) (new := new)
  have borrower := borrower_timeTaken h
  obtain ⟨j, taken⟩ := timeTaken_frame h
  generalize timeTaken new x = y at found recorded borrower taken ⊢
  have same_ends : endsDay x new ↔ reachesClose x new ∧ ∀ st : Station, (y.session st).borrower = none := by
    simp only [endsDay, borrower]
  refine ⟨?frame, ?tested, ?short, ?waits, ?stays, ?ends, ?texts, ?steps, ?closes⟩
  case frame =>
    obtain ⟨d, n, j', k, o, c, fields⟩ := afterStep_fields found
    rw [fields, taken]
    exact ⟨_, _, _, _, _, _, rfl⟩
  case tested =>
    have tested := openingTested_afterStep found
    rwa [show y.slot = x.slot by rw [taken]] at tested
  case short =>
    intro short
    rw [day_afterStep_short found short, taken]
  case waits =>
    intro reaches lent
    rw [day_afterStep_waits found reaches (by simpa only [borrower] using lent), taken]
    rfl
  case stays =>
    intro stays
    obtain ⟨d, k, unended⟩ := afterStep_stays found (mt same_ends.mpr stays)
    rw [unended, taken]
    exact ⟨rfl, rfl, rfl⟩
  case ends =>
    intro ends
    obtain ⟨reaches, idle⟩ := same_ends.mp ends
    rw [afterStep_reaches found reaches]
    obtain ⟨day, notice, -⟩ := enterClosing_closed idle
    refine ⟨day.trans ?_, notice⟩
    rw [taken]
  case texts =>
    intro ends st i text
    obtain ⟨reaches, idle⟩ := same_ends.mp ends
    obtain ⟨k, ended⟩ := afterStep_ends found reaches idle
    have shown := texts_enterClosed (s := { y with day := closingDay y }) (st := st) (i := i)
    have texts : ({ y with day := closingDay y } : State).shownText i = x.shownText i :=
      Desk.shownText_congr (by rw [taken]) i
    rw [texts] at shown
    generalize enterClosed { y with day := closingDay y } = z at ended shown
    rw [ended] at text ⊢
    exact shown text
  case steps =>
    intro sane stays
    obtain ⟨d, k, unended⟩ := afterStep_stays found (mt same_ends.mpr stays)
    exact (recorded sane).congr (by rw [unended])
  case closes =>
    intro sane ends
    obtain ⟨reaches, idle⟩ := same_ends.mp ends
    obtain ⟨k, ended⟩ := afterStep_ends found reaches idle
    have step : Recorded x (stepRecords x new) { y with day := closingDay y } := (recorded sane).congr rfl
    have stamps : StampsAs x { y with day := closingDay y } := by rw [taken]; exact ⟨rfl, rfl⟩
    have closed := step.closed sane stamps found.unheld
    rw [show ({ y with day := closingDay y } : State).clock.now = new from found.now] at closed
    generalize enterClosed { y with day := closingDay y } = z at ended closed
    exact closed.congr (by rw [ended])

/-- Records told from a state with the same journal, which stamps them alike. -/
theorem numbered_since (journal : x.journal = s.journal) (stamps : StampsAs s x) :
    numbered x (decide (x.uplink.state ≠ .active)) = numbered s (decide (s.uplink.state ≠ .active)) := by
  funext l
  simp only [numbered, journal, stamps.uplink, stamps.generation]

theorem Recorded.since (h : Recorded x drafts t) (journal : x.journal = s.journal) (stamps : StampsAs s x) :
    Recorded s drafts t := by
  rw [Recorded, numbered_since journal stamps, journal] at h
  exact h

theorem Wrote.since (h : Wrote x drafts t) (journal : x.journal = s.journal) (stamps : StampsAs s x) :
    Wrote s drafts t := by
  obtain ⟨records, nextSeq, overflow⟩ := h
  rw [numbered_since journal stamps, journal] at records
  rw [journal] at nextSeq overflow
  exact ⟨records, nextSeq, overflow⟩

/-- A record is stamped from the journal's head, the clock, the generation, the numbers of the bank and the uplink. -/
theorem stamped_congr (d : Record) (journal : x.journal = s.journal) (clock : x.clock = s.clock)
    (active : x.active = s.active) (stamps : StampsAs s x) : stamped x d = stamped s d := by
  simp only [stamped, journal, clock, active, stamps.uplink, stamps.generation]

/-- R160: a step's record, told from the state before the request, where there is room for it. -/
theorem appended_timeTaken (journal : x.journal = s.journal) (clock : x.clock = s.clock) (active : x.active = s.active)
    (stamps : StampsAs s x) (valid : s.clock.valid = true) (room : 1 ≤ s.journal.free) :
    appended { s with clock := { now := new, valid := true, held := none } } (clockStepDraft s.clock.now)
      (timeTaken new x) := by
  rw [timeTaken_steps (by rwa [clock]), appendSystem_room (clockStepped new x) (by rwa [← journal] at room), clock]
  obtain ⟨records, borrowers⟩ := Desk.appended_append (clockStepped new x) (clockStepDraft s.clock.now)
  rw [stamped_congr (s := { s with clock := { now := new, valid := true, held := none } }) (x := clockStepped new x)
    (clockStepDraft s.clock.now) journal rfl active ⟨stamps.uplink, stamps.generation⟩,
    show (clockStepped new x).journal = s.journal from journal] at records
  rw [show (clockStepped new x).active = s.active from active] at borrowers
  exact ⟨records, borrowers⟩

end Sys2Proof.DeskDay

open Sys2Proof Sys2Proof.Machine Sys2Proof.DeskDay

/-- Settles O55: both requests come to one rule, whose branches are taken one by one; the tests of auto-close and auto-open
are those of `timeLeft_afterStep`. -/
theorem timesSetOrHoldTheClock : Obligations.TimesSetOrHoldTheClock := by
  unfold Obligations.TimesSetOrHoldTheClock
  intro s l tag day second admitted q c name heard new refused far small unscheduled stepped disarmed
  have ruled (allowed : l = .uplink ∨ s.uplink.state ≠ .active) :
      exec c s =
        .next (answered q name (timeRule { day := day, second := second } heard).2 s
          (timeRule { day := day, second := second } heard).1) := by
    cases l with
    | uplink => exact time_uplink admitted
    | supervisor => exact setTime_supervisor admitted (allowed.resolve_left Line.noConfusion)
  have answers (allowed : l = .uplink ∨ s.uplink.state ≠ .active) (meant : second ≤ 86399) {z : State} {st : Status}
      (h : takeTime new heard = (z, st)) : exec c s = .next (answered q name (timeReply st z.clock) s z) := by
    rw [ruled allowed, timeRule_meant meant h]
  obtain ⟨u, v, hheard, ustate⟩ := received_lines q name s
  change heard = _ at hheard
  have within : secondsApart new heard.clock.now ≤ heard.settings.stepLimit ↔ small := by
    rw [hheard]
    exact secondsApart_le new s.clock.now s.settings.stepLimit
  have far_other (h : ¬small) : new ≠ heard.clock.now := fun same => h (within.mp (by
    rw [same]
    simp [secondsApart]))
  have takes_of (h : s.clock.valid = false ∨ new ≠ s.clock.now ∧ (s.day.state = .closed ∨ small)) :
      takes heard new := by
    rw [takes, within, hheard]
    exact h
  refine ⟨?timeDown, ?setTimeUp, ?notOwner,
    fun allowed => ⟨?badValue, ?sets, ?makesValid, ?equal, ?steps, ?holds, ?tests⟩⟩
  case timeDown => exact (em (s.admits .supervisor)).imp_left time_supervisor
  case setTimeUp => exact (em (s.admits .uplink)).imp_left setTime_uplink
  case notOwner =>
    rintro rfl active
    exact setTime_notOwner admitted active
  case badValue =>
    intro bad
    refine (ruled allowed).trans ?_
    rw [timeRule_badValue bad]
  case sets =>
    intro meant invalid other off
    have taken := answers allowed meant (takeTime_takes (takes_of (.inl invalid)))
    rw [afterStep_unscheduled (stepEnds_timeTaken (takes_of (.inl invalid))) (by rw [hheard]; exact off.1)
      (by rw [hheard]; exact off.2), timeTaken_sets (by rwa [hheard]), sessionsAt, if_neg (by rwa [hheard])] at taken
    rw [taken, hheard]
    rfl
  case makesValid =>
    intro meant invalid same off
    have taken := answers allowed meant (takeTime_takes (takes_of (.inl invalid)))
    rw [afterStep_unscheduled (stepEnds_timeTaken (takes_of (.inl invalid))) (by rw [hheard]; exact off.1)
      (by rw [hheard]; exact off.2), timeTaken_sets (by rwa [hheard]), sessionsAt, if_pos (by rwa [hheard])] at taken
    rw [taken, hheard]
    rfl
  case equal =>
    intro meant valid same
    have taken := answers allowed meant (takeTime_same (by rwa [hheard]) (by rwa [hheard]))
    rw [taken, hheard]
    have reply : timeReply .ok { s.clock with held := none } = stepped := by
      simp only [timeReply, valid, ← same]
      rfl
    exact congrArg (fun r => Host.Outcome.next (answered q name r s _)) reply
  case steps =>
    intro meant valid other may off room
    have taking := takes_of (.inr ⟨other, may⟩)
    have taken := answers allowed meant (takeTime_takes taking)
    have recorded := appended_timeTaken (s := s) (x := heard) (new := new) (by rw [hheard]) (by rw [hheard])
      (by rw [hheard]) (by rw [hheard]; exact ⟨ustate, rfl⟩) valid room
    obtain ⟨j, frame⟩ := timeTaken_frame taking
    rw [afterStep_unscheduled (stepEnds_timeTaken taking) (by rw [hheard]; exact off.1)
      (by rw [hheard]; exact off.2)] at taken
    rw [frame] at taken recorded
    rw [hheard] at taken recorded
    rw [sessionsAt, if_neg (show ¬new = s.clock.now from other)] at taken
    obtain ⟨u', v', ended⟩ := answered_lines q name stepped s
      { s with
        clock := { now := new, valid := true, held := none }, sessions := disarmed, journal := j, uplink := u
        supervisor := v }
    have reply := Ledgers.reply_answered q name stepped s
      { s with
        clock := { now := new, valid := true, held := none }, sessions := disarmed, journal := j, uplink := u
        supervisor := v }
    rw [ended] at reply
    exact ⟨_, taken.trans (congrArg _ ended), rfl, rfl, recorded, reply, rfl, rfl, rfl, rfl, rfl⟩
  case holds =>
    intro meant valid opened far
    have taken := answers allowed meant (takeTime_holds (by rwa [hheard]) (far_other far) (by
      rw [within, hheard]
      exact not_or.mpr ⟨opened, far⟩))
    rw [taken, hheard]
    have reply : timeReply .partiallyTaken { s.clock with held := some new } =
        { status := .partiallyTaken, results := .clock s.clock.now true (some new) } := by
      simp only [timeReply, valid]
    exact congrArg (fun r => Host.Outcome.next (answered q name r s _)) reply
  case tests =>
    intro meant may
    have taking := takes_of may
    have taken := answers allowed meant (takeTime_takes taking)
    have left := timeLeft_afterStep taking
    generalize afterStep heard (timeTaken new heard) = z at taken left
    rw [hheard] at left
    obtain ⟨d, n, j, k, o, consoles, frame⟩ := left.frame
    have clock : z.clock = { now := new, valid := true, held := none } := by rw [frame]
    rw [clock] at taken
    have reply := Ledgers.reply_answered q name stepped s z
    obtain ⟨u', v', ended⟩ := answered_lines q name stepped s z
    rw [ended] at reply
    refine ⟨_, taken.trans (congrArg _ ended), clock, fun same => ?_, fun other => ?_, reply, left.tested, left.short,
      left.waits, left.stays, fun ends => ⟨(left.ends ends).1, (left.ends ends).2, left.texts ends⟩,
      fun sane => ⟨fun stays => (left.steps sane stays).since rfl ⟨ustate, rfl⟩,
        fun ends => (left.closes sane ends).since rfl ⟨ustate, rfl⟩⟩, ?_⟩
    · rw [frame]
      exact if_pos same
    · rw [frame]
      exact if_neg other
    · rw [frame]
      exact ⟨rfl, rfl, rfl, rfl, rfl, rfl, rfl, rfl⟩
end

