-- ==== Sys2Proof/Proofs/StationsLost.lean ====
section
/-! SUPPORT. The loss of several stations in station order (R22, R134): what it makes of the stations, of the journal and of
the borrowers' entries. -/

namespace Sys2Proof.DeskDay

open Sys2Proof.Machine

variable {s x y z : State} {st o : Station} {n : Number} {drafts : List Record} {done : List Station}

/-! ### One abandoned session -/

/-- The record and the claims of an abandoned session that holds a claim or finds room (R22, R146). -/
theorem abandonSession_room (open_ : (y.session st).borrower = some n)
    (room : (y.session st).items ≠ [] ∨ 1 ≤ y.journal.free) :
    abandonSession st y =
      (unlinkBorrower n
        (append (abandonDraft st (y.session st)) (releaseClaims (y.session st).items.length y))).setSession st
          Session.empty := by
  simp only [abandonSession, open_]
  cases items : (y.session st).items with
  | nil =>
    have free : 1 ≤ y.journal.free := room.resolve_left fun h => h items
    simp only [appendSystem_room _ free]
    rfl
  | cons e rest =>
    simp only [appendClaimed, releaseClaims, List.length_cons, Nat.sub_sub]

theorem abandonSession_full (open_ : (y.session st).borrower = some n) (bare : (y.session st).items = [])
    (full : y.journal.free = 0) :
    abandonSession st y =
      (unlinkBorrower n { y with journal := { y.journal with overflow := true } }).setSession st Session.empty := by
  simp only [abandonSession, open_, bare, appendSystem_full _ full]

/-- What the loss of stations leaves of the journal's pointers; the claims of their lists are given back (R146). -/
structure ClaimsBack (j : Journal) (k : Nat) (j' : Journal) : Prop where
  oldest : j'.oldest = j.oldest
  sendMark : j'.sendMark = j.sendMark
  claims : j'.claims = j.claims - k

theorem ClaimsBack.trans {j j' j'' : Journal} {k k' : Nat} (h : ClaimsBack j k j') (h' : ClaimsBack j' k' j'') :
    ClaimsBack j (k + k') j'' :=
  ⟨h'.oldest.trans h.oldest, h'.sendMark.trans h.sendMark, by rw [h'.claims, h.claims, Nat.sub_sub]⟩

theorem claimsBack_abandonSession (list : (y.session st).borrower = none → (y.session st).items = []) :
    ClaimsBack y.journal (y.session st).items.length (abandonSession st y).journal := by
  cases open_ : (y.session st).borrower with
  | none =>
    rw [Desk.abandonSession_none open_, list open_]
    exact ⟨rfl, rfl, rfl⟩
  | some n =>
    by_cases room : (y.session st).items ≠ [] ∨ 1 ≤ y.journal.free
    · rw [abandonSession_room open_ room]
      exact ⟨rfl, rfl, rfl⟩
    · obtain ⟨bare, full⟩ := not_or.mp room
      rw [abandonSession_full open_ (not_not.mp bare) (Nat.lt_one_iff.mp (Nat.not_le.mp full)), not_not.mp bare]
      exact ⟨rfl, rfl, rfl⟩

/-! ### Its borrower's entry -/

/-- An entry once the sessions of some stations have been abandoned: a record names its borrower, and the link is gone. -/
def unlinkedBy (l : List Station) (e : Borrower) : Borrower :=
  if ∃ st ∈ l, e.sessionStation = some st then { e with pending := e.pending + 1, sessionStation := none } else e

theorem unlinkedBy_nil (e : Borrower) : unlinkedBy [] e = e := by simp [unlinkedBy]

theorem unlinkedBy_concat (l : List Station) (st : Station) (e : Borrower) :
    unlinkedBy [st] (unlinkedBy l e) = unlinkedBy (l ++ [st]) e := by
  by_cases earlier : ∃ o ∈ l, e.sessionStation = some o
  · have whole : ∃ o ∈ l ++ [st], e.sessionStation = some o := by
      obtain ⟨o, mem, at_⟩ := earlier
      exact ⟨o, List.mem_append_left _ mem, at_⟩
    rw [unlinkedBy, unlinkedBy, if_pos earlier, unlinkedBy, if_pos whole, if_neg (by simp)]
  · have here : (∃ o ∈ l ++ [st], e.sessionStation = some o) ↔ ∃ o ∈ [st], e.sessionStation = some o := by
      simp only [List.mem_append, or_and_right, exists_or, earlier, false_or]
    simp only [unlinkedBy, if_neg earlier, here]

/-- R2: the entry of an open session's borrower is the one that names the station. -/
theorem number_eq_iff (linked : Links.Linked y) (open_ : (y.session st).borrower = some n) {e : Borrower}
    (mem : e ∈ y.active.borrowers) : e.number = n ↔ e.sessionStation = some st := by
  obtain ⟨⟨named, marked, -⟩, nodup⟩ := linked
  constructor
  · rintro rfl
    obtain ⟨e', mem', same, at_⟩ := named st e.number open_
    have numbers : (y.active.borrowers.map Borrower.number).Nodup := by
      simpa [Links.view, Links.marks, Function.comp_def] using nodup
    rwa [← List.inj_on_of_nodup_map numbers mem' mem same]
  · intro at_
    exact (Option.some.inj (open_.symm.trans (marked e mem st at_))).symm

/-- R2: no entry names a station without a session. -/
theorem unmarked_of_free (linked : Links.Linked y) (free : (y.session st).borrower = none) {e : Borrower}
    (mem : e ∈ y.active.borrowers) : e.sessionStation ≠ some st := fun at_ => by
  obtain ⟨⟨-, marked, -⟩, -⟩ := linked
  rw [marked e mem st at_] at free
  cases free

theorem counts_open (linked : Links.Linked y) (open_ : (y.session st).borrower = some n) {d : Record}
    (names : d.borrower = some n) : y.counts d = d.borrower.isSome := by
  obtain ⟨⟨named, -⟩, -⟩ := linked
  obtain ⟨e, mem, number, -⟩ := named st n open_
  simp only [State.counts, names, Bank.borrower, List.find?_isSome, Option.isSome_some]
  exact ⟨e, mem, by simpa using number⟩

theorem active_abandonSession (linked : Links.Linked y)
    (room : (y.session st).borrower ≠ none → (y.session st).items ≠ [] ∨ 1 ≤ y.journal.free) :
    (abandonSession st y).active = { y.active with borrowers := y.active.borrowers.map (unlinkedBy [st]) } := by
  cases open_ : (y.session st).borrower with
  | none =>
    have same : y.active.borrowers.map (unlinkedBy [st]) = y.active.borrowers :=
      (List.map_congr_left fun e mem => by simp [unlinkedBy, unmarked_of_free linked open_ mem]).trans (List.map_id _)
    rw [Desk.abandonSession_none open_, same]
  | some n =>
    rw [abandonSession_room open_ (room (by simp [open_]))]
    have raised : (append (abandonDraft st (y.session st)) (releaseClaims (y.session st).items.length y)).active =
        y.active.mapBorrower n fun e => { e with pending := e.pending + 1 } := by
      simp only [append, raisePending, abandonDraft, open_]
      rfl
    have unlinked := Desk.unlinked_borrowers n
      (append (abandonDraft st (y.session st)) (releaseClaims (y.session st).items.length y)).active
    refine unlinked.trans ?_
    rw [raised, Bank.mapBorrower, List.map_map]
    refine congrArg (fun l => { y.active with borrowers := l }) ?_
    have entries : ∀ e ∈ y.active.borrowers,
        (if (if e.number = n then { e with pending := e.pending + 1 } else e).number = n then
          { (if e.number = n then { e with pending := e.pending + 1 } else e) with sessionStation := none }
        else if e.number = n then { e with pending := e.pending + 1 } else e) = unlinkedBy [st] e := by
      intro e mem
      have named := number_eq_iff linked open_ mem
      by_cases here : e.number = n
      · simp [unlinkedBy, here, named.mp here]
      · simp [unlinkedBy, here, mt named.mpr here]
    refine (congrArg (withoutRetired n) (List.map_congr_left entries)).trans (List.filter_eq_self.mpr fun e' mem' => ?_)
    obtain ⟨e, mem, rfl⟩ := List.mem_map.mp mem'
    have named := number_eq_iff linked open_ mem
    by_cases here : e.sessionStation = some st
    · simp [unlinkedBy, here]
    · simp [unlinkedBy, here, mt named.mp here]

/-! ### Its record -/

theorem free_releaseClaims (k : Nat) (y : State) : y.journal.free ≤ (releaseClaims k y).journal.free := by
  simp only [releaseClaims, Journal.free, Journal.unreleased]
  omega

/-- R22, R144: an abandoned session leaves its record, and takes no more room than that. -/
theorem Wrote.abandoned (h : Wrote s drafts y) (stamps : StampsAs s y) (linked : Links.Linked y)
    (room : (y.session st).borrower ≠ none → 1 ≤ y.journal.free) :
    Wrote s (drafts ++ (abandonedAt y st).toList) (abandonSession st y) ∧
      y.journal.free ≤ (abandonSession st y).journal.free + (abandonedAt y st).toList.length := by
  cases open_ : (y.session st).borrower with
  | none =>
    have nothing : abandonedAt y st = none := by simp [abandonedAt, open_]
    rw [Desk.abandonSession_none open_, nothing, Option.toList_none, List.append_nil]
    exact ⟨h, le_rfl⟩
  | some n =>
    have record : abandonedAt y st = some (dated y.clock.now (abandonDraft st (y.session st))) := by
      simp only [abandonedAt, abandonDraft, open_, Option.map_some]
    have names : (abandonDraft st (y.session st)).borrower = some n := open_
    have given : Wrote s drafts (releaseClaims (y.session st).items.length y) := ⟨h.records, h.nextSeq, h.overflow⟩
    have written := given.append ⟨stamps.uplink, stamps.generation⟩ (counts_open linked open_ names)
    have left := Desk.free_append (abandonDraft st (y.session st)) (releaseClaims (y.session st).items.length y)
    have more := free_releaseClaims (y.session st).items.length y
    rw [abandonSession_room open_ (.inr (room (by simp [open_]))), record]
    refine ⟨written.congr rfl, ?_⟩
    show y.journal.free ≤ (Machine.append (abandonDraft st (y.session st)) _).journal.free + 1
    omega

/-! ### Stations lost in a row -/

/-- The loss of some stations one after the other (R134). -/
def loseAll (l : List Station) (x : State) : State := l.foldl (fun y st => loseStation st y) x

theorem loseAll_concat (l : List Station) (st : Station) (x : State) :
    loseAll (l ++ [st]) x = loseStation st (loseAll l x) := by simp [loseAll]

/-- The stations that a settings record leaves out (R134). -/
def leftOut (x : State) : List Station :=
  stations.filter fun st => (x.port st).present && !(x.port st).bridged && !x.settings.enableMask[st]

theorem disableStations_eq (x : State) : disableStations x = loseAll (leftOut x) x := by
  have run : ∀ (l : List Station) (y : State), l.Nodup →
      (∀ st ∈ l, y.port st = x.port st) → y.settings = x.settings →
      l.foldl
          (fun s st =>
            if (s.port st).present && !(s.port st).bridged && !s.settings.enableMask[st] then loseStation st s else s)
          y =
        loseAll
          (l.filter fun st => (x.port st).present && !(x.port st).bridged && !x.settings.enableMask[st]) y := by
    intro l
    induction l with
    | nil => exact fun y _ _ _ => rfl
    | cons st l ih =>
      intro y nodup ports settings
      obtain ⟨fresh, nodup⟩ := List.nodup_cons.mp nodup
      obtain ⟨here, later⟩ := List.forall_mem_cons.mp ports
      rw [List.foldl_cons, List.filter_cons, here, settings]
      split
      · have lost := Desk.lost_loseStation y st
        refine ih _ nodup (fun o mem => ?_) (lost.frame.settings.trans settings)
        rw [(lost.frame.1 o (ne_of_mem_of_not_mem mem fresh)).1, later o mem]
      · exact ih y nodup later settings
  exact run stations x (List.nodup_finRange 8) (fun _ _ => rfl) rfl

/-- What the loss of some stations leaves of them and of the desk (R1, R22, R122, R124, R133). -/
structure LostAll (x : State) (done : List Station) (y : State) : Prop where
  port : ∀ st ∈ done, y.port st = (x.port st).leave
  console : ∀ st ∈ done, y.console st = (x.console st).leave
  session : ∀ st ∈ done, (y.session st).borrower = none ∧ (y.session st).items = [] ∧
    (y.session st).armedUntil = none ∧ (y.session st).mode = .normal
  others : ∀ o, o ∉ done → y.port o = x.port o ∧ y.console o = x.console o ∧ y.session o = x.session o
  desk : deskOnly x y
  cache : y.cache = x.cache
  causes : ∀ l : Line, (y.line l).pendingSet.has .stationLost =
    ((x.line l).pendingSet.has .stationLost || !done.isEmpty)
  uplink : y.uplink.state = x.uplink.state
  claims : ClaimsBack x.journal (done.map fun st => (x.session st).items.length).sum y.journal
  linked : Links.Linked y

theorem uplink_loseStation (st : Station) (y : State) : (loseStation st y).uplink.state = y.uplink.state := by
  have kept : (abandonSession st y).uplink = y.uplink := by
    cases open_ : (y.session st).borrower with
    | none => rw [Desk.abandonSession_none open_]
    | some n =>
      obtain ⟨j, a, abandoned, -⟩ := Desk.abandonSession_spec open_
      rw [abandoned]
  rw [loseStation]
  generalize abandonSession st y = z at kept
  rw [← kept]
  rfl

/-- R22: a session that ends by an abandonment leaves the station an empty one. -/
theorem session_abandonSession (list : (y.session st).borrower = none → (y.session st).items = []) :
    ((abandonSession st y).session st).items = [] := by
  cases open_ : (y.session st).borrower with
  | none =>
    rw [Desk.abandonSession_none open_]
    exact list open_
  | some n =>
    obtain ⟨j, a, abandoned, -⟩ := Desk.abandonSession_spec open_
    rw [abandoned]
    exact congrArg Session.items (session_setSession y st Session.empty)

theorem leaveDesk_items (r : Session) : r.leaveDesk.items = r.items := congrArg Prod.snd (Ledgers.holding_leaveDesk r)

theorem deskOnly_trans (h : deskOnly x y) (h' : deskOnly y z) : deskOnly x z := by
  simp only [deskOnly] at h h' ⊢
  simp only [h', h, and_self]

theorem lostAll_nothing (linked : Links.Linked x) : LostAll x [] x where
  port _ mem := absurd mem List.not_mem_nil
  console _ mem := absurd mem List.not_mem_nil
  session _ mem := absurd mem List.not_mem_nil
  others _ _ := ⟨rfl, rfl, rfl⟩
  desk := (Desk.DeskFrame.refl 0 x).2
  cache := rfl
  causes _ := (Bool.or_false _).symm
  uplink := rfl
  claims := ⟨rfl, rfl, rfl⟩
  linked := linked

theorem LostAll.concat (h : LostAll x done y) (fresh : st ∉ done)
    (list : (x.session st).borrower = none → (x.session st).items = []) :
    LostAll x (done ++ [st]) (loseStation st y) := by
  obtain ⟨port, console, session, others, desk, cache, causes, uplink, claims, linked⟩ := h
  obtain ⟨portHere, consoleHere, sessionHere⟩ := others st fresh
  have lost := Desk.lost_loseStation y st
  have given := claimsBack_abandonSession (y := y) (st := st) (by rwa [sessionHere])
  have bare := session_abandonSession (y := y) (st := st) (by rwa [sessionHere])
  have earlier {o : Station} (mem : o ∈ done) := lost.frame.1 o (ne_of_mem_of_not_mem mem fresh)
  refine ⟨?port, ?console, ?session, ?others, ?desk, lost.cache.trans cache, fun l => ?causes,
    (uplink_loseStation st y).trans uplink, ?claims, Links.linked_loseStation linked st⟩
  case port =>
    refine List.forall_mem_append.mpr ⟨fun o mem => (earlier mem).1.trans (port o mem), ?_⟩
    exact List.forall_mem_singleton.mpr (by rw [lost.port, portHere])
  case console =>
    refine List.forall_mem_append.mpr ⟨fun o mem => (earlier mem).2.1.trans (console o mem), ?_⟩
    exact List.forall_mem_singleton.mpr (by rw [lost.console, consoleHere])
  case session =>
    refine List.forall_mem_append.mpr ⟨fun o mem => ?_, List.forall_mem_singleton.mpr ⟨lost.free, ?_, ?_, ?_⟩⟩
    · rw [(earlier mem).2.2]
      exact session o mem
    · rw [lost.session, leaveDesk_items, bare]
    · rw [lost.session, Desk.leaveDesk_armedUntil]
    · rw [lost.session]
      rfl
  case others =>
    intro o outside
    obtain ⟨before, other⟩ := not_or.mp (mt List.mem_append.mpr outside)
    obtain ⟨p, c, r⟩ := lost.frame.1 o (mt List.mem_singleton.mpr other)
    obtain ⟨p', c', r'⟩ := others o before
    exact ⟨p.trans p', c.trans c', r.trans r'⟩
  case desk => exact deskOnly_trans desk lost.frame.2
  case causes => simp [lost.causes l]
  case claims =>
    rw [← lost.tables.1, sessionHere] at given
    simpa using claims.trans given

theorem lostAll_loseAll (linked : Links.Linked x)
    (lists : ∀ st : Station, (x.session st).borrower = none → (x.session st).items = []) :
    ∀ l : List Station, l.Nodup → LostAll x l (loseAll l x) := by
  intro l
  induction l using List.reverseRecOn with
  | nil => exact fun _ => lostAll_nothing linked
  | append_singleton l st ih =>
    intro nodup
    obtain ⟨before, -, apart⟩ := List.nodup_append.mp nodup
    rw [loseAll_concat]
    exact (ih before).concat (fun mem => apart st mem st (List.mem_singleton_self st) rfl) (lists st)

/-! ### Their records -/

/-- What the loss of some stations leaves in the journal and in the borrowers' entries, where there is room for its
records (R22, R50, R54). -/
structure LossRecorded (x : State) (done : List Station) (y : State) : Prop where
  wrote : Wrote x (done.filterMap (abandonedAt x)) y
  free : x.journal.free ≤ y.journal.free + (done.filterMap (abandonedAt x)).length
  active : y.active = { x.active with borrowers := x.active.borrowers.map (unlinkedBy done) }

theorem abandonedAt_congr (session : y.session st = x.session st) (clock : y.clock = x.clock) :
    abandonedAt y st = abandonedAt x st := by
  simp only [abandonedAt, session, clock]

theorem LossRecorded.concat (h : LossRecorded x done y) (left : LostAll x done y) (fresh : st ∉ done)
    (room : ((done ++ [st]).filterMap (abandonedAt x)).length ≤ x.journal.free) :
    LossRecorded x (done ++ [st]) (loseStation st y) := by
  obtain ⟨wrote, free, active⟩ := h
  obtain ⟨staged, stagedState, generation, clock, -⟩ := left.desk
  obtain ⟨-, -, sessionHere⟩ := left.others st fresh
  have record := abandonedAt_congr sessionHere clock
  have drafts : (done ++ [st]).filterMap (abandonedAt x) =
      done.filterMap (abandonedAt x) ++ (abandonedAt x st).toList := by
    rw [List.filterMap_append]
    cases h : abandonedAt x st <;> simp [h]
  rw [drafts, List.length_append] at room
  have enough : (y.session st).borrower ≠ none → 1 ≤ y.journal.free := fun open_ => by
    have one : (abandonedAt x st).toList.length = 1 := by
      rw [← record]
      cases h : abandonedAt y st with
      | none => simp [abandonedAt] at h; exact absurd h open_
      | some d => rfl
    omega
  obtain ⟨written, less⟩ := wrote.abandoned (st := st) ⟨left.uplink, generation⟩ left.linked enough
  obtain ⟨journal, bank⟩ := (Desk.lost_loseStation y st).tables
  rw [record] at written less
  refine ⟨?_, ?_, ?_⟩
  · rw [drafts]
    exact written.congr journal
  · rw [drafts, List.length_append, journal]
    omega
  · rw [bank, active_abandonSession left.linked fun open_ => .inr (enough open_), active, List.map_map]
    exact congrArg (fun l => { x.active with borrowers := l })
      (List.map_congr_left fun e _ => unlinkedBy_concat done st e)

theorem lossRecorded_loseAll (linked : Links.Linked x)
    (lists : ∀ st : Station, (x.session st).borrower = none → (x.session st).items = []) :
    ∀ l : List Station, l.Nodup → (l.filterMap (abandonedAt x)).length ≤ x.journal.free →
      LossRecorded x l (loseAll l x) := by
  intro l
  induction l using List.reverseRecOn with
  | nil =>
    intro _ _
    refine ⟨wrote_nothing rfl, le_rfl, ?_⟩
    have same : x.active.borrowers.map (unlinkedBy []) = x.active.borrowers :=
      (List.map_congr_left fun e _ => unlinkedBy_nil e).trans (List.map_id _)
    rw [same]
    rfl
  | append_singleton l st ih =>
    intro nodup room
    obtain ⟨before, -, apart⟩ := List.nodup_append.mp nodup
    have earlier : (l.filterMap (abandonedAt x)).length ≤ x.journal.free := by
      rw [List.filterMap_append, List.length_append] at room
      omega
    rw [loseAll_concat]
    exact (ih before earlier).concat (lostAll_loseAll linked lists l before)
      (fun mem => apart st mem st (List.mem_singleton_self st) rfl) room

end Sys2Proof.DeskDay
end

