-- ==== Sys2Proof/Proofs/SettingsReplaced.lean ====
section
/-! SUPPORT. SET_SETTINGS (R174): the record that it stores, and what the loss of the stations it leaves out comes to once the
entry into CLOSED and auto-open have been tested (R134, R165, R168). -/

namespace Sys2Proof.DeskDay

open Sys2Proof.Machine

variable {s x y z : State} {st : Station} {l : List Station} {q : Req} {p : SettingsParams}

/-! ### The record -/

theorem setSettings_taken (admitted : s.admitsOwner q.line) :
    exec (.setSettings q (.shaped p)) s =
      .next (answered q .setSettings (settingsRule p (received q .setSettings s)).2 s
        (settingsRule p (received q .setSettings s)).1) :=
  (show execSetSettings q (.shaped p) s = _ from TableWrites.request_owner admitted)

theorem settingsOf_none
    (bad : p.autoOpen = none ∨ p.autoClose = none ∨ p.dateFormat = none ∨ p.allowedFeatures.outside = true) :
    settingsOf p = none := by
  unfold settingsOf
  split
  · rfl
  · next inside =>
    split
    · next opens closes f hopens hcloses hf => simp [hopens, hcloses, hf, inside] at bad
    · rfl

theorem clamp_eq (lo hi v : Nat) (h : lo ≤ hi) : clamp lo hi v = max lo (min hi v) := by
  unfold clamp
  split
  · omega
  · split <;> omega

/-- The record of a SET_SETTINGS whose values have names (R174). -/
def settingsMeant (p : SettingsParams) (opens closes : Bool) (f : DateFormat) : Settings :=
  { enableMask := p.enableMask, printerWidths := p.printerWidths
    idleTimeout := max 30 (min 600 p.idleTimeout), closingGrace := max 1 (min 30 p.closingGrace)
    autoOpen := opens, autoClose := closes, highWater := max 1024 (min 16352 p.highWater), dateFormat := f
    allowedFeatures := p.allowedFeatures.set, stepLimit := min 600 p.stepLimit }

section
variable {opens closes : Bool} {f : DateFormat} (hopens : p.autoOpen = some opens) (hcloses : p.autoClose = some closes)
  (hf : p.dateFormat = some f) (inside : p.allowedFeatures.outside = false)
include hopens hcloses hf inside

theorem settingsOf_meant : settingsOf p = some (settingsMeant p opens closes f) := by
  have limit : clamp 0 600 p.stepLimit = min 600 p.stepLimit :=
    (clamp_eq 0 600 p.stepLimit (by decide)).trans (Nat.zero_max _)
  simp only [settingsOf, hopens, hcloses, hf, inside, Bool.false_eq_true, if_false, settingsMeant, limit,
    clamp_eq 30 600 p.idleTimeout (by decide), clamp_eq 1 30 p.closingGrace (by decide),
    clamp_eq 1024 16352 p.highWater (by decide)]

theorem settingsRule_meant (x : State) :
    settingsRule p x =
      (autoOpenTest (closeIfDone (disableStations { x with settings := settingsMeant p opens closes f })),
        { status := okOrPartial (settingsChanged p), results := .settingsStored (settingsMeant p opens closes f) }) := by
  simp only [settingsRule, settingsOf_meant hopens hcloses hf inside]

end

/-- The values of a SET_SETTINGS are stored as they were given (R174). -/
def settingsExact (p : SettingsParams) (r : Settings) : Bool :=
  decide (r.idleTimeout = p.idleTimeout ∧ r.closingGrace = p.closingGrace ∧ r.highWater = p.highWater ∧
    r.stepLimit = p.stepLimit ∧
    ∀ st : Station, p.printerWidths[st] = 32#8 ∨ p.printerWidths[st] = 40#8 ∨ p.printerWidths[st] = 48#8)

theorem settingsChanged_eq (p : SettingsParams) (opens closes : Bool) (f : DateFormat) :
    settingsChanged p = !settingsExact p (settingsMeant p opens closes f) := by
  have widths : (p.printerWidths.any fun w => decide (w ≠ 32#8 ∧ w ≠ 40#8 ∧ w ≠ 48#8)) = true ↔
      ¬∀ st : Station, p.printerWidths[st] = 32#8 ∨ p.printerWidths[st] = 40#8 ∨ p.printerWidths[st] = 48#8 := by
    rw [Vector.any_eq_true]
    constructor
    · rintro ⟨i, lt, other⟩ all
      exact absurd (all ⟨i, lt⟩) (by simpa using other)
    · intro other
      obtain ⟨st, at_⟩ := not_forall.mp other
      exact ⟨st, st.isLt, by simpa using at_⟩
  have limit : clamp 0 600 p.stepLimit = min 600 p.stepLimit :=
    (clamp_eq 0 600 p.stepLimit (by decide)).trans (Nat.zero_max _)
  rw [Bool.eq_iff_iff, Bool.not_eq_true', settingsExact, decide_eq_false_iff_not]
  simp only [settingsChanged, Bool.or_eq_true, widths, Ledgers.clamps_iff, decide_eq_true_eq, settingsMeant, limit,
    clamp_eq 30 600 p.idleTimeout (by decide), clamp_eq 1 30 p.closingGrace (by decide),
    clamp_eq 1024 16352 p.highWater (by decide)]
  tauto

theorem status_exact (p : SettingsParams) (opens closes : Bool) (f : DateFormat) :
    okOrPartial (settingsChanged p) =
      if settingsExact p (settingsMeant p opens closes f) then .ok else .partiallyTaken := by
  rw [settingsChanged_eq p opens closes f]
  cases settingsExact p (settingsMeant p opens closes f) <;> rfl

/-! ### The entry into CLOSED -/

/-- A system record leaves the pointers and the claims (R145, R148). -/
theorem claimsBack_appendSystem (d : Record) (y : State) : ClaimsBack y.journal 0 (appendSystem d y).journal := by
  unfold appendSystem
  split <;> exact ⟨rfl, rfl, rfl⟩

theorem claimsBack_enterClosed (y : State) : ClaimsBack y.journal 0 (enterClosed y).journal := by
  have closed : ClaimsBack y.journal 0 (Desk.dayClosing y).journal := claimsBack_appendSystem (draft .dayClose) y
  rw [journal_enterClosed]
  generalize Desk.dayClosing y = x at closed
  unfold applyHeld
  split
  · exact closed
  · next t waiting =>
    exact closed.trans (claimsBack_appendSystem (clockStepDraft (dropHeld x).clock.now) (stepClock t (dropHeld x)))

/-- A station without a standing text keeps its display when all show theirs (R125). -/
theorem kept_showStandingAll (silent : y.standingText st = none) :
    (showStandingAll y).port st = y.port st ∧ (showStandingAll y).console st = y.console st := by
  have run : ∀ (l : List Station) (x : State), Desk.Repainted y x →
      x.port st = y.port st ∧ x.console st = y.console st →
      (l.foldl (fun s st => showStanding st s) x).port st = y.port st ∧
        (l.foldl (fun s st => showStanding st s) x).console st = y.console st := by
    intro l
    induction l with
    | nil => exact fun x _ kept => kept
    | cons o l ih =>
      intro x painted kept
      have redrawn := Desk.redrawn_showStanding o x
      refine ih _ (painted.trans redrawn.1) ?_
      by_cases here : st = o
      · subst here
        have same : showStanding st x = x := by simp only [showStanding, painted.standingText st, silent]
        show (showStanding st x).port st = y.port st ∧ (showStanding st x).console st = y.console st
        rwa [same]
      · obtain ⟨port, console⟩ := redrawn.2 st here
        rwa [port, console]
  exact run stations y (Desk.Repainted.refl y) ⟨rfl, rfl⟩

/-- An absent station is as it was at the entry into CLOSED. -/
theorem absent_enterClosed (absent : (y.port st).present = false) (unbridged : (y.port st).bridged = false) :
    (enterClosed y).port st = y.port st ∧ (enterClosed y).console st = y.console st := by
  obtain ⟨ports, consoles⟩ : (applyHeld (Desk.dayClosing y)).port st = y.port st ∧
      (applyHeld (Desk.dayClosing y)).console st = y.console st := by
    rw [applyHeld_frame, dayClosing_frame]
    exact ⟨rfl, rfl⟩
  rw [Desk.enterClosed_eq]
  generalize applyHeld (Desk.dayClosing y) = x at ports consoles ⊢
  have silent : x.standingText st = none := by
    rw [State.standingText, Desk.stationState_absent (by rwa [ports]) (by rwa [ports])]
  obtain ⟨port, console⟩ := kept_showStandingAll silent
  exact ⟨port.trans ports, console.trans consoles⟩

/-! ### The loss settled -/

/-- The stations of a list hold the last sessions of a CLOSING desk (R168). -/
def endsClosing (x : State) (l : List Station) : Prop :=
  x.day.state = .closing ∧ ∀ st : Station, (x.session st).borrower ≠ none → st ∈ l

/-- What the loss of some stations comes to, auto-open apart. -/
structure LossSettled (x : State) (l : List Station) (z : State) : Prop where
  port : ∀ st ∈ l, z.port st = (x.port st).leave
  console : ∀ st ∈ l, z.console st = (x.console st).leave
  session : ∀ st ∈ l, (z.session st).borrower = none ∧ (z.session st).items = [] ∧
    (z.session st).armedUntil = none ∧ (z.session st).mode = .normal
  causes : ∀ line : Line, (z.line line).pendingSet.has .stationLost =
    ((x.line line).pendingSet.has .stationLost || !l.isEmpty)
  stays : ¬endsClosing x l → z.day = x.day ∧ z.clock = x.clock ∧ z.notice = x.notice ∧
    ∀ st, st ∉ l → z.port st = x.port st ∧ z.console st = x.console st ∧ z.session st = x.session st
  closes : endsClosing x l → z.day = closedDay x.day ∧ z.notice = none ∧ z.clock = heldApplied x.clock
  claims : ClaimsBack x.journal (l.map fun st => (x.session st).items.length).sum z.journal
  recorded : (l.filterMap (abandonedAt x)).length + 2 ≤ x.journal.free →
    (¬endsClosing x l → Wrote x (l.filterMap (abandonedAt x)) z) ∧
      (endsClosing x l → Wrote x (l.filterMap (abandonedAt x) ++ closingDrafts x) z) ∧
      z.active = { x.active with borrowers := x.active.borrowers.map (unlinkedBy l) }
  cache : z.cache = x.cache
  rest : z.staged = x.staged ∧ z.stagedState = x.stagedState ∧ z.generation = x.generation ∧ z.key = x.key ∧
    z.upload = x.upload ∧ z.store = x.store

section
variable (left : LostAll x l y) (recorded : (l.filterMap (abandonedAt x)).length ≤ x.journal.free → LossRecorded x l y)
include left

theorem anySession_left : y.anySession = false ↔ ∀ st : Station, (x.session st).borrower ≠ none → st ∈ l := by
  rw [Links.anySession_false]
  constructor
  · intro none_left st open_
    by_contra outside
    exact open_ ((left.others st outside).2.2 ▸ none_left st)
  · intro named st
    by_cases mem : st ∈ l
    · exact (left.session st mem).1
    · rw [(left.others st mem).2.2]
      exact not_not.mp (mt (named st) mem)

include recorded

theorem lossSettled_stays (stays : ¬endsClosing x l) : LossSettled x l y := by
  obtain ⟨staged, stagedState, generation, clock, settings, key, slot, day, notice, upload, store, -⟩ := left.desk
  exact {
    port := left.port
    console := left.console
    session := left.session
    causes := left.causes
    stays := fun _ => ⟨day, clock, notice, left.others⟩
    closes := fun ends => absurd ends stays
    claims := left.claims
    recorded := fun room =>
      have lost := recorded (by omega)
      ⟨fun _ => lost.wrote, fun ends => absurd ends stays, lost.active⟩
    cache := left.cache
    rest := ⟨staged, stagedState, generation, key, upload, store⟩ }

theorem lossSettled_closes (ends : endsClosing x l) : LossSettled x l (enterClosed y) := by
  obtain ⟨staged, stagedState, generation, clock, settings, key, slot, day, notice, upload, store, -⟩ := left.desk
  have ended := Desk.dayEnded_enterClosed y
  have pointers := left.claims.trans (claimsBack_enterClosed y)
  have kept (st : Station) (mem : st ∈ l) := absent_enterClosed (y := y) (st := st)
    (congrArg Port.present (left.port st mem)) (congrArg Port.bridged (left.port st mem))
  have wrote : (l.filterMap (abandonedAt x)).length + 2 ≤ x.journal.free →
      Wrote x (l.filterMap (abandonedAt x) ++ closingDrafts x) (enterClosed y) := fun room => by
    have lost := recorded (by omega)
    have free := lost.free
    have closed := lost.wrote.closed ⟨left.uplink, generation⟩ (by omega)
    rwa [show closingDrafts y = closingDrafts x by simp only [closingDrafts, clock]] at closed
  have frame := enterClosed_frame y
  generalize enterClosed y = z at ended pointers kept wrote frame ⊢
  have clock' : z.clock = heldApplied x.clock := by rw [frame, clock]
  have active' : z.active = y.active := by rw [frame]
  exact {
    port := fun st mem => (kept st mem).1.trans (left.port st mem)
    console := fun st mem => (kept st mem).2.trans (left.console st mem)
    session := fun st mem => by
      obtain ⟨borrower, items, unarmed, mode⟩ := left.session st mem
      rw [ended.session st unarmed]
      exact ⟨borrower, items, unarmed, mode⟩
    causes := fun line => by rw [ended.line line, left.causes line]
    stays := fun stays => absurd ends stays
    closes := fun _ => ⟨ended.day.trans (by rw [day]; rfl), ended.notice, clock'⟩
    claims := pointers
    recorded := fun room =>
      ⟨fun stays => absurd ends stays, fun _ => wrote room, active'.trans (recorded (by omega)).active⟩
    cache := ended.cache.trans left.cache
    rest := by
      rw [frame]
      exact ⟨staged, stagedState, generation, key, upload, store⟩ }

end

theorem LossSettled.slot (h : LossSettled x l z) (k : Option Slot) : LossSettled x l { z with slot := k } := by
  obtain ⟨port, console, session, causes, stays, closes, claims, recorded, cache, rest⟩ := h
  refine ⟨port, console, session, causes, stays, closes, claims, fun room => ?_, cache, rest⟩
  obtain ⟨waits, ends, active⟩ := recorded room
  exact ⟨fun h => (waits h).congr rfl, fun h => (ends h).congr rfl, active⟩

/-- R134, R165, R168: the loss of some stations, then the entry into CLOSED after the last session, then auto-open. -/
theorem lossSettled_tested (left : LostAll x l y)
    (recorded : (l.filterMap (abandonedAt x)).length ≤ x.journal.free → LossRecorded x l y) :
    LossSettled x l (autoOpenTest (closeIfDone y)) ∧ openingTested x.slot (autoOpenTest (closeIfDone y)) := by
  obtain ⟨-, -, -, -, -, -, slot, day, -⟩ := left.desk
  by_cases ends : endsClosing x l
  · have closed : closeIfDone y = closeDeskDay y :=
      if_pos ⟨(congrArg Day.state day).trans ends.1, (anySession_left left).mpr ends.2⟩
    have settled := lossSettled_closes left recorded ends
    have tested := openingTested_closeDeskDay y
    obtain ⟨k, slotted⟩ := closeDeskDay_slot y
    rw [closed, closeDeskDay_tested, ← slot]
    generalize enterClosed y = w at settled slotted
    exact ⟨slotted ▸ settled.slot k, tested⟩
  · have stays : closeIfDone y = y :=
      if_neg fun done => ends ⟨(congrArg Day.state day).symm.trans done.1, (anySession_left left).mp done.2⟩
    have tested := openingTested_autoOpenTest y
    rw [stays, ← slot]
    refine ⟨?_, tested⟩
    rw [autoOpenTest_frame]
    exact (lossSettled_stays left recorded ends).slot _

/-! ### The lines -/

theorem pendingSet_received (q : Req) (name : ReqName) (s : State) (line : Line) :
    ((received q name s).line line).pendingSet = (s.line line).pendingSet := by
  obtain ⟨l, tag⟩ := q
  unfold received
  cases l <;> cases line <;> cases name.isBasic <;> rfl

/-- What is pending of STATION_LOST when a request's work is done is pending of it when it has been answered (R187). -/
theorem stationLost_answered (q : Req) (name : ReqName) (r : Reply) (s y : State) (line : Line) :
    ((answered q name r s y).line line).pendingSet.has .stationLost = (y.line line).pendingSet.has .stationLost := by
  rw [answered, Desk.has_settle_eq (by decide), Desk.pendingSet_sendReply]

/-! ### The request -/

/-- The settings record replaced, in the event of its request (R174). -/
def settingsReplaced (q : Req) (r : Settings) (s : State) : State := { received q .setSettings s with settings := r }

theorem setSettings_meant {opens closes : Bool} {f : DateFormat} (admitted : s.admitsOwner q.line)
    (hopens : p.autoOpen = some opens) (hcloses : p.autoClose = some closes) (hf : p.dateFormat = some f)
    (inside : p.allowedFeatures.outside = false) :
    let r := settingsMeant p opens closes f
    exec (.setSettings q (.shaped p)) s =
      .next (answered q .setSettings
        { status := if settingsExact p r then .ok else .partiallyTaken, results := .settingsStored r } s
        (autoOpenTest (closeIfDone (disableStations (settingsReplaced q r s))))) := by
  intro r
  rw [setSettings_taken admitted, settingsRule_meant hopens hcloses hf inside, status_exact p opens closes f,
    settingsReplaced]

theorem settingsReplaced_lines (q : Req) (r : Settings) (s : State) :
    ∃ u v, settingsReplaced q r s = { s with uplink := u, supervisor := v, settings := r } ∧
      u.state = s.uplink.state := by
  obtain ⟨u, v, heard, state⟩ := received_lines q .setSettings s
  exact ⟨u, v, by rw [settingsReplaced, heard], state⟩

/-- The loss, told from the state before the request: neither settings nor lines matter to it. -/
theorem LossSettled.since {r : Settings} (h : LossSettled (settingsReplaced q r s) l z) : LossSettled s l z := by
  have pending (line : Line) : ((settingsReplaced q r s).line line).pendingSet = (s.line line).pendingSet :=
    (congrArg LineCtl.pendingSet (by cases line <;> rfl)).trans (pendingSet_received q .setSettings s line)
  obtain ⟨u, v, replaced, state⟩ := settingsReplaced_lines q r s
  generalize settingsReplaced q r s = x at replaced h pending
  subst replaced
  obtain ⟨port, console, session, causes, stays, closes, claims, recorded, cache, rest⟩ := h
  refine ⟨port, console, session, fun line => ?_, stays, closes, claims, fun room => ?_, cache, rest⟩
  · rw [causes, pending]
  · obtain ⟨waits, ends, active⟩ := recorded room
    exact ⟨fun h => (waits h).since rfl ⟨state, rfl⟩, fun h => (ends h).since rfl ⟨state, rfl⟩, active⟩

theorem settings_closeIfDone (y : State) : (closeIfDone y).settings = y.settings := by
  unfold closeIfDone
  split
  · obtain ⟨j, k, r, p, c, closed⟩ := closeDeskDay_fields y
    rw [closed]
  · rfl

theorem settings_tested (left : LostAll x l y) : (autoOpenTest (closeIfDone y)).settings = x.settings := by
  obtain ⟨-, -, -, -, settings, -⟩ := left.desk
  have kept := settings_closeIfDone y
  rw [autoOpenTest_frame]
  exact kept.trans settings

/-- R134: what SET_SETTINGS makes of the stations that its record leaves out. -/
theorem lossSettled_settingsReplaced (r : Settings) (journal : JournalSound s) (tables : TablesSound s)
    (links : LinksSound s) :
    let x := settingsReplaced q r s
    let z := autoOpenTest (closeIfDone (disableStations x))
    LossSettled s (leftOut x) z ∧ openingTested s.slot z ∧ z.settings = r := by
  intro x z
  obtain ⟨u, v, replaced, state⟩ := settingsReplaced_lines q r s
  have linked : Links.Linked x := Links.linked_of_view
    (show Links.view (settingsReplaced q r s) = Links.view s by rw [replaced]; rfl) (Links.linked_of_sound tables links)
  obtain ⟨-, -, -, -, -, -, -, -, lists, -⟩ := journal
  have lists : ∀ st : Station, (x.session st).borrower = none → (x.session st).items = [] := by
    rwa [show x = _ from replaced]
  have each : (leftOut x).Nodup := (List.nodup_finRange 8).filter _
  have left := lostAll_loseAll linked lists _ each
  obtain ⟨settled, tested⟩ := lossSettled_tested left (lossRecorded_loseAll linked lists _ each)
  have settings := settings_tested left
  rw [← disableStations_eq] at settled tested settings
  rw [show x.slot = s.slot by rw [show x = _ from replaced]] at tested
  exact ⟨settled.since, tested, settings⟩

end Sys2Proof.DeskDay

open Sys2Proof Sys2Proof.Machine Sys2Proof.DeskDay

/-- Settles O56: the record by its values; the loss by induction over the stations that go (`lostAll_loseAll`,
`lossRecorded_loseAll`), then the tests of the desk-day and of auto-open (`lossSettled_tested`). -/
theorem settingsAreReplaced : Obligations.SettingsAreReplaced := by
  unfold Obligations.SettingsAreReplaced
  refine ⟨fun s q p admitted bad => ?refused, fun s q p opens closes f admitted hopens hcloses hf inside => ?_⟩
  case refused => simp only [setSettings_taken admitted, settingsRule, settingsOf_none bad]
  intro record exact stored
  have taken : exec (.setSettings q (.shaped p)) s =
      .next (answered q .setSettings stored s
        (autoOpenTest (closeIfDone (disableStations (settingsReplaced q record s))))) :=
    setSettings_meant admitted hopens hcloses hf inside
  obtain ⟨u, v, replaced, -⟩ := settingsReplaced_lines q record s
  refine ⟨fun off open_ kept => ?quiet, fun journal tables links => ?losing⟩
  case quiet =>
    have nothing : leftOut (settingsReplaced q record s) = [] := by
      rw [replaced]
      refine List.filter_eq_nil_iff.mpr fun st _ lost => ?_
      simp only [Bool.and_eq_true, Bool.not_eq_true'] at lost
      obtain ⟨⟨present, -⟩, out⟩ := lost
      exact Bool.false_ne_true (out.symm.trans (kept st present))
    have still : (settingsReplaced q record s).day.state ≠ .closing := by
      rw [replaced]
      exact open_
    have same : disableStations (settingsReplaced q record s) = settingsReplaced q record s := by
      rw [disableStations_eq, nothing]
      rfl
    rw [taken, same, closeIfDone_still _ still, autoOpenTest_off off]
    rfl
  case losing =>
    intro lost abandoned lastEnds wrote
    have outside : leftOut (settingsReplaced q record s) = lost := by
      rw [replaced]
      rfl
    have unbridged (st : Station) (mem : st ∈ lost) : (s.port st).bridged = false := by
      have chosen := (List.mem_filter.mp mem).2
      simp only [Bool.and_eq_true, Bool.not_eq_true'] at chosen
      exact chosen.1.2
    obtain ⟨settled, tested, settings⟩ := lossSettled_settingsReplaced (q := q) record journal tables links
    generalize autoOpenTest _ = z at taken settled tested settings
    rw [outside] at settled
    obtain ⟨port, console, session, causes, stays, closes, claims, recorded, cache, rest⟩ := settled
    have has_lost := stationLost_answered q .setSettings stored s z
    have replied := Ledgers.reply_answered q .setSettings stored s z
    obtain ⟨u', v', ended⟩ := answered_lines q .setSettings stored s z
    rw [ended] at taken has_lost replied
    refine ⟨_, taken, settings, replied, fun st mem => ⟨?absent, ?port, console st mem, session st mem⟩,
      fun line => (has_lost line).trans (causes line), stays, closes, claims.oldest, claims.sendMark, claims.claims,
      fun room => ?records, cache, tested, rest⟩
    case absent =>
      exact Desk.stationState_absent (congrArg Port.present (port st mem)) (congrArg Port.bridged (port st mem))
    case port => exact (port st mem).trans (by simp only [Port.leave, unbridged st mem])
    case records =>
      obtain ⟨waits, ends, active⟩ := recorded room
      exact ⟨fun h => ⟨(waits h).records, (waits h).nextSeq, (waits h).overflow⟩,
        fun h => ⟨(ends h).records, (ends h).nextSeq, (ends h).overflow⟩, active⟩
end

