-- ==== Sys2Proof/Proofs/ResetState.lean ====
section
/-! SUPPORT. The reset state (R157, R163, R195): a cold start leaves it as it is. -/

namespace Sys2Proof.StartUp

open Sys2Proof.Machine

theorem bank_reset (bank : BankName) : State.reset.bank bank = Bank.cleared := by cases bank <;> rfl

theorem session_reset (st : Station) : State.reset.session st = Session.empty := by
  simp [State.reset, State.session]

theorem port_reset (st : Station) : State.reset.port st = Port.start := by simp [State.reset, State.port]

/-- R195: reset is a cold start of itself. -/
theorem coldStart_reset : coldStart State.reset = State.reset := rfl

theorem tablesSound_reset : TablesSound State.reset :=
  ⟨Keeping.bankSound_cleared, fun _ mem => List.mem_singleton.mp mem ▸ Keeping.bankSound_cleared⟩

theorem pendingSound_reset : PendingSound State.reset :=
  (Keeping.pendingSound_iff State.reset).mpr
    ⟨Keeping.counted_cleared, fun _ mem => List.mem_singleton.mp mem ▸ Keeping.plain_cleared⟩

end Sys2Proof.StartUp

open Sys2Proof Sys2Proof.Machine Sys2Proof.StartUp

/-- Settles O2: the values stand in the reset state; its tables and its stations are told one by one. -/
theorem resetIsTheColdStart : Obligations.ResetIsTheColdStart := by
  unfold Obligations.ResetIsTheColdStart
  intro s
  have banks (bank : BankName) (b : Bank) (named : b = s.bank bank) :
      (∀ i : Fin 32, b.prefixTable[i] = PrefixEntry.unused) ∧ b.staff = [] ∧ (∀ d : Fin 7, b.weekdays[d] = 0) ∧
        b.exceptions = [] ∧ b.borrowers = [] ∧ b.items = [] ∧ b.nextCreated = 1 := by
    rw [named, bank_reset]
    simp [Bank.cleared]
  have stations (st : Station) : s.settings.enableMask[st] = true ∧ s.settings.printerWidths[st] = 40#8 := by
    simp [s, State.reset, Settings.defaults]
  have absent (st : Station) : s.stationState st = .absent := by
    rw [Desk.stationState_absent] <;> rw [port_reset] <;> rfl
  exact ⟨rfl, rfl, banks, rfl, rfl, rfl, rfl, rfl, rfl, rfl, rfl, rfl, session_reset, rfl, rfl, rfl, rfl, by decide,
    stations, rfl, rfl, rfl, rfl, rfl, rfl, rfl, rfl, rfl, rfl, rfl, rfl, absent⟩

/-- Settles O3: a cold start leaves a sound journal and sound links, and reset is the cold start of itself; its
banks are cleared. -/
theorem invariantsHoldAtReset : Obligations.InvariantsHoldAtReset :=
  ⟨coldStart_reset ▸ Ledgers.journalSound_coldStart State.reset, tablesSound_reset, pendingSound_reset,
    coldStart_reset ▸ Links.linksSound_coldStart State.reset⟩
end

