-- ==== Sys2Proof/Proofs/SessionConversion.lean ====
section
/-! SUPPORT. The conversion of the open sessions at a warm start (R27): their records, their borrowers' entries, the
filled holds and the cache, station by station. -/

namespace Sys2Proof.StartUp

open Sys2Proof.Machine Sys2Proof.DeskDay

variable {s x y : State} {st : Station} {n : Number} {drafts ds : List Record} {l : List Station}

/-! ### Claimed records in a row -/

/-- R145, R146: the records of one borrower's claims follow those that went before. -/
theorem Wrote.claimed (h : Wrote s drafts y) (stamps : StampsAs s y)
    (counted : ∀ d ∈ ds, y.counts d = d.borrower.isSome) :
    Wrote s (drafts ++ ds.map (dated y.clock.now)) (Desk.appendedAll y n ds) := by
  have behind (list : List Record) : list.isEmpty = decide (list.length = 0) := by cases list <;> rfl
  obtain ⟨records, nextSeq, overflow⟩ := h
  have filled : ds.mapIdx (Desk.filledAt y) = (ds.map (dated y.clock.now)).mapIdx fun i d =>
      { d with
        seq := s.journal.nextSeq + (i + drafts.length), generation := s.generation
        flags :=
          { d.flags with
            offline := decide (s.uplink.state ≠ .active), counted := d.borrower.isSome
            overflowBefore := s.journal.overflow && decide (i + drafts.length = 0) } } := by
    refine List.ext_getElem (by simp) fun i inside _ => ?_
    have here : i < ds.length := by simpa using inside
    simp [Desk.filledAt, fillRecord_dated, counted _ (List.getElem_mem here), stamps.uplink, stamps.generation, nextSeq,
      overflow, dated, behind, Nat.add_assoc, Nat.add_comm drafts.length, Bool.and_assoc]
    exact congrArg _ (Bool.and_comm _ _)
  refine ⟨?_, ?_, ?_⟩
  · show y.journal.records ++ ds.mapIdx (Desk.filledAt y) = _
    rw [filled, records, List.append_assoc, numbered, numbered, List.mapIdx_append]
  · show y.journal.nextSeq + ds.length = _
    rw [nextSeq, List.length_append, List.length_map, Nat.add_assoc]
  · show (y.journal.overflow && ds.isEmpty) = _
    rw [overflow, Bool.and_assoc, behind, behind, behind]
    simp

/-! ### One session -/

/-- The entry of a borrower whose session's list has been converted (R27, R54). -/
def convertedTo (items : List ListEntry) (e : Borrower) : Option Borrower :=
  if e.retiring = true ∧ e.pending + items.length = 0 then none
  else
    some
      { e with
        loansHeld := min 255 (e.loansHeld + items.countP ListEntry.isCheckout)
        pending := e.pending + items.length, sessionStation := none }

theorem withoutRetired_booked (n : Number) (items : List ListEntry) (l : List Borrower) :
    withoutRetired n
        (l.map fun e =>
          if e.number = n then
            { e with
              loansHeld := min 255 (e.loansHeld + items.countP ListEntry.isCheckout)
              pending := e.pending + items.length, sessionStation := none }
          else e) =
      l.filterMap fun e => if e.number = n then convertedTo items e else some e := by
  rw [withoutRetired, ← List.filterMap_eq_filter, List.filterMap_map]
  refine List.filterMap_congr fun e _ => ?_
  by_cases named : e.number = n
  · by_cases gone : e.retiring = true ∧ e.pending + items.length = 0
    · simp [Option.guard, convertedTo, named, gone, -Nat.add_eq_zero_iff]
    · simp only [Function.comp_apply, Option.guard, convertedTo, named, if_true, true_and, gone, decide_false,
        Bool.not_false, if_false]
  · simp [Option.guard, named]

theorem convertSession_none (free : (y.session st).borrower = none) : convertSession y st = y := by
  simp only [convertSession, free]

/-- R27: the records, the borrower's entry, the filled holds and the cache of one converted session. -/
theorem convertSession_eq (lent : (y.session st).borrower = some n) :
    convertSession y st =
      { y with
        journal :=
          (Desk.appendedAll y n
            ((y.session st).items.map (convertDraft st n (y.session st).overrideStaff))).journal
        active :=
          { y.active with
            items := ((y.session st).items.foldl (fillHold n) y.active).items
            borrowers :=
              y.active.borrowers.filterMap fun e =>
                if e.number = n then convertedTo (y.session st).items e else some e }
        cache := (y.session st).items.foldl (cacheTake n y.clock.now.day) y.cache } := by
  simp only [convertSession, lent]
  rw [Desk.bookItems_eq _ _ fun e => rfl, unlinkBorrower]
  simp only [Desk.unlinked_borrowers, Desk.unlinked_withLoans, withoutRetired_booked]

/-! ### The sessions in station order -/

/-- The list entries of one open session, with station and borrower. -/
def entriesOf (s : State) (st : Station) : List (Station × Number × ListEntry) :=
  match (s.session st).borrower with
  | none => []
  | some n => (s.session st).items.map fun e => (st, n, e)

/-- The list entries of the open sessions of some stations, in their order (R27). -/
def entriesAt (s : State) (l : List Station) : List (Station × Number × ListEntry) := l.flatMap (entriesOf s)

theorem openEntries_eq (s : State) : openEntries s = entriesAt s stations := rfl

theorem entriesOf_none (free : (s.session st).borrower = none) : entriesOf s st = [] := by
  rw [entriesOf, free]

theorem entriesOf_some (lent : (s.session st).borrower = some n) :
    entriesOf s st = (s.session st).items.map fun e => (st, n, e) := by
  rw [entriesOf, lent]

theorem entriesAt_concat (s : State) (l : List Station) (st : Station) :
    entriesAt s (l ++ [st]) = entriesAt s l ++ entriesOf s st := by simp [entriesAt]

/-- A bank once the holds of some list entries have been filled (R68). -/
def filledHolds (a : Bank) (es : List (Station × Number × ListEntry)) : Bank :=
  es.foldl (fun b x => fillHold x.2.1 b x.2.2) a

/-- The filling of holds touches the items, and reads nothing else of the bank. -/
theorem filledHolds_withBorrowers (es : List (Station × Number × ListEntry)) (bs : List Borrower) :
    ∀ a : Bank, filledHolds { a with borrowers := bs } es =
      { a with items := (filledHolds a es).items, borrowers := bs } := by
  induction es with
  | nil => exact fun a => rfl
  | cons e es ih =>
    intro a
    show filledHolds (fillHold e.2.1 { a with borrowers := bs } e.2.2) es =
      { a with items := (filledHolds (fillHold e.2.1 a e.2.2) es).items, borrowers := bs }
    unfold fillHold
    split
    · exact (ih (a.mapQueue e.2.2.item (fillQueue e.2.1))).trans rfl
    · exact ih a

theorem filledHolds_append (a : Bank) (es es' : List (Station × Number × ListEntry)) (bs : List Borrower) :
    (filledHolds { a with items := (filledHolds a es).items, borrowers := bs } es').items =
      (filledHolds a (es ++ es')).items := by
  have same : ({ a with items := (filledHolds a es).items, borrowers := bs } : Bank) =
      { filledHolds a es with borrowers := bs } :=
    congrArg (fun b : Bank => { b with borrowers := bs }) (filledHolds_withBorrowers es a.borrowers a).symm
  rw [same, filledHolds_withBorrowers]
  show (filledHolds (filledHolds a es) es').items = _
  exact congrArg Bank.items List.foldl_append.symm

/-- The entry of a borrower once the sessions of some stations have been converted. -/
def convertedAt (s : State) (l : List Station) (e : Borrower) : Option Borrower :=
  if ∃ st ∈ l, e.sessionStation = some st then convertedBorrower s e else some e

theorem convertedBorrower_lent {e : Borrower} (at_ : e.sessionStation = some st) :
    convertedBorrower s e = convertedTo (s.session st).items e := by
  simp only [convertedBorrower, at_, convertedTo]

theorem convertedAt_stations (s : State) : convertedAt s stations = convertedBorrower s := by
  funext e
  cases at_ : e.sessionStation with
  | none => simp [convertedAt, convertedBorrower, at_]
  | some st => simp [convertedAt, at_, stations]

theorem number_convertedBorrower {e e' : Borrower} (h : convertedBorrower s e = some e') : e'.number = e.number := by
  unfold convertedBorrower at h
  split at h
  · rw [Option.some.inj h]
  · simp only at h
    split at h
    · cases h
    · rw [← Option.some.inj h]

/-- R2, R27: one more converted session touches the entry that names its station. -/
theorem convertedAt_concat (linked : Links.Linked s) (lent : (s.session st).borrower = some n) (fresh : st ∉ l)
    {e : Borrower} (mem : e ∈ s.active.borrowers) :
    ((convertedAt s l e).bind fun e' => if e'.number = n then convertedTo (s.session st).items e' else some e') =
      convertedAt s (l ++ [st]) e := by
  have named := number_eq_iff linked lent mem
  by_cases here : e.number = n
  · have before : ¬∃ o ∈ l, e.sessionStation = some o := by
      rintro ⟨o, mem', at_⟩
      obtain rfl : st = o := Option.some.inj ((named.mp here).symm.trans at_)
      exact fresh mem'
    rw [convertedAt, if_neg before, Option.bind_some, if_pos here, convertedAt,
      if_pos ⟨st, List.mem_append_right _ (List.mem_singleton_self st), named.mp here⟩,
      convertedBorrower_lent (named.mp here)]
  · have still : convertedAt s (l ++ [st]) e = convertedAt s l e := by
      simp [convertedAt, List.mem_append, or_and_right, exists_or, mt named.mpr here]
    rw [still]
    cases after : convertedAt s l e with
    | none => rfl
    | some e' =>
      have number : e'.number = e.number := by
        unfold convertedAt at after
        split at after
        · exact number_convertedBorrower after
        · rw [Option.some.inj after]
      rw [Option.bind_some, if_neg (by rwa [number])]

/-- What the conversion of the sessions of some stations has made of a state (R27). -/
structure Converted (x : State) (l : List Station) (y : State) : Prop where
  frame : ∃ j a c, y = { x with journal := j, active := a, cache := c }
  wrote : Wrote x ((entriesAt x l).map (convertedEntry x)) y
  pointers : ClaimsBack x.journal (entriesAt x l).length y.journal
  active : y.active =
    { x.active with
      items := (filledHolds x.active (entriesAt x l)).items
      borrowers := x.active.borrowers.filterMap (convertedAt x l) }
  cache : y.cache = (entriesAt x l).foldl (fun c e => cacheTake e.2.1 x.clock.now.day c e.2.2) x.cache

theorem converted_nothing (x : State) : Converted x [] x where
  frame := ⟨_, _, _, rfl⟩
  wrote := wrote_nothing rfl
  pointers := ⟨rfl, rfl, rfl⟩
  active := by
    have kept : x.active.borrowers.filterMap (convertedAt x []) = x.active.borrowers := by
      rw [show convertedAt x [] = some by funext e; simp [convertedAt], List.filterMap_some]
    rw [kept]
    rfl
  cache := rfl

/-- A converted session's borrower still has an entry when its turn comes (R2, R50). -/
theorem Converted.counts (h : Converted x l y) (linked : Links.Linked x) (lent : (x.session st).borrower = some n)
    (fresh : st ∉ l) {d : Record} (names : d.borrower = some n) : y.counts d = d.borrower.isSome := by
  obtain ⟨⟨named, -⟩, -⟩ := linked
  obtain ⟨e, mem, number, at_⟩ := named st n lent
  have kept : e ∈ y.active.borrowers := by
    rw [h.active]
    refine List.mem_filterMap.mpr ⟨e, mem, if_neg ?_⟩
    rintro ⟨o, mem', at_'⟩
    obtain rfl : st = o := Option.some.inj (at_.symm.trans at_')
    exact fresh mem'
  simp only [State.counts, names, Bank.borrower, List.find?_isSome, Option.isSome_some]
  exact ⟨e, kept, by simpa using number⟩

theorem Converted.concat (h : Converted x l y) (linked : Links.Linked x) (fresh : st ∉ l) :
    Converted x (l ++ [st]) (convertSession y st) := by
  obtain ⟨j, a, c, frame⟩ := h.frame
  have session : y.session st = x.session st := by rw [frame]; rfl
  have clock : y.clock = x.clock := by rw [frame]
  cases lent : (x.session st).borrower with
  | none =>
    have nothing : entriesAt x (l ++ [st]) = entriesAt x l := by
      rw [entriesAt_concat, entriesOf_none lent, List.append_nil]
    have unmarked : x.active.borrowers.filterMap (convertedAt x (l ++ [st])) =
        x.active.borrowers.filterMap (convertedAt x l) := by
      refine List.filterMap_congr fun e mem => ?_
      simp [convertedAt, List.mem_append, or_and_right, exists_or, unmarked_of_free linked lent mem]
    rw [convertSession_none (by rwa [session])]
    exact ⟨h.frame, nothing ▸ h.wrote, nothing ▸ h.pointers, by rw [nothing, unmarked]; exact h.active,
      nothing ▸ h.cache⟩
  | some n =>
    have entries := (entriesAt_concat x l st).trans (congrArg _ (entriesOf_some lent))
    have counted : ∀ d ∈ (x.session st).items.map (convertDraft st n (x.session st).overrideStaff),
        y.counts d = d.borrower.isSome := fun d mem => by
      obtain ⟨e, -, rfl⟩ := List.mem_map.mp mem
      exact h.counts linked lent fresh rfl
    have records := Wrote.claimed (n := n) h.wrote (by rw [frame]; exact ⟨rfl, rfl⟩) counted
    have drafts : ((x.session st).items.map (convertDraft st n (x.session st).overrideStaff)).map (dated y.clock.now) =
        ((x.session st).items.map fun e => (st, n, e)).map (convertedEntry x) := by
      rw [List.map_map, List.map_map, clock]
      rfl
    have holds : ((x.session st).items.foldl (fillHold n) y.active).items =
        (filledHolds y.active ((x.session st).items.map fun e => (st, n, e))).items := by
      rw [filledHolds, List.foldl_map]
    rw [drafts, ← List.map_append, ← entries] at records
    rw [convertSession_eq (by rwa [session]), session]
    refine ⟨?frame, records.congr rfl, ?pointers, ?active, ?cache⟩
    case frame =>
      rw [frame]
      exact ⟨_, _, _, rfl⟩
    case pointers =>
      obtain ⟨oldest, sendMark, claims⟩ := h.pointers
      refine ⟨oldest, sendMark, ?_⟩
      show y.journal.claims - _ = _
      rw [claims, entries, Nat.sub_sub]
      simp
    case active =>
      have borrowers := List.filterMap_congr fun e mem => convertedAt_concat linked lent fresh (e := e) mem
      simp only [holds]
      rw [h.active, filledHolds_append, ← entries, List.filterMap_filterMap, borrowers]
    case cache =>
      rw [entries, List.foldl_append, ← h.cache, List.foldl_map, clock]

/-- R27: the sessions of some stations converted one after the other. -/
theorem converted_foldl (linked : Links.Linked x) :
    ∀ l : List Station, l.Nodup → Converted x l (l.foldl convertSession x) := by
  intro l
  induction l using List.reverseRecOn with
  | nil => exact fun _ => converted_nothing x
  | append_singleton l st ih =>
    intro nodup
    obtain ⟨before, -, apart⟩ := List.nodup_append.mp nodup
    rw [List.foldl_append, List.foldl_cons, List.foldl_nil]
    exact (ih before).concat linked fun mem => apart st mem st (List.mem_singleton_self st) rfl

end Sys2Proof.StartUp
end

