-- ==== Sys2Proof/Proofs/WarmStart.lean ====
section
/-! SUPPORT. A warm start in one event (R196): its volatile values, the desk-day left CLOSED, the level causes, the test
of auto-open. -/

namespace Sys2Proof.StartUp

open Sys2Proof.Machine Sys2Proof.DeskDay

variable {s x y w z t : State} {st : Station} {drafts : List Record}

/-! ### Its first steps -/

/-- Steps 1 and 2 of a warm start (R196). -/
def begun (x : State) : State := finishScrub (startVolatile (cutStaging x))

theorem begun_frame (x : State) :
    ∃ b i, begun x =
      { x with
        staged := b, freeIx := i
        slot := none, upload := none, restarting := none, lastServed := 7, notice := none
        ports := Vector.replicate 8 Port.start, consoles := Vector.replicate 8 Console.start
        uplink := LineCtl.start, supervisor := LineCtl.start
        toSupervisor := NoteSlot.empty, toServer := NoteSlot.empty
        day := { x.day with grace := none, graceExpired := false }
        store := { x.store with scrubMark := false, scrubPos := 0 } } := by
  unfold begun cutStaging
  split <;> exact ⟨_, _, rfl⟩

/-- The state after step 3 (R27): every session is empty, and journal, ACTIVE bank and cache have taken the lists. -/
structure Emptied (x y : State) : Prop where
  frame : ∃ j a c, y =
    { begun x with journal := j, active := a, cache := c, sessions := Vector.replicate 8 Session.empty }
  oldest : y.journal.oldest = x.journal.oldest

/-! ### The desk-day -/

/-- R161, R168: DAY_CLOSE, then the CLOCK_STEP of a held time, each where it finds room. -/
theorem Recorded.closing (h : Recorded s drafts x) (sane : s.journal.oldest ≤ s.journal.nextSeq)
    (stamps : StampsAs s x) : Recorded s (drafts ++ closingDrafts x) (enterClosed x) := by
  have closed : Recorded s (drafts ++ [dated x.clock.now (draft .dayClose)]) (Desk.dayClosing x) :=
    (h.system sane stamps rfl).congr (journal_dayClosing x)
  refine Recorded.congr ?_ (journal_enterClosed x)
  cases waiting : x.clock.held with
  | none =>
    rw [applyHeld_none (by rw [held_dayClosing, waiting]), closingDrafts, waiting]
    exact closed
  | some i =>
    have applied : applyHeld (Desk.dayClosing x) = recordedStep i (dropHeld (Desk.dayClosing x)) := by
      simp only [applyHeld, held_dayClosing, waiting]
    have stamps' : StampsAs s (stepClock i (dropHeld (Desk.dayClosing x))) := by
      rw [dayClosing_frame]
      exact ⟨stamps.uplink, stamps.generation⟩
    have stepped := (closed.congr (y := stepClock i (dropHeld (Desk.dayClosing x))) rfl).system sane stamps'
      (d := clockStepDraft (dropHeld (Desk.dayClosing x)).clock.now) rfl
    rw [List.append_assoc] at stepped
    rw [applied, recordedStep, closingDrafts, waiting]
    rw [dayClosing_frame] at stepped ⊢
    exact stepped

theorem isPrefix_appendSystem (d : Record) (s : State) : s.journal.records <+: (appendSystem d s).journal.records := by
  unfold appendSystem
  split
  · exact List.prefix_append _ _
  · exact List.prefix_refl _

theorem isPrefix_enterClosed (y : State) : y.journal.records <+: (enterClosed y).journal.records := by
  have closed : y.journal.records <+: (Desk.dayClosing y).journal.records := isPrefix_appendSystem (draft .dayClose) y
  rw [journal_enterClosed]
  generalize Desk.dayClosing y = x at closed
  unfold applyHeld
  split
  · exact closed
  · next i _ =>
    exact closed.trans (isPrefix_appendSystem (clockStepDraft (dropHeld x).clock.now) (stepClock i (dropHeld x)))

/-- What step 4 leaves of a state: the desk-day CLOSED, absent stations and empty sessions as they were (R168, R196). -/
structure LeftClosed (y w : State) : Prop where
  frame : ∃ d n c j r p q, w =
    { y with day := d, notice := n, clock := c, journal := j, sessions := r, ports := p, consoles := q }
  notice : y.notice = none → w.notice = none
  day : w.day.state = .closed ∧ w.day.openDay = y.day.openDay
  grace : y.day.grace = none → w.day.grace = none
  still : y.day.state = .closed → w.day.fresh = y.day.fresh ∧ w.clock = y.clock
  ended : y.day.state ≠ .closed → w.day.fresh = false ∧ w.clock = heldApplied y.clock
  valid : w.clock.valid = y.clock.valid
  session : ∀ st, y.session st = Session.empty → w.session st = Session.empty
  station : ∀ st, y.port st = Port.start → w.port st = Port.start ∧ w.console st = y.console st
  pointers : ClaimsBack y.journal 0 w.journal
  records : y.journal.records <+: w.journal.records

theorem leftClosed_closeInterrupted (y : State) : LeftClosed y (closeInterrupted y) := by
  unfold closeInterrupted
  split
  · next closed =>
    exact ⟨⟨_, _, _, _, _, _, _, rfl⟩, id, ⟨closed, rfl⟩, id, fun _ => ⟨rfl, rfl⟩, fun other => absurd closed other,
      rfl, fun _ => id, fun _ start => ⟨start, rfl⟩, ⟨rfl, rfl, rfl⟩, List.prefix_refl _⟩
  · next other =>
    have ended := Desk.dayEnded_enterClosed y
    have clock : (enterClosed y).clock = heldApplied y.clock := by rw [enterClosed_frame]
    refine ⟨⟨_, _, _, _, _, _, _, enterClosed_frame y⟩, fun _ => ended.notice, ?_, fun _ => ?_,
      fun closed => absurd closed other, fun _ => ⟨?_, clock⟩, by rw [clock]; rfl, fun st empty => ?_,
      fun st start => ?_, claimsBack_enterClosed y,
      isPrefix_enterClosed y⟩
    · rw [ended.day]
      exact ⟨rfl, rfl⟩
    · rw [ended.day]
    · rw [ended.day]
    · rw [ended.session st (by rw [empty]; rfl), empty]
    · obtain ⟨port, console⟩ := absent_enterClosed (y := y) (st := st) (by rw [start]; rfl) (by rw [start]; rfl)
      exact ⟨port.trans start, console⟩

/-- The records that step 4 makes (R168, R196). -/
def interruptedDrafts (s : State) : List Record := if s.day.state = .closed then [] else closingDrafts s

theorem recorded_closeInterrupted (sane : y.journal.oldest ≤ y.journal.nextSeq) :
    Recorded y (interruptedDrafts y) (closeInterrupted y) := by
  unfold closeInterrupted interruptedDrafts
  split
  · exact recorded_nothing rfl
  · exact Recorded.closing (recorded_nothing (x := y) rfl) sane (StampsAs.refl y)

/-! ### Its last steps -/

/-- Steps 5 to 7 of a warm start (R196). -/
def finished (w : State) : State := autoOpenTest (testLevels (rewind w))

/-- A management line after a warm start: DOWN, the level conditions that hold pending (R192, R196). -/
def startedLine (w : State) : LineCtl := { LineCtl.start with pendingSet := w.levelCauses }

theorem followLevel_still {before after : Bool} {c : Cause} {p : CauseSet} (h : p.has c = after) :
    followLevel before after c p = p := by
  unfold followLevel
  split
  · rfl
  · rw [← h]
    cases c <;> rfl

/-- R187: at the end of a warm start's event the level causes stand as step 6 has set them. -/
theorem settleLine_started (z v : State) (before : LineCtl) (causes : v.levelCauses = w.levelCauses) :
    settleLine z v before (startedLine w) = startedLine w := by
  have follows : followLevels z v (startedLine w).pendingSet = (startedLine w).pendingSet := by
    show followLevels z v w.levelCauses = w.levelCauses
    rw [← causes, followLevels]
    rw [followLevel_still (c := .journalHigh) (show v.levelCauses.has .journalHigh = v.journalHigh from rfl),
      followLevel_still (c := .journalFull) (show v.levelCauses.has .journalFull = v.journalFull from rfl),
      followLevel_still (c := .clockHeld) (show v.levelCauses.has .clockHeld = v.clockHeld from rfl)]
  unfold settleLine
  simp only [follows]
  rfl

theorem finished_frame (z w : State) :
    settle z (finished w) =
      { w with
        journal := (rewind w).journal, uplink := (settle z (finished w)).uplink
        supervisor := (settle z (finished w)).supervisor, slot := (finished w).slot } := by
  unfold finished
  rw [autoOpenTest_frame]
  rfl

theorem line_finished (z : State) (up : w.uplink = LineCtl.start) (down : w.supervisor = LineCtl.start) (l : Line) :
    (settle z (finished w)).line l = startedLine w := by
  have lines : (finished w).uplink = startedLine w ∧ (finished w).supervisor = startedLine w := by
    unfold finished
    rw [autoOpenTest_frame]
    simp only [testLevels, rewind, up, down]
    exact ⟨rfl, rfl⟩
  have causes : (finished w).levelCauses = w.levelCauses := by
    unfold finished
    rw [autoOpenTest_frame]
    rfl
  cases l
  · exact (congrArg _ lines.1).trans (settleLine_started z _ _ causes)
  · exact (congrArg _ lines.2).trans (settleLine_started z _ _ causes)

theorem openingTested_finished (z : State) (free : w.slot = none) : openingTested none (settle z (finished w)) := by
  have tested := openingTested_autoOpenTest (testLevels (rewind w))
  rwa [show (testLevels (rewind w)).slot = none from free] at tested

theorem warmStart_eq (x : State) : warmStart x = finished (closeInterrupted (convertSessions (begun x))) := rfl

/-! ### What every warm start leaves -/

theorem restarted_finished (z : State) (powered : x.powered = true) (released : x.resetAsserted = false)
    (h : Emptied x y) : restarted x (settle z (finished (closeInterrupted y))) := by
  obtain ⟨b, i, begins⟩ := begun_frame x
  obtain ⟨j, a, c, emptied⟩ := h.frame
  have oldest := h.oldest
  rw [begins] at emptied
  have left := leftClosed_closeInterrupted y
  generalize closeInterrupted y = w at left ⊢
  obtain ⟨⟨d, n, k, j', r, p, q, closed⟩, notice, day, grace, still, ended, valid, session, station, pointers,
    -⟩ := left
  have lines := line_finished (w := w) z (by rw [closed, emptied]) (by rw [closed, emptied])
  have frame := finished_frame z w
  generalize settle z (finished w) = t at lines frame ⊢
  have stations (st : Station) :
      t.port st = Port.start ∧ t.console st = Console.start ∧ t.session st = Session.empty := by
    obtain ⟨port, console⟩ := station st (by rw [emptied]; simp [State.port])
    have empty := session st (by rw [emptied]; simp [State.session])
    rw [show y.console st = Console.start by rw [emptied]; simp [State.console]] at console
    rw [frame]
    exact ⟨port, console, empty⟩
  have journal : t.journal = { w.journal with sendMark := w.journal.oldest } := by
    rw [frame]
    rfl
  have clock : t.clock = w.clock := by rw [frame]
  have today : t.day = w.day := by rw [frame]
  have before : y.day = { x.day with grace := none, graceExpired := false } ∧ y.clock = x.clock := by
    rw [emptied]
    exact ⟨rfl, rfl⟩
  have settings : t.settings = x.settings := by rw [frame, closed, emptied]
  have first : w.journal.oldest = x.journal.oldest := pointers.oldest.trans oldest
  refine ⟨?powered, ?released, ?restarting, ?upload, ?notice, ?server, ?supervisor, ?served, fun st => ?stations,
    fun l => ?lines, ?state, ?openDay, ?grace, fun was => ?still, fun was => ?ended, ?oldest, ?mark, ?stagedState,
    ?generation, settings, ?key, ?valid, ?scrub, ?signature⟩
  case powered | released =>
    rw [frame, closed, emptied]
    assumption
  case restarting | upload | server | supervisor | served | stagedState | generation | key | scrub | signature =>
    rw [frame, closed, emptied]
  case notice =>
    rw [show t.notice = w.notice by rw [frame]]
    exact notice (by rw [emptied])
  case stations =>
    obtain ⟨port, console, empty⟩ := stations st
    rw [Desk.stationState_absent (by rw [port]; rfl) (by rw [port]; rfl), port, console]
    exact ⟨rfl, rfl, rfl, rfl, rfl, empty⟩
  case lines =>
    rw [lines l, journal, clock, ← settings, show t.settings = w.settings by rw [frame]]
    exact ⟨rfl, rfl, rfl, rfl, rfl, rfl, rfl⟩
  case state => rw [today, day.1]
  case openDay => rw [today, day.2, before.1]
  case grace => rw [today, grace (by rw [before.1])]
  case still =>
    obtain ⟨fresh, same⟩ := still (by rw [before.1]; exact was)
    rw [today, clock, fresh, same, before.1, before.2]
    exact ⟨rfl, rfl⟩
  case ended =>
    obtain ⟨fresh, applied⟩ := ended (by rw [before.1]; exact was)
    rw [today, clock, fresh, applied, before.2]
    exact ⟨rfl, rfl, rfl⟩
  case oldest => rw [journal, first]
  case mark => rw [journal, first]
  case valid => rw [clock, valid, before.2]

end Sys2Proof.StartUp
end

