-- ==== Sys2Proof/Proofs/WarmStartRecords.lean ====
section
/-! SUPPORT. What a warm start leaves of the records, the tables and the slot (R27, R165, R168, R196), and the starts
that end in one. -/

namespace Sys2Proof.StartUp

open Sys2Proof.Machine Sys2Proof.DeskDay

variable {s x y w z t : State} {st : Station} {drafts closing : List Record}

/-! ### Where no session is open -/

theorem convertSession_idle (l : List Station) (free : ∀ st : Station, (x.session st).borrower = none) :
    l.foldl convertSession x = x := by
  induction l with
  | nil => rfl
  | cons st l ih => rw [List.foldl_cons, convertSession_none (free st), ih]

theorem session_begun (x : State) (st : Station) : (begun x).session st = x.session st := by
  obtain ⟨b, i, begins⟩ := begun_frame x
  rw [begins]
  rfl

theorem convertSessions_idle (free : ∀ st : Station, (x.session st).borrower = none) :
    convertSessions (begun x) = { begun x with sessions := Vector.replicate 8 Session.empty } := by
  rw [convertSessions, convertSession_idle stations fun st => by rw [session_begun, free st]]

/-- The journal at the end of a warm start: the mark is rewound (R155). -/
theorem journal_finished (z w : State) :
    (settle z (finished w)).journal = { w.journal with sendMark := w.journal.oldest } := by
  rw [finished_frame]
  rfl

/-- What the last four steps of a warm start leave alone. -/
theorem tables_finished (z y : State) :
    (settle z (finished (closeInterrupted y))).active = y.active ∧
      (settle z (finished (closeInterrupted y))).cache = y.cache ∧
      (settle z (finished (closeInterrupted y))).settings = y.settings := by
  obtain ⟨d, n, c, j, r, p, q, closed⟩ := (leftClosed_closeInterrupted y).frame
  rw [finished_frame, closed]
  exact ⟨rfl, rfl, rfl⟩

theorem slot_closeInterrupted (y : State) : (closeInterrupted y).slot = y.slot := by
  obtain ⟨d, n, c, j, r, p, q, closed⟩ := (leftClosed_closeInterrupted y).frame
  rw [closed]

/-- What the state after step 3 has kept of the state before the warm start. -/
theorem Emptied.kept (h : Emptied x y) :
    y.slot = none ∧ y.settings = x.settings ∧ y.clock = x.clock ∧ y.generation = x.generation ∧
      y.day.state = x.day.state ∧ y.uplink = LineCtl.start := by
  obtain ⟨b, i, begins⟩ := begun_frame x
  obtain ⟨j, a, c, emptied⟩ := h.frame
  rw [emptied, begins]
  exact ⟨rfl, rfl, rfl, rfl, rfl, rfl⟩

/-- R155, R192, R196: a warm start with no session open and auto-open off. -/
theorem warmStarted_warmStart (z : State) (powered : x.powered = true) (released : x.resetAsserted = false)
    (off : x.settings.autoOpen = false) (free : ∀ st : Station, (x.session st).borrower = none) :
    warmStarted x (settle z (warmStart x)) := by
  obtain ⟨b, i, begins⟩ := begun_frame x
  have idle := convertSessions_idle free
  have emptied : Emptied x (convertSessions (begun x)) := ⟨⟨_, _, _, idle⟩, by rw [idle, begins]⟩
  have tables : (convertSessions (begun x)).active = x.active ∧ (convertSessions (begun x)).cache = x.cache ∧
      (convertSessions (begun x)).journal = x.journal := by
    rw [idle, begins]
    exact ⟨rfl, rfl, rfl⟩
  rw [warmStart_eq]
  generalize convertSessions (begun x) = y at emptied tables ⊢
  obtain ⟨slot, settings, -⟩ := emptied.kept
  have restart := restarted_finished z powered released emptied
  have left := leftClosed_closeInterrupted y
  have journal := journal_finished z (closeInterrupted y)
  obtain ⟨active', cache', settings'⟩ := tables_finished z y
  have tested := openingTested_finished z ((slot_closeInterrupted y).trans slot)
  generalize settle z (finished (closeInterrupted y)) = t at restart journal active' cache' settings' tested ⊢
  obtain ⟨active, cache, still⟩ := tables
  refine ⟨restart, tested.2 (.inr fun due => ?_), ?_, ?_, active'.trans active, cache'.trans cache⟩
  · rw [scheduledOpening, settings', settings, off] at due
    exact Bool.false_ne_true due.1
  · rw [journal, ← still]
    exact left.pointers.claims
  · rw [journal, ← still]
    exact (List.prefix_iff_eq_take.mp left.records).symm

/-! ### Records behind records -/

theorem numbered_append (offline : Bool) (nextSeq : y.journal.nextSeq = x.journal.nextSeq + drafts.length)
    (overflow : y.journal.overflow = (x.journal.overflow && drafts.isEmpty))
    (generation : y.generation = x.generation) :
    numbered x offline (drafts ++ closing) = numbered x offline drafts ++ numbered y offline closing := by
  have behind : drafts.isEmpty = decide (drafts = []) := by cases drafts <;> rfl
  have later (i : Nat) : (x.journal.overflow && decide (i + drafts.length = 0)) =
      (y.journal.overflow && decide (i = 0)) := by
    rw [overflow, behind, Bool.and_assoc, ← Bool.decide_and]
    simp [and_comm]
  rw [numbered, numbered, numbered, List.mapIdx_append]
  simp only [later, nextSeq, generation, Nat.add_assoc, Nat.add_comm drafts.length]

/-- R146, R148: the converted lists' records take their claims' room, and the records of the desk-day's end what is
left. -/
theorem journal_closing
    (converted : y.journal =
      { x.journal with
        records := x.journal.records ++ numbered x true drafts, nextSeq := x.journal.nextSeq + drafts.length
        claims := 0, overflow := x.journal.overflow && drafts.isEmpty })
    (closed : Recorded y closing w) (down : y.uplink.state ≠ .active) (generation : y.generation = x.generation)
    (claims : x.journal.claims = drafts.length) (sane : x.journal.oldest ≤ x.journal.nextSeq) :
    w.journal =
      { x.journal with
        records := x.journal.records ++ numbered x true (drafts ++ closing.take x.journal.free)
        nextSeq := x.journal.nextSeq + (drafts ++ closing.take x.journal.free).length, claims := 0
        overflow :=
          if x.journal.free < closing.length then true
          else x.journal.overflow && (drafts ++ closing.take x.journal.free).isEmpty } := by
  have free : y.journal.free = x.journal.free := by
    rw [converted]
    simp only [Journal.free, Journal.unreleased]
    omega
  have flag : (if x.journal.free < closing.length then true else y.journal.overflow && closing.isEmpty) =
      if x.journal.free < closing.length then true
      else x.journal.overflow && (drafts ++ closing.take x.journal.free).isEmpty := by
    split
    · rfl
    · next room =>
      rw [List.take_of_length_le (Nat.not_lt.mp room), converted]
      cases drafts <;> simp
  have offline : decide (y.uplink.state ≠ .active) = true := decide_eq_true down
  rw [closed, free, flag, offline, numbered_append true (y := y) (by rw [converted]) (by rw [converted]) generation]
  rw [converted]
  simp only [List.append_assoc, List.length_append, Nat.add_assoc]

/-- The journal behind the records of spent claims. -/
theorem journal_of_wrote {k : Nat} (h : Wrote x drafts y) (pointers : ClaimsBack x.journal k y.journal) :
    y.journal =
      { x.journal with
        records := x.journal.records ++ numbered x (decide (x.uplink.state ≠ .active)) drafts
        nextSeq := x.journal.nextSeq + drafts.length, claims := x.journal.claims - k
        overflow := x.journal.overflow && drafts.isEmpty } := by
  obtain ⟨records, nextSeq, overflow⟩ := h
  obtain ⟨oldest, sendMark, claims⟩ := pointers
  simp only [← records, ← nextSeq, ← overflow, ← oldest, ← sendMark, ← claims]

/-! ### Where sessions are open -/

/-- What the conversion rests on: the claims are the lists' (R146), and the links are sound (R2). -/
structure Resumable (s : State) : Prop where
  sane : s.journal.oldest ≤ s.journal.nextSeq
  claims : s.journal.claims = (openEntries s).length
  linked : Links.Linked s

theorem length_entriesOf (list : (s.session st).borrower = none → (s.session st).items = []) :
    (entriesOf s st).length = (s.session st).items.length := by
  cases lent : (s.session st).borrower with
  | none => rw [entriesOf_none lent, list lent]; rfl
  | some n => rw [entriesOf_some lent, List.length_map]

theorem resumable_of_sound (journal : JournalSound s) (tables : TablesSound s) (links : LinksSound s) :
    Resumable s := by
  obtain ⟨-, sent, unsent, -, -, claims, -, -, nobody, -⟩ := journal
  refine ⟨sent.trans unsent, ?_, Links.linked_of_sound tables links⟩
  rw [claims, State.listEntries, openEntries_eq, entriesAt, List.length_flatMap]
  exact congrArg List.sum (List.map_congr_left fun st _ => (length_entriesOf (nobody st)).symm)

theorem linked_begun (linked : Links.Linked x) : Links.Linked (begun x) := by
  obtain ⟨b, i, begins⟩ := begun_frame x
  refine ⟨Links.linksSound_startVolatile linked.1, ?_⟩
  rw [begins]
  exact linked.2

theorem entriesAt_begun (x : State) : entriesAt (begun x) stations = openEntries x := by
  obtain ⟨b, i, begins⟩ := begun_frame x
  rw [begins]
  rfl

theorem emptied_convertSessions (linked : Links.Linked x) : Emptied x (convertSessions (begun x)) := by
  have converted := converted_foldl (linked_begun linked) stations (List.nodup_finRange 8)
  obtain ⟨b, i, begins⟩ := begun_frame x
  unfold convertSessions
  generalize stations.foldl convertSession (begun x) = y at converted ⊢
  obtain ⟨j, a, c, frame⟩ := converted.frame
  exact ⟨⟨j, a, c, by rw [frame]⟩, converted.pointers.oldest.trans (by rw [begins])⟩

/-- R27: the journal, the ACTIVE bank and the cache once every open session has been converted. -/
theorem tables_convertSessions (resumable : Resumable x) :
    (convertSessions (begun x)).journal =
        { x.journal with
          records := x.journal.records ++ numbered x true ((openEntries x).map (convertedEntry x))
          nextSeq := x.journal.nextSeq + ((openEntries x).map (convertedEntry x)).length, claims := 0
          overflow := x.journal.overflow && ((openEntries x).map (convertedEntry x)).isEmpty } ∧
      (convertSessions (begun x)).active =
        { x.active with
          items := ((openEntries x).foldl (fun b x => fillHold x.2.1 b x.2.2) x.active).items
          borrowers := x.active.borrowers.filterMap (convertedBorrower x) } ∧
      (convertSessions (begun x)).cache =
        (openEntries x).foldl (fun c e => cacheTake e.2.1 x.clock.now.day c e.2.2) x.cache := by
  have converted := converted_foldl (linked_begun resumable.linked) stations (List.nodup_finRange 8)
  obtain ⟨b, i, begins⟩ := begun_frame x
  unfold convertSessions
  generalize stations.foldl convertSession (begun x) = y at converted ⊢
  have journal := journal_of_wrote converted.wrote converted.pointers
  obtain ⟨-, -, -, active, cache⟩ := converted
  rw [entriesAt_begun, begins] at journal active cache
  rw [convertedAt_stations] at active
  refine ⟨journal.trans ?_, active, cache⟩
  have spent : x.journal.claims - (openEntries x).length = 0 := by rw [resumable.claims, Nat.sub_self]
  rw [← spent]
  rfl

/-- R27, R155, R165, R168, R196: a warm start over open sessions and an interrupted desk-day. -/
theorem warmStartedOver_warmStart (z : State) (powered : x.powered = true) (released : x.resetAsserted = false)
    (resumable : Resumable x) : warmStartedOver x (settle z (warmStart x)) := by
  have emptied := emptied_convertSessions resumable.linked
  have tables := tables_convertSessions resumable
  rw [warmStart_eq]
  generalize convertSessions (begun x) = y at emptied tables ⊢
  obtain ⟨slot, -, clock, generation, state, uplink⟩ := emptied.kept
  obtain ⟨converted, active, cache⟩ := tables
  have restart := restarted_finished z powered released emptied
  have journal := journal_finished z (closeInterrupted y)
  obtain ⟨active', cache', -⟩ := tables_finished z y
  have tested := openingTested_finished z ((slot_closeInterrupted y).trans slot)
  have closing : interruptedDrafts y = interruptedDrafts x := by
    simp only [interruptedDrafts, closingDrafts, clock, state]
  have recorded := recorded_closeInterrupted (y := y) (by
    rw [converted]
    exact Nat.le_add_right_of_le resumable.sane)
  rw [closing] at recorded
  have closed := journal_closing converted recorded (by rw [uplink]; exact nofun) generation
    (resumable.claims.trans (List.length_map _).symm) resumable.sane
  generalize settle z (finished (closeInterrupted y)) = t at restart journal active' cache' tested ⊢
  refine ⟨restart, tested, ?_, active'.trans active, cache'.trans cache⟩
  rw [journal, closed]
  rfl

end Sys2Proof.StartUp
end

