-- ==== Sys2Proof/Proofs/RetainedStore.lean ====
section
/-! SUPPORT. What a warm start reads of the state it finds (R196), which a line's entry into DOWN leaves as it was
(R177), so that a warm start after it is told from the state before. -/

namespace Sys2Proof.StartUp

open Sys2Proof.Machine Sys2Proof.DeskDay

variable {s x t : State} {st : Station}

/-! ### What a warm start reads -/

/-- What a warm start reads of a session: its borrower, its list, and the staff number while a session is open (R27). -/
def carried (r : Session) : Option Number × List ListEntry × Option Number :=
  (r.borrower, r.items, if r.borrower.isSome then r.overrideStaff else none)

theorem carried_leaveDesk (r : Session) : carried r.leaveDesk = carried r := by
  simp only [Session.leaveDesk, Session.disarm]
  split
  · cases lent : r.borrower <;> simp [carried, lent]
  · rfl

/-- What a warm start reads; the mark is read nowhere, being rewound. -/
structure Retained where
  active : Bank
  cache : List CacheEntry
  journal : Journal
  sessions : Station → Option Number × List ListEntry × Option Number
  day : DeskDay × Option Nat × Bool
  clock : Clock
  settings : Settings
  key : Key
  staging : StagedState × Nat
  signature : Bool
  supplies : Bool × Bool × Option Line

def retained (s : State) : Retained :=
  { active := s.active, cache := s.cache, journal := (rewind s).journal, sessions := fun st => carried (s.session st)
    day := (s.day.state, s.day.openDay, s.day.fresh), clock := s.clock, settings := s.settings, key := s.key
    staging := (s.stagedState, s.generation), signature := s.store.signatureGood
    supplies := (s.powered, s.resetAsserted, s.restarting) }

/-! ### What leaves it alone -/

section
variable (s st)

theorem retained_setPort (p : Port) : retained (s.setPort st p) = retained s := rfl

theorem retained_setConsole (c : Console) : retained (s.setConsole st c) = retained s := rfl

theorem retained_setLine (l : Line) (c : LineCtl) : retained (s.setLine l c) = retained s := by cases l <;> rfl

theorem retained_leaveDesk : retained (s.setSession st (s.session st).leaveDesk) = retained s := by
  have sessions : (fun o => carried ((s.setSession st (s.session st).leaveDesk).session o)) =
      fun o => carried (s.session o) := by
    funext o
    by_cases here : o = st
    · rw [here, session_setSession, carried_leaveDesk]
    · rw [session_setSession_of_ne _ _ _ here]
  exact congrArg (fun r => { retained s with sessions := r }) sessions

theorem retained_raiseBoth (c : Cause) : retained (raiseBoth c s) = retained s :=
  (retained_setLine _ .supervisor _).trans (retained_setLine s .uplink _)

theorem retained_showStanding : retained (showStanding st s) = retained s := by
  rw [showStanding_frame]
  rfl

theorem retained_goAbsent : retained (goAbsent st s) = retained s :=
  (retained_raiseBoth _ _).trans (retained_leaveDesk s st)

theorem retained_endBridge : retained (endBridge st s) = retained s := by
  unfold endBridge
  simp only
  split
  · exact retained_showStanding _ st
  · exact retained_goAbsent s st

theorem retained_endBridges : retained (endBridges s) = retained s := by
  have run : ∀ (l : List Station) (x : State),
      retained (l.foldl (fun s st => if (s.port st).bridged then endBridge st s else s) x) = retained x := by
    intro l
    induction l with
    | nil => exact fun x => rfl
    | cons st l ih =>
      intro x
      rw [List.foldl_cons, ih]
      split
      · exact retained_endBridge x st
      · rfl
  exact run stations s

/-- R177: a line that enters DOWN or REFUSED leaves what a warm start reads. -/
theorem retained_enterInactive (l : Line) (state : LineState) (watch : Option Nat) :
    retained (enterInactive l state watch s) = retained s := by
  have entered (c : LineCtl) := retained_setLine s l c
  unfold enterInactive
  simp only
  split
  · cases l with
    | uplink => exact (retained_setLine _ .supervisor _).trans (entered ((s.line .uplink).enter state watch))
    | supervisor => exact (retained_endBridges _).trans (entered _)
  · exact entered _

end

/-! ### What is told from it -/

theorem journal_retained (same : retained x = retained s) :
    x.journal.records = s.journal.records ∧ x.journal.oldest = s.journal.oldest ∧
      x.journal.nextSeq = s.journal.nextSeq ∧ x.journal.claims = s.journal.claims ∧
      x.journal.overflow = s.journal.overflow ∧ x.journal.free = s.journal.free := by
  have journal : (rewind x).journal = (rewind s).journal := congrArg Retained.journal same
  exact ⟨(congrArg Journal.records journal :), (congrArg Journal.oldest journal :),
    (congrArg Journal.nextSeq journal :), (congrArg Journal.claims journal :), (congrArg Journal.overflow journal :),
    (congrArg Journal.free journal :)⟩

/-- A warm start of one state, told from another that holds the same. -/
theorem restarted_since (same : retained x = retained s) (h : restarted x t) : restarted s t := by
  obtain ⟨-, oldest, -⟩ := journal_retained same
  simp only [retained, Retained.mk.injEq, Prod.mk.injEq] at same
  obtain ⟨-, -, -, -, ⟨state, openDay, fresh⟩, clock, settings, key, ⟨staging, generation⟩, signature, -⟩ := same
  simpa only [restarted, oldest, state, openDay, fresh, clock, settings, key, staging, generation, signature] using h

theorem warmStarted_since (same : retained x = retained s) (h : warmStarted x t) : warmStarted s t := by
  obtain ⟨restart, slot, claims, records, active, cache⟩ := h
  have restart := restarted_since same restart
  obtain ⟨records', -, -, claims', -⟩ := journal_retained same
  have active' : x.active = s.active := congrArg Retained.active same
  have cache' : x.cache = s.cache := congrArg Retained.cache same
  rw [records'] at records
  exact ⟨restart, slot, claims.trans claims', records, active.trans active', cache.trans cache'⟩

theorem mem_openEntries {n : Number} {e : ListEntry} (mem : (st, n, e) ∈ openEntries s) :
    (s.session st).borrower = some n := by
  obtain ⟨o, -, mem⟩ := List.mem_flatMap.mp (openEntries_eq s ▸ mem)
  cases lent : (s.session o).borrower with
  | none =>
    rw [entriesOf_none lent] at mem
    cases mem
  | some m =>
    rw [entriesOf_some lent] at mem
    obtain ⟨e', -, entry⟩ := List.mem_map.mp mem
    obtain ⟨rfl, rfl, -⟩ : o = st ∧ m = n ∧ e' = e := by simpa using entry
    exact lent

theorem openEntries_since (borrower : ∀ st, (x.session st).borrower = (s.session st).borrower)
    (items : ∀ st, (x.session st).items = (s.session st).items) : openEntries x = openEntries s := by
  rw [openEntries_eq, openEntries_eq, entriesAt, entriesAt]
  refine congrArg (stations.flatMap ·) (funext fun st => ?_)
  simp only [entriesOf, borrower, items]

theorem warmStartedOver_since (same : retained x = retained s) (h : warmStartedOver x t) : warmStartedOver s t := by
  obtain ⟨restart, tested, records, tables, cache⟩ := h
  have restart := restarted_since same restart
  obtain ⟨records', oldest, nextSeq, -, overflow, free⟩ := journal_retained same
  simp only [retained, Retained.mk.injEq, Prod.mk.injEq] at same
  obtain ⟨active, cache', -, sessions, ⟨state, -⟩, clock, -, -, ⟨-, generation⟩, -⟩ := same
  have carries (st : Station) : carried (x.session st) = carried (s.session st) := congrFun sessions st
  have borrower (st : Station) : (x.session st).borrower = (s.session st).borrower := congrArg Prod.fst (carries st)
  have items (st : Station) : (x.session st).items = (s.session st).items := congrArg (·.2.1) (carries st)
  have entries := openEntries_since borrower items
  have converted : (openEntries s).map (convertedEntry x) = (openEntries s).map (convertedEntry s) := by
    refine List.map_congr_left fun entry mem => ?_
    obtain ⟨st, n, e⟩ := entry
    have lent := mem_openEntries mem
    have staff : (x.session st).overrideStaff = (s.session st).overrideStaff := by
      simpa [carried, borrower, lent] using congrArg (·.2.2) (carries st)
    simp only [convertedEntry, staff, clock]
  have closing : closingDrafts x = closingDrafts s := by simp only [closingDrafts, clock]
  have counted : numbered x true = numbered s true := by
    funext drafts
    simp only [numbered, nextSeq, overflow, generation]
  have unlinked : convertedBorrower x = convertedBorrower s := by
    funext e
    simp only [convertedBorrower, items]
  refine ⟨restart, tested, ?_, ?_, ?_⟩
  · rw [records]
    simp only [entries, converted, closing, counted, state, records', oldest, nextSeq, overflow, free]
  · rw [tables, entries, active, unlinked]
  · rw [cache, entries, cache', clock]

/-- Where the lists and the links are the same the conversion has the same to rest on. -/
theorem Resumable.since (h : Resumable s) (same : retained x = retained s) (links : Links.view x = Links.view s) :
    Resumable x := by
  obtain ⟨-, oldest, nextSeq, claims, -⟩ := journal_retained same
  have sessions : (fun st => carried (x.session st)) = fun st => carried (s.session st) :=
    congrArg Retained.sessions same
  have entries : openEntries x = openEntries s := openEntries_since
    (fun st => congrArg Prod.fst (congrFun sessions st)) (fun st => congrArg (·.2.1) (congrFun sessions st))
  exact ⟨by rw [oldest, nextSeq]; exact h.sane, by rw [claims, entries]; exact h.claims,
    Links.linked_of_view links h.linked⟩

end Sys2Proof.StartUp
end

