-- ==== Sys2Proof/Proofs/PowerAndReset.lean ====
section
/-! SUPPORT. The supplies and the RESET pin (R193, R194, R197). -/

namespace Sys2Proof.StartUp

open Sys2Proof.Machine

variable {s x : State}

/-! ### The choice of the start -/

theorem start_cold (bad : ¬(x.store.signatureGood = true ∧ x.store.backupFail = false)) : start x = coldStart x := by
  refine if_neg fun good => bad ?_
  simpa using good

theorem start_warm (signature : x.store.signatureGood = true) (backed : x.store.backupFail = false) :
    start x = warmStart x := if_pos (by rw [signature, backed]; rfl)

/-- R194, R195: a cold start of a part that runs. -/
theorem coldStart_running (powered : x.powered = true) (released : x.resetAsserted = false) :
    coldStart x = { State.reset with pending := x.pending, freeIx := x.freeIx } := by
  simp only [coldStart, powered, released]
  rfl

theorem warmStarted_bare (powered : x.powered = true) (released : x.resetAsserted = false)
    (off : x.settings.autoOpen = false) (free : ∀ st : Station, (x.session st).borrower = none) :
    warmStarted x (warmStart x) := by
  have started := warmStarted_warmStart (warmStart x) powered released off free
  rwa [Arbiter.settle_self] at started

theorem warmStartedOver_bare (powered : x.powered = true) (released : x.resetAsserted = false)
    (resumable : Resumable x) : warmStartedOver x (warmStart x) := by
  have started := warmStartedOver_warmStart (warmStart x) powered released resumable
  rwa [Arbiter.settle_self] at started

/-- R194 to R196: what the start of a part that runs comes to. -/
theorem start_outcomes (powered : x.powered = true) (released : x.resetAsserted = false) :
    (¬(x.store.signatureGood = true ∧ x.store.backupFail = false) →
        start x = { State.reset with pending := x.pending, freeIx := x.freeIx }) ∧
      (x.store.signatureGood = true ∧ x.store.backupFail = false →
        (x.settings.autoOpen = false ∧ (∀ st : Station, (x.session st).borrower = none) → warmStarted x (start x)) ∧
          (JournalSound x ∧ TablesSound x ∧ LinksSound x → warmStartedOver x (start x))) := by
  refine ⟨fun bad => (start_cold bad).trans (coldStart_running powered released), fun ⟨signature, backed⟩ => ?_⟩
  rw [start_warm signature backed]
  exact ⟨fun ⟨off, free⟩ => warmStarted_bare powered released off free,
    fun ⟨journal, tables, links⟩ => warmStartedOver_bare powered released (resumable_of_sound journal tables links)⟩

/-! ### The commands -/

theorem powerUp_starts (unpowered : s.powered = false) (released : s.resetAsserted = false) :
    exec .powerUp s = .next (start { s with powered := true }) := by
  show execPowerUp s = _
  simp [execPowerUp, unpowered, released]

theorem powerUp_held (unpowered : s.powered = false) (held : s.resetAsserted = true) :
    exec .powerUp s = .next { s with powered := true } := by
  show execPowerUp s = _
  simp [execPowerUp, unpowered, held]

theorem resetRelease_starts (powered : s.powered = true) (held : s.resetAsserted = true) :
    exec .resetRelease s = .next (start { s with resetAsserted := false }) := by
  show execResetRelease s = _
  simp [execResetRelease, powered, held]

end Sys2Proof.StartUp

open Sys2Proof Sys2Proof.Machine Sys2Proof.StartUp

/-- Settles O57: each command by its branches; the start it makes, by the marks, is a cold one or a warm one, whose
outcome `start_outcomes` tells from the state it finds. -/
theorem suppliesAndResetStartThePart : Obligations.SuppliesAndResetStartThePart := by
  unfold Obligations.SuppliesAndResetStartThePart
  intro s good still sound cold
  refine ⟨rfl, rfl, fun unpowered => ?_, fun powered => ?_, fun unpowered released => ?up, powerUp_held,
    fun powered held => ?release⟩
  · exact congrArg _ (if_neg (by simp [unpowered]))
  · exact congrArg _ (if_pos powered)
  case up =>
    obtain ⟨coldly, warmly⟩ := start_outcomes (x := { s with powered := true }) rfl released
    have starts := powerUp_starts unpowered released
    exact ⟨fun bad => ⟨_, starts, coldly bad⟩, fun marks calm => ⟨_, starts, (warmly marks).1 calm⟩,
      fun marks sane => ⟨_, starts, (warmly marks).2 sane⟩⟩
  case release =>
    obtain ⟨coldly, warmly⟩ := start_outcomes (x := { s with resetAsserted := false }) powered rfl
    have starts := resetRelease_starts powered held
    exact ⟨fun bad => ⟨_, starts, coldly bad⟩, fun marks calm => ⟨_, starts, (warmly marks).1 calm⟩,
      fun marks sane => ⟨_, starts, (warmly marks).2 sane⟩⟩
end

