-- ==== Sys2Proof/Proofs/Restart.lean ====
section
/-! SUPPORT. A RESTART that waits for its reply (R197): the commands that it shuts out, and those that end in its
warm start. -/

namespace Sys2Proof.StartUp

open Sys2Proof.Machine

variable {s x y : State} {st : Station} {l l' : Line} {c : Instr}

/-! ### What is shut out -/

theorem guardedEvent_shut {guard : State → Bool} {f : State → State} (shut : guard s = false) :
    guardedEvent guard f s = .next s := by
  unfold guardedEvent partEvent
  simp only [shut, Bool.false_eq_true, if_false, Arbiter.settle_self]
  split <;> rfl

section
variable (waits : s.restarting = some l)

include waits

theorem lineEvent_waits {f : State → State} : lineEvent l' f s = .next s :=
  guardedEvent_shut (by rw [waits]; rfl)

theorem requestEvent_waits {α : Type} {q : Req} {name : ReqName} {ownerOnly : α → Bool} {content : Content α}
    {rule : α → State → State} : requestEvent q name ownerOnly content rule s = .next s :=
  lineEvent_waits waits

theorem request_waits {α : Type} {q : Req} {name : ReqName} {ownerOnly : Bool} {content : Content α}
    {rule : α → State → State × Reply} : request q name ownerOnly content rule s = .next s :=
  requestEvent_waits waits

/-- R197: no frame and no gap of a management line is taken. -/
theorem management_waits (management : fromManagementLine c = true) : exec c s = .next s := by
  cases c with
  | lineFrameGap l' next => exact (show execLineFrameGap l' next s = _ from guardedEvent_shut (by rw [waits]; rfl))
  | droppedGoodLineFrame l' kind =>
    exact (show execDroppedGoodLineFrame l' kind s = _ from guardedEvent_shut (by rw [waits]; rfl))
  | passDown station body => exact (show execPassDown station body s = _ from lineEvent_waits waits)
  | unknownRequestName => simp only [exec, execUnknownRequestName, lineEvent_waits waits]
  | hello q content => exact (show execHello q content s = _ from lineEvent_waits waits)
  | upload q content => exact (show execUpload q content s = _ from requestEvent_waits waits)
  | postNote q content => exact (show execPostNote q content s = _ from requestEvent_waits waits)
  | putBorrower | delBorrower | adjustBorrower | putItem | delItem | addHold | cancelHold | putPrefix | delPrefix
  | putStaff | delStaff | putCategory | delCategory | putClass | delClass | putRule | delRule | putTemplate
  | delTemplate | putText | delText => exact request_waits waits
  | putProfile | delProfile | putWeekday | delWeekday | putException | delException =>
    simp only [exec, execPutProfile, execDelProfile, execPutWeekday, execDelWeekday, execPutException,
      execDelException, calendarWrite, request_waits waits]
  | nop | status | unlock | wipe | ackAttention | setAttentionMask | readNote | readBorrower | readItem | readOlc
  | readRules | readCalendar | readTemplate | readSettings | release | readJournal | openDesk | closeDesk | time
  | setTime | stageBegin | commit | setSettings | setKey | bridge | unbridge | restart =>
    simp only [exec, execNop, execStatus, execUnlock, execWipe, execAckAttention, execSetAttentionMask, execReadNote,
      execReadBorrower, execReadItem, execReadOlc, execReadRules, execReadCalendar, execReadTemplate, execReadSettings,
      execRelease, execReadJournal, execOpenDesk, execCloseDesk, execTime, execSetTime, execStageBegin, execCommit,
      execSetSettings, execSetKey, execBridge, execUnbridge, execRestart, readRequest, request_waits waits]
  | _ => cases management

theorem arbiterPick_waits : s.arbiterPick = none := by
  simp [State.arbiterPick, waits]

/-- R197: the arbiter takes no input. -/
theorem decision_waits (decides : isDecision c = true) : exec c s = .next s := by
  have idle := arbiterPick_waits waits
  cases c with
  | borrowerScan | itemScan | staffScan | ignoreOrCcRefusedScan => exact Arbiter.decision_idle idle
  | endKey => exact (show execEndKey s = _ from Arbiter.keyDecision_idle idle)
  | cancelKey => exact (show execCancelKey s = _ from Arbiter.keyDecision_idle idle)
  | returnKey => exact (show execReturnKey s = _ from Arbiter.keyDecision_idle idle)
  | checkoutKey => exact (show execCheckoutKey s = _ from Arbiter.keyDecision_idle idle)
  | reprintKey => exact (show execReprintKey s = _ from Arbiter.keyDecision_idle idle)
  | _ => cases decides

theorem joinInput_waits {i : Input} : joinInput st i s = s := by
  rw [joinInput, if_pos (by simp [waits])]

end

theorem stationEvent_heard {f : State → State} (running : s.running = true)
    (still : f (Desk.heard st s) = Desk.heard st s) : stationEvent st f s = .next (Desk.heard st s) := by
  cases enabled : s.settings.enableMask[st] with
  | false => exact Desk.stationEvent_ignored running enabled
  | true =>
    refine (stationEvent_enabled running enabled).trans (congrArg _ ?_)
    rw [show s.setPort st { s.port st with receiver := .looking } = Desk.heard st s from rfl, still, Desk.settle_heard]

section
variable (running : s.running = true) (waits : s.restarting = some l) (unbridged : (s.port st).bridged = false)

include running waits unbridged

/-- R197: a key is not kept (log entry 24). -/
theorem keyFrame_waits (content : List Byte) : exec (.keyFrame st content) s = .next (Desk.heard st s) := by
  refine (show execKeyFrame st content s = _ from stationEvent_heard running ?_)
  rw [Desk.port_heard, if_neg (by simp [unbridged])]
  cases keyContent content with
  | none => rfl
  | some k => exact joinInput_waits (s := Desk.heard st s) waits

/-- R197: a scan is not kept; that of no read sounds as ever (log entry 24). -/
theorem scanFrame_waits (content : List Byte) (read : content.head? ≠ some 0x00#8) :
    exec (.scanFrame st content) s = .next (Desk.heard st s) := by
  refine (show execScanFrame st content s = _ from stationEvent_heard running ?_)
  rw [Desk.port_heard, if_neg (by simp [unbridged])]
  cases scanned : scanContent content with
  | none => rfl
  | some scan =>
    cases scan with
    | digits ds => exact joinInput_waits (s := Desk.heard st s) waits
    | noRead =>
      refine absurd ?_ read
      unfold scanContent at scanned
      split at scanned
      · cases scanned
      · split at scanned
        · next silent => rw [silent]; rfl
        · split at scanned <;> cases scanned

end

/-! ### What ends in the warm start -/

/-- The reply of a RESTART neither waits nor is on the wire (R197). -/
abbrev replySent (s : State) (l : Line) : Prop :=
  (∀ f ∈ (s.line l).sendList, f.isRestartReply = false) ∧ (s.line l).wire.any LineFrame.isRestartReply = false

section
variable (running : s.running = true) (waits : s.restarting = some l)

include running waits

/-- R197: the warm start comes once the reply has been sent whole or its line is DOWN. -/
theorem restartWarmStart_starts (ready : (s.line l).state = .down ∨ replySent s l) :
    exec .restartWarmStart s = .next (settle s (warmStart s)) := by
  refine (show execRestartWarmStart s = _ from guardedEvent_taken running ?_)
  simp only [waits]
  obtain down | ⟨none_waits, none_wired⟩ := ready
  · simp [down]
  · simpa [none_wired] using .inr none_waits

omit running in
theorem restartWarmStart_waits (up : (s.line l).state ≠ .down) (unsent : ¬replySent s l) :
    exec .restartWarmStart s = .next s := by
  refine (show execRestartWarmStart s = _ from guardedEvent_shut ?_)
  simp only [waits]
  simpa [up, and_comm, or_comm, imp_iff_not_or, not_and_or] using unsent

theorem lineTransmit_starts (ends : (s.line l).wire.any LineFrame.isRestartReply = true) :
    exec (.lineTransmit l) s = .next (settle s (warmStart s)) := by
  refine (show execLineTransmit l s = _ from partEvent_running running).trans (congrArg _ ?_)
  rw [if_pos ⟨waits, ends⟩]

theorem livenessExpiry_starts (silent : (s.line l).liveness = some 30) :
    exec (.livenessExpiry l) s = .next (settle s (warmStart (enterInactive l .down none s))) := by
  have expired : (s.line l).livenessExpired = true := by rw [LineCtl.livenessExpired, silent]; rfl
  have still : (enterInactive l .down none s).restarting = some l :=
    (congrArg (·.supplies.2.2) (retained_enterInactive s l .down none)).trans waits
  refine (show execLivenessExpiry l s = _ from guardedEvent_taken running expired).trans (congrArg _ ?_)
  simp only [still, if_true]

/-- What holds of a warm start of every state that holds the same comes of each of the three commands. -/
theorem warmStarts {done : State → Prop}
    (starts : ∀ x, retained x = retained s → Links.view x = Links.view s → done (settle s (warmStart x))) :
    ((s.line l).state = .down ∨ replySent s l → ∃ t, exec .restartWarmStart s = .next t ∧ done t) ∧
      ((s.line l).wire.any LineFrame.isRestartReply = true → ∃ t, exec (.lineTransmit l) s = .next t ∧ done t) ∧
      ((s.line l).liveness = some 30 → ∃ t, exec (.livenessExpiry l) s = .next t ∧ done t) :=
  ⟨fun ready => ⟨_, restartWarmStart_starts running waits ready, starts s rfl rfl⟩,
    fun ends => ⟨_, lineTransmit_starts running waits ends, starts s rfl rfl⟩,
    fun silent => ⟨_, livenessExpiry_starts running waits silent,
      starts _ (retained_enterInactive s l .down none) (Links.view_enterInactive s l .down none)⟩⟩

end

/-! ### Its outcome -/

theorem supplies_running (running : s.running = true) (same : retained x = retained s) :
    x.powered = true ∧ x.resetAsserted = false := by
  have supplies : (x.powered, x.resetAsserted, x.restarting) = (s.powered, s.resetAsserted, s.restarting) :=
    congrArg Retained.supplies same
  obtain ⟨powered, released⟩ : s.powered = true ∧ s.resetAsserted = false := by simpa [State.running] using running
  rw [← powered, ← released]
  exact ⟨congrArg (·.1) supplies, congrArg (·.2.1) supplies⟩

theorem warmStarted_restart (running : s.running = true) (off : s.settings.autoOpen = false)
    (free : ∀ st : Station, (s.session st).borrower = none) (same : retained x = retained s) :
    warmStarted s (settle s (warmStart x)) := by
  obtain ⟨powered, released⟩ := supplies_running running same
  have settings : x.settings = s.settings := congrArg Retained.settings same
  have borrower (st : Station) : (x.session st).borrower = (s.session st).borrower :=
    congrArg (fun r : Retained => (r.sessions st).1) same
  exact warmStarted_since same
    (warmStarted_warmStart s powered released (by rw [settings, off]) fun st => (borrower st).trans (free st))

theorem warmStartedOver_restart (running : s.running = true) (resumable : Resumable s) (same : retained x = retained s)
    (links : Links.view x = Links.view s) : warmStartedOver s (settle s (warmStart x)) := by
  obtain ⟨powered, released⟩ := supplies_running running same
  exact warmStartedOver_since same (warmStartedOver_warmStart s powered released (resumable.since same links))

end Sys2Proof.StartUp

open Sys2Proof Sys2Proof.Machine Sys2Proof.StartUp

/-- Settles O45: the request by its rule; what waits by a case per command; the three commands that end in the warm
start (`warmStarts`), whose outcome is told from the state before, a line's entry into DOWN leaving what a warm start
reads. -/
theorem restartEndsInAWarmStart : Obligations.RestartEndsInAWarmStart := by
  unfold Obligations.RestartEndsInAWarmStart
  refine ⟨fun s q admitted => ?request, fun s l running waits => ⟨fun c => ?shut, fun st content unbridged => ?inputs⟩,
    fun s l running waits => ⟨fun off free => ?calm, fun journal tables links => ?open_, fun up unsent => ?early⟩⟩
  case request => exact (show execRestart q (.shaped ()) s = _ from Desk.request_admitted admitted)
  case shut => exact fun h => h.elim (management_waits waits) (decision_waits waits)
  case inputs =>
    exact ⟨keyFrame_waits running waits unbridged content, scanFrame_waits running waits unbridged content⟩
  case calm => exact warmStarts running waits fun x same _ => warmStarted_restart running off free same
  case open_ =>
    exact warmStarts running waits fun x same view =>
      warmStartedOver_restart running (resumable_of_sound journal tables links) same view
  case early => exact restartWarmStart_waits waits up unsent
end

