-- ==== Sys2Proof/Proofs/Wipe.lean ====
section
/-! SUPPORT. A WIPE's event (R28, R198): what is emptied, what is shown and recorded, and what of the lines stands. -/

namespace Sys2Proof.Wipe

open Sys2Proof.Machine

variable {s t x y w : State} {st : Station} {l : Line} {q : Req} {u : Upload}

/-! ### The lines -/

/-- A line's state, features and lock mark (R177, R180). -/
def standing (c : LineCtl) : LineState × FeatureSet × Bool := (c.state, c.granted, c.unlocked)

/-- The lines stand as they did, and what waited to be sent still waits at the head. -/
def LinesStand (s t : State) : Prop :=
  ∀ l : Line, standing (t.line l) = standing (s.line l) ∧ (s.line l).sendList <+: (t.line l).sendList

theorem LinesStand.trans (h : LinesStand s t) (h' : LinesStand t x) : LinesStand s x := fun l =>
  ⟨(h' l).1.trans (h l).1, (h l).2.trans (h' l).2⟩

theorem linesStand_of_line (same : ∀ l, t.line l = s.line l) : LinesStand s t := fun l => by
  rw [same l]
  exact ⟨rfl, List.prefix_rfl⟩

theorem linesStand_setLine {c : LineCtl} (stands : standing c = standing (s.line l))
    (waits : (s.line l).sendList <+: c.sendList) : LinesStand s (s.setLine l c) := fun l' =>
  match l, l', stands, waits with
  | .uplink, .uplink, stands, waits | .supervisor, .supervisor, stands, waits => ⟨stands, waits⟩
  | .uplink, .supervisor, _, _ | .supervisor, .uplink, _, _ => ⟨rfl, List.prefix_rfl⟩

theorem linesStand_sendReply (q : Req) (name : ReqName) (r : Reply) (s : State) :
    LinesStand s (sendReply q name r s) := linesStand_setLine rfl (List.prefix_append _ _)

theorem linesStand_settle (z s : State) : LinesStand s (settle z s) := fun l =>
  ⟨by cases l <;> rfl, Desk.isPrefix_settle z s l⟩

theorem linesStand_answered (q : Req) (name : ReqName) (r : Reply) (z s : State) :
    LinesStand s (answered q name r z s) := (linesStand_sendReply q name r s).trans (linesStand_settle z _)

theorem linesStand_received (q : Req) (s : State) : LinesStand s (received q .wipe s) :=
  linesStand_setLine rfl List.prefix_rfl

/-- R198: an upload in flight ends, its reply sent before anything else of the event. -/
theorem linesStand_endUpload (s : State) : LinesStand s (endUpload s) := by
  unfold endUpload
  split
  · exact linesStand_of_line fun _ => rfl
  · exact (linesStand_of_line fun l => by cases l <;> rfl).trans (linesStand_sendReply _ _ _ { s with upload := none })

theorem endUpload_lines (s : State) : ∃ v, endUpload s = { s with upload := none, uplink := v } := by
  unfold endUpload
  split
  · next idle => exact ⟨s.uplink, by rw [← idle]⟩
  · exact ⟨_, rfl⟩

theorem uploadReply_mem (flight : s.upload = some u) :
    LineFrame.reply u.tag (uploadReply u s.journal) ∈ (endUpload s).uplink.sendList := by
  rw [Ledgers.endUpload_flight flight]
  exact List.mem_append_right _ (List.mem_singleton_self _)

theorem uploadReply_received (q : Req) (flight : s.upload = some u) :
    LineFrame.reply u.tag (uploadReply u s.journal) ∈ (endUpload (received q .wipe s)).uplink.sendList := by
  obtain ⟨v, v', heard, -⟩ := DeskDay.received_lines q .wipe s
  rw [heard]
  exact uploadReply_mem (s := { s with uplink := v, supervisor := v' }) flight

/-- The state in which the tables are emptied: of what is not a line's, the upload alone has ended. -/
theorem endUpload_received (q : Req) (s : State) :
    ∃ v v', endUpload (received q .wipe s) = { s with upload := none, uplink := v, supervisor := v' } := by
  obtain ⟨v, v', heard, -⟩ := DeskDay.received_lines q .wipe s
  obtain ⟨v'', ended⟩ := endUpload_lines (received q .wipe s)
  exact ⟨v'', v', by rw [ended, heard]⟩

/-! ### The tables -/

theorem free_wipeTables (y : State) : (wipeTables y).journal.free = ringSlots := by
  simp [wipeTables, Journal.free, Journal.unreleased]

theorem session_wipeTables (y : State) (st : Station) : (wipeTables y).session st = Session.empty := by
  simp [wipeTables, State.session]

theorem console_wipeTables (y : State) (st : Station) :
    (wipeTables y).console st = wipeConsole (y.port st).present (y.console st) := by
  simp [wipeTables, State.console]

/-- R125: an attended station stands at the text WIPED. -/
theorem standingText_wipeTables (attended : y.attended st) : (wipeTables y).standingText st = some 26 := by
  have idle : (wipeTables y).stationState st = .idle :=
    Desk.stationState_idle attended (by rw [session_wipeTables]; rfl) (by rw [session_wipeTables]; rfl)
  have marked : ((wipeTables y).console st).wiped = true := by
    rw [console_wipeTables]
    simp [wipeConsole, attended.1]
  simp only [State.standingText, idle, marked, if_true]

/-- R124, R127: a cleared text shows its name. -/
theorem shownText_cleared (cleared : y.active = Bank.cleared) : (y.shownText 26).line1 = fit20 (ascii "WIPED") := by
  rw [State.shownText, cleared]
  rfl

theorem line1_wiped (attended : y.attended st) :
    ((showStandingAll (wipeTables y)).console st).line1 = fit20 (ascii "WIPED") := by
  rw [(DeskDay.texts_showStandingAll (standingText_wipeTables attended)).1, shownText_cleared rfl, Desk.fit20_fit20]

/-! ### The event -/

/-- The journal of a WIPE's event: its record alone (R198). -/
def wipedJournal (w : State) : Journal :=
  { w.journal with
    records := [w.fillRecord (draft .wiped)], nextSeq := w.journal.nextSeq + 1, overflow := false }

theorem fillRecord_wiped (same : w.uplink.state = s.uplink.state) (generation : w.generation = s.generation)
    (seq : w.journal.nextSeq = s.journal.nextSeq) (clean : w.journal.overflow = false) :
    w.fillRecord (draft .wiped) =
      stamped { s with journal := { s.journal with overflow := false }, clock := w.clock } (draft .wiped) := by
  rw [State.fillRecord, stamped, same, generation, seq, clean]
  rfl

/-- The event of a WIPE over the state in which the upload has ended. -/
theorem wipeEvent_eq (q : Req) (ended : endUpload x = y) :
    wipeEvent q x =
      { showStandingAll (wipeTables y) with
        journal := wipedJournal (wipeTables y), store := { y.store with scrubMark := true, scrubPos := 0 }
        slot := some { op := .wipe, requester := some q } } := by
  unfold wipeEvent
  rw [ended]
  obtain ⟨p, c, painted⟩ := (Desk.repainted_showStandingAll (wipeTables y)).rest
  simp only [painted]
  have room : 1 ≤ ({ wipeTables y with ports := p, consoles := c } : State).journal.free := by
    show 1 ≤ (wipeTables y).journal.free
    rw [free_wipeTables]
    decide
  rw [appendSystem_room _ room]
  rfl

/-- The state in which the event of a WIPE that finds the slot free ends. -/
def wiped (q : Req) (s : State) : State :=
  answered q .wipe (Reply.bare .accepted) s (wipeEvent q (received q .wipe s))

theorem wipe_answers (hears : s.hears q.line) :
    exec (.wipe q (.shaped ())) s =
      .next (if s.slot.isSome then answered q .wipe (Reply.bare .busy) s (received q .wipe s) else wiped q s) := by
  obtain ⟨running, still, active⟩ := hears
  refine (show execWipe q (.shaped ()) s = _ from
    request_taken running still (gate_open active (.inl rfl) (by simp))).trans (congrArg _ ?_)
  obtain ⟨v, v', heard, -⟩ := DeskDay.received_lines q .wipe s
  have slot : (received q .wipe s).slot = s.slot := by rw [heard]
  rw [slot]
  split <;> rfl

theorem linesStand_ended (q : Req) (s : State) : LinesStand s (endUpload (received q .wipe s)) :=
  (linesStand_received q s).trans (linesStand_endUpload _)

theorem linesStand_wiped (q : Req) (s : State) : LinesStand (endUpload (received q .wipe s)) (wiped q s) := by
  refine LinesStand.trans (linesStand_of_line fun l => ?_) (linesStand_answered q .wipe _ s _)
  rw [wipeEvent_eq q rfl]
  obtain ⟨p, c, painted⟩ := (Desk.repainted_showStandingAll (wipeTables (endUpload (received q .wipe s)))).rest
  rw [painted]
  cases l <;> rfl

/-- R151, R198: the final reply of an upload in flight. -/
theorem uploadReply_wiped (q : Req) (flight : s.upload = some u) :
    LineFrame.reply u.tag (uploadReply u s.journal) ∈ (wiped q s).uplink.sendList :=
  (linesStand_wiped q s .uplink).2.subset (uploadReply_received q flight)

/-- R122, R198: the slips of a station are gone, and one that is present is marked. -/
theorem console_wiped (y : State) (st : Station) :
    ((showStandingAll (wipeTables y)).console st).queue = [] ∧
      ((showStandingAll (wipeTables y)).console st).copy = none ∧
      ((y.port st).present = true → ((showStandingAll (wipeTables y)).console st).wiped = true) := by
  have painted := Desk.repainted_showStandingAll (wipeTables y)
  obtain ⟨queue, -, copy⟩ := painted.slips st
  rw [queue, copy, painted.wiped st, console_wipeTables]
  exact ⟨rfl, rfl, fun present => by simp [wipeConsole, present]⟩

/-- R198: the end of a WIPE's event, beside the lines, from what the tables and the displays have become. -/
theorem wiped_eq (q : Req) (s : State) :
    ∃ y p c, s.uplink.state = y.uplink.state ∧ (∃ v v', y = { s with upload := none, uplink := v, supervisor := v' }) ∧
      showStandingAll (wipeTables y) = { wipeTables y with ports := p, consoles := c } ∧
      ∃ v v', wiped q s =
        { wipeTables y with
          ports := p, consoles := c, journal := wipedJournal (wipeTables y)
          store := { y.store with scrubMark := true, scrubPos := 0 }
          slot := some { op := .wipe, requester := some q }, uplink := v, supervisor := v' } := by
  obtain ⟨p, c, painted⟩ := (Desk.repainted_showStandingAll (wipeTables (endUpload (received q .wipe s)))).rest
  have state := congrArg (·.1) (linesStand_ended q s .uplink).1
  obtain ⟨v, v', answer⟩ :=
    DeskDay.answered_lines q .wipe (Reply.bare .accepted) s (wipeEvent q (received q .wipe s))
  exact ⟨_, p, c, state.symm, endUpload_received q s, painted, v, v',
    by rw [wiped, answer, wipeEvent_eq q rfl, painted]⟩

/-! ### The scrub -/

section
variable {r : Option Req} (running : s.running = true) (scrubs : s.store.scrubMark = true)
  (holds : s.slot = some { op := .wipe, requester := r })

include running scrubs holds

theorem scrubBlock_runs :
    exec .scrubBlock s =
      .next (settle s (if scrubEnds s.freeIx s.store.scrubPos then
          releaseSlot (finalReply r .wipe Reply.ok (finishScrub s.useFree))
        else
          { s.useFree with store := { s.store with scrubPos := s.store.scrubPos + 1 } })) := by
  refine (show execScrubBlock s = _ from partEvent_running running).trans
    (congrArg (fun y => Host.Outcome.next (settle s y)) ?_)
  simp only [holds]
  exact if_pos scrubs

theorem scrubBlock_moves (more : scrubEnds s.freeIx s.store.scrubPos = false) :
    exec .scrubBlock s =
      .next { s.useFree with store := { s.store with scrubPos := s.store.scrubPos + 1 } } := by
  rw [scrubBlock_runs running scrubs holds, if_neg (by simp [more])]
  exact congrArg _ (Desk.settle_still rfl rfl rfl rfl rfl)

/-- R199: the last block ends the scrub with the final reply, the slot free. -/
theorem scrubBlock_ends (off : s.settings.autoOpen = false) (last : scrubEnds s.freeIx s.store.scrubPos = true) :
    exec .scrubBlock s =
      .next (settle s (finalReply r .wipe Reply.ok { finishScrub s.useFree with slot := none })) := by
  rw [scrubBlock_runs running scrubs holds, if_pos last]
  exact congrArg (fun y => Host.Outcome.next (settle s y))
    (DeskDay.releaseSlot_finalReply (y := finishScrub s.useFree) off r .wipe Reply.ok)

end

theorem scrubEnds_last {counter position : Nat} (last : 8191 ≤ position) : scrubEnds counter position = true := by
  simp [scrubEnds, lastBlock, last]

end Sys2Proof.Wipe

open Sys2Proof Sys2Proof.Machine Sys2Proof.Wipe

/-- Settles O35: the event of a WIPE in the model's closed form (`wipeEvent_eq`), its lines told apart from the rest
(`linesStand_wiped`); a scrub block by its two branches. -/
theorem wipesEmptyAndScrub : Obligations.WipesEmptyAndScrub := by
  unfold Obligations.WipesEmptyAndScrub
  refine ⟨fun s q hears => ⟨fun held => ?busy, fun free => ?wiped⟩,
    fun s r running off scrubs holds => ?scrub⟩
  case busy => rw [wipe_answers hears, if_pos (Option.isSome_iff_ne_none.mpr held)]
  case wiped =>
    have taken := wipe_answers hears
    rw [free, if_neg (by simp)] at taken
    refine ⟨_, taken, ?_⟩
    have lines := (linesStand_ended q s).trans (linesStand_wiped q s)
    have replied : _ ∈ ((wiped q s).line q.line).sendList := Ledgers.reply_answered q .wipe (Reply.bare .accepted) s _
    have uploaded := fun u => uploadReply_wiped (s := s) (u := u) q
    obtain ⟨y, p, c, state, ⟨v, v', ended⟩, painted, w, w', closed⟩ := wiped_eq q s
    have sessions := session_wipeTables y
    have consoles := console_wiped y
    have shown : ∀ st, s.attended st → ((showStandingAll (wipeTables y)).console st).line1 = fit20 (ascii "WIPED") :=
      fun st attended => line1_wiped (by rw [ended]; exact attended)
    rw [painted] at consoles shown
    subst ended
    generalize wiped q s = t at lines replied uploaded closed ⊢
    subst closed
    refine ⟨rfl, rfl, rfl, rfl, rfl, rfl, fun st => ⟨sessions st, consoles st⟩, shown, rfl, rfl, rfl, rfl,
      rfl, congrArg ([·]) (fillRecord_wiped state.symm rfl rfl rfl), rfl, rfl, rfl, rfl, rfl, rfl, rfl, rfl, rfl, rfl,
      fun l => ?_, replied, uploaded⟩
    simpa only [standing, Prod.mk.injEq] using (lines l).1
  case scrub =>
    refine ⟨?_, fun last => scrubBlock_ends running scrubs holds off (scrubEnds_last last)⟩
    cases ends : scrubEnds s.freeIx s.store.scrubPos with
    | true => exact .inr (scrubBlock_ends running scrubs holds off ends)
    | false => exact .inl (scrubBlock_moves running scrubs holds ends)
end
